-- ==== Sys2Proof/Word.lean ====
section
/-! DEFINITION. The widths the manual treats as bits: bytes of a telegram, feed positions, words of a valve line. -/

namespace Sys2Proof

/-- One byte of a telegram (R191, R210). -/
abbrev Byte := BitVec 8

/-- A feed position: a 32-bit two's-complement count of whole millimetres that wraps at its ends (R4). -/
abbrev Pos := BitVec 32

/-- One word of a valve line (R211), or a CRC (R192). -/
abbrev Word16 := BitVec 16

end Sys2Proof
end

