-- ==== Sys2Proof/Syntax.lean ====
section
/-! DEFINITION. The commands of the part: one constructor of `Instr` for each row of spec/opcode_table.json. -/

namespace Sys2Proof

/-- The two rings, A (roughing) and B (finishing). -/
inductive Ring where
  | a | b
  deriving DecidableEq, Repr

/-- The two channels of a ring: the press channel drives the tools onto the log, the lift channel opens them. -/
inductive Side where
  | press | lift
  deriving DecidableEq, Repr

/-- The four valve channels. -/
inductive Channel where
  | aPress | aLift | bPress | bLift
  deriving DecidableEq, Repr

/-- The three serial ports. -/
inductive Port where
  | scanner | line | panel
  deriving DecidableEq, Repr

/-- The two photocells: the ring-A entry cell and the exit cell. -/
inductive Cell where
  | entry | exit
  deriving DecidableEq, Repr

/-- The levels on the part's discrete input lines at one moment. -/
structure Lines where
  /-- encoder line ENC_1 -/
  enc1 : Bool
  /-- encoder line ENC_2 -/
  enc2 : Bool
  /-- the entry cell's beam is BLOCKED -/
  entryBlocked : Bool
  /-- the exit cell's beam is BLOCKED -/
  exitBlocked : Bool
  /-- the emergency-stop input is ACTIVE -/
  estopActive : Bool
  /-- ring A's rotor-run input is RUNNING -/
  rotorA : Bool
  /-- ring B's rotor-run input is RUNNING -/
  rotorB : Bool
  /-- the key switch stands at ENGINEER -/
  engineer : Bool
  deriving DecidableEq, Repr

/-- The commands, in the order of the table.  A request's command names the port that takes the request of
that kind at the head of its queue; the request's payload stands in the queue as bytes (R193, R194). -/
inductive Instr where
  | powerOn (lines : Lines)
  | telegramReceived (port : Port) (kind : Byte) (payload : List Byte)
  | interByteTimeout (port : Port)
  | telegramSendBegin (port : Port)
  | status (port : Port)
  | profile (port : Port)
  | trackRead (port : Port)
  | speciesSet (port : Port)
  | speciesForce (port : Port)
  | release (port : Port)
  | resume (port : Port)
  | mark (port : Port)
  | mode (port : Port)
  | winter (port : Port)
  | summer (port : Port)
  | recipeWrite (port : Port)
  | recipeRead (port : Port)
  | recipeDelete (port : Port)
  | recipeCommit (port : Port)
  | recipeDiscard (port : Port)
  | manualSet (port : Port)
  | pointRead (port : Port)
  | pointWrite (port : Port)
  | scaleWrite (port : Port)
  | geometryWrite (port : Port)
  | windowArmWrite (port : Port)
  | ceilingWrite (port : Port)
  | setpointPointWrite (port : Port)
  | echoEnableWrite (port : Port)
  | stopOnReleaseWrite (port : Port)
  | markSourceWrite (port : Port)
  | markGateWrite (port : Port)
  | thresholdWrite (port : Port)
  | save (port : Port)
  | saveComplete
  | restart (port : Port)
  | noticeEnable (port : Port)
  | noticeClear (port : Port)
  | noticeRaise (port : Port)
  | encoderChange (enc1 enc2 : Bool)
  | speedUpdate
  | cellRawChange (cell : Cell) (blocked : Bool)
  | cellEdge (cell : Cell)
  | valveFrame
  | deadIntervalExpiry (ring : Ring)
  | echoReceived (channel : Channel) (word : Word16)
  | deviationTimeout (channel : Channel)
  | estopInputChange (active : Bool)
  | estopInactiveTaken
  | rotorInputChange (ring : Ring) (running : Bool)
  | rotorLevelTaken (ring : Ring)
  | keyInputChange (engineer : Bool)
  | keyLevelTaken
  | byteReceived (port : Port) (byte : Byte)
  deriving DecidableEq, Repr

end Sys2Proof
end

