-- ==== Sys2Proof/Decode.lean ====
section
/-! DEFINITION. The command a word of the table spells.  The table gives no row any bits (98_reader.md counts
no row with fixed bits or fields), so no word spells a command. -/

namespace Sys2Proof

/-- The command that `nbits` bits `w`, numbered as the table numbers them, spell: none, for every word. -/
def decodeTableWord (_nbits _w : Nat) : Option Instr := none

end Sys2Proof
end

