-- ==== Sys2Proof/Config.lean ====
section
/-! DEFINITION. The values the manual leaves open, as constants without a body: nothing can be proved of them. -/

namespace Sys2Proof

/-- The lift pressure worked out for a ring that is pressing in RUN or SETUP.  R105 has it evaluated and held;
R102 to R104 state no value for a pressing ring.  DESIGN CHOICE (log 8): a free value, one for each reading of the
counter `State.freeCount`; the user holds it within 0..ceiling, which R104 does state of every lift target. -/
opaque Config.freeLift : Nat → Nat

end Sys2Proof
end

