-- ==== Sys2Proof/Machine/Types.lean ====
section
/-! DEFINITION. The named values and the records the state is built from, as the chapters name them. -/

namespace Sys2Proof.Machine

/-! ### Collections of like things -/

/-- One value for each ring. -/
structure PerRing (α : Type) where
  a : α
  b : α
  deriving DecidableEq, Repr

/-- One value for each valve channel. -/
structure PerChannel (α : Type) where
  aPress : α
  aLift : α
  bPress : α
  bLift : α
  deriving DecidableEq, Repr

/-- One value for each port. -/
structure PerPort (α : Type) where
  scanner : α
  line : α
  panel : α
  deriving DecidableEq, Repr

/-- One value for each cell. -/
structure PerCell (α : Type) where
  entry : α
  exit : α
  deriving DecidableEq, Repr

/-- One value for each mark. -/
structure PerMark (α : Type) where
  m0 : α
  m1 : α
  m2 : α
  m3 : α
  deriving DecidableEq, Repr

/-! ### Named values -/

/-- The direction flag (R5). -/
inductive Dir where
  | fwd | rev
  deriving DecidableEq, Repr

/-- The operating mode (R175). -/
inductive Mode where
  | setup | run | manual
  deriving DecidableEq, Repr

/-- The season (R175). -/
inductive Season where
  | winter | summer
  deriving DecidableEq, Repr

/-- The release levels, in rising order (R155). -/
inductive Level where
  | none | atGap | immediate | estop
  deriving DecidableEq, Repr

/-- The states of a Ring Sequencer (R110). -/
inductive RingState where
  | idle | armed | entry | body | tail | held
  deriving DecidableEq, Repr

/-- The monitor's judgement of a valve channel (R135). -/
inductive ChannelState where
  | ok | deviating | fault | mute
  deriving DecidableEq, Repr

/-- The panel's key level (R197). -/
inductive KeyLevel where
  | operator | engineer
  deriving DecidableEq, Repr

/-- Which end of a log leads. -/
inductive Orientation where
  | buttLeading | topLeading
  deriving DecidableEq, Repr

/-- How a record came to be. -/
inductive Origin where
  | scanned | stray | strayAdopted
  deriving DecidableEq, Repr

/-- Who chose a record's species. -/
inductive SpeciesSource where
  | scanner | line | panelForce | fallbackUnknown | fallbackStray
  deriving DecidableEq, Repr

/-- The outcome of the position check at the entry cell. -/
inductive Realign where
  | notChecked | realigned | unconfirmed
  deriving DecidableEq, Repr

/-- The summary flags of a record, in the order of their bits (11, record flag bits). -/
inductive Flag where
  | buttFlare | diamClamped | samplesHeld | samplesExtra | overlapClamped | clampHigh | clampLow
  | extrap | uncertainMerge | shortGap | releasedDuring | long | exitInferred
  deriving DecidableEq, Repr

/-- The ten notice kinds, in the order of their codes (R200, 11). -/
inductive NoticeKind where
  | logMissing | logWithdrawn | strayLog | trackLost | exitUnmatched | valveFault | releaseChanged
  | swapDone | markOverrun | storeDefaults
  deriving DecidableEq, Repr

/-- The four marks (R165). -/
inductive Mark where
  | m0 | m1 | m2 | m3
  deriving DecidableEq, Repr

/-- The sources a mark may have (R165), in the order of their codes. -/
inductive MarkSource where
  | none | aEntry | aClear | bEntry | bClear | logDone | aSettled | bSettled | release
  deriving DecidableEq, Repr

/-- The result codes of replies (R195). -/
inductive Result where
  | ok | clamped | staged | badFormat | badValue | notPermitted | access | mode | readOnly | noPoint
  | trackFull | unknownLog | tooLate | swapPending | causePresent | busy | noRecord | duplicateLog
  deriving DecidableEq, Repr

/-- The request kinds (R195). -/
inductive Kind where
  | status | profile | trackRead | speciesSet | release | resume | mark | mode | winter | summer
  | recipeWrite | recipeRead | recipeDelete | recipeCommit | recipeDiscard | manualSet | speciesForce
  | point | save | restart | noticeEnable | noticeClear | noticeRaise
  deriving DecidableEq, Repr

/-- The classes of writable points (R198). -/
inductive PointClass where
  | geometry | tuning | operator
  deriving DecidableEq, Repr

/-- The points not of the LIVE class (R212). -/
inductive Point where
  | dA | dAB | cA | dX | scale | latencyComp
  | pressLiftDead | liftPressDead | riseStep | fallStep | ceiling | floor | realignWindow | armDistance
  | blindDiameter | parkLift | releaseLift | stopOnRelease
  | echoEnable (c : Channel)
  | markSource (m : Mark)
  | markGate (m : Mark)
  | confidenceThreshold | frostThreshold
  deriving DecidableEq, Repr

/-- What values a point takes: a numeric range, on or off, or the mark source codes (R199, R212). -/
inductive PointRange where
  | number (lo hi : Int)
  | onOff
  | source
  deriving DecidableEq, Repr

/-- The crossing events of R8's table. -/
inductive EventId where
  | withdrawal
  | entryWindow
  | arm (k : Ring)
  | plane (k : Ring)
  | backOut (k : Ring)
  | entryEnd (k : Ring)
  | sample (k : Ring) (j : Nat)
  | tailAdvance (k : Ring)
  | tailBackIn (k : Ring)
  | tailOut (k : Ring)
  | tailWindow
  deriving DecidableEq, Repr

/-- A crossing event due: the record's key, the event, and where the crossing falls, as its distance from the
front (R9, R10). -/
structure Crossing where
  key : Nat
  id : EventId
  at_ : Int
  deriving DecidableEq, Repr

/-! ### Records -/

/-- A point of a curve: a diameter in mm and a pressure in kPa. -/
structure CurvePoint where
  diam : Nat
  press : Nat
  deriving DecidableEq, Repr

/-- A species record (04, the species record). -/
structure Species where
  code : Nat
  /-- the characters of the name, 1 to 12 (R66) -/
  name : List Byte
  baseCurve : List CurvePoint
  frozenCurve : Option (List CurvePoint)
  frostPct : Nat
  speedGain : Nat
  entryPct : Nat
  entryLen : Nat
  tailPct : Nat
  tailAdv : Nat
  shareA : Nat
  shareB : Nat
  maxPress : Nat
  lift : Nat
  flareRatio : Nat
  flareLift : Nat
  maxFeed : Nat
  frozenFeedPct : Nat
  deriving DecidableEq, Repr

/-- A recipe table: 24 slots, each empty or holding one species record (R63). -/
abbrev Table := List (Option Species)

/-- The bound recipe of a record (R28 to R30). -/
structure Bound where
  species : Species
  fallback : Option Species
  frozen : Bool
  deriving DecidableEq, Repr

/-- A log record (02, the log record).  `key` is the model's own identity for it (log 7). -/
structure Rec where
  key : Nat
  scanId : Nat
  origin : Origin
  species : Nat
  source : SpeciesSource
  confidence : Nat
  surfaceTemp : Option Int
  orientation : Orientation
  /-- absent for an open stray -/
  length : Option Nat
  b0 : Pos
  samples : List Nat
  bound : Option Bound
  realign : Realign
  flags : List Flag
  peakA : Nat
  peakB : Nat
  deriving DecidableEq, Repr

/-- Every point not of the LIVE class (R212). -/
structure Points where
  dA : Nat
  dAB : Nat
  cA : Nat
  dX : Nat
  scale : Nat
  latencyComp : Nat
  pressLiftDead : Nat
  liftPressDead : Nat
  riseStep : Nat
  fallStep : Nat
  ceiling : Nat
  floor : Nat
  realignWindow : Nat
  armDistance : Nat
  blindDiameter : Nat
  parkLift : Nat
  releaseLift : Nat
  stopOnRelease : Bool
  echoEnable : PerChannel Bool
  markSource : PerMark MarkSource
  markGate : PerMark Bool
  confidenceThreshold : Nat
  frostThreshold : Int
  deriving DecidableEq, Repr

/-- The Feed Counter's state (R11). -/
structure Feed where
  /-- the feed position P -/
  pos : Pos
  /-- the count residue r -/
  residue : Nat
  dir : Dir
  /-- the front F -/
  front : Pos
  /-- the measured speed v, mm/s -/
  speed : Int
  /-- the position kept for the next speed measurement -/
  kept : Pos
  /-- the accepted encoder line state (ENC_1, ENC_2) -/
  enc : Bool × Bool
  deriving DecidableEq, Repr

/-- The stamp of a cell candidate: the P and the direction flag that stood when its raw level began (R12). -/
structure Stamp where
  pos : Pos
  dir : Dir
  deriving DecidableEq, Repr

/-- One cell's filter and waiting record (R12, R54, R59). -/
structure CellState where
  /-- the filtered level is BLOCKED -/
  blocked : Bool
  candidate : Option Stamp
  /-- the key of the waiting record -/
  waiting : Option Nat
  deriving DecidableEq, Repr

/-- The open stray the Cell Monitor holds, and its rise stamp (R51). -/
structure OpenStray where
  key : Nat
  rise : Pos
  deriving DecidableEq, Repr

/-- The Setpoint Unit's state for one ring (R85). -/
structure Setpoint where
  pressTarget : Nat
  liftTarget : Nat
  /-- the flags of the last press evaluation (00_scope.md, block diagram) -/
  lastFlags : List Flag
  deriving DecidableEq, Repr

/-- A Ring Sequencer's state (R110).  Records are named by their keys. -/
structure Sequencer where
  state : RingState
  served : Option Nat
  armedFor : Option Nat
  liftReached : Bool
  settled : Bool
  deriving DecidableEq, Repr

/-- One valve channel (R135). -/
structure Chan where
  target : Nat
  command : Nat
  /-- half-kPa, from the latest good echo -/
  measured : Nat
  state : ChannelState
  /-- the deviation timer is running -/
  timer : Bool
  badRun : Nat
  /-- an echo is awaited for the latest frame -/
  wait : Bool
  /-- the command of the latest frame, which an echo is judged against (R146) -/
  sent : Nat
  /-- the word last sent on the valve line (R211) -/
  word : Option Word16
  deriving DecidableEq, Repr

/-- A dead interval in progress: the channel it is run for, and the frames sent since its zero frame
(`none` until the zero frame has been sent) (R137, R138). -/
structure Interval where
  side : Side
  frames : Option Nat
  deriving DecidableEq, Repr

/-- The interlock of one ring (R135). -/
structure Interlock where
  intent : Side
  released : Option Side
  interval : Option Interval
  /-- the model's own: the next frame is the one a power-on sends, at the start's commands (log 9) -/
  hold : Bool
  deriving DecidableEq, Repr

/-- The Valve Line's state (R135). -/
structure Valve where
  chans : PerChannel Chan
  rings : PerRing Interlock
  deriving DecidableEq, Repr

/-- The cause set (R155): each kind at most once, VALVE_FAULT once for each channel; the two requests carry
their levels. -/
structure Causes where
  estop : Bool
  rotor : Bool
  valveFault : PerChannel Bool
  trackLost : Bool
  lineReq : Option Level
  panelReq : Option Level
  deriving DecidableEq, Repr

/-- The causes a block other than a RELEASE raises. -/
inductive Cause where
  | estop
  | rotor
  | valveFault (c : Channel)
  | trackLost
  deriving DecidableEq, Repr

/-- The Release Unit's state (R155, R172). -/
structure Release where
  causes : Causes
  level : Level
  /-- the emergency-stop input is taken as ACTIVE (R157) -/
  estopActive : Bool
  /-- the rotor-run levels taken: RUNNING (R158) -/
  rotorRunning : PerRing Bool
  deriving DecidableEq, Repr

/-- Mode Control's state (R175). -/
structure ModeControl where
  mode : Mode
  season : Season
  manualPress : PerRing Nat
  manualLift : PerRing Nat
  deriving DecidableEq, Repr

/-- The Recipe Table (R63, R74). -/
structure Recipes where
  active : Table
  shadow : Table
  swapPending : Bool
  deriving DecidableEq, Repr

/-- A request in a port's queue: its kind byte, its payload and the feed position held when its last byte
arrived (R193). -/
structure Req where
  kind : Byte
  payload : List Byte
  arrival : Pos
  deriving DecidableEq, Repr

/-- What waits in a port's output list (R196): a telegram of fixed content, the one waiting ADVISE with its
value, or a NOTICE due, whose listing is formed when it begins to be sent. -/
inductive OutItem where
  | telegram (kind : Byte) (payload : List Byte)
  | advise (limit : Nat)
  | noticeDue
  deriving DecidableEq, Repr

/-- A receiver: hunting for a start byte, or holding the bytes taken since the start byte (R191). -/
inductive Receiver where
  | hunting
  | framing (taken : List Byte)
  deriving DecidableEq, Repr

/-- One port's state (R209). -/
structure PortState where
  receiver : Receiver
  queue : List Req
  out : List OutItem
  /-- the notice status set -/
  status : List NoticeKind
  /-- the notice enable set -/
  enable : List NoticeKind
  /-- the bytes of the telegram last begun to be sent -/
  sending : List Byte
  deriving DecidableEq, Repr

/-- What the Settings Store's image contains (R205). -/
structure Image where
  points : Points
  table : Table
  season : Season
  deriving DecidableEq, Repr

/-- The Settings Store (R205, R206). -/
structure Store where
  image : Option Image
  /-- the image is closed by a CRC that matches: its last write ran to completion -/
  closed : Bool
  /-- the snapshot of a SAVE whose write is in flight -/
  snapshot : Option Image
  deriving DecidableEq, Repr

end Sys2Proof.Machine
end

