-- ==== Sys2Proof/Machine/Factory.lean ====
section
/-! DEFINITION. The factory values: the point defaults (R212), the factory fallback record (R68), the default
notice enable sets (R200). -/

namespace Sys2Proof.Machine

/-- Every point at its default (R207, R212). -/
def factoryPoints : Points where
  dA := 4200
  dAB := 1600
  cA := 250
  dX := 900
  scale := 10000
  latencyComp := 60
  pressLiftDead := 60
  liftPressDead := 80
  riseStep := 15
  fallStep := 40
  ceiling := 700
  floor := 40
  realignWindow := 150
  armDistance := 400
  blindDiameter := 350
  parkLift := 120
  releaseLift := 200
  stopOnRelease := false
  echoEnable := ⟨true, true, true, true⟩
  markSource := ⟨.none, .none, .none, .none⟩
  markGate := ⟨false, false, false, false⟩
  confidenceThreshold := 70
  frostThreshold := -2

/-- The name FALLBACK in character codes. -/
def factoryFallbackName : List Byte := [0x46, 0x41, 0x4C, 0x4C, 0x42, 0x41, 0x43, 0x4B]

/-- The factory fallback record (R68). -/
def factoryFallback : Species where
  code := 0
  name := factoryFallbackName
  baseCurve := [⟨100, 150⟩, ⟨900, 300⟩]
  frozenCurve := none
  frostPct := 120
  speedGain := 40
  entryPct := 60
  entryLen := 400
  tailPct := 60
  tailAdv := 300
  shareA := 100
  shareB := 80
  maxPress := 450
  lift := 200
  flareRatio := 125
  flareLift := 80
  maxFeed := 900
  frozenFeedPct := 70

/-- The factory recipe table: the fallback in slot 0, slots 1..23 empty (R68). -/
def factoryTable : Table := some factoryFallback :: List.replicate 23 none

/-- What a start without a valid image loads (R207). -/
def factoryImage : Image where
  points := factoryPoints
  table := factoryTable
  season := .winter

/-- The ten notice kinds in the order of their codes. -/
def NoticeKind.all : List NoticeKind :=
  [.logMissing, .logWithdrawn, .strayLog, .trackLost, .exitUnmatched, .valveFault, .releaseChanged,
   .swapDone, .markOverrun, .storeDefaults]

/-- The default enable sets (R200). -/
def defaultEnable : Port → List NoticeKind
  | .scanner => [.logMissing, .logWithdrawn, .strayLog]
  | .line =>
      [.logMissing, .logWithdrawn, .strayLog, .trackLost, .exitUnmatched, .valveFault, .releaseChanged,
       .markOverrun]
  | .panel => NoticeKind.all

end Sys2Proof.Machine
end

