-- ==== Sys2Proof/Machine/State.lean ====
section
/-! DEFINITION. The state of the part, the reasons a command could stop (none does), and the state after reset. -/

namespace Sys2Proof.Machine

/-- Why the machine could stop with a fault.  It has no constructor: no command of the part stops it, and the
part's own faults (VALVE_FAULT, TRACK_LOST, ESTOP, ROTOR) are release causes held in the state (R155). -/
inductive Fault where
  deriving DecidableEq, Repr

/-- Why a command could be refused a meaning. -/
inductive Refusal where
  /-- No meaning yet for the command of this mnemonic.  Raised by no arm of `exec`; safe. -/
  | notModelled (mnemonic : String)
  deriving DecidableEq, Repr

/-- Everything the spec gives the part, one field for each block of the block diagram, and the model's own
fields at the end. -/
structure State where
  /-- the levels last seen on the discrete input lines -/
  lines : Lines
  points : Points
  feed : Feed
  /-- the log records, the most downstream first (R17) -/
  track : List Rec
  /-- the last value sent in ADVISE (R43) -/
  lastAdvise : Nat
  cells : PerCell CellState
  openStray : Option OpenStray
  recipes : Recipes
  setpoint : PerRing Setpoint
  ring : PerRing Sequencer
  valve : Valve
  release : Release
  /-- the mark states: SET (R165) -/
  marks : PerMark Bool
  /-- the FEED_PERMIT output is on (R169) -/
  permit : Bool
  control : ModeControl
  ports : PerPort PortState
  /-- the key level last taken (R197) -/
  key : KeyLevel
  store : Store
  /-- the model's own: the next record's key (log 7) -/
  nextKey : Nat
  /-- the model's own: the counter the free values read (log 8) -/
  freeCount : Nat
  /-- the model's own: the commands waiting, first in first out -/
  pending : List Instr
  deriving DecidableEq, Repr

/-- The input lines at reset (log 2, DESIGN CHOICE): encoder at step 1 of its cycle, both beams CLEAR, the
emergency stop INACTIVE, both rotors RUNNING, the key at OPERATOR. -/
def resetLines : Lines where
  enc1 := false
  enc2 := false
  entryBlocked := false
  exitBlocked := false
  estopActive := false
  rotorA := true
  rotorB := true
  engineer := false

/-- A valve channel right after a power-on, with the target its ring's IDLE intent leaves it (R133, R153). -/
def resetChan (target : Nat) : Chan where
  target := target
  command := 0
  measured := 0
  state := .ok
  timer := false
  badRun := 0
  wait := false
  sent := 0
  word := none

/-- The interlock of a ring right after a power-on (R153). -/
def resetInterlock : Interlock where
  intent := .lift
  released := some .lift
  interval := none
  hold := true

/-- A sequencer right after a start (R133). -/
def resetSequencer : Sequencer where
  state := .idle
  served := none
  armedFor := none
  liftReached := false
  settled := false

/-- A port right after a power-on that loaded the factory defaults: STORE_DEFAULTS has joined its status set
(R207, R209). -/
def resetPort (p : Port) (out : List OutItem) : PortState where
  receiver := .hunting
  queue := []
  out := out
  status := [.storeDefaults]
  enable := defaultEnable p
  sending := []

/-- The part right after a power-on with a Settings Store never written (R207 and each block's power-on
values), the lines standing as `resetLines` has them. -/
def State.reset : State where
  lines := resetLines
  points := factoryPoints
  feed := { pos := 0, residue := 0, dir := .fwd, front := 0, speed := 0, kept := 0, enc := (false, false) }
  track := []
  lastAdvise := 2000
  cells := ⟨⟨false, none, none⟩, ⟨false, none, none⟩⟩
  openStray := none
  recipes := { active := factoryTable, shadow := factoryTable, swapPending := false }
  setpoint := ⟨⟨0, 120, []⟩, ⟨0, 120, []⟩⟩
  ring := ⟨resetSequencer, resetSequencer⟩
  valve :=
    { chans := ⟨resetChan 0, resetChan 120, resetChan 0, resetChan 120⟩
      rings := ⟨resetInterlock, resetInterlock⟩ }
  release :=
    { causes :=
        { estop := false, rotor := false, valveFault := ⟨false, false, false, false⟩, trackLost := false
          lineReq := none, panelReq := none }
      level := .none
      estopActive := false
      rotorRunning := ⟨true, true⟩ }
  marks := ⟨false, false, false, false⟩
  permit := true
  control :=
    { mode := .setup, season := .winter, manualPress := ⟨0, 0⟩, manualLift := ⟨0, 0⟩ }
  ports := ⟨resetPort .scanner [], resetPort .line [], resetPort .panel [.noticeDue]⟩
  key := .operator
  store := { image := none, closed := false, snapshot := none }
  nextKey := 0
  freeCount := 0
  pending := []

end Sys2Proof.Machine
end

