-- ==== Sys2Proof/Machine/Ops.lean ====
section
/-! DEFINITION. The named operations over the state's collections, over positions and over the record list. -/

namespace Sys2Proof

/-! ### Channels and rings -/

/-- The four channels, in the channel order of R162. -/
def Channel.all : List Channel := [.aPress, .aLift, .bPress, .bLift]

/-- The ring a channel belongs to. -/
def Channel.ring : Channel → Ring
  | .aPress | .aLift => .a
  | .bPress | .bLift => .b

/-- The side of its ring a channel drives. -/
def Channel.side : Channel → Side
  | .aPress | .bPress => .press
  | .aLift | .bLift => .lift

/-- A ring's other channel. -/
def Side.partner : Side → Side
  | .press => .lift
  | .lift => .press

end Sys2Proof

namespace Sys2Proof.Machine

/-! ### Reading and changing one of a collection -/

def PerRing.get {α : Type} (p : PerRing α) : Ring → α
  | .a => p.a
  | .b => p.b

def PerRing.modify {α : Type} (p : PerRing α) (k : Ring) (f : α → α) : PerRing α :=
  match k with
  | .a => { p with a := f p.a }
  | .b => { p with b := f p.b }

def PerChannel.get {α : Type} (p : PerChannel α) : Channel → α
  | .aPress => p.aPress
  | .aLift => p.aLift
  | .bPress => p.bPress
  | .bLift => p.bLift

def PerChannel.modify {α : Type} (p : PerChannel α) (c : Channel) (f : α → α) : PerChannel α :=
  match c with
  | .aPress => { p with aPress := f p.aPress }
  | .aLift => { p with aLift := f p.aLift }
  | .bPress => { p with bPress := f p.bPress }
  | .bLift => { p with bLift := f p.bLift }

/-- The same change at every channel. -/
def PerChannel.map {α β : Type} (p : PerChannel α) (f : α → β) : PerChannel β :=
  ⟨f p.aPress, f p.aLift, f p.bPress, f p.bLift⟩

def PerPort.get {α : Type} (p : PerPort α) : Port → α
  | .scanner => p.scanner
  | .line => p.line
  | .panel => p.panel

def PerPort.modify {α : Type} (p : PerPort α) (k : Port) (f : α → α) : PerPort α :=
  match k with
  | .scanner => { p with scanner := f p.scanner }
  | .line => { p with line := f p.line }
  | .panel => { p with panel := f p.panel }

/-- The same change at every port. -/
def PerPort.map {α β : Type} (p : PerPort α) (f : α → β) : PerPort β :=
  ⟨f p.scanner, f p.line, f p.panel⟩

def PerCell.get {α : Type} (p : PerCell α) : Cell → α
  | .entry => p.entry
  | .exit => p.exit

def PerCell.modify {α : Type} (p : PerCell α) (c : Cell) (f : α → α) : PerCell α :=
  match c with
  | .entry => { p with entry := f p.entry }
  | .exit => { p with exit := f p.exit }

def PerMark.get {α : Type} (p : PerMark α) : Mark → α
  | .m0 => p.m0
  | .m1 => p.m1
  | .m2 => p.m2
  | .m3 => p.m3

def PerMark.modify {α : Type} (p : PerMark α) (m : Mark) (f : α → α) : PerMark α :=
  match m with
  | .m0 => { p with m0 := f p.m0 }
  | .m1 => { p with m1 := f p.m1 }
  | .m2 => { p with m2 := f p.m2 }
  | .m3 => { p with m3 := f p.m3 }

/-- The four marks. -/
def Mark.all : List Mark := [.m0, .m1, .m2, .m3]

/-- The channel of a ring on a side. -/
def channelOf : Ring → Side → Channel
  | .a, .press => .aPress
  | .a, .lift => .aLift
  | .b, .press => .bPress
  | .b, .lift => .bLift

/-- The levels in rising order (R155). -/
def Level.rank : Level → Nat
  | .none => 0
  | .atGap => 1
  | .immediate => 2
  | .estop => 3

/-- The higher of two levels. -/
def Level.max (x y : Level) : Level := if x.rank < y.rank then y else x

/-- The pressing states ENTRY, BODY and TAIL (R109). -/
def RingState.pressing : RingState → Bool
  | .entry | .body | .tail => true
  | _ => false

/-! ### Numbers -/

/-- Held within lo..hi (00_scope.md, Ranges): below lo is taken as lo, above hi as hi. -/
def heldWithin (lo hi x : Int) : Int := if x < lo then lo else if hi < x then hi else x

/-- Held within lo..hi, over naturals. -/
def heldNat (lo hi x : Nat) : Nat := if x < lo then lo else if hi < x then hi else x

/-- The quotient rounded to the nearest integer, a half away from zero (R86). -/
def roundDiv (a : Int) (b : Nat) : Int :=
  if 0 ≤ a then ((2 * a.toNat + b) / (2 * b) : Nat)
  else -(((2 * (-a).toNat + b) / (2 * b) : Nat) : Int)

/-- The rounded quotient of naturals (R86). -/
def roundDivNat (a b : Nat) : Nat := (2 * a + b) / (2 * b)

/-- ceil(length / 200), the expected sample count of a log (R22). -/
def sampleCount (length : Nat) : Nat := (length + 199) / 200

/-! ### Positions -/

/-- The difference of two positions, modulo 2^32 and read as a signed number (R4). -/
def posDiff (x y : Pos) : Int := (x - y).toInt

/-- The position a distance downstream of a position, modulo 2^32 (R4). -/
def posAdd (p : Pos) (d : Int) : Pos := p + BitVec.ofInt 32 d

/-- D_k, the distance of ring k's plane from the scanner line. -/
def Points.planeOf (pts : Points) : Ring → Int
  | .a => pts.dA
  | .b => (pts.dA : Int) + pts.dAB

/-- The entry cell's distance from the scanner line, D_A − C_A. -/
def Points.entryCell (pts : Points) : Int := (pts.dA : Int) - pts.cA

/-- The exit cell's distance from the scanner line, D_A + D_AB + D_X. -/
def Points.exitCell (pts : Points) : Int := (pts.dA : Int) + pts.dAB + pts.dX

/-- A record's front distance F − B0 (R8). -/
def frontDist (s : State) (r : Rec) : Int := posDiff s.feed.front r.b0

/-- A record's distance P − B0 (R4). -/
def leadDist (s : State) (r : Rec) : Int := posDiff s.feed.pos r.b0

/-- The end of a record's span (R17): B0 + length, or for an open stray the entry cell's present track position
P − (D_A − C_A), held at B0 + 1 or above. -/
def spanEnd (pts : Points) (pos : Pos) (r : Rec) : Pos :=
  match r.length with
  | some len => posAdd r.b0 len
  | none =>
    let cell := posAdd pos (-pts.entryCell)
    if posDiff cell r.b0 < 1 then posAdd r.b0 1 else cell

/-- A log that lies d downstream of the scanner line covers the point x (00_scope.md, Log geometry): x ≤ d < x + length; an open
stray once d is at or past x. -/
def reaches (x d : Int) (length : Option Nat) : Bool :=
  decide (x ≤ d) &&
    match length with
    | some len => decide (d < x + len)
    | none => true

/-- A record covers ring k's plane, read on P (R42, R177). -/
def covers (s : State) (k : Ring) (r : Rec) : Bool := reaches (s.points.planeOf k) (leadDist s r) r.length

/-- A record stands in the plane of ring k, read on the front distance (R109). -/
def standsIn (s : State) (k : Ring) (r : Rec) : Bool := reaches (s.points.planeOf k) (frontDist s r) r.length

/-- A record waits at ring k (R109). -/
def waitsAt (s : State) (k : Ring) (r : Rec) : Bool :=
  decide (s.points.planeOf k - s.points.armDistance ≤ frontDist s r) &&
    decide (frontDist s r < s.points.planeOf k)

/-! ### The record list -/

/-- The record of a key, if it is present. -/
def State.rec? (s : State) (key : Nat) : Option Rec := s.track.find? (fun r => r.key == key)

/-- Change the record of a key, if it is present. -/
def State.onRec (s : State) (key : Nat) (f : Rec → Rec) : State :=
  { s with track := s.track.map (fun r => if r.key == key then f r else r) }

/-- The first unbound record: the most downstream record whose bound is absent. -/
def State.firstUnbound (s : State) : Option Rec := s.track.find? (fun r => r.bound.isNone)

/-- The record standing in ring k's plane, if one does (R109). -/
def State.standing (s : State) (k : Ring) : Option Rec := s.track.find? (standsIn s k)

/-- The first waiting record at ring k (R109). -/
def State.firstWaiting (s : State) (k : Ring) : Option Rec := s.track.find? (waitsAt s k)

/-! ### Recipe tables -/

/-- The record of a code in a table, if a slot holds it (R63). -/
def Table.lookup (t : Table) (code : Nat) : Option Species :=
  (t.find? (fun slot => match slot with
    | some r => r.code == code
    | none => false)).join

/-- The fallback record in slot 0 (R64).  Slot 0 is never empty; the factory record stands for it where a table
breaks that. -/
def Table.fallback (t : Table) : Species :=
  match t with
  | some r :: _ => r
  | _ => factoryFallback

/-- The species record a binding of a code copies: the code's, or the fallback where the code is absent (R29). -/
def Table.recipeFor (t : Table) (code : Nat) : Species := (t.lookup code).getD t.fallback

/-! ### One block's part of the state at a time -/

def State.onSeq (s : State) (k : Ring) (f : Sequencer → Sequencer) : State :=
  { s with ring := s.ring.modify k f }

def State.onSetpoint (s : State) (k : Ring) (f : Setpoint → Setpoint) : State :=
  { s with setpoint := s.setpoint.modify k f }

def State.onChan (s : State) (c : Channel) (f : Chan → Chan) : State :=
  { s with valve := { s.valve with chans := s.valve.chans.modify c f } }

def State.onInterlock (s : State) (k : Ring) (f : Interlock → Interlock) : State :=
  { s with valve := { s.valve with rings := s.valve.rings.modify k f } }

def State.onPort (s : State) (p : Port) (f : PortState → PortState) : State :=
  { s with ports := s.ports.modify p f }

def State.onCell (s : State) (c : Cell) (f : CellState → CellState) : State :=
  { s with cells := s.cells.modify c f }

/-- The state of ring k's sequencer. -/
def State.ringState (s : State) (k : Ring) : RingState := (s.ring.get k).state

/-- The ring target: the press target while the ring presses, else the lift target (R85). -/
def State.ringTarget (s : State) (k : Ring) : Nat :=
  if (s.ringState k).pressing then (s.setpoint.get k).pressTarget else (s.setpoint.get k).liftTarget

end Sys2Proof.Machine
end

