-- ==== Sys2Proof/Machine/Flags.lean ====
section
/-! DEFINITION. The sets the part holds (record flags, notice kinds, release causes) and their bits and codes. -/

namespace Sys2Proof.Machine

/-! ### Record flags -/

/-- The thirteen flags in the order of their bits. -/
def Flag.all : List Flag :=
  [.buttFlare, .diamClamped, .samplesHeld, .samplesExtra, .overlapClamped, .clampHigh, .clampLow, .extrap,
   .uncertainMerge, .shortGap, .releasedDuring, .long, .exitInferred]

/-- A flag set with more flags in it; each flag is held once, in the order of the bits (R32). -/
def addFlags (more set : List Flag) : List Flag := Flag.all.filter (fun f => set.contains f || more.contains f)

/-- Add flags to a record. -/
def Rec.flag (r : Rec) (more : List Flag) : Rec := { r with flags := addFlags more r.flags }

/-- The bits of members of a list, lowest first. -/
def bitsOf : List Bool → Nat
  | [] => 0
  | b :: rest => b.toNat + 2 * bitsOf rest

/-- The flag set as its two bytes carry it (11, record flag bits). -/
def flagBits (set : List Flag) : Nat := bitsOf (Flag.all.map set.contains)

/-! ### Notice kinds -/

def NoticeKind.code : NoticeKind → Nat
  | .logMissing => 0
  | .logWithdrawn => 1
  | .strayLog => 2
  | .trackLost => 3
  | .exitUnmatched => 4
  | .valveFault => 5
  | .releaseChanged => 6
  | .swapDone => 7
  | .markOverrun => 8
  | .storeDefaults => 9

def NoticeKind.ofCode (n : Nat) : Option NoticeKind := NoticeKind.all[n]?

/-- A notice set with a kind added; each kind is held once, in the order of the codes (R200). -/
def addKind (k : NoticeKind) (set : List NoticeKind) : List NoticeKind :=
  NoticeKind.all.filter (fun x => x == k || set.contains x)

/-! ### Release causes -/

/-- The empty cause set. -/
def Causes.empty : Causes where
  estop := false
  rotor := false
  valveFault := ⟨false, false, false, false⟩
  trackLost := false
  lineReq := none
  panelReq := none

/-- Which entries are present, in the order of their codes, which is the order of R155's table with the
VALVE_FAULT entries in channel order. -/
def Causes.members (c : Causes) : List Bool :=
  [c.estop, c.rotor, c.valveFault.aPress, c.valveFault.aLift, c.valveFault.bPress, c.valveFault.bLift,
   c.trackLost, c.lineReq.isSome, c.panelReq.isSome]

/-- The codes of the entries present, ascending (11, release cause codes). -/
def Causes.codes (c : Causes) : List Nat :=
  ((List.range 9).zip c.members).filterMap (fun x => if x.2 then some x.1 else none)

/-- The release causes point: bit c for each present cause of code c (R212). -/
def Causes.bits (c : Causes) : Nat := bitsOf c.members

/-- The set is empty. -/
def Causes.isEmpty (c : Causes) : Bool := c.members.all (fun b => !b)

/-- The highest level among the entries present, NONE when there is none (R155). -/
def Causes.level (c : Causes) : Level :=
  let fixed : Level :=
    if c.estop then .estop
    else if c.rotor || c.valveFault.aPress || c.valveFault.aLift || c.valveFault.bPress || c.valveFault.bLift
    then .immediate
    else if c.trackLost then .atGap
    else .none
  (fixed.max (c.lineReq.getD .none)).max (c.panelReq.getD .none)

/-- Whether a cause's entry is present. -/
def Causes.has (c : Causes) : Cause → Bool
  | .estop => c.estop
  | .rotor => c.rotor
  | .valveFault ch => c.valveFault.get ch
  | .trackLost => c.trackLost

/-- The set with a cause's entry in it; an entry already present stays as it is (R155). -/
def Causes.add (c : Causes) : Cause → Causes
  | .estop => { c with estop := true }
  | .rotor => { c with rotor := true }
  | .valveFault ch => { c with valveFault := c.valveFault.modify ch (fun _ => true) }
  | .trackLost => { c with trackLost := true }

/-- The set after a RESUME: every entry whose end condition holds has left it (R155, R162). -/
def Causes.resumed (c : Causes) (estopActive rotorsRunning trackFull : Bool) : Causes where
  estop := c.estop && estopActive
  rotor := c.rotor && !rotorsRunning
  valveFault := ⟨false, false, false, false⟩
  trackLost := c.trackLost && trackFull
  lineReq := none
  panelReq := none

/-! ### Marks -/

/-- The mark states as bits: bit j for Mj in state SET (R212). -/
def markBits (m : PerMark Bool) : Nat := bitsOf [m.m0, m.m1, m.m2, m.m3]

end Sys2Proof.Machine
end

