-- ==== Sys2Proof/WellFormed.lean ====
section
/-! DEFINITION. Which commands are well formed: a telegram's payload is at most 240 bytes, since a length byte
above 240 never frames a telegram (R191).  Every other operand is total over its type. -/

namespace Sys2Proof

/-- The longest payload a telegram can carry (R191, R210). -/
def maxPayload : Nat := 240

/-- A command whose operands the outside world can present. -/
def Instr.wellFormed : Instr → Bool
  | .telegramReceived _ _ payload => decide (payload.length ≤ maxPayload)
  | _ => true

end Sys2Proof
end

