-- ==== Sys2Proof/Machine/Operands.lean ====
section
/-! DEFINITION. What telegrams carry: the CRC, the byte order, the codes of kinds, results and values, the
payload layouts of requests, the species record's layout, and the point directory (R192, R210, R212). -/

namespace Sys2Proof

/-! ### The codes of ports and rings (11) -/

def Port.code : Port → Nat
  | .scanner => 0
  | .line => 1
  | .panel => 2

def Port.ofCode : Nat → Option Port
  | 0 => some .scanner
  | 1 => some .line
  | 2 => some .panel
  | _ => none

def Ring.ofCode : Nat → Option Ring
  | 0 => some .a
  | 1 => some .b
  | _ => none

end Sys2Proof

namespace Sys2Proof.Machine

/-! ### The CRC (R192) -/

/-- One bit of the CRC: the polynomial 0x1021, most significant bit first. -/
def crcBit (c : Word16) : Word16 := if c.msb then (c <<< 1) ^^^ 0x1021 else c <<< 1

/-- One byte of the CRC. -/
def crcByte (c : Word16) (b : Byte) : Word16 :=
  crcBit (crcBit (crcBit (crcBit (crcBit (crcBit (crcBit (crcBit (c ^^^ (b.setWidth 16 <<< 8)))))))))

/-- The CRC-16 over bytes: initial value 0xFFFF, no final inversion (R192). -/
def crc16 (bytes : List Byte) : Word16 := bytes.foldl crcByte 0xFFFF

/-! ### Byte order (R210): most significant byte first -/

/-- One byte of a number. -/
def byte (n : Nat) : Byte := BitVec.ofNat 8 n

/-- A two-byte field. -/
def bytes16 (n : Nat) : List Byte := [byte (n / 256), byte n]

/-- A four-byte field. -/
def bytes32 (w : BitVec 32) : List Byte :=
  [byte (w.toNat / 16777216), byte (w.toNat / 65536), byte (w.toNat / 256), byte w.toNat]

/-- A signed number in four bytes of two's complement. -/
def bytesInt32 (i : Int) : List Byte := bytes32 (BitVec.ofInt 32 i)

/-- The unsigned byte at an offset. -/
def u8 (p : List Byte) (i : Nat) : Nat := (p.getD i 0).toNat

/-- The unsigned two-byte field at an offset. -/
def u16 (p : List Byte) (i : Nat) : Nat := 256 * u8 p i + u8 p (i + 1)

/-- The signed byte at an offset. -/
def s8 (p : List Byte) (i : Nat) : Int := (p.getD i 0).toInt

/-- The signed four-byte field at an offset. -/
def s32 (p : List Byte) (i : Nat) : Int := (BitVec.ofNat 32 (65536 * u16 p i + u16 p (i + 2))).toInt

/-- A telegram as its bytes on the line: start byte, length, kind, payload, CRC high byte first (11, the telegram
frame). -/
def frameBytes (kind : Byte) (payload : List Byte) : List Byte :=
  let body := byte payload.length :: kind :: payload
  0xA5 :: body ++ bytes16 (crc16 body).toNat

/-! ### Codes (11) -/

def Kind.code : Kind → Nat
  | .status => 0x01
  | .profile => 0x10
  | .trackRead => 0x20
  | .speciesSet => 0x21
  | .release => 0x22
  | .resume => 0x23
  | .mark => 0x24
  | .mode => 0x30
  | .winter => 0x31
  | .summer => 0x32
  | .recipeWrite => 0x33
  | .recipeRead => 0x34
  | .recipeDelete => 0x35
  | .recipeCommit => 0x36
  | .recipeDiscard => 0x37
  | .manualSet => 0x38
  | .speciesForce => 0x39
  | .point => 0x3A
  | .save => 0x3B
  | .restart => 0x3C
  | .noticeEnable => 0x3D
  | .noticeClear => 0x3E
  | .noticeRaise => 0x3F

def Kind.all : List Kind :=
  [.status, .profile, .trackRead, .speciesSet, .release, .resume, .mark, .mode, .winter, .summer, .recipeWrite,
   .recipeRead, .recipeDelete, .recipeCommit, .recipeDiscard, .manualSet, .speciesForce, .point, .save, .restart,
   .noticeEnable, .noticeClear, .noticeRaise]

/-- The request kind of a kind byte, if it is one (R194 check 1). -/
def Kind.ofByte (b : Byte) : Option Kind := Kind.all.find? (fun k => k.code == b.toNat)

/-- The kind byte of a NOTICE. -/
def noticeByte : Byte := 0x50
/-- The kind byte of a LOG_DONE. -/
def logDoneByte : Byte := 0x51
/-- The kind byte of an ADVISE. -/
def adviseByte : Byte := 0x52

/-- The kind byte of the reply to a request: the request's plus 0x80 (R194). -/
def replyByte (kind : Byte) : Byte := kind + 0x80

def Result.code : Result → Nat
  | .ok => 0x00
  | .clamped => 0x01
  | .staged => 0x02
  | .badFormat => 0x10
  | .badValue => 0x11
  | .notPermitted => 0x12
  | .access => 0x13
  | .mode => 0x14
  | .readOnly => 0x15
  | .noPoint => 0x16
  | .trackFull => 0x20
  | .unknownLog => 0x21
  | .tooLate => 0x22
  | .swapPending => 0x23
  | .causePresent => 0x24
  | .busy => 0x25
  | .noRecord => 0x26
  | .duplicateLog => 0x27

def Mode.code : Mode → Nat
  | .setup => 0
  | .run => 1
  | .manual => 2

def Mode.ofCode : Nat → Option Mode
  | 0 => some .setup
  | 1 => some .run
  | 2 => some .manual
  | _ => none

def Season.code : Season → Nat
  | .winter => 0
  | .summer => 1

def RingState.code : RingState → Nat
  | .idle => 0
  | .armed => 1
  | .entry => 2
  | .body => 3
  | .tail => 4
  | .held => 5

def ChannelState.code : ChannelState → Nat
  | .ok => 0
  | .deviating => 1
  | .fault => 2
  | .mute => 3

def Dir.code : Dir → Nat
  | .fwd => 0
  | .rev => 1

def KeyLevel.code : KeyLevel → Nat
  | .operator => 0
  | .engineer => 1

def Orientation.ofCode : Nat → Option Orientation
  | 0 => some .buttLeading
  | 1 => some .topLeading
  | _ => none

def Origin.code : Origin → Nat
  | .scanned => 0
  | .stray => 1
  | .strayAdopted => 2

def SpeciesSource.code : SpeciesSource → Nat
  | .scanner => 0
  | .line => 1
  | .panelForce => 2
  | .fallbackUnknown => 3
  | .fallbackStray => 4

def Realign.code : Realign → Nat
  | .notChecked => 0
  | .realigned => 1
  | .unconfirmed => 2

/-- The mark sources in the order of their codes. -/
def MarkSource.all : List MarkSource :=
  [.none, .aEntry, .aClear, .bEntry, .bClear, .logDone, .aSettled, .bSettled, .release]

def MarkSource.ofCode (n : Nat) : Option MarkSource := MarkSource.all[n]?

def MarkSource.code : MarkSource → Nat
  | .none => 0
  | .aEntry => 1
  | .aClear => 2
  | .bEntry => 3
  | .bClear => 4
  | .logDone => 5
  | .aSettled => 6
  | .bSettled => 7
  | .release => 8

/-- The level a RELEASE names: AT_GAP or IMMEDIATE (R160). -/
def releaseLevelOf : Nat → Option Level
  | 1 => some .atGap
  | 2 => some .immediate
  | _ => none

/-! ### Sets in requests (R210) -/

/-- `k` one-byte codes from an offset. -/
def codesAt (p : List Byte) (i k : Nat) : List Nat := ((p.drop i).take k).map BitVec.toNat

/-- The notice kinds of a set of codes, or none where a code names no kind (R201 to R203). -/
def kindsOf (codes : List Nat) : Option (List NoticeKind) := codes.mapM NoticeKind.ofCode

/-- The marks of a set of mark numbers, or none where one is above 3 (R210). -/
def marksOf (numbers : List Nat) : Option (List Mark) := numbers.mapM (fun n => Mark.all[n]?)

/-! ### Payload layouts (11, request payloads) -/

/-- The payload length equals the one the kind's layout gives, counting the lists its own counts declare, and a
POINT carries a value exactly when its address is a write address (R194 check 3). -/
def layoutFits (k : Kind) (p : List Byte) : Bool :=
  let n := p.length
  match k with
  | .status | .trackRead | .resume | .winter | .summer | .recipeCommit | .recipeDiscard | .save | .restart =>
      n == 0
  | .profile => n == 10 + 2 * u8 p 9
  | .speciesSet => n == 3
  | .speciesForce | .release | .mode | .recipeDelete => n == 1
  | .mark => n == 2 + u8 p 1
  | .manualSet => n == 5
  | .recipeWrite => n == 44 + 4 * (u8 p 14 + u8 p (15 + 4 * u8 p 14))
  | .recipeRead => n == 2
  | .point => if u16 p 0 % 2 == 0 then n == 2 else n == 6
  | .noticeEnable | .noticeRaise => n == 2 + u8 p 1
  | .noticeClear => n == 1 + u8 p 0

/-- What a PROFILE carries (02, PROFILE; 11). -/
structure ProfileData where
  scanId : Nat
  species : Nat
  confidence : Nat
  orientation : Nat
  surfaceTemp : Option Int
  length : Nat
  samples : List Nat
  deriving DecidableEq, Repr

/-- `c` two-byte fields from an offset. -/
def words16At (p : List Byte) (i : Nat) : Nat → List Nat
  | 0 => []
  | c + 1 => u16 p i :: words16At p (i + 2) c

/-- Read a PROFILE's payload; the surface temperature's marker is read leniently, 0 absent and any other value
present (R210). -/
def readProfile (p : List Byte) : ProfileData where
  scanId := u16 p 0
  species := u8 p 2
  confidence := u8 p 3
  orientation := u8 p 4
  surfaceTemp := if u8 p 5 = 0 then none else some (s8 p 6)
  length := u16 p 7
  samples := words16At p 10 (u8 p 9)

/-! ### The species record (11) -/

/-- `m` curve points from an offset. -/
def curveAt (p : List Byte) (i : Nat) : Nat → List CurvePoint
  | 0 => []
  | m + 1 => ⟨u16 p i, u16 p (i + 2)⟩ :: curveAt p (i + 4) m

/-- The characters of a name field: those before its first 0 (R210). -/
def nameChars (field : List Byte) : List Byte := field.takeWhile (fun b => b != 0)

/-- A name field is well formed: 1 to 12 printable characters, one at least other than the space, and nothing
but 0 after the first 0 (R66, R210). -/
def nameFits (field : List Byte) : Bool :=
  let chars := nameChars field
  !chars.isEmpty && decide (chars.length ≤ 12) &&
    (field.drop chars.length).all (fun b => b == 0) &&
    chars.all (fun b => decide (32 ≤ b.toNat ∧ b.toNat ≤ 126)) &&
    chars.any (fun b => b != 32)

/-- The 12-byte name field of a record in a payload, the record beginning at an offset. -/
def nameField (p : List Byte) (i : Nat) : List Byte := (p.drop (i + 1)).take 12

/-- Read a species record that begins at an offset, as sent: no check and no clamp made (11). -/
def readSpecies (p : List Byte) (i : Nat) : Species :=
  let m := u8 p (i + 13)
  let f := u8 p (i + 14 + 4 * m)
  let r := i + 15 + 4 * (m + f)
  { code := u8 p i
    name := nameChars (nameField p i)
    baseCurve := curveAt p (i + 14) m
    frozenCurve := if f = 0 then none else some (curveAt p (i + 15 + 4 * m) f)
    frostPct := u16 p r
    speedGain := u16 p (r + 2)
    entryPct := u16 p (r + 4)
    entryLen := u16 p (r + 6)
    tailPct := u16 p (r + 8)
    tailAdv := u16 p (r + 10)
    shareA := u16 p (r + 12)
    shareB := u16 p (r + 14)
    maxPress := u16 p (r + 16)
    lift := u16 p (r + 18)
    flareRatio := u16 p (r + 20)
    flareLift := u16 p (r + 22)
    maxFeed := u16 p (r + 24)
    frozenFeedPct := u16 p (r + 26) }

/-- A curve's points as a payload carries them. -/
def curveBytes (c : List CurvePoint) : List Byte := c.flatMap (fun q => bytes16 q.diam ++ bytes16 q.press)

/-- A species record as a payload carries it (11): the name padded with 0 to 12 bytes. -/
def speciesBytes (r : Species) : List Byte :=
  let frozen := r.frozenCurve.getD []
  byte r.code :: (r.name ++ List.replicate (12 - r.name.length) 0) ++
    byte r.baseCurve.length :: curveBytes r.baseCurve ++
    byte frozen.length :: curveBytes frozen ++
    [r.frostPct, r.speedGain, r.entryPct, r.entryLen, r.tailPct, r.tailAdv, r.shareA, r.shareB, r.maxPress,
      r.lift, r.flareRatio, r.flareLift, r.maxFeed, r.frozenFeedPct].flatMap bytes16

/-- A curve is well formed: 2 to 8 points, diameters within 60..900 and strictly ascending (R65). -/
def curveFits (c : List CurvePoint) : Bool :=
  decide (2 ≤ c.length ∧ c.length ≤ 8) &&
    c.all (fun q => decide (60 ≤ q.diam ∧ q.diam ≤ 900)) &&
    (c.zip c.tail).all (fun q => decide (q.1.diam < q.2.diam))

/-- The base curve, and a present frozen curve, are well formed (R65). -/
def curvesFit (r : Species) : Bool :=
  curveFits r.baseCurve &&
    match r.frozenCurve with
    | none => true
    | some c => curveFits c

/-- The code suits the slot: 0 for slot 0, 1..250 for slots 1..23 (R66). -/
def codeSuits (slot code : Nat) : Bool :=
  if slot = 0 then code == 0 else decide (1 ≤ code ∧ code ≤ 250)

/-- A curve with each pressure above 1000 taken as 1000 (R65). -/
def clampCurve (c : List CurvePoint) : List CurvePoint := c.map (fun q => { q with press := min q.press 1000 })

/-- The record with every figure held within its range (R65, R67). -/
def clampSpecies (r : Species) : Species :=
  { r with
    baseCurve := clampCurve r.baseCurve
    frozenCurve := r.frozenCurve.map clampCurve
    frostPct := heldNat 100 250 r.frostPct
    speedGain := heldNat 0 300 r.speedGain
    entryPct := heldNat 20 100 r.entryPct
    entryLen := heldNat 0 1500 r.entryLen
    tailPct := heldNat 20 100 r.tailPct
    tailAdv := heldNat 0 1000 r.tailAdv
    shareA := heldNat 0 150 r.shareA
    shareB := heldNat 0 150 r.shareB
    maxPress := heldNat 100 1000 r.maxPress
    lift := heldNat 0 600 r.lift
    flareRatio := heldNat 110 200 r.flareRatio
    flareLift := heldNat 0 300 r.flareLift
    maxFeed := heldNat 200 2000 r.maxFeed
    frozenFeedPct := heldNat 30 100 r.frozenFeedPct }

/-- A stored name is well formed (R66). -/
def storedNameFits (name : List Byte) : Bool :=
  decide (name.length ≤ 12) && nameFits name && name.all (fun b => b != 0)

/-- No other slot of a table holds a code (R63, R66). -/
def noOtherHolds (t : Table) (slot code : Nat) : Bool :=
  ((List.range t.length).zip t).all (fun x =>
    match x.2 with
    | some r => x.1 == slot || r.code != code
    | none => true)

/-- A record stands soundly in a slot of a table: it passes R65, R66 and the ranges of R67 (R83).  A curve pressure above
1000 counts as breaking the image too (log 34, DESIGN CHOICE: R65 clamps an offered one, and R67 does not list it). -/
def slotSound (t : Table) (slot : Nat) (r : Species) : Bool :=
  codeSuits slot r.code && storedNameFits r.name && curvesFit r && noOtherHolds t slot r.code &&
    decide (clampSpecies r = r)

/-- A table passes every check of R83: 24 slots, a record of code 0 in slot 0, and every record sound. -/
def tableSound (t : Table) : Bool :=
  decide (t.length = 24) &&
    (match t.head? with
      | some (some r) => r.code == 0
      | _ => false) &&
    ((List.range t.length).zip t).all (fun x =>
      match x.2 with
      | some r => slotSound t x.1 r
      | none => true)

/-! ### The point directory (R212) -/

/-- The point of a number, if it is one of the classes kept in the store. -/
def Point.ofNumber (n : Nat) : Option Point :=
  match n with
  | 1 => some .dA
  | 2 => some .dAB
  | 3 => some .cA
  | 4 => some .dX
  | 5 => some .scale
  | 6 => some .latencyComp
  | 16 => some .pressLiftDead
  | 17 => some .liftPressDead
  | 18 => some .riseStep
  | 19 => some .fallStep
  | 20 => some .ceiling
  | 21 => some .floor
  | 22 => some .realignWindow
  | 23 => some .armDistance
  | 24 => some .blindDiameter
  | 25 => some .parkLift
  | 26 => some .releaseLift
  | 27 => some .stopOnRelease
  | 28 => some (.echoEnable .aPress)
  | 29 => some (.echoEnable .aLift)
  | 30 => some (.echoEnable .bPress)
  | 31 => some (.echoEnable .bLift)
  | 32 => some (.markSource .m0)
  | 33 => some (.markSource .m1)
  | 34 => some (.markSource .m2)
  | 35 => some (.markSource .m3)
  | 36 => some (.markGate .m0)
  | 37 => some (.markGate .m1)
  | 38 => some (.markGate .m2)
  | 39 => some (.markGate .m3)
  | 48 => some .confidenceThreshold
  | 49 => some .frostThreshold
  | _ => none

/-- The numbers of the LIVE points. -/
def isLivePoint (n : Nat) : Bool := decide (64 ≤ n ∧ n ≤ 89)

def Point.cls : Point → PointClass
  | .dA | .dAB | .cA | .dX | .scale | .latencyComp => .geometry
  | .confidenceThreshold | .frostThreshold => .operator
  | _ => .tuning

def Point.range : Point → PointRange
  | .dA => .number 1000 12000
  | .dAB => .number 800 4000
  | .cA => .number 100 600
  | .dX => .number 200 3000
  | .scale => .number 400 40000
  | .latencyComp => .number 0 500
  | .pressLiftDead => .number 20 500
  | .liftPressDead => .number 20 500
  | .riseStep => .number 2 200
  | .fallStep => .number 2 400
  | .ceiling => .number 100 1000
  | .floor => .number 20 200
  | .realignWindow => .number 50 400
  | .armDistance => .number 100 1500
  | .blindDiameter => .number 100 700
  | .parkLift => .number 0 300
  | .releaseLift => .number 0 400
  | .confidenceThreshold => .number 0 100
  | .frostThreshold => .number (-20) 10
  | .stopOnRelease | .echoEnable _ | .markGate _ => .onOff
  | .markSource _ => .source

/-- What a write of a value stores at a range: the value held within it and whether it was held, or none where
the value names none of a list (R199, R212). -/
def PointRange.take (r : PointRange) (v : Int) : Option (Int × Bool) :=
  match r with
  | .number lo hi => some (heldWithin lo hi v, decide (heldWithin lo hi v ≠ v))
  | .onOff => if v = 0 ∨ v = 1 then some (v, false) else none
  | .source => if 0 ≤ v ∧ v ≤ 8 then some (v, false) else none

/-- The value held at a point, as POINT gives it (R198). -/
def Points.read (p : Points) : Point → Int
  | .dA => p.dA
  | .dAB => p.dAB
  | .cA => p.cA
  | .dX => p.dX
  | .scale => p.scale
  | .latencyComp => p.latencyComp
  | .pressLiftDead => p.pressLiftDead
  | .liftPressDead => p.liftPressDead
  | .riseStep => p.riseStep
  | .fallStep => p.fallStep
  | .ceiling => p.ceiling
  | .floor => p.floor
  | .realignWindow => p.realignWindow
  | .armDistance => p.armDistance
  | .blindDiameter => p.blindDiameter
  | .parkLift => p.parkLift
  | .releaseLift => p.releaseLift
  | .stopOnRelease => p.stopOnRelease.toNat
  | .echoEnable c => (p.echoEnable.get c).toNat
  | .markSource m => (p.markSource.get m).code
  | .markGate m => (p.markGate.get m).toNat
  | .confidenceThreshold => p.confidenceThreshold
  | .frostThreshold => p.frostThreshold

/-- The points with a taken value stored at one of them (R199). -/
def Points.write (p : Points) (q : Point) (v : Int) : Points :=
  let n := v.toNat
  match q with
  | .dA => { p with dA := n }
  | .dAB => { p with dAB := n }
  | .cA => { p with cA := n }
  | .dX => { p with dX := n }
  | .scale => { p with scale := n }
  | .latencyComp => { p with latencyComp := n }
  | .pressLiftDead => { p with pressLiftDead := n }
  | .liftPressDead => { p with liftPressDead := n }
  | .riseStep => { p with riseStep := n }
  | .fallStep => { p with fallStep := n }
  | .ceiling => { p with ceiling := n }
  | .floor => { p with floor := n }
  | .realignWindow => { p with realignWindow := n }
  | .armDistance => { p with armDistance := n }
  | .blindDiameter => { p with blindDiameter := n }
  | .parkLift => { p with parkLift := n }
  | .releaseLift => { p with releaseLift := n }
  | .stopOnRelease => { p with stopOnRelease := decide (v = 1) }
  | .echoEnable c => { p with echoEnable := p.echoEnable.modify c (fun _ => decide (v = 1)) }
  | .markSource m =>
      { p with markSource := p.markSource.modify m (fun _ => (MarkSource.ofCode n).getD .none) }
  | .markGate m => { p with markGate := p.markGate.modify m (fun _ => decide (v = 1)) }
  | .confidenceThreshold => { p with confidenceThreshold := n }
  | .frostThreshold => { p with frostThreshold := v }

/-- The numbers of the points not of the LIVE class. -/
def storedPointNumbers : List Nat :=
  [1, 2, 3, 4, 5, 6] ++ (List.range 24).map (· + 16) ++ [48, 49]

/-- Every point lies within its range (R205). -/
def Points.sound (p : Points) : Bool :=
  (storedPointNumbers.filterMap Point.ofNumber).all (fun q =>
    match q.range.take (p.read q) with
    | some (_, clamped) => !clamped
    | none => false)

/-- An image whose CRC matches passes the remaining checks of R205; its season is one of the two by its type. -/
def Image.sound (i : Image) : Bool := i.points.sound && tableSound i.table

/-- The image the store holds, if it is valid (R205). -/
def Store.valid? (s : Store) : Option Image :=
  if s.closed then s.image.filter Image.sound else none

/-! ### The valve words (R143, R144, R211) -/

/-- The check of a 12-bit value V: 15 minus the sum of its three 4-bit digits modulo 16 (R143). -/
def valveCheck (v : Nat) : Nat := 15 - (v / 256 + v / 16 % 16 + v % 16) % 16

/-- A word of a valve line: V × 16 + check, with V = 2 × code + bit (R211). -/
def valveWord (code : Nat) (bit : Bool) : Word16 :=
  let v := 2 * code + bit.toNat
  BitVec.ofNat 16 (v * 16 + valveCheck v)

/-- An echo's measured code. -/
def echoCode (w : Word16) : Nat := w.toNat / 32

/-- An echo's driver-fault bit. -/
def echoFault (w : Word16) : Bool := decide (w.toNat / 16 % 2 = 1)

/-- An echo's check is correct (R144). -/
def echoGood (w : Word16) : Bool := decide (w.toNat % 16 = valveCheck (w.toNat / 16))

end Sys2Proof.Machine
end

