-- ==== Sys2Proof/Machine/Output.lean ====
section
/-! DEFINITION. The output lists and the notices (R193, R196, R200), the marks and the Feed Permit (R166, R169,
R170), the advised feed limit (R42, R43). -/

namespace Sys2Proof.Machine

/-! ### Output lists (R196) -/

/-- Place a telegram of fixed content in a port's output list. -/
def State.send (s : State) (p : Port) (kind : Byte) (payload : List Byte) : State :=
  s.onPort p (fun q => { q with out := q.out ++ [.telegram kind payload] })

/-- Place the reply to a request: its kind plus 0x80, the result code, and the payload of that result (R194). -/
def State.reply (s : State) (p : Port) (r : Req) (result : Result) (rest : List Byte) : State :=
  s.send p (replyByte r.kind) (byte result.code :: rest)

/-- A NOTICE due placed in a list; while one waits unbegun another is not placed (R196). -/
def placeDue (out : List OutItem) : List OutItem :=
  if out.contains .noticeDue then out else out ++ [.noticeDue]

/-- An item is an ADVISE. -/
def OutItem.isAdvise : OutItem → Bool
  | .advise _ => true
  | _ => false

/-- An ADVISE placed in a list; it replaces, in its place, one that waits unbegun (R196). -/
def placeAdvise (limit : Nat) (out : List OutItem) : List OutItem :=
  if out.any OutItem.isAdvise then out.map (fun x => if x.isAdvise then .advise limit else x)
  else out ++ [.advise limit]

/-! ### Notices (R200) -/

/-- A kind raised at one port: it joins the status set if absent, and then places a NOTICE due where it is
enabled; a kind already present changes nothing (R200). -/
def PortState.raise (q : PortState) (k : NoticeKind) : PortState :=
  if q.status.contains k then q
  else
    { q with
      status := addKind k q.status
      out := if q.enable.contains k then placeDue q.out else q.out }

/-- A notice raised by a block: at every port (R200). -/
def State.notice (s : State) (k : NoticeKind) : State :=
  { s with ports := s.ports.map (fun q => q.raise k) }

/-- The kinds a NOTICE lists: those in the status set and in the enable set, ascending (R196, R200). -/
def PortState.listing (q : PortState) : List NoticeKind :=
  NoticeKind.all.filter (fun k => q.status.contains k && q.enable.contains k)

/-! ### The Feed Permit (R169, R170) -/

/-- A gating mark is set: in state SET with its gate flag on (R169). -/
def State.gated (s : State) : Bool := Mark.all.any (fun m => s.marks.get m && s.points.markGate.get m)

/-- The value R169 gives the output. -/
def State.permitValue (s : State) : Bool :=
  !(s.release.estopActive || s.gated ||
    (s.points.stopOnRelease && decide (s.release.level ≠ .none)))

/-- The Feed Permit recomputes the output (R170). -/
def State.recomputePermit (s : State) : State := { s with permit := s.permitValue }

/-! ### Marks (R166) -/

/-- A source event taken at one mark: a CLEAR mark of that source becomes SET, and the permit is recomputed where
its gate is on; a SET mark of that source raises MARK_OVERRUN (R166). -/
def State.markSourceAt (s : State) (src : MarkSource) (m : Mark) : State :=
  if s.points.markSource.get m = src then
    if s.marks.get m then s.notice .markOverrun
    else
      let s' := { s with marks := s.marks.modify m (fun _ => true) }
      if s.points.markGate.get m then s'.recomputePermit else s'
  else s

/-- A source event handed to the Mark Unit (R166). -/
def State.markEvent (s : State) (src : MarkSource) : State :=
  Mark.all.foldl (fun t m => t.markSourceAt src m) s

/-- A mark given a state by MARK; the permit is recomputed where a gating mark changes (R167). -/
def State.setMark (s : State) (v : Bool) (m : Mark) : State :=
  if s.marks.get m = v then s
  else
    let s' := { s with marks := s.marks.modify m (fun _ => v) }
    if s.points.markGate.get m then s'.recomputePermit else s'

/-! ### The frozen decision and the recipe a binding would copy (R29, R30) -/

/-- The frozen decision a binding would make now (R30). -/
def State.frozenNow (s : State) (r : Rec) : Bool :=
  decide (s.control.season = .winter) &&
    match r.surfaceTemp with
    | none => true
    | some t => decide (t ≤ s.points.frostThreshold)

/-- What a binding of a record would place in its bound now (R29, R30): the record of its code or the fallback, a
fallback copy where the confidence is below the threshold and the species is not 0, and the frozen decision. -/
def State.bindingNow (s : State) (r : Rec) : Bound :=
  let t := s.recipes.active
  let held := (t.lookup r.species).isSome && r.species != 0
  { species := t.recipeFor r.species
    fallback := if held && decide (r.confidence < s.points.confidenceThreshold) then some t.fallback else none
    frozen := s.frozenNow r }

/-- The recipe a record is worked with: its bound, or the binding it would get now (R42, R89). -/
def State.recipeOf (s : State) (r : Rec) : Bound := r.bound.getD (s.bindingNow r)

/-! ### The advised feed limit (R42, R43) -/

/-- The advised value of one species record under a frozen decision (R42). -/
def feedValue (r : Species) (frozen : Bool) : Nat :=
  if frozen then roundDivNat (r.maxFeed * r.frozenFeedPct) 100 else r.maxFeed

/-- The advised value of a binding: the lower of its species record's and its fallback copy's (R42). -/
def Bound.feed (b : Bound) : Nat :=
  match b.fallback with
  | some f => min (feedValue b.species b.frozen) (feedValue f b.frozen)
  | none => feedValue b.species b.frozen

/-- The records the limit is the minimum over: those covering a ring plane, and the first unbound record (R42). -/
def State.advisedRecords (s : State) : List Rec :=
  s.track.filter (fun r =>
    covers s .a r || covers s .b r || decide (s.firstUnbound.map Rec.key = some r.key))

/-- The minimum of values, 2000 where there are none (R42). -/
def minFeed : List Nat → Nat
  | [] => 2000
  | [x] => x
  | x :: y :: rest => min x (minFeed (y :: rest))

/-- The advised feed limit (R42). -/
def State.advisedLimit (s : State) : Nat := minFeed (s.advisedRecords.map (fun r => (s.recipeOf r).feed))

/-- The Log Track recomputes the advised limit and sends ADVISE where it differs from the last value sent (R43). -/
def State.advise (s : State) : State :=
  if s.advisedLimit = s.lastAdvise then s
  else
    let t := { s with lastAdvise := s.advisedLimit }
    t.onPort .line (fun q => { q with out := placeAdvise s.advisedLimit q.out })

end Sys2Proof.Machine
end

