-- ==== Sys2Proof/Machine/Intents.lean ====
section
/-! DEFINITION. The Valve Line's side of an intent, of a change of the release level and of a ceiling write
(R136, R138, R139, R141, R142). -/

namespace Sys2Proof.Machine

/-- The release bypass holds a channel at 0: the press channels at IMMEDIATE and ESTOP, the lift channels at
ESTOP (R141). -/
def bypassed (level : Level) : Side → Bool
  | .press => decide (level = .immediate ∨ level = .estop)
  | .lift => decide (level = .estop)

/-- The interlock takes an intent that names a channel whose command stands at `command` (R136, R138, R139).
No change of channel leaves it as it is.  A channel given back while it still falls is released again at once.
A channel given back at 0 before any frame was sent waits a whole interval anew, whether it was released or waiting
before (log 35, DESIGN CHOICE: R136, R138 and R139 leave it open).
Else the channel waits for an interval whose zero frame is the first frame that sends its partner at 0; the
bypass keeps an interval from being run for a channel it holds (R141). -/
def Interlock.take (il : Interlock) (side : Side) (command : Nat) (held : Bool) : Interlock :=
  if side = il.intent then il
  else if 0 < command then { intent := side, released := some side, interval := none, hold := false }
  else
    { intent := side, released := none, interval := if held then none else some ⟨side, none⟩, hold := false }

/-- The Valve Line takes an intent: the named channel's target is the pressure, its partner's is 0 (R136). -/
def State.intent (s : State) (k : Ring) (side : Side) (pressure : Nat) : State :=
  let command := (s.valve.chans.get (channelOf k side)).command
  let t := s.onInterlock k (fun il => il.take side command (bypassed s.release.level side))
  let t := t.onChan (channelOf k side) (fun c => { c with target := pressure })
  t.onChan (channelOf k side.partner) (fun c => { c with target := 0 })

/-- An interlock at a change of the release level, for one side of its ring: an interval running for a channel
the bypass begins to hold is abandoned; a channel whose bypass ends while it is the intent channel but not the
released one, with no interval running for it, has one started (R141). -/
def Interlock.relevel (before now : Level) (il : Interlock) (side : Side) : Interlock :=
  if bypassed now side then
    if il.interval.map Interval.side = some side then { il with interval := none } else il
  else if bypassed before side && decide (il.intent = side) && decide (il.released ≠ some side) &&
      decide (il.interval.map Interval.side ≠ some side) then
    { il with interval := some ⟨side, none⟩ }
  else il

/-- The Valve Line takes a change of the effective level (R141). -/
def State.valveLevel (s : State) (before : Level) : State :=
  let f := fun (il : Interlock) =>
    (il.relevel before s.release.level .press).relevel before s.release.level .lift
  (s.onInterlock .a f).onInterlock .b f

/-- A channel under a ceiling just written: its command and its target are taken down to it (R142).  The next frame moves
that command before it sends it, so a falling channel is sent below the ceiling (log 36, DESIGN CHOICE between R142's
last words and R143). -/
def Chan.under (ceiling : Nat) (c : Chan) : Chan :=
  { c with command := min c.command ceiling, target := min c.target ceiling }

/-- The Valve Line takes a write of the ceiling (R142). -/
def State.valveCeiling (s : State) : State :=
  { s with valve := { s.valve with chans := s.valve.chans.map (Chan.under s.points.ceiling) } }

end Sys2Proof.Machine
end

