-- ==== Sys2Proof/Machine/SetpointUnit.lean ====
section
/-! DEFINITION. The setpoint arithmetic and its evaluations (05, R85 to R106). -/

namespace Sys2Proof.Machine

/-! ### The seven stages -/

/-- The curve read from its points on, `d` being at or above the first point's diameter: the pressure, and
whether `d` lies strictly above the last diameter (R93). -/
def readCurveFrom (d : Nat) : List CurvePoint → Int × Bool
  | [] => (0, false)
  | [q] => (q.press, decide (q.diam < d))
  | q :: r :: rest =>
    if d < r.diam then
      (q.press + roundDiv (((r.press : Int) - q.press) * ((d : Int) - q.diam)) (r.diam - q.diam), false)
    else readCurveFrom d (r :: rest)

/-- Stage 1: the curve's pressure at a diameter, and EXTRAP where the diameter lies strictly outside the curve
(R93). -/
def readCurve (c : List CurvePoint) (d : Nat) : Nat × Bool :=
  match c with
  | [] => (0, false)
  | q :: rest =>
    if d ≤ q.diam then (q.press, decide (d < q.diam))
    else
      let x := readCurveFrom d (q :: rest)
      (x.1.toNat, x.2)

/-- The curve a species record is read by: its frozen curve for a frozen log that has one (R93). -/
def Species.curveFor (r : Species) (frozen : Bool) : List CurvePoint :=
  if frozen then r.frozenCurve.getD r.baseCurve else r.baseCurve

/-- Stage 2: frost (R94). -/
def stageFrost (r : Species) (frozen : Bool) (p1 : Nat) : Nat :=
  if frozen && r.frozenCurve.isNone then roundDivNat (p1 * r.frostPct) 100 else p1

/-- Stage 3: speed (R95). -/
def stageSpeed (r : Species) (v : Nat) (p2 : Nat) : Nat := p2 + roundDivNat (r.speedGain * v) 1000

/-- The phase factor (R92). -/
def Species.phaseFactor (r : Species) : RingState → Nat
  | .entry => r.entryPct
  | .tail => r.tailPct
  | _ => 100

/-- The ring share (R92). -/
def Species.share (r : Species) : Ring → Nat
  | .a => r.shareA
  | .b => r.shareB

/-- Stages 1 to 5 with one species record: p5 and EXTRAP (R93 to R97). -/
def pass (r : Species) (frozen : Bool) (k : Ring) (phase : RingState) (d v : Nat) : Nat × Bool :=
  let p1 := readCurve (r.curveFor frozen) d
  let p3 := stageSpeed r v (stageFrost r frozen p1.1)
  let p4 := roundDivNat (p3 * r.phaseFactor phase) 100
  (roundDivNat (p4 * r.share k) 100, p1.2)

/-- Stage 6: what goes to stage 7, as p5, max_press, EXTRAP and UNCERTAIN_MERGE (R98). -/
def stageMerge (b : Bound) (k : Ring) (phase : RingState) (d v : Nat) : Nat × Nat × List Flag :=
  let first := pass b.species b.frozen k phase d v
  let keep (p : Nat × Bool) (limit : Nat) (more : List Flag) : Nat × Nat × List Flag :=
    (p.1, limit, (if p.2 then [.extrap] else []) ++ more)
  match b.fallback with
  | none => keep first b.species.maxPress []
  | some f =>
    let second := pass f b.frozen k phase d v
    if second.1 < first.1 then keep second f.maxPress [.uncertainMerge] else keep first b.species.maxPress []

/-- Stage 7: the value held within lower..upper, with CLAMP_HIGH or CLAMP_LOW (R99). -/
def stageClamp (lower upper p : Nat) : Nat × List Flag :=
  if upper < p then (upper, [.clampHigh]) else if p < lower then (lower, [.clampLow]) else (p, [])

/-- The press target in RUN, with the flags raised (R93 to R99). -/
def pressRun (pts : Points) (b : Bound) (k : Ring) (phase : RingState) (d v : Nat) : Nat × List Flag :=
  let m := stageMerge b k phase d v
  let upper := min pts.ceiling m.2.1
  let c := stageClamp (min pts.floor upper) upper m.1
  (c.1, addFlags (m.2.2 ++ c.2) [])

/-- The press target in MANUAL (R101). -/
def pressManual (pts : Points) (value : Nat) : Nat × List Flag :=
  stageClamp (min pts.floor pts.ceiling) pts.ceiling value

/-! ### Inputs -/

/-- The sample index at ring k's plane, held within 0..n − 1 (R90). -/
def sampleIndex (s : State) (k : Ring) (r : Rec) : Nat :=
  (heldWithin 0 ((r.samples.length : Int) - 1) ((frontDist s r - s.points.planeOf k) / 200)).toNat

/-- The diameter an evaluation reads: the sample at the plane, or the blind diameter where there are none
(R90). -/
def diameterAt (s : State) (k : Ring) (r : Rec) : Nat :=
  if r.samples.isEmpty then s.points.blindDiameter else r.samples.getD (sampleIndex s k r) 0

/-- The speed used, v held within 0..2000 (R91). -/
def speedUsed (s : State) : Nat := (heldWithin 0 2000 s.feed.speed).toNat

/-- The press target and the flags an evaluation of ring k for a record gives now (R88, R89, R101). -/
def pressValue (s : State) (k : Ring) (r : Rec) : Nat × List Flag :=
  if s.control.mode = .manual then pressManual s.points (s.control.manualPress.get k)
  else pressRun s.points (s.recipeOf r) k (s.ringState k) (diameterAt s k r) (speedUsed s)

/-! ### Evaluations -/

/-- A record takes an evaluation's flags, and the target where it raises the ring's peak (R32). -/
def Rec.evaluated (r : Rec) (k : Ring) (target : Nat) (flags : List Flag) : Rec :=
  match k with
  | .a => { r.flag flags with peakA := max r.peakA target }
  | .b => { r.flag flags with peakB := max r.peakB target }

/-- The record ring k serves, if it is in the track. -/
def State.servedRec (s : State) (k : Ring) : Option Rec := (s.ring.get k).served.bind s.rec?

/-- Evaluate ring k's press target, where it presses and serves a record: the target and the flags are held, handed
to the record and to the Valve Line (R85, R87, R100). -/
def State.evalPress (s : State) (k : Ring) : State :=
  match s.servedRec k with
  | none => s
  | some r =>
    if (s.ringState k).pressing then
      let x := pressValue s k r
      let t := s.onSetpoint k (fun q => { q with pressTarget := x.1, lastFlags := x.2 })
      let t := t.onRec r.key (fun q => q.evaluated k x.1 x.2)
      t.intent k .press x.1
    else s

/-- The arming lift in RUN: the lift of the species record of the armed-for record's code, or the fallback's, plus
its flare_lift for a flared butt, held within 0..ceiling (R102). -/
def armingLift (s : State) (r : Rec) : Nat :=
  let sp := s.recipes.active.recipeFor r.species
  min (sp.lift + if r.flags.contains .buttFlare then sp.flareLift else 0) s.points.ceiling

/-- The lift pressure of ring k before it is held within 0..ceiling, by its state, mode and level (R102 to R104).
A pressing ring takes its manual lift value in MANUAL (05, case 7) and a free value otherwise (log 8). -/
def liftValue (s : State) (k : Ring) : Nat :=
  match s.ringState k with
  | .idle => s.points.parkLift
  | .held => if s.release.level = .estop then 0 else s.points.releaseLift
  | .armed =>
    if s.control.mode = .manual then s.control.manualLift.get k
    else
      match (s.ring.get k).armedFor.bind s.rec? with
      | some r => armingLift s r
      | none => s.recipes.active.fallback.lift
  | .entry | .body | .tail =>
    if s.control.mode = .manual then s.control.manualLift.get k else Config.freeLift s.freeCount

/-- Evaluate ring k's lift target; it is handed to the Valve Line where the ring is open (R85, R105). -/
def State.evalLift (s : State) (k : Ring) : State :=
  let x := min (liftValue s k) s.points.ceiling
  let t := s.onSetpoint k (fun q => { q with liftTarget := x })
  if (s.ringState k).pressing then
    { t with freeCount := if s.control.mode = .manual then s.freeCount else s.freeCount + 1 }
  else t.intent k .lift x

/-- Evaluate both rings' press targets, where they press. -/
def State.evalPresses (s : State) : State := (s.evalPress .a).evalPress .b

/-- Evaluate both rings' lift targets. -/
def State.evalLifts (s : State) : State := (s.evalLift .a).evalLift .b

/-- Evaluate ring k's lift target where the ring is in a state. -/
def State.evalLiftIn (s : State) (st : RingState) (k : Ring) : State :=
  if s.ringState k = st then s.evalLift k else s

/-- Evaluate the press target of each ring that presses a record (R87, note: a binding reaches every ring that
serves the record). -/
def State.evalPressFor (s : State) (key : Nat) : State :=
  let at_ (t : State) (k : Ring) : State := if (t.ring.get k).served = some key then t.evalPress k else t
  at_ (at_ s .a) .b

/-- Evaluate the arming lift of each ring armed for a record (R105). -/
def State.evalLiftFor (s : State) (key : Nat) : State :=
  let at_ (t : State) (k : Ring) : State :=
    if (t.ring.get k).armedFor = some key then t.evalLiftIn .armed k else t
  at_ (at_ s .a) .b

end Sys2Proof.Machine
end

