-- ==== Sys2Proof/Machine/Rings.lean ====
section
/-! DEFINITION. The recipe swap and the gap signal (R75, R76), the Ring Sequencers' passages and the events they
take (06), and the Release Unit's level (R156). -/

namespace Sys2Proof.Machine

/-! ### The swap (R75, R76) -/

/-- The swap: the shadow table is copied into the active table, the pending flag cleared, SWAP_DONE raised; the
advisory and the arming lifts are worked out anew (R76). -/
def State.swap (s : State) : State :=
  let t := { s with recipes := { s.recipes with active := s.recipes.shadow, swapPending := false } }
  let t := (t.notice .swapDone).advise
  (t.evalLiftIn .armed .a).evalLiftIn .armed .b

/-- The gap signal: a pending swap is made (R75). -/
def State.gapSignal (s : State) : State := if s.recipes.swapPending then s.swap else s

/-! ### Passages (R111, R113, R125, R130, R131) -/

/-- The mark source of a ring's departure from pressing (R130). -/
def clearSource : Ring → MarkSource
  | .a => .aClear
  | .b => .bClear

/-- The mark source of a ring's passage into ENTRY (R131). -/
def entrySource : Ring → MarkSource
  | .a => .aEntry
  | .b => .bEntry

/-- The mark source of a ring's settled event (R132). -/
def settledSource : Ring → MarkSource
  | .a => .aSettled
  | .b => .bSettled

/-- The reports of a departure from pressing: the clear event, and from ring A the gap signal (R130).  The Mark Unit and the
Recipe Table act independently; that ring A's clear event is taken before its gap signal is the model's choice (log 39,
DESIGN CHOICE: R75 and R130 give no order). -/
def State.reportClear (s : State) (k : Ring) : State :=
  let t := s.markEvent (clearSource k)
  match k with
  | .a => t.gapSignal
  | .b => t

/-- Flag the record standing in ring k's plane RELEASED_DURING, if one stands (R125). -/
def State.flagStanding (s : State) (k : Ring) : State :=
  match s.standing k with
  | some r => s.onRec r.key (Rec.flag · [.releasedDuring])
  | none => s

/-- A passage into an open state: the served record is dropped, the lift target evaluated and handed on; out of a
pressing state the press target becomes 0 (R85), a passage to HELD flags the log in the plane (R125), and the
reports of R130 are made. -/
def State.goOpen (s : State) (k : Ring) (st : RingState) (armed : Option Nat) : State :=
  let left := (s.ringState k).pressing
  let t := s.onSeq k (fun q => { q with state := st, served := none, armedFor := armed })
  let t := if left then t.onSetpoint k (fun q => { q with pressTarget := 0 }) else t
  let t := t.evalLift k
  let t := if left && decide (st = .held) then t.flagStanding k else t
  if left then t.reportClear k else t

/-- A passage into a pressing state for a record the ring takes up: the lift-reached and settled flags are cleared
(R117, R132), the press target evaluated and handed on, and a passage into ENTRY reported (R131). -/
def State.goPress (s : State) (k : Ring) (st : RingState) (key : Nat) : State :=
  let t := s.onSeq k (fun _ =>
    { state := st, served := some key, armedFor := none, liftReached := false, settled := false })
  let t := t.evalPress k
  if st = .entry then t.markEvent (entrySource k) else t

/-- A passage to a later phase of the record served (R114, R115). -/
def State.goPhase (s : State) (k : Ring) (st : RingState) : State :=
  (s.onSeq k (fun q => { q with state := st })).evalPress k

/-- ARMED for the first waiting record, or IDLE (R109, R122). -/
def State.goWaiting (s : State) (k : Ring) : State :=
  match s.firstWaiting k with
  | some r => s.goOpen k .armed (some r.key)
  | none => s.goOpen k .idle none

/-- The phase a ring takes for a record when it leaves HELD or SETUP: TAIL when the record is bound, has a length
and is at or past its tail advance, else BODY (R126). -/
def phaseByGeometry (s : State) (k : Ring) (r : Rec) : RingState :=
  match r.bound, r.length with
  | some b, some len =>
    if s.points.planeOf k + len - b.species.tailAdv ≤ frontDist s r then .tail else .body
  | _, _ => .body

/-- The state by geometry at the end of a release or on leaving SETUP (R126, R129). -/
def State.takeGeometry (s : State) (k : Ring) : State :=
  match s.standing k with
  | some r => s.goPress k (phaseByGeometry s k r) r.key
  | none => s.goWaiting k

/-- The end of pressing as at a tail out: HELD at AT_GAP, ENTRY for a record that stands in the plane, ARMED for
the first waiting record, or IDLE (R116). -/
def State.leaveByTail (s : State) (k : Ring) : State :=
  if s.release.level = .atGap then s.goOpen k .held none
  else
    match s.standing k with
    | some r => s.goPress k .entry r.key
    | none => s.goWaiting k

/-- The end of pressing as at a leading end backing out: HELD at AT_GAP, else ARMED for the same record (R118). -/
def State.leaveByBackOut (s : State) (k : Ring) (key : Nat) : State :=
  if s.release.level = .atGap then s.goOpen k .held none else s.goOpen k .armed (some key)

/-! ### The events a ring takes (R112 to R120, R125, R128) -/

/-- An arm point: taken in IDLE (R112). -/
def State.ringArm (s : State) (k : Ring) (key : Nat) : State :=
  if s.ringState k = .idle then s.goOpen k .armed (some key) else s

/-- A leading end at the plane: ENTRY from IDLE or ARMED, with the SHORT_GAP test (R113); RELEASED_DURING in HELD
(R125). -/
def State.ringPlane (s : State) (k : Ring) (key : Nat) : State :=
  match s.ringState k with
  | .idle | .armed =>
    let t := if (s.ring.get k).liftReached then s else s.onRec key (Rec.flag · [.shortGap])
    t.goPress k .entry key
  | .held => s.onRec key (Rec.flag · [.releasedDuring])
  | .entry | .body | .tail => s

/-- A record is the one ring k serves. -/
def State.serves (s : State) (k : Ring) (key : Nat) : Bool := decide ((s.ring.get k).served = some key)

/-- An entry end of the served record: BODY from ENTRY (R114). -/
def State.ringEntryEnd (s : State) (k : Ring) (key : Nat) : State :=
  if s.serves k key && decide (s.ringState k = .entry) then s.goPhase k .body else s

/-- A tail advance of the served record: TAIL from ENTRY or BODY (R115). -/
def State.ringTailAdvance (s : State) (k : Ring) (key : Nat) : State :=
  if s.serves k key && (decide (s.ringState k = .entry) || decide (s.ringState k = .body)) then
    s.goPhase k .tail
  else s

/-- A tail out of the served record ends the pressing (R116). -/
def State.ringTailOut (s : State) (k : Ring) (key : Nat) : State :=
  if s.serves k key && (s.ringState k).pressing then s.leaveByTail k else s

/-- A leading end backing out, of the served record, ends the pressing (R118). -/
def State.ringBackOut (s : State) (k : Ring) (key : Nat) : State :=
  if s.serves k key && (s.ringState k).pressing then s.leaveByBackOut k key else s

/-- A tail coming back in: TAIL from IDLE or ARMED (R119); RELEASED_DURING in HELD (R125). -/
def State.ringTailBackIn (s : State) (k : Ring) (key : Nat) : State :=
  match s.ringState k with
  | .idle | .armed => s.goPress k .tail key
  | .held => s.onRec key (Rec.flag · [.releasedDuring])
  | .entry | .body | .tail => s

/-- A crossing event of a ring taken by its sequencer; in SETUP it has no effect on the ring (R128). -/
def State.ringEvent (s : State) (key : Nat) (id : EventId) : State :=
  if s.control.mode = .setup then s
  else
    match id with
    | .arm k => s.ringArm k key
    | .plane k => s.ringPlane k key
    | .entryEnd k => s.ringEntryEnd k key
    | .tailAdvance k => s.ringTailAdvance k key
    | .tailOut k => s.ringTailOut k key
    | .backOut k => s.ringBackOut k key
    | .tailBackIn k => s.ringTailBackIn k key
    | .withdrawal | .entryWindow | .sample _ _ | .tailWindow => s

/-- A sample boundary of the record ring k serves evaluates its press target (R87). -/
def State.sampleEvent (s : State) (k : Ring) (key : Nat) : State := if s.serves k key then s.evalPress k else s

/-- A change of B0 or of a length handed to a ring: a pressing ring whose record no longer stands in the plane leaves
pressing, as at a leading end backing out or as at a tail out (R121); in SETUP without effect (R128). -/
def State.ringMoved (s : State) (k : Ring) : State :=
  if s.control.mode = .setup then s
  else if (s.ringState k).pressing then
    match s.servedRec k with
    | none => s
    | some r =>
      if standsIn s k r then s
      else if frontDist s r < s.points.planeOf k then s.leaveByBackOut k r.key
      else s.leaveByTail k
  else s

/-- The removal of a record handed to a ring, the record being gone from the track: the served record's ends the
pressing as at a tail out; the armed-for record's has the ring take its state by geometry, or HELD at AT_GAP
(R122); in SETUP without effect (R128). -/
def State.ringRemoved (s : State) (k : Ring) (key : Nat) : State :=
  if s.control.mode = .setup then s
  else if s.serves k key then s.leaveByTail k
  else if (s.ring.get k).armedFor = some key then
    if s.release.level = .atGap then s.goOpen k .held none else s.goWaiting k
  else s

/-! ### Levels (R123, R124, R126, R128, R156) -/

/-- A change of the effective level handed to ring k: to HELD at once at IMMEDIATE or ESTOP (R123), an open ring to
HELD at AT_GAP (R124), out of HELD at NONE, in SETUP to IDLE (R126). -/
def State.ringLevel (s : State) (k : Ring) : State :=
  match s.release.level with
  | .none =>
    if s.ringState k = .held then
      if s.control.mode = .setup then s.goOpen k .idle none else s.takeGeometry k
    else s
  | .atGap =>
    if s.ringState k = .idle ∨ s.ringState k = .armed then s.goOpen k .held none else s
  | .immediate | .estop => if s.ringState k = .held then s else s.goOpen k .held none

/-- The Release Unit works out the effective level afresh; a change is held and handed to the rings, the Valve
Line, the Setpoint Unit, the Feed Permit and, on a rise from NONE, the Mark Unit, and RELEASE_CHANGED is raised
(R156). -/
def State.relevel (s : State) : State :=
  let before := s.release.level
  let now := s.release.causes.level
  if now = before then s
  else
    let t := { s with release := { s.release with level := now } }
    let t := (t.ringLevel .a).ringLevel .b
    let t := t.valveLevel before
    let t := if before = .estop ∨ now = .estop then (t.evalLiftIn .held .a).evalLiftIn .held .b else t
    let t := t.recomputePermit
    let t := if before = .none then t.markEvent .release else t
    t.notice .releaseChanged

/-- A cause is raised: its entry is added where it is absent, and the level worked out (R155, R156). -/
def State.raiseCause (s : State) (c : Cause) : State :=
  if s.release.causes.has c then s
  else
    let t := { s with release := { s.release with causes := s.release.causes.add c } }
    t.relevel

end Sys2Proof.Machine
end

