-- ==== Sys2Proof/Machine/LogTrack.lean ====
section
/-! DEFINITION. The Log Track: spans and pushes (R17 to R19), crossing events (R8 to R10), binding (R28 to R31),
removal and finishing (R38 to R40), the window events (R54, R59), and a step of the feed position (R2, R5, R6). -/

namespace Sys2Proof.Machine

/-! ### Spans (R18, R19) -/

/-- Each record in turn raised to the end of the span ahead where it lies before it, and flagged OVERLAP_CLAMPED
(R18). -/
def clampBehind (pts : Points) (pos : Pos) (endAhead : Pos) : List Rec → List Rec
  | [] => []
  | r :: rest =>
    let r' := if posDiff r.b0 endAhead < 0 then { r.flag [.overlapClamped] with b0 := endAhead } else r
    r' :: clampBehind pts pos (spanEnd pts pos r') rest

/-- The spans of the whole track kept apart, the more upstream record of a pair giving way (R18). -/
def clampSpans (pts : Points) (pos : Pos) : List Rec → List Rec
  | [] => []
  | r :: rest => r :: clampBehind pts pos (spanEnd pts pos r) rest

/-- The push of an open stray's growing span on the records behind it (R19). -/
def pushBehindStray (pts : Points) (pos : Pos) : List Rec → List Rec
  | [] => []
  | r :: rest =>
    if r.length.isNone then r :: clampBehind pts pos (spanEnd pts pos r) rest
    else r :: pushBehindStray pts pos rest

/-- R18 applied to the track as it stands. -/
def State.clamped (s : State) : State := { s with track := clampSpans s.points s.feed.pos s.track }

/-- R19 applied to the track as it stands. -/
def State.pushed (s : State) : State := { s with track := pushBehindStray s.points s.feed.pos s.track }

/-! ### Thresholds (R8) -/

/-- A record's threshold for an event, where it exists (R8's table). -/
def threshold (pts : Points) (r : Rec) : EventId → Option Int
  | .withdrawal => some 0
  | .entryWindow => some (pts.entryCell + pts.realignWindow)
  | .arm k => some (pts.planeOf k - pts.armDistance)
  | .plane k => some (pts.planeOf k)
  | .backOut k => some (pts.planeOf k)
  | .entryEnd k => r.bound.map (fun b => pts.planeOf k + b.species.entryLen)
  | .sample k j => if 1 ≤ j ∧ j < r.samples.length then some (pts.planeOf k + 200 * j) else none
  | .tailAdvance k =>
    match r.bound, r.length with
    | some b, some len => some (pts.planeOf k + len - b.species.tailAdv)
    | _, _ => none
  | .tailBackIn k => r.length.map (fun len => pts.planeOf k + len)
  | .tailOut k => r.length.map (fun len => pts.planeOf k + len)
  | .tailWindow => r.length.map (fun len => pts.exitCell + len + pts.realignWindow)

/-- The event is taken on a forward crossing. -/
def EventId.forward : EventId → Bool
  | .withdrawal | .backOut _ | .tailBackIn _ => false
  | _ => true

/-- The event is taken on a reverse crossing; a sample boundary is both. -/
def EventId.reverse : EventId → Bool
  | .withdrawal | .backOut _ | .tailBackIn _ | .sample _ _ => true
  | _ => false

/-- The sample boundaries of ring k for n samples. -/
def sampleIds (k : Ring) (n : Nat) : List EventId := (List.range (n - 1)).map (fun j => .sample k (j + 1))

/-- The events of a record, in the order of R8's table. -/
def eventIds (r : Rec) : List EventId :=
  [.withdrawal, .entryWindow, .arm .a, .arm .b, .plane .a, .plane .b, .backOut .a, .backOut .b, .entryEnd .a,
    .entryEnd .b] ++ sampleIds .a r.samples.length ++ sampleIds .b r.samples.length ++
  [.tailAdvance .a, .tailAdvance .b, .tailBackIn .a, .tailBackIn .b, .tailOut .a, .tailOut .b, .tailWindow]

/-- A record's front distance lies below a threshold; one that does not exist counts as lying above (R8). -/
def below (s : State) (r : Option Rec) (id : EventId) : Bool :=
  match r with
  | none => true
  | some r =>
    match threshold s.points r id with
    | none => true
    | some t => decide (frontDist s r < t)

/-- The crossing of one threshold of a record between two states, in the enabled direction (R8). -/
def crossing? (before now : State) (r : Rec) (id : EventId) : Option Crossing :=
  match threshold now.points r id with
  | none => none
  | some t =>
    let was := below before (before.rec? r.key) id
    let is := decide (frontDist now r < t)
    let taken :=
      match now.feed.dir with
      | .fwd => id.forward && was && !is
      | .rev => id.reverse && !was && is
    if taken then some ⟨r.key, id, t - frontDist now r⟩ else none

/-- The crossings of a record's events, of a list of them, between two states. -/
def crossingsOf (before now : State) (ids : List EventId) (r : Rec) : List Crossing :=
  ids.filterMap (crossing? before now r)

/-- Insert into a list ordered by a key, before its equals. -/
def insertBy (f : Crossing → Int) (x : Crossing) : List Crossing → List Crossing
  | [] => [x]
  | y :: rest => if f x ≤ f y then x :: y :: rest else y :: insertBy f x rest

/-- Order a list by a key, equals keeping their order. -/
def sortBy (f : Crossing → Int) (l : List Crossing) : List Crossing := l.foldr (insertBy f) []

/-- The crossings one cause brings, in the order of R10: going forward by ascending position, the more downstream
record first and then the order of R8's table; in reverse the opposite of all three. -/
def crossings (before now : State) : List Crossing :=
  let l := now.track.flatMap (fun r => crossingsOf before now (eventIds r) r)
  match now.feed.dir with
  | .fwd => sortBy Crossing.at_ l
  | .rev => sortBy (fun c => -c.at_) l.reverse

/-! ### Removal and finishing (R38 to R40) -/

/-- A cell whose waiting record is removed holds none (R55, R60). -/
def CellState.forget (c : CellState) (key : Nat) : CellState :=
  if c.waiting = some key then { c with waiting := none } else c

/-- The Log Track removes a record: its place is freed, the Cell Monitor lets go of it, the rings are told and the
advisory is recomputed (R39). -/
def State.removeRec (s : State) (key : Nat) : State :=
  if (s.rec? key).isNone then s
  else
    let t :=
      { s with
        track := s.track.filter (fun r => r.key != key)
        cells := ⟨s.cells.entry.forget key, s.cells.exit.forget key⟩
        openStray := s.openStray.filter (fun o => o.key != key) }
    ((t.ringRemoved .a key).ringRemoved .b key).advise

/-- What a LOG_DONE carries (R40; 11, unsolicited payloads). -/
def logDonePayload (r : Rec) : List Byte :=
  bytes16 r.scanId ++ [byte r.species, byte r.source.code] ++
    [match r.bound with
      | some b => byte b.frozen.toNat
      | none => 0xFF] ++
    bytes16 (r.length.getD 0) ++ bytes16 (flagBits r.flags) ++ bytes16 r.peakA ++ bytes16 r.peakB

/-- The Cell Monitor reports a record finished: LOG_DONE is sent on the Line port, its source event handed on, and
the record removed (R40, R61, R166). -/
def State.finish (s : State) (key : Nat) : State :=
  match s.rec? key with
  | none => s
  | some r => ((s.send .line logDoneByte (logDonePayload r)).markEvent .logDone).removeRec key

/-- A record is finished on the track's prediction (R59). -/
def State.finishInferred (s : State) (key : Nat) : State :=
  (s.onRec key (Rec.flag · [.exitInferred])).finish key

/-- A record is removed as missing, with LOG_MISSING (R54). -/
def State.removeMissing (s : State) (key : Nat) : State := (s.removeRec key).notice .logMissing

/-- A record is withdrawn, with LOG_WITHDRAWN (R38, R53). -/
def State.withdraw (s : State) (key : Nat) : State := (s.removeRec key).notice .logWithdrawn

/-! ### The window events (R54, R59) -/

/-- An entry window passes (R54).  The record that waits already takes its event without effect (R9). -/
def State.entryWindowPassed (s : State) (r : Rec) : State :=
  let c := s.cells.entry
  if r.realign ≠ .notChecked ∨ c.waiting = some r.key then s
  else if c.blocked then s.onRec r.key (fun q => { q with realign := .unconfirmed })
  else if c.candidate.isNone || c.waiting.isSome then s.removeMissing r.key
  else s.onCell .entry (fun q => { q with waiting := some r.key })

/-- A tail window passes (R59).  The record that waits already takes its event without effect (R9). -/
def State.tailWindowPassed (s : State) (r : Rec) : State :=
  let c := s.cells.exit
  if c.waiting = some r.key then s
  else if !c.blocked then s.finishInferred r.key
  else if c.candidate.isNone || c.waiting.isSome then s.onRec r.key (Rec.flag · [.long])
  else s.onCell .exit (fun q => { q with waiting := some r.key })

/-! ### Binding (R28 to R31) -/

/-- The events whose thresholds a bound recipe sets. -/
def recipeIds : List EventId := [.entryEnd .a, .entryEnd .b, .tailAdvance .a, .tailAdvance .b]

/-- A record as a binding leaves it (R29): a code no slot holds falls back to 0. -/
def Rec.bind (r : Rec) (s : State) : Rec :=
  let known := (s.recipes.active.lookup r.species).isSome
  { r with
    bound := some (s.bindingNow r)
    species := if known then r.species else 0
    source := if known then r.source else .fallbackUnknown }

/-- The Log Track binds a record whose bound is absent, and hands the binding to the Setpoint Unit and the
advisory; the crossings of the thresholds that come into being are answered beside the state (R28 to R31). -/
def State.bindRec (s : State) (key : Nat) : State × List Crossing :=
  match s.rec? key with
  | none => (s, [])
  | some r =>
    if r.bound.isSome then (s, [])
    else
      let t := s.onRec key (fun q => q.bind s)
      let born := crossingsOf s t recipeIds (r.bind s)
      let u := t.evalPressFor key
      let u := if (s.recipes.active.lookup r.species).isSome then u else u.evalLiftFor key
      (u.advise, born)

/-! ### Taking crossing events (R9, R10) -/

/-- Take one crossing event, a leading end at ring A's plane without its binding; an event of a record that has
left the track is gone with it (R8). -/
def State.takeCrossing (s : State) (c : Crossing) : State :=
  match s.rec? c.key with
  | none => s
  | some r =>
    match c.id with
    | .withdrawal => s.withdraw c.key
    | .entryWindow => s.entryWindowPassed r
    | .tailWindow => s.tailWindowPassed r
    | .sample k _ => s.sampleEvent k c.key
    | id => s.ringEvent c.key id

/-- Take one crossing event; ring A's leading end at the plane binds its record, in every state and mode (R28,
R113), and the crossings the binding brings are answered. -/
def State.takeEvent (s : State) (c : Crossing) : State × List Crossing :=
  if c.id = .plane .a then (s.takeCrossing c).bindRec c.key else (s.takeCrossing c, [])

/-- The place of an event in R8's table, its first row 0. -/
def EventId.row : EventId → Nat
  | .withdrawal => 0
  | .entryWindow => 1
  | .arm _ => 2
  | .plane _ => 3
  | .backOut _ => 4
  | .entryEnd _ => 5
  | .sample _ _ => 6
  | .tailAdvance _ => 7
  | .tailBackIn _ => 8
  | .tailOut _ => 9
  | .tailWindow => 10

/-- How many records lie downstream of the record of a key. -/
def State.rankOf (s : State) (key : Nat) : Nat := s.track.findIdx (fun r => r.key == key)

/-- A forward crossing comes before another by R10: at a lower position; at the same one, of a more downstream record;
of the same record there, higher in R8's table. -/
def Crossing.precedes (s : State) (c e : Crossing) : Bool :=
  decide (c.at_ < e.at_) ||
    (decide (c.at_ = e.at_) &&
      (decide (s.rankOf c.key < s.rankOf e.key) || (decide (c.key = e.key) && decide (c.id.row < e.id.row))))

/-- Take the events of one cause in their order, those that bindings bring on the way falling in where R10 puts them
among the events that wait (R8 note, R10, R31, R114; log 6). -/
def runEvents : List Crossing → List Crossing → State → State
  | [], born, s => born.foldl State.takeCrossing s
  | e :: rest, born, s =>
    let t := (born.takeWhile (Crossing.precedes s · e)).foldl State.takeCrossing s
    let later := born.dropWhile (Crossing.precedes s · e)
    let x := t.takeEvent e
    runEvents rest (sortBy Crossing.at_ (later ++ x.2)) x.1

/-- Some record's B0 or length differs from the one held before. -/
def moved (before now : State) : Bool :=
  now.track.any (fun r =>
    match before.rec? r.key with
    | some q => decide (q.b0 ≠ r.b0) || decide (q.length ≠ r.length)
    | none => false)

/-- What follows a change of the front, of records or of thresholds: its crossing events are taken (R8, R10), a change of
B0 or length is handed to the rings (R121), and the advisory is recomputed (R43). -/
def State.afterMove (s before : State) : State :=
  let t := runEvents (crossings before s) [] s
  let t := if moved before s then (t.ringMoved .a).ringMoved .b else t
  t.advise

/-! ### A step of the feed position (R2, R5, R6) -/

/-- The front follows P in the flag's direction (R6). -/
def Feed.moveFront (f : Feed) : Feed :=
  match f.dir with
  | .fwd => if 0 < posDiff f.pos f.front then { f with front := f.pos } else f
  | .rev => if posDiff f.pos f.front < 0 then { f with front := f.pos } else f

/-- The flag turns when P has come back 5 mm from the front, and the front becomes P (R5, R6). -/
def Feed.turn (f : Feed) : Feed :=
  match f.dir with
  | .fwd => if 5 ≤ posDiff f.front f.pos then { f with dir := .rev, front := f.pos } else f
  | .rev => if 5 ≤ posDiff f.pos f.front then { f with dir := .fwd, front := f.pos } else f

/-- One step of P with its front and flag (R5, R6). -/
def Feed.step (f : Feed) (up : Bool) : Feed :=
  ({ f with pos := if up then f.pos + 1 else f.pos - 1 } : Feed).moveFront.turn

/-- One step of the feed position, with the push of an open stray and the crossing events (R2, R8, R19). -/
def State.stepPos (s : State) (up : Bool) : State :=
  let t := { s with feed := s.feed.step up }
  t.pushed.afterMove s

/-- A number of steps in one direction, each taken in order (R2). -/
def State.stepsPos (s : State) (up : Bool) : Nat → State
  | 0 => s
  | n + 1 => (s.stepPos up).stepsPos up n

end Sys2Proof.Machine
end

