-- ==== Sys2Proof/Machine/FeedCommands.lean ====
section
/-! DEFINITION. ENCODER_CHANGE and SPEED_UPDATE (01). -/

namespace Sys2Proof.Machine

/-- What a change of the encoder lines counts (R1). -/
inductive Count where
  | forward | reverse | nothing
  deriving DecidableEq, Repr

/-- The next line state of the forward cycle 00, 10, 11, 01 (R1). -/
def nextEnc : Bool × Bool → Bool × Bool
  | (false, false) => (true, false)
  | (true, false) => (true, true)
  | (true, true) => (false, true)
  | (false, true) => (false, false)

/-- The count of a change from the accepted line state to a new one (R1). -/
def encoderCount (accepted now : Bool × Bool) : Count :=
  if now = nextEnc accepted then .forward
  else if accepted = nextEnc now then .reverse
  else .nothing

/-- How many steps of P a forward count gives, and the residue left (R2): 1000 is added to r, and P rises by 1 for each
scale that r holds. -/
def forwardSteps (scale r : Nat) : Nat × Nat := ((r + 1000) / scale, (r + 1000) % scale)

/-- How many steps of P a reverse count gives, and the residue left (R2): 1000 is taken from r, and P falls by 1 for
each scale that brings r back to 0 or above. -/
def reverseSteps (scale r : Nat) : Nat × Nat :=
  if 1000 ≤ r then (0, r - 1000)
  else
    let n := (1000 - r + (scale - 1)) / scale
    (n, n * scale - (1000 - r))

/-- The feed after a change of the lines has been accepted, with the steps of P it gives still to be taken: how many and
whether forward (R1, R2). -/
def State.acceptEnc (s : State) (now : Bool × Bool) : State × Nat × Bool :=
  let t (r : Nat) : State := { s with feed := { s.feed with enc := now, residue := r } }
  match encoderCount s.feed.enc now with
  | .forward =>
    let x := forwardSteps s.points.scale s.feed.residue
    (t x.2, x.1, true)
  | .reverse =>
    let x := reverseSteps s.points.scale s.feed.residue
    (t x.2, x.1, false)
  | .nothing => (t s.feed.residue, 0, true)

/-- ENCODER_CHANGE: the lines take new levels, the change is counted and P stepped through the residue (R1, R2). -/
def execEncoderChange (enc1 enc2 : Bool) (s : State) : Host.Outcome State Fault Refusal :=
  let s := { s with lines := { s.lines with enc1 := enc1, enc2 := enc2 } }
  let x := s.acceptEnc (enc1, enc2)
  .next (x.1.stepsPos x.2.2 x.2.1)

/-- The speed a measurement gives: the difference from the position kept, times 20, held within −2500..+2500 (R7). -/
def measuredSpeed (f : Feed) : Int := heldWithin (-2500) 2500 (posDiff f.pos f.kept * 20)

/-- SPEED_UPDATE: v is measured, the pressing rings' targets are evaluated and the advisory recomputed (R7). -/
def execSpeedUpdate (s : State) : Host.Outcome State Fault Refusal :=
  let t := { s with feed := { s.feed with speed := measuredSpeed s.feed, kept := s.feed.pos } }
  .next t.evalPresses.advise

end Sys2Proof.Machine
end

