-- ==== Sys2Proof/Machine/InputCommands.lean ====
section
/-! DEFINITION. The discrete inputs: the emergency stop (R157), the rotor-run inputs (R158) and the key switch
(R197).  A level's hold is pending while the line differs from the level taken (log 3). -/

namespace Sys2Proof.Machine

/-! ### The emergency stop (R157) -/

/-- The Release Unit takes the emergency stop as ACTIVE: the cause ESTOP is raised and the Feed Permit recomputed
(R157). -/
def State.takeEstop (s : State) : State :=
  let t := { s with release := { s.release with estopActive := true } }
  (t.raiseCause .estop).recomputePermit

/-- ESTOP_INPUT_CHANGE: a change to ACTIVE is taken at once where INACTIVE is the level taken; a change to INACTIVE
begins its hold, and a return to ACTIVE drops the hold (R157).  The level already on the line is no change. -/
def execEstopInputChange (active : Bool) (s : State) : Host.Outcome State Fault Refusal :=
  if s.lines.estopActive = active then .next s
  else
    let t := { s with lines := { s.lines with estopActive := active } }
    if active && !s.release.estopActive then .next t.takeEstop else .next t

/-- ESTOP_INACTIVE_TAKEN: INACTIVE has held 8 ms and is taken; the ESTOP entry stays and the Feed Permit is recomputed
(R157).  With no such hold running there is none to take (log 11). -/
def execEstopInactiveTaken (s : State) : Host.Outcome State Fault Refusal :=
  if s.release.estopActive && !s.lines.estopActive then
    let t := { s with release := { s.release with estopActive := false } }
    .next t.recomputePermit
  else .next s

/-! ### The rotor-run inputs (R158) -/

/-- The raw level on ring k's rotor-run line: RUNNING. -/
def Lines.rotor (l : Lines) : Ring → Bool
  | .a => l.rotorA
  | .b => l.rotorB

/-- The lines with ring k's rotor-run level set. -/
def Lines.setRotor (l : Lines) (k : Ring) (running : Bool) : Lines :=
  match k with
  | .a => { l with rotorA := running }
  | .b => { l with rotorB := running }

/-- ROTOR_INPUT_CHANGE: the line takes the level, which begins its hold or, being the level taken, drops one
(R158). -/
def execRotorInputChange (k : Ring) (running : Bool) (s : State) : Host.Outcome State Fault Refusal :=
  .next { s with lines := Lines.setRotor s.lines k running }

/-- The Release Unit takes a rotor-run level; STOPPED in RUN or MANUAL raises ROTOR (R158). -/
def State.takeRotor (s : State) (k : Ring) (running : Bool) : State :=
  let t :=
    { s with
      release := { s.release with rotorRunning := s.release.rotorRunning.modify k (fun _ => running) } }
  if !running && decide (s.control.mode ≠ .setup) then t.raiseCause .rotor else t

/-- ROTOR_LEVEL_TAKEN: the level on the line has held 50 ms and is taken (R158).  With no hold running there is none to
take (log 11). -/
def execRotorLevelTaken (k : Ring) (s : State) : Host.Outcome State Fault Refusal :=
  if s.release.rotorRunning.get k = Lines.rotor s.lines k then .next s
  else .next (s.takeRotor k (Lines.rotor s.lines k))

/-! ### The key switch (R197) -/

/-- The key level a raw level of the key-switch line stands for. -/
def keyOf (engineer : Bool) : KeyLevel := if engineer then .engineer else .operator

/-- KEY_INPUT_CHANGE: the line takes the level, which begins its hold or, being the level taken, drops one (R197). -/
def execKeyInputChange (engineer : Bool) (s : State) : Host.Outcome State Fault Refusal :=
  .next { s with lines := { s.lines with engineer := engineer } }

/-- KEY_LEVEL_TAKEN: the level on the line has held 50 ms and is the key level (R197).  With no hold running the level
taken is the line's already. -/
def execKeyLevelTaken (s : State) : Host.Outcome State Fault Refusal := .next { s with key := keyOf s.lines.engineer }

end Sys2Proof.Machine
end

