-- ==== Sys2Proof/Machine/CellMonitor.lean ====
section
/-! DEFINITION. Reconciliation at the cells (03), and the meanings of CELL_RAW_CHANGE and CELL_EDGE (R12, R13). -/

namespace Sys2Proof.Machine

/-! ### Expected positions and windows (03) -/

/-- The expected entry position of a record: B0 + D_A − C_A. -/
def expectedEntry (s : State) (r : Rec) : Pos := posAdd r.b0 s.points.entryCell

/-- The expected tail position of a record that has a length: B0 + D_A + D_AB + D_X + length. -/
def expectedTail (s : State) (r : Rec) : Option Pos := r.length.map (fun len => posAdd r.b0 (s.points.exitCell + len))

/-- Two positions lie within the realign window W of each other. -/
def withinWindow (s : State) (p q : Pos) : Bool := decide ((posDiff p q).natAbs ≤ s.points.realignWindow)

/-! ### The entry cell -/

/-- The realignment of a record to the edge's stamp (R48). -/
def State.realignRec (s : State) (key : Nat) (stamp : Pos) : State :=
  let t := s.onRec key (fun r => { r with b0 := posAdd stamp (-s.points.entryCell), realign := .realigned })
  t.clamped.afterMove s

/-- The record of a new stray (R49). -/
def strayRec (key : Nat) (b0 : Pos) : Rec where
  key := key
  scanId := 0
  origin := .stray
  species := 0
  source := .fallbackStray
  confidence := 0
  surfaceTemp := none
  orientation := .topLeading
  length := none
  b0 := b0
  samples := []
  bound := none
  realign := .realigned
  flags := []
  peakA := 0
  peakB := 0

/-- A record placed in B0 order: behind every record whose B0 is not higher (R49). -/
def insertByB0 (x : Rec) : List Rec → List Rec
  | [] => [x]
  | r :: rest => if posDiff r.b0 x.b0 ≤ 0 then r :: insertByB0 x rest else x :: r :: rest

/-- The matching test calls for a stray: one is made and held open where the track has room (R49), else the cause and
the notice TRACK_LOST are raised (R50). -/
def State.makeStray (s : State) (stamp : Pos) : State :=
  if s.track.length < 12 then
    let x := strayRec s.nextKey (posAdd stamp (-s.points.entryCell))
    let t :=
      { s with
        track := insertByB0 x s.track
        nextKey := s.nextKey + 1
        openStray := some ⟨s.nextKey, stamp⟩ }
    (t.clamped.notice .strayLog).afterMove s
  else (s.raiseCause .trackLost).notice .trackLost

/-- The matching test with the first NOT_CHECKED record (R47).  A record whose window closed before the edge is removed
as missing and the test made again; the track's length bounds how often. -/
def State.matchEntry (s : State) (stamp : Pos) : Nat → State
  | 0 => s.makeStray stamp
  | n + 1 =>
    match s.track.find? (fun r => decide (r.realign = .notChecked)) with
    | none => s.makeStray stamp
    | some r =>
      if withinWindow s stamp (expectedEntry s r) then s.realignRec r.key stamp
      else if posDiff stamp (expectedEntry s r) < 0 then s.makeStray stamp
      else (s.removeMissing r.key).matchEntry stamp n

/-- A rising edge at the entry cell stamped FWD: the re-entry test (R46), then the matching test (R47). -/
def State.entryRise (s : State) (stamp : Pos) : State :=
  if s.track.any (fun r => decide (r.realign ≠ .notChecked) && withinWindow s stamp (expectedEntry s r)) then s
  else s.matchEntry stamp s.track.length

/-- A falling edge at the entry cell stamped FWD closes the open stray with its measured length (R52). -/
def State.strayClose (s : State) (stamp : Pos) : State :=
  match s.openStray with
  | none => s
  | some o =>
    let len := (heldWithin 1000 12000 (posDiff stamp o.rise)).toNat
    let t := s.onRec o.key (fun r => { r with length := some len })
    let t := { t with openStray := none }
    t.clamped.afterMove s

/-- A falling edge at the entry cell stamped REV withdraws the open stray (R53). -/
def State.strayWithdraw (s : State) : State :=
  match s.openStray with
  | none => s
  | some o => s.withdraw o.key

/-- The entry cell's waiting record is settled after a rising edge stamped FWD: still NOT_CHECKED, it becomes
UNCONFIRMED (R55). -/
def State.settleEntryRise (s : State) : State :=
  match s.cells.entry.waiting with
  | none => s
  | some key =>
    let t := s.onCell .entry (fun c => { c with waiting := none })
    t.onRec key (fun r => if r.realign = .notChecked then { r with realign := .unconfirmed } else r)

/-- The entry cell's waiting record is decided by the filtered level (R55). -/
def State.settleEntry (s : State) : State :=
  match s.cells.entry.waiting with
  | none => s
  | some key =>
    let t := s.onCell .entry (fun c => { c with waiting := none })
    if t.cells.entry.blocked then t.onRec key (fun r => { r with realign := .unconfirmed })
    else t.removeMissing key

/-! ### The exit cell -/

/-- The records finished one at a time, the most downstream first (R61). -/
def State.finishAll (s : State) (keys : List Nat) : State := keys.foldl State.finish s

/-- A record's tail window holds a stamp (R57). -/
def tailWithin (s : State) (stamp : Pos) (r : Rec) : Bool :=
  match expectedTail s r with
  | some p => withinWindow s stamp p
  | none => false

/-- A falling edge at the exit cell stamped FWD: the candidate is finished after the LONG records ahead of it (R57);
with no candidate the oldest LONG record is, or EXIT_UNMATCHED is raised (R58). -/
def State.exitFall (s : State) (stamp : Pos) : State :=
  match s.track.find? (tailWithin s stamp) with
  | some c =>
    let ahead := (s.track.takeWhile (fun r => r.key != c.key)).filter (fun r => r.flags.contains .long)
    (s.finishAll (ahead.map Rec.key)).finish c.key
  | none =>
    match s.track.find? (fun r => r.flags.contains .long) with
    | some r => s.finish r.key
    | none => s.notice .exitUnmatched

/-- The exit cell's waiting record is decided by the filtered level (R59, R60). -/
def State.settleExit (s : State) : State :=
  match s.cells.exit.waiting with
  | none => s
  | some key =>
    let t := s.onCell .exit (fun c => { c with waiting := none })
    if t.cells.exit.blocked then t.onRec key (Rec.flag · [.long]) else t.finishInferred key

/-! ### Edges and raw changes -/

/-- An edge of the entry cell, by its sense and its stamp direction (R45). -/
def State.entryEdge (s : State) (rising : Bool) (stamp : Stamp) : State :=
  match rising, stamp.dir with
  | true, .fwd => (s.entryRise stamp.pos).settleEntryRise
  | true, .rev => s.settleEntry
  | false, .fwd => s.strayClose stamp.pos
  | false, .rev => s.strayWithdraw.settleEntry

/-- An edge of the exit cell, by its sense and its stamp direction (R56). -/
def State.exitEdge (s : State) (rising : Bool) (stamp : Stamp) : State :=
  match rising, stamp.dir with
  | true, _ => s
  | false, .fwd => (s.exitFall stamp.pos).settleExit
  | false, .rev => s.settleExit

/-- CELL_EDGE: a candidate's level has held 8 ms; the filtered level becomes it and the edge is handed to
reconciliation (R12, R13).  Without a candidate there is no edge to take (log 11). -/
def execCellEdge (c : Cell) (s : State) : Host.Outcome State Fault Refusal :=
  match (s.cells.get c).candidate with
  | none => .next s
  | some stamp =>
    let rising := !(s.cells.get c).blocked
    let t := s.onCell c (fun q => { q with blocked := rising, candidate := none })
    .next (match c with
      | .entry => t.entryEdge rising stamp
      | .exit => t.exitEdge rising stamp)

/-- The raw level last seen on a cell's line. -/
def Lines.cellBlocked (l : Lines) : Cell → Bool
  | .entry => l.entryBlocked
  | .exit => l.exitBlocked

/-- The lines with a cell's raw level set. -/
def Lines.setCell (l : Lines) (c : Cell) (blocked : Bool) : Lines :=
  match c with
  | .entry => { l with entryBlocked := blocked }
  | .exit => { l with exitBlocked := blocked }

/-- The waiting record of a cell whose candidate is dropped is settled by the filtered level (R55, R60). -/
def State.settleDropped (s : State) : Cell → State
  | .entry => s.settleEntry
  | .exit => s.settleExit

/-- CELL_RAW_CHANGE: away from the filtered level a candidate is made with the present P and flag; back to it the
candidate is dropped (R12).  The level already on the line is no change. -/
def execCellRawChange (c : Cell) (blocked : Bool) (s : State) : Host.Outcome State Fault Refusal :=
  if Lines.cellBlocked s.lines c = blocked then .next s
  else
    let t := { s with lines := Lines.setCell s.lines c blocked }
    if blocked = (s.cells.get c).blocked then
      .next ((t.onCell c (fun q => { q with candidate := none })).settleDropped c)
    else .next (t.onCell c (fun q => { q with candidate := some ⟨s.feed.pos, s.feed.dir⟩ }))

end Sys2Proof.Machine
end

