-- ==== Sys2Proof/Machine/Requests.lean ====
section
/-! DEFINITION. How a port takes a request: its queue, the checks of R194 in their order, the reply (R193 to R195,
R197, R176). -/

namespace Sys2Proof.Machine

/-- The kind may be sent on the port (R195). -/
def permitted : Kind → Port → Bool
  | .status, _ | .noticeEnable, _ | .noticeClear, _ => true
  | .profile, p => decide (p = .scanner)
  | .speciesSet, p => decide (p = .line)
  | .trackRead, p | .release, p | .resume, p | .mark, p => decide (p ≠ .scanner)
  | .mode, p | .winter, p | .summer, p | .recipeWrite, p | .recipeRead, p | .recipeDelete, p | .recipeCommit, p
  | .recipeDiscard, p | .manualSet, p | .speciesForce, p | .point, p | .save, p | .restart, p
  | .noticeRaise, p => decide (p = .panel)

/-- The mode refuses the kind (R176). -/
def modeRefuses : Kind → Mode → Bool
  | .speciesForce, m => decide (m = .setup)
  | .restart, m => decide (m ≠ .setup)
  | _, _ => false

/-- The kind needs the key at ENGINEER on the Panel port (R197). -/
def needsEngineer (k : Kind) (payload : List Byte) : Bool :=
  match k with
  | .restart | .noticeRaise => true
  | .noticeEnable => decide (u8 payload 0 ≤ 1)
  | _ => false

/-- A NOTICE_ENABLE names another port's enable set from a port other than the Panel (R194 check 4). -/
def namesOtherPort (p : Port) (k : Kind) (payload : List Byte) : Bool :=
  decide (k = .noticeEnable) && decide (p ≠ .panel) &&
    match Port.ofCode (u8 payload 0) with
    | some q => decide (q ≠ p)
    | none => false

/-- A POINT's point number. -/
def pointNumber (payload : List Byte) : Nat := u16 payload 0 / 2

/-- A POINT's address is a write address (R198, R199). -/
def isWriteAddress (payload : List Byte) : Bool := decide (u16 payload 0 % 2 = 1)

/-- Checks 6 and 7 of R194 for a POINT: the point exists; a write names a point that is not LIVE, at a key level that
allows its class, in a mode that does. -/
def pointRefusal (s : State) (payload : List Byte) : Option Result :=
  match Point.ofNumber (pointNumber payload) with
  | none =>
    if isLivePoint (pointNumber payload) then
      if isWriteAddress payload then some .readOnly else none
    else some .noPoint
  | some q =>
    if isWriteAddress payload then
      if q.cls ≠ .operator ∧ s.key = .operator then some .access
      else if q.cls = .geometry ∧ s.control.mode ≠ .setup then some .mode
      else none
    else none

/-- The result of the first of checks 2 to 7 of R194 that a request of a known kind fails. -/
def refusal (s : State) (p : Port) (k : Kind) (payload : List Byte) : Option Result :=
  if !permitted k p then some .notPermitted
  else if !layoutFits k payload then some .badFormat
  else if namesOtherPort p k payload then some .notPermitted
  else if decide (p = .panel) && decide (s.key = .operator) && needsEngineer k payload then some .access
  else if k = .point then pointRefusal s payload
  else if modeRefuses k s.control.mode then some .mode
  else none

/-- The requests of no known kind at the head of a queue, answered BAD_FORMAT as they reach it (R194 check 1;
log 12). -/
def flushUnknown : List Req → List OutItem → List Req × List OutItem
  | [], out => ([], out)
  | r :: rest, out =>
    if (Kind.ofByte r.kind).isNone then
      flushUnknown rest (out ++ [.telegram (replyByte r.kind) [byte Result.badFormat.code]])
    else (r :: rest, out)

/-- A port whose queue's head is a request of a known kind, or whose queue is empty. -/
def PortState.flush (q : PortState) : PortState :=
  let x := flushUnknown q.queue q.out
  { q with queue := x.1, out := x.2 }

/-- Answer the request at the head of a port's queue: its reply is placed and it leaves the queue (R193). -/
def State.answer (s : State) (p : Port) (r : Req) (result : Result) (rest : List Byte) : State :=
  (s.reply p r result rest).onPort p (fun q => { q with queue := q.queue.tail }.flush)

/-- A SAVE's write is in flight and holds the head of the port's queue (R193, R206). -/
def State.saving (s : State) (p : Port) : Bool := decide (p = .panel) && s.store.snapshot.isSome

/-- The request a port takes next, where it is one of those wanted and no SAVE in flight holds the queue. -/
def State.request? (s : State) (p : Port) (want : Req → Bool) : Option Req :=
  match (s.ports.get p).queue with
  | [] => none
  | r :: _ => if want r && !s.saving p then some r else none

/-- A request of a kind. -/
def ofKind (k : Kind) (r : Req) : Bool := decide (Kind.ofByte r.kind = some k)

/-- What a request's own entry makes of it: the state after its effect, the result, and what follows the result code
in the reply. -/
structure Effect where
  state : State
  result : Result
  rest : List Byte := []

/-- A port takes the request at the head of its queue, where it is one of those wanted: the first check of R194 it
fails gives the reply and changes nothing; else its effect is made and answered.  Where no such request is at the head
there is nothing to take (log 11). -/
def State.serve (s : State) (p : Port) (k : Kind) (want : Req → Bool) (effect : Req → State → Effect) : State :=
  match s.request? p want with
  | none => s
  | some r =>
    match refusal s p k r.payload with
    | some e => s.answer p r e []
    | none =>
      let x := effect r s
      x.state.answer p r x.result x.rest

end Sys2Proof.Machine
end

