-- ==== Sys2Proof/Machine/RecipeCommands.lean ====
section
/-! DEFINITION. The recipe telegrams (04). -/

namespace Sys2Proof.Machine

/-- A record offered to a slot passes checks 2 to 6 of R69, the name read from its field. -/
def recipeFits (shadow : Table) (slot : Nat) (field : List Byte) (r : Species) : Bool :=
  decide (slot ≤ 23) && codeSuits slot r.code && nameFits field && curvesFit r && noOtherHolds shadow slot r.code

/-- RECIPE_WRITE's own checks and effect (R69, R70). -/
def recipeWriteEffect (req : Req) (s : State) : Effect :=
  let slot := u8 req.payload 0
  let r := readSpecies req.payload 1
  if s.recipes.swapPending then ⟨s, .swapPending, []⟩
  else if recipeFits s.recipes.shadow slot (nameField req.payload 1) r then
    let t :=
      { s with recipes := { s.recipes with shadow := s.recipes.shadow.set slot (some (clampSpecies r)) } }
    ⟨t, if clampSpecies r = r then .ok else .clamped, []⟩
  else ⟨s, .badValue, []⟩

/-- RECIPE_WRITE (R69, R70). -/
def execRecipeWrite (p : Port) (s : State) : Host.Outcome State Fault Refusal :=
  .next (s.serve p .recipeWrite (ofKind .recipeWrite) recipeWriteEffect)

/-- The table a RECIPE_READ names (11, recipe table codes). -/
def Recipes.table (r : Recipes) : Nat → Option Table
  | 0 => some r.active
  | 1 => some r.shadow
  | _ => none

/-- RECIPE_READ's own checks and reply (R72). -/
def recipeReadEffect (req : Req) (s : State) : Effect :=
  let slot := u8 req.payload 1
  match s.recipes.table (u8 req.payload 0) with
  | none => ⟨s, .badValue, []⟩
  | some t =>
    if 23 < slot then ⟨s, .badValue, []⟩
    else
      match (t[slot]?).join with
      | none => ⟨s, .noRecord, []⟩
      | some r => ⟨s, .ok, byte (u8 req.payload 0) :: byte slot :: speciesBytes r⟩

/-- RECIPE_READ (R72). -/
def execRecipeRead (p : Port) (s : State) : Host.Outcome State Fault Refusal :=
  .next (s.serve p .recipeRead (ofKind .recipeRead) recipeReadEffect)

/-- RECIPE_DELETE's own checks and effect (R71). -/
def recipeDeleteEffect (req : Req) (s : State) : Effect :=
  let slot := u8 req.payload 0
  if s.recipes.swapPending then ⟨s, .swapPending, []⟩
  else if slot = 0 ∨ 23 < slot then ⟨s, .badValue, []⟩
  else ⟨{ s with recipes := { s.recipes with shadow := s.recipes.shadow.set slot none } }, .ok, []⟩

/-- RECIPE_DELETE (R71). -/
def execRecipeDelete (p : Port) (s : State) : Host.Outcome State Fault Refusal :=
  .next (s.serve p .recipeDelete (ofKind .recipeDelete) recipeDeleteEffect)

/-- RECIPE_COMMIT's effect: the swap at once with ring A open (R73), staged while it presses (R74). -/
def recipeCommitEffect (_ : Req) (s : State) : Effect :=
  if (s.ringState .a).pressing then
    ⟨{ s with recipes := { s.recipes with swapPending := true } }, .staged, []⟩
  else ⟨s.swap, .ok, []⟩

/-- RECIPE_COMMIT (R73, R74). -/
def execRecipeCommit (p : Port) (s : State) : Host.Outcome State Fault Refusal :=
  .next (s.serve p .recipeCommit (ofKind .recipeCommit) recipeCommitEffect)

/-- The shadow table made a copy of the active table and the pending flag cleared (R80, R84). -/
def Recipes.discard (r : Recipes) : Recipes := { r with shadow := r.active, swapPending := false }

/-- RECIPE_DISCARD's effect (R80). -/
def recipeDiscardEffect (_ : Req) (s : State) : Effect := ⟨{ s with recipes := s.recipes.discard }, .ok, []⟩

/-- RECIPE_DISCARD (R80). -/
def execRecipeDiscard (p : Port) (s : State) : Host.Outcome State Fault Refusal :=
  .next (s.serve p .recipeDiscard (ofKind .recipeDiscard) recipeDiscardEffect)

end Sys2Proof.Machine
end

