-- ==== Sys2Proof/Machine/PowerCommands.lean ====
section
/-! DEFINITION. POWER_ON and RESTART: the values each block takes at a start (R11, R14, R44, R62, R83, R84, R107,
R133, R153, R172, R173, R189, R207 to R209). -/

namespace Sys2Proof.Machine

/-- The Feed Counter at a start (R11). -/
def startFeed (l : Lines) : Feed where
  pos := 0
  residue := 0
  dir := .fwd
  front := 0
  speed := 0
  kept := 0
  enc := (l.enc1, l.enc2)

/-- A cell at a start: its filtered level is the raw one, with no candidate and no waiting record (R14, R62). -/
def startCell (blocked : Bool) : CellState where
  blocked := blocked
  candidate := none
  waiting := none

/-- The lift target at a start: the park lift held within 0..ceiling (R107). -/
def startLift (pts : Points) : Nat := min pts.parkLift pts.ceiling

/-- The Setpoint Unit at a start, one ring (R107). -/
def startSetpoint (pts : Points) : Setpoint where
  pressTarget := 0
  liftTarget := startLift pts
  lastFlags := []

/-- The interlock at a warm restart: nothing released, an interval running for LIFT whose zero frame is the first frame
after the restart (R153). -/
def restartInterlock : Interlock where
  intent := .lift
  released := none
  interval := some ⟨.lift, none⟩
  hold := false

/-- The Valve Line at a start, with the IDLE intents at the park lift handed on (R133, R153). -/
def startValve (pts : Points) (il : Interlock) : Valve where
  chans := ⟨resetChan 0, resetChan (startLift pts), resetChan 0, resetChan (startLift pts)⟩
  rings := ⟨il, il⟩

/-- The Release Unit at a start, before an emergency stop found ACTIVE raises its cause (R172). -/
def startRelease (l : Lines) : Release where
  causes := .empty
  level := .none
  estopActive := l.estopActive
  rotorRunning := ⟨l.rotorA, l.rotorB⟩

/-- The Feed Permit's first value and the causes found at a start (R172, R173). -/
def State.startCauses (s : State) : State :=
  let t := s.recomputePermit
  if t.release.estopActive then t.raiseCause .estop else t

/-- A port at a power-on (R209). -/
def startPort (p : Port) : PortState where
  receiver := .hunting
  queue := []
  out := []
  status := []
  enable := defaultEnable p
  sending := []

/-- A port at a warm restart: its enable set and its output list are kept (R208, R209). -/
def PortState.restart (q : PortState) : PortState := { q with receiver := .hunting, queue := [], status := [] }

/-- Every block but the ports and the stored settings takes its start values, from the lines as they stand (R207,
R208). -/
def State.startBlocks (s : State) (il : Interlock) : State :=
  { s with
    feed := startFeed s.lines
    track := []
    cells := ⟨startCell s.lines.entryBlocked, startCell s.lines.exitBlocked⟩
    openStray := none
    recipes := s.recipes.discard
    setpoint := ⟨startSetpoint s.points, startSetpoint s.points⟩
    ring := ⟨resetSequencer, resetSequencer⟩
    valve := startValve s.points il
    release := startRelease s.lines
    marks := ⟨false, false, false, false⟩
    control := { s.control with mode := .setup, manualPress := ⟨0, 0⟩, manualLift := ⟨0, 0⟩ }
    key := keyOf s.lines.engineer
    store := { s.store with snapshot := none } }

/-- What a start loads from an image (R207). -/
def State.load (s : State) (i : Image) : State :=
  { s with
    points := i.points
    recipes := { s.recipes with active := i.table }
    control := { s.control with season := i.season } }

/-- POWER_ON: the Settings Store is read, or the factory defaults loaded, and every block takes its power-on values,
the lines standing as given; STORE_DEFAULTS is raised where the defaults were loaded (R207). -/
def execPowerOn (l : Lines) (s : State) : Host.Outcome State Fault Refusal :=
  let image := s.store.valid?
  let t := ({ s with lines := l }.load (image.getD factoryImage)).startBlocks resetInterlock
  let t := { t with lastAdvise := 2000, ports := ⟨startPort .scanner, startPort .line, startPort .panel⟩ }
  let t := if image.isNone then t.notice .storeDefaults else t
  .next t.startCauses

/-- The warm restart (R208).  On the Line port's list an ADVISE of R44 comes before the NOTICE due of R172's
RELEASE_CHANGED (log 37, DESIGN CHOICE). -/
def State.warmRestart (s : State) : State :=
  let t := s.startBlocks restartInterlock
  let t := { t with ports := t.ports.map PortState.restart }
  t.advise.startCauses

/-- RESTART's effect: the warm restart, its reply placed as it ends (R208). -/
def restartEffect (_ : Req) (s : State) : Effect := ⟨s.warmRestart, .ok, []⟩

/-- RESTART (R208). -/
def execRestart (p : Port) (s : State) : Host.Outcome State Fault Refusal :=
  .next (s.serve p .restart (ofKind .restart) restartEffect)

end Sys2Proof.Machine
end

