-- ==== Sys2Proof/Machine/LinkCommands.lean ====
section
/-! DEFINITION. TELEGRAM_RECEIVED, BYTE_RECEIVED, INTER_BYTE_TIMEOUT and TELEGRAM_SEND_BEGIN (R191 to R193,
R196). -/

namespace Sys2Proof.Machine

/-! ### Telegrams received (R191, R193) -/

/-- A RESTART that arrives while a SAVE is in flight is taken on arrival: refused at once, the SAVE running on, or the
warm restart made, which abandons the write and drops the SAVE (R208). -/
def State.restartOnArrival (s : State) (r : Req) : State :=
  match refusal s .panel .restart r.payload with
  | some e => s.reply .panel r e []
  | none => s.warmRestart.reply .panel r .ok []

/-- A telegram whose CRC matches, complete on a port (R191, R193): of kind 0x80 or above it is discarded; a SAVE or a
RESTART that meets a SAVE in flight is dealt with on arrival; with 4 requests held it is answered BUSY at once; else it
joins the queue with the feed position held now. -/
def State.accept (s : State) (p : Port) (kind : Byte) (payload : List Byte) : State :=
  let r : Req := ⟨kind, payload, s.feed.pos⟩
  if 0x80 ≤ kind.toNat then s
  else if s.saving p && ofKind .save r then s.reply p r .busy []
  else if s.saving p && ofKind .restart r then s.restartOnArrival r
  else if 4 ≤ (s.ports.get p).queue.length then s.reply p r .busy []
  else s.onPort p (fun q => { q with queue := q.queue ++ [r] }.flush)

/-- A receiver's next state. -/
def State.receive (s : State) (p : Port) (r : Receiver) : State := s.onPort p (fun q => { q with receiver := r })

/-- TELEGRAM_RECEIVED: a whole telegram, its CRC matching, completes on a port (R191; log 13).  A payload above 240 bytes
never frames a telegram. -/
def execTelegramReceived (p : Port) (kind : Byte) (payload : List Byte) (s : State) :
    Host.Outcome State Fault Refusal :=
  if payload.length ≤ maxPayload then .next ((s.receive p .hunting).accept p kind payload) else .next s

/-- INTER_BYTE_TIMEOUT: the gap between two bytes of a telegram has passed 20 ms; the partial telegram is discarded
(R191). -/
def execInterByteTimeout (p : Port) (s : State) : Host.Outcome State Fault Refusal := .next (s.receive p .hunting)

/-- The bytes of a telegram end with the CRC of the rest (R192). -/
def crcMatches (bytes : List Byte) : Bool :=
  let body := bytes.take (bytes.length - 2)
  decide (bytes.drop (bytes.length - 2) = bytes16 (crc16 body).toNat)

/-- The bytes taken since the start byte, with the one that has just arrived (R191): a length byte above 240 is
discarded with the start byte; the last byte of the CRC completes the telegram, which is handed on where the CRC matches
and discarded where it does not. -/
def State.frameByte (s : State) (p : Port) (bytes : List Byte) : State :=
  if maxPayload < u8 bytes 0 then s.receive p .hunting
  else if bytes.length < u8 bytes 0 + 4 then s.receive p (.framing bytes)
  else
    let t := s.receive p .hunting
    if crcMatches bytes then t.accept p (bytes.getD 1 0) ((bytes.drop 2).take (u8 bytes 0)) else t

/-- BYTE_RECEIVED (R191). -/
def execByteReceived (p : Port) (b : Byte) (s : State) : Host.Outcome State Fault Refusal :=
  match (s.ports.get p).receiver with
  | .hunting => .next (if b = 0xA5 then s.receive p (.framing []) else s)
  | .framing taken => .next (s.frameByte p (taken ++ [b]))

/-! ### Telegrams sent (R196) -/

/-- The bytes an output entry puts on the line as it begins to be sent; none for a NOTICE due whose listing is empty
(R196, R200). -/
def PortState.bytesOf (q : PortState) : OutItem → Option (List Byte)
  | .telegram kind payload => some (frameBytes kind payload)
  | .advise limit => some (frameBytes adviseByte (bytes16 limit))
  | .noticeDue =>
    if q.listing.isEmpty then none
    else some (frameBytes noticeByte (byte q.listing.length :: q.listing.map (fun k => byte k.code)))

/-- The entry at the head of an output list leaves it: its telegram begins to be sent, or, being a NOTICE due of an empty
listing, it is dropped (R196). -/
def PortState.sendBegin (q : PortState) : PortState :=
  match q.out with
  | [] => q
  | x :: rest => { q with out := rest, sending := (q.bytesOf x).getD q.sending }

/-- TELEGRAM_SEND_BEGIN (R196).  With an empty output list nothing begins (log 11). -/
def execTelegramSendBegin (p : Port) (s : State) : Host.Outcome State Fault Refusal :=
  .next (s.onPort p PortState.sendBegin)

end Sys2Proof.Machine
end

