-- ==== Sys2Proof/Machine/ModeCommands.lean ====
section
/-! DEFINITION. MODE, WINTER, SUMMER and MANUAL_SET (09). -/

namespace Sys2Proof.Machine

/-! ### MODE (R177, R178) -/

/-- A ring at a change of mode to SETUP: to IDLE, unless it is held (R128). -/
def State.ringToSetup (s : State) (k : Ring) : State :=
  if s.ringState k = .held then s else s.goOpen k .idle none

/-- A ring at a change of mode out of SETUP: in IDLE it takes its state by geometry (R129). -/
def State.ringFromSetup (s : State) (k : Ring) : State :=
  if s.ringState k = .idle then s.takeGeometry k else s

/-- Either rotor-run input is taken as STOPPED (R158). -/
def State.rotorStopped (s : State) : Bool := !(s.release.rotorRunning.a && s.release.rotorRunning.b)

/-- The mode is changed and the change handed to the rings, the Setpoint Unit and the Release Unit (R178).  Of these
independent owners the Release Unit acts last (log 38, DESIGN CHOICE): out of SETUP with a rotor stopped, a record that
stands in a plane by its front distance alone puts the ring in BODY or TAIL before ROTOR takes it to HELD, with the
reports and the flag of that passage (R158, R125, R130). -/
def State.changeMode (s : State) (m : Mode) : State :=
  let before := s.control.mode
  let t := { s with control := { s.control with mode := m } }
  let t :=
    if m = .setup then (t.ringToSetup .a).ringToSetup .b
    else if before = .setup then (t.ringFromSetup .a).ringFromSetup .b
    else t
  let t := t.evalPresses.evalLifts
  if before = .setup ∧ t.rotorStopped then t.raiseCause .rotor else t

/-- A record covers a ring plane, read on P (R177 check 2). -/
def State.planeCovered (s : State) : Bool := s.track.any (fun r => covers s .a r || covers s .b r)

/-- MODE's own checks and effect (R177). -/
def modeEffect (req : Req) (s : State) : Effect :=
  match Mode.ofCode (u8 req.payload 0) with
  | none => ⟨s, .badValue, []⟩
  | some m =>
    if m = s.control.mode then ⟨s, .ok, []⟩
    else if (m = .setup ∨ s.control.mode = .setup) ∧ s.planeCovered then ⟨s, .busy, []⟩
    else ⟨s.changeMode m, .ok, []⟩

/-- MODE (R177). -/
def execMode (p : Port) (s : State) : Host.Outcome State Fault Refusal :=
  .next (s.serve p .mode (ofKind .mode) modeEffect)

/-! ### WINTER and SUMMER (R183) -/

/-- The season taken; a change recomputes the advisory (R183). -/
def State.setSeason (s : State) (x : Season) : State :=
  if s.control.season = x then s
  else
    let t := { s with control := { s.control with season := x } }
    t.advise

/-- A season telegram's effect (R183). -/
def seasonEffect (x : Season) (_ : Req) (s : State) : Effect := ⟨s.setSeason x, .ok, []⟩

/-- WINTER (R183). -/
def execWinter (p : Port) (s : State) : Host.Outcome State Fault Refusal :=
  .next (s.serve p .winter (ofKind .winter) (seasonEffect .winter))

/-- SUMMER (R183). -/
def execSummer (p : Port) (s : State) : Host.Outcome State Fault Refusal :=
  .next (s.serve p .summer (ofKind .summer) (seasonEffect .summer))

/-! ### MANUAL_SET (R186, R187) -/

/-- A ring's manual values stored, each held within 0..ceiling (R186). -/
def State.storeManual (s : State) (k : Ring) (press lift : Nat) : State :=
  { s with
    control :=
      { s.control with
        manualPress := s.control.manualPress.modify k (fun _ => min press s.points.ceiling)
        manualLift := s.control.manualLift.modify k (fun _ => min lift s.points.ceiling) } }

/-- MANUAL_SET's own check and effect: stored with STAGED in SETUP and RUN (R186), at once in MANUAL (R187). -/
def manualSetEffect (req : Req) (s : State) : Effect :=
  match Ring.ofCode (u8 req.payload 0) with
  | none => ⟨s, .badValue, []⟩
  | some k =>
    let press := u16 req.payload 1
    let lift := u16 req.payload 3
    let t := s.storeManual k press lift
    if s.control.mode = .manual then
      ⟨(t.evalPress k).evalLift k,
        if s.points.ceiling < press ∨ s.points.ceiling < lift then .clamped else .ok, []⟩
    else ⟨t, .staged, []⟩

/-- MANUAL_SET (R186, R187). -/
def execManualSet (p : Port) (s : State) : Host.Outcome State Fault Refusal :=
  .next (s.serve p .manualSet (ofKind .manualSet) manualSetEffect)

end Sys2Proof.Machine
end

