-- ==== Sys2Proof/Machine/NoticeCommands.lean ====
section
/-! DEFINITION. NOTICE_ENABLE, NOTICE_CLEAR and NOTICE_RAISE (R201 to R203). -/

namespace Sys2Proof.Machine

/-- A set of kinds, each held once, in the order of their codes (R200, R210). -/
def kindSet (kinds : List NoticeKind) : List NoticeKind := NoticeKind.all.filter kinds.contains

/-- NOTICE_ENABLE's own checks and effect (R201). -/
def noticeEnableEffect (req : Req) (s : State) : Effect :=
  match Port.ofCode (u8 req.payload 0), kindsOf (codesAt req.payload 2 (u8 req.payload 1)) with
  | some q, some kinds => ⟨s.onPort q (fun x => { x with enable := kindSet kinds }), .ok, []⟩
  | _, _ => ⟨s, .badValue, []⟩

/-- NOTICE_ENABLE (R201). -/
def execNoticeEnable (p : Port) (s : State) : Host.Outcome State Fault Refusal :=
  .next (s.serve p .noticeEnable (ofKind .noticeEnable) noticeEnableEffect)

/-- NOTICE_CLEAR's own check and effect, on the sending port's status set (R202). -/
def noticeClearEffect (p : Port) (req : Req) (s : State) : Effect :=
  match kindsOf (codesAt req.payload 1 (u8 req.payload 0)) with
  | some kinds =>
    ⟨s.onPort p (fun x => { x with status := x.status.filter (fun k => !kinds.contains k) }), .ok, []⟩
  | none => ⟨s, .badValue, []⟩

/-- NOTICE_CLEAR (R202). -/
def execNoticeClear (p : Port) (s : State) : Host.Outcome State Fault Refusal :=
  .next (s.serve p .noticeClear (ofKind .noticeClear) (noticeClearEffect p))

/-- NOTICE_RAISE's own checks and effect, on the named port's status set alone (R203). -/
def noticeRaiseEffect (req : Req) (s : State) : Effect :=
  match Port.ofCode (u8 req.payload 0), kindsOf (codesAt req.payload 2 (u8 req.payload 1)) with
  | some q, some kinds => ⟨s.onPort q (fun x => kinds.foldl PortState.raise x), .ok, []⟩
  | _, _ => ⟨s, .badValue, []⟩

/-- NOTICE_RAISE (R203). -/
def execNoticeRaise (p : Port) (s : State) : Host.Outcome State Fault Refusal :=
  .next (s.serve p .noticeRaise (ofKind .noticeRaise) noticeRaiseEffect)

end Sys2Proof.Machine
end

