-- ==== Sys2Proof/Machine/PointCommands.lean ====
section
/-! DEFINITION. The POINT telegram: reads, and the writes by the owner the written point is handed to (R198, R199,
R212). -/

namespace Sys2Proof.Machine

/-! ### Which row takes a POINT -/

/-- A POINT at a write address whose point is one of those wanted. -/
def writeOf (want : Option Point → Bool) (r : Req) : Bool :=
  ofKind .point r && isWriteAddress r.payload && want (Point.ofNumber (pointNumber r.payload))

/-- The owner a write of a point is handed to (R199); the rest have no behaviour of their own, and numbers that name no
point of the store are refused by the general row. -/
inductive WriteRow where
  | general | scale | geometry | windowArm | ceiling | setpoint | echo | stop | source | gate | threshold
  deriving DecidableEq, Repr

/-- The row that takes the write of a point. -/
def writeRow : Option Point → WriteRow
  | some .scale => .scale
  | some .dA | some .dAB | some .cA | some .dX => .geometry
  | some .realignWindow | some .armDistance => .windowArm
  | some .ceiling => .ceiling
  | some .floor | some .blindDiameter | some .parkLift | some .releaseLift => .setpoint
  | some (.echoEnable _) => .echo
  | some .stopOnRelease => .stop
  | some (.markSource _) => .source
  | some (.markGate _) => .gate
  | some .confidenceThreshold | some .frostThreshold => .threshold
  | some .latencyComp | some .pressLiftDead | some .liftPressDead | some .riseStep | some .fallStep | none =>
      .general

/-! ### Reads (R198) -/

/-- The value of a LIVE point (R212). -/
def liveValue (s : State) (n : Nat) : Int :=
  match n with
  | 64 => s.feed.pos.toInt
  | 65 => s.feed.speed
  | 66 => s.feed.dir.code
  | 67 => s.track.length
  | 68 => (s.ringState .a).code
  | 69 => s.ringTarget .a
  | 70 => (s.ringState .b).code
  | 71 => s.ringTarget .b
  | 72 => s.valve.chans.aPress.command
  | 73 => s.valve.chans.aLift.command
  | 74 => s.valve.chans.bPress.command
  | 75 => s.valve.chans.bLift.command
  | 76 => s.valve.chans.aPress.measured
  | 77 => s.valve.chans.aLift.measured
  | 78 => s.valve.chans.bPress.measured
  | 79 => s.valve.chans.bLift.measured
  | 80 => s.valve.chans.aPress.state.code
  | 81 => s.valve.chans.aLift.state.code
  | 82 => s.valve.chans.bPress.state.code
  | 83 => s.valve.chans.bLift.state.code
  | 84 => s.release.level.rank
  | 85 => s.release.causes.bits
  | 86 => markBits s.marks
  | 87 => s.control.mode.code
  | 88 => s.control.season.code
  | _ => s.recipes.swapPending.toNat

/-- The value of the point of a number (R198). -/
def pointValue (s : State) (n : Nat) : Int :=
  match Point.ofNumber n with
  | some q => s.points.read q
  | none => liveValue s n

/-- A POINT's reply: the point number and the value (11, reply payloads). -/
def pointReply (n : Nat) (v : Int) : List Byte := bytes16 n ++ bytesInt32 v

/-- A POINT read's reply. -/
def pointReadEffect (req : Req) (s : State) : Effect :=
  let n := pointNumber req.payload
  ⟨s, .ok, pointReply n (pointValue s n)⟩

/-- A POINT at a read address, or one too short to hold an address. -/
def readRequest (r : Req) : Bool := ofKind .point r && !isWriteAddress r.payload

/-- POINT_READ (R198). -/
def execPointRead (p : Port) (s : State) : Host.Outcome State Fault Refusal :=
  .next (s.serve p .point readRequest pointReadEffect)

/-! ### Writes (R199) -/

/-- A write that has passed the checks of R194: the value is held within the point's range or refused, stored, and
handed to the point's owner, which is given the state before the write and the point written. -/
def writeEffect (owner : Point → State → State → State) (req : Req) (s : State) : Effect :=
  let n := pointNumber req.payload
  match Point.ofNumber n with
  | none => ⟨s, .noPoint, []⟩
  | some q =>
    match q.range.take (s32 req.payload 2) with
    | none => ⟨s, .badValue, []⟩
    | some (v, held) =>
      let t := { s with points := s.points.write q v }
      ⟨owner q s t, if held then .clamped else .ok, pointReply n v⟩

/-- A row of POINT writes: the port takes a write of the row's points. -/
def State.writeRow (s : State) (p : Port) (row : WriteRow) (owner : Point → State → State → State) : State :=
  s.serve p .point (writeOf (fun q => decide (Machine.writeRow q = row))) (writeEffect owner)

/-- POINT_WRITE: latency_comp, the dead intervals and the steps are read from the next use on (R137, R140, R199); a
number that names no point, or a LIVE one, is refused by R194. -/
def execPointWrite (p : Port) (s : State) : Host.Outcome State Fault Refusal :=
  .next (s.writeRow p .general (fun _ _ t => t))

/-- A write of the scale sets the count residue to 0 (R3). -/
def scaleOwner (_ : Point) (_ t : State) : State := { t with feed := { t.feed with residue := 0 } }

/-- SCALE_WRITE (R3). -/
def execScaleWrite (p : Port) (s : State) : Host.Outcome State Fault Refusal :=
  .next (s.writeRow p .scale scaleOwner)

/-- A write of a geometry distance moves the thresholds that depend on it and may push the records behind an open
stray (R15, R19, R43). -/
def geometryOwner (_ : Point) (before t : State) : State := t.pushed.afterMove before

/-- GEOMETRY_WRITE (R15). -/
def execGeometryWrite (p : Port) (s : State) : Host.Outcome State Fault Refusal :=
  .next (s.writeRow p .geometry geometryOwner)

/-- A write of the realign window or the arm distance moves the thresholds that depend on it (R16, R62). -/
def windowArmOwner (_ : Point) (before t : State) : State := t.afterMove before

/-- WINDOW_ARM_WRITE (R16, R62). -/
def execWindowArmWrite (p : Port) (s : State) : Host.Outcome State Fault Refusal :=
  .next (s.writeRow p .windowArm windowArmOwner)

/-- A write of the ceiling reaches the Valve Line and the targets (R106, R142). -/
def ceilingOwner (_ : Point) (_ t : State) : State := t.valveCeiling.evalPresses.evalLifts

/-- CEILING_WRITE (R106, R142). -/
def execCeilingWrite (p : Port) (s : State) : Host.Outcome State Fault Refusal :=
  .next (s.writeRow p .ceiling ceilingOwner)

/-- Evaluate ring k's press target where the record it serves has no samples (R106). -/
def State.evalBlind (s : State) (k : Ring) : State :=
  match s.servedRec k with
  | some r => if r.samples.isEmpty then s.evalPress k else s
  | none => s

/-- A write of the floor, the blind diameter, the park lift or the release lift evaluates the targets that read it
(R106). -/
def setpointOwner (q : Point) (_ t : State) : State :=
  match q with
  | .floor => t.evalPresses
  | .blindDiameter => (t.evalBlind .a).evalBlind .b
  | .parkLift => (t.evalLiftIn .idle .a).evalLiftIn .idle .b
  | .releaseLift => (t.evalLiftIn .held .a).evalLiftIn .held .b
  | _ => t

/-- SETPOINT_POINT_WRITE (R106). -/
def execSetpointPointWrite (p : Port) (s : State) : Host.Outcome State Fault Refusal :=
  .next (s.writeRow p .setpoint setpointOwner)

/-- A channel at a write of its echo enable: the bad-echo run is 0, and a write that turns the enable off ends a
deviation (R151). -/
def Chan.echoWritten (c : Chan) (on : Bool) : Chan :=
  if !on ∧ c.state = .deviating then { c with badRun := 0, state := .ok, timer := false } else { c with badRun := 0 }

/-- The Valve Line takes a write of an echo enable (R151). -/
def echoOwner (q : Point) (_ t : State) : State :=
  match q with
  | .echoEnable c => t.onChan c (fun x => x.echoWritten (t.points.echoEnable.get c))
  | _ => t

/-- ECHO_ENABLE_WRITE (R151). -/
def execEchoEnableWrite (p : Port) (s : State) : Host.Outcome State Fault Refusal :=
  .next (s.writeRow p .echo echoOwner)

/-- STOP_ON_RELEASE_WRITE: the Feed Permit is recomputed (R164). -/
def execStopOnReleaseWrite (p : Port) (s : State) : Host.Outcome State Fault Refusal :=
  .next (s.writeRow p .stop (fun _ _ t => t.recomputePermit))

/-- MARK_SOURCE_WRITE: the mark keeps its state (R168). -/
def execMarkSourceWrite (p : Port) (s : State) : Host.Outcome State Fault Refusal :=
  .next (s.writeRow p .source (fun _ _ t => t))

/-- MARK_GATE_WRITE: the Feed Permit is recomputed (R168). -/
def execMarkGateWrite (p : Port) (s : State) : Host.Outcome State Fault Refusal :=
  .next (s.writeRow p .gate (fun _ _ t => t.recomputePermit))

/-- THRESHOLD_WRITE: the advisory is recomputed (R43, R185). -/
def execThresholdWrite (p : Port) (s : State) : Host.Outcome State Fault Refusal :=
  .next (s.writeRow p .threshold (fun _ _ t => t.advise))

end Sys2Proof.Machine
end

