-- ==== Sys2Proof/Machine/ReleaseCommands.lean ====
section
/-! DEFINITION. STATUS, RELEASE, RESUME and MARK (R204, R160, R162, R167). -/

namespace Sys2Proof.Machine

/-! ### STATUS (R204) -/

/-- The level of a request's entry, 0 where it is absent. -/
def requestLevel (l : Option Level) : Byte := byte (l.getD .none).rank

/-- The status block as the asking port is given it (R204; 11, the status block). -/
def statusBlock (s : State) (p : Port) : List Byte :=
  [byte s.control.mode.code, byte s.control.season.code, byte s.release.level.rank,
    byte s.release.causes.codes.length] ++ s.release.causes.codes.map byte ++
  [requestLevel s.release.causes.lineReq, requestLevel s.release.causes.panelReq, byte (s.ringState .a).code,
    byte (s.ringState .b).code, byte s.permit.toNat, byte (markBits s.marks), byte s.track.length] ++
  bytes16 s.advisedLimit ++
  [byte s.recipes.swapPending.toNat, byte s.key.code, byte (s.ports.get p).status.length] ++
  (NoticeKind.all.filter (s.ports.get p).status.contains).map (fun k => byte k.code)

/-- STATUS's reply. -/
def statusEffect (p : Port) (_ : Req) (s : State) : Effect := ⟨s, .ok, statusBlock s p⟩

/-- STATUS (R204). -/
def execStatus (p : Port) (s : State) : Host.Outcome State Fault Refusal :=
  .next (s.serve p .status (ofKind .status) (statusEffect p))

/-! ### RELEASE (R160) -/

/-- A port's request entered at a level, replacing the level of the entry present (R160). -/
def Causes.request (c : Causes) (p : Port) (l : Level) : Causes :=
  match p with
  | .line => { c with lineReq := some l }
  | _ => { c with panelReq := some l }

/-- A request is entered and the level worked out (R156, R160). -/
def State.enterRequest (s : State) (p : Port) (l : Level) : State :=
  let t := { s with release := { s.release with causes := s.release.causes.request p l } }
  t.relevel

/-- RELEASE's own check and effect (R160). -/
def releaseEffect (p : Port) (req : Req) (s : State) : Effect :=
  match releaseLevelOf (u8 req.payload 0) with
  | none => ⟨s, .badValue, []⟩
  | some l => ⟨s.enterRequest p l, .ok, []⟩

/-- RELEASE (R160, R161). -/
def execRelease (p : Port) (s : State) : Host.Outcome State Fault Refusal :=
  .next (s.serve p .release (ofKind .release) (releaseEffect p))

/-! ### RESUME (R162) -/

/-- A channel at a RESUME: FAULT, MUTE and DEVIATING become OK, the timer stops and the bad-echo run is 0 (R150). -/
def Chan.resume (c : Chan) : Chan :=
  if c.state = .ok then c else { c with state := .ok, timer := false, badRun := 0 }

/-- The entries whose end condition holds leave the set together, and the level is worked out once (R162). -/
def State.dropEnded (s : State) : State :=
  let left :=
    s.release.causes.resumed s.release.estopActive (s.release.rotorRunning.a && s.release.rotorRunning.b)
      (decide (12 ≤ s.track.length))
  let t := { s with release := { s.release with causes := left } }
  t.relevel

/-- The Valve Line takes a RESUME (R150). -/
def State.valveResume (s : State) : State :=
  { s with valve := { s.valve with chans := s.valve.chans.map Chan.resume } }

/-- RESUME's effect: OK when the set is empty afterwards, else CAUSE_PRESENT with the entries that remain (R162). -/
def resumeEffect (_ : Req) (s : State) : Effect :=
  let t := s.dropEnded.valveResume
  let left := t.release.causes.codes
  if left.isEmpty then ⟨t, .ok, []⟩ else ⟨t, .causePresent, byte left.length :: left.map byte⟩

/-- RESUME (R162, R163). -/
def execResume (p : Port) (s : State) : Host.Outcome State Fault Refusal :=
  .next (s.serve p .resume (ofKind .resume) resumeEffect)

/-! ### MARK (R167) -/

/-- MARK's own checks and effect (R167). -/
def markEffect (req : Req) (s : State) : Effect :=
  let op := u8 req.payload 0
  match marksOf (codesAt req.payload 2 (u8 req.payload 1)) with
  | none => ⟨s, .badValue, []⟩
  | some marks =>
    if 1 < op then ⟨s, .badValue, []⟩
    else ⟨marks.foldl (fun t m => t.setMark (decide (op = 1)) m) s, .ok, []⟩

/-- MARK (R167, R168). -/
def execMark (p : Port) (s : State) : Host.Outcome State Fault Refusal :=
  .next (s.serve p .mark (ofKind .mark) markEffect)

end Sys2Proof.Machine
end

