-- ==== Sys2Proof/Machine/StoreCommands.lean ====
section
/-! DEFINITION. SAVE and SAVE_COMPLETE (R205, R206). -/

namespace Sys2Proof.Machine

/-- What a SAVE taken now writes: every point not LIVE, the active table and the season (R206). -/
def State.imageNow (s : State) : Image where
  points := s.points
  table := s.recipes.active
  season := s.control.season

/-- A SAVE's write begins: the snapshot is made and the image becomes not valid (R205, R206). -/
def State.beginSave (s : State) : State :=
  { s with store := { s.store with closed := false, snapshot := some s.imageNow } }

/-- SAVE: a request that passes the checks of R194 begins its write and holds the head of its queue, unanswered (R206). -/
def execSave (p : Port) (s : State) : Host.Outcome State Fault Refusal :=
  .next (match s.request? p (ofKind .save) with
    | none => s
    | some r =>
      match refusal s p .save r.payload with
      | some e => s.answer p r e []
      | none => s.beginSave)

/-- The request at the head of the Panel port's queue is answered OK, where there is one. -/
def State.answerSave (s : State) : State :=
  match s.ports.panel.queue with
  | r :: _ => s.answer .panel r .ok []
  | [] => s

/-- SAVE_COMPLETE: the image holds the snapshot and is valid again, and the SAVE is answered OK (R206).  With no write
in flight there is none to complete (log 11). -/
def execSaveComplete (s : State) : Host.Outcome State Fault Refusal :=
  match s.store.snapshot with
  | none => .next s
  | some i =>
    let t := { s with store := { image := some i, closed := true, snapshot := none } }
    .next t.answerSave

end Sys2Proof.Machine
end

