-- ==== Sys2Proof/Machine/TrackCommands.lean ====
section
/-! DEFINITION. The requests about the track: PROFILE, TRACK_READ, SPECIES_SET, SPECIES_FORCE (02). -/

namespace Sys2Proof.Machine

/-! ### PROFILE (R20 to R27) -/

/-- The sample list brought to n: the last sample repeated, or those after the n-th dropped (R22). -/
def fitSamples (n : Nat) (l : List Nat) : List Nat × List Flag :=
  if l.length < n then (l ++ List.replicate (n - l.length) (l.getLastD 0), [.samplesHeld])
  else if n < l.length then (l.take n, [.samplesExtra])
  else (l, [])

/-- The samples held within 60..900, with DIAM_CLAMPED where one is (R23). -/
def clampSamples (l : List Nat) : List Nat × List Flag :=
  let l' := l.map (heldNat 60 900)
  (l', if l' = l then [] else [.diamClamped])

/-- The sample list of R22 and R23 for a record's length, with its flags. -/
def profileSamples (length : Nat) (l : List Nat) : List Nat × List Flag :=
  let x := fitSamples (sampleCount length) l
  let y := clampSamples x.1
  (y.1, x.2 ++ y.2)

/-- The butt flare test: sample 0 × 100 is greater than sample 2 × flare_ratio (R24). -/
def flareFlags (s : State) (orientation : Orientation) (species : Nat) (samples : List Nat) : List Flag :=
  if orientation = .buttLeading ∧
      (s.recipes.active.recipeFor species).flareRatio * samples.getD 2 0 < samples.getD 0 0 * 100 then
    [.buttFlare]
  else []

/-- The surface temperature held within −40..+40 where it is present (R23). -/
def clampTemp (t : Option Int) : Option Int := t.map (heldWithin (-40) 40)

/-- A value of the profile other than a sample is clamped (R23). -/
def profileClamped (d : ProfileData) : Bool :=
  decide (100 < d.confidence) || decide (clampTemp d.surfaceTemp ≠ d.surfaceTemp)

/-- The B0 computed for a profile, before any raising (R21). -/
def profileB0 (s : State) (d : ProfileData) (arrival : Pos) : Pos :=
  posAdd arrival (-((s.points.latencyComp : Int) + d.length))

/-- A computed span overlaps the span of a record (R17, R26). -/
def overlapsSpan (s : State) (b0 : Pos) (length : Nat) (r : Rec) : Bool :=
  decide (posDiff b0 (spanEnd s.points s.feed.pos r) < 0) && decide (posDiff r.b0 (posAdd b0 length) < 0)

/-- The stray that adopts a profile: the most downstream record of origin STRAY its computed span overlaps (R26). -/
def State.adopter (s : State) (d : ProfileData) (arrival : Pos) : Option Rec :=
  s.track.find? (fun r => decide (r.origin = .stray) && overlapsSpan s (profileB0 s d arrival) d.length r)

/-- A record as it adopts a profile (R27). -/
def Rec.adopt (r : Rec) (s : State) (d : ProfileData) (o : Orientation) : Rec :=
  let length := r.length.getD d.length
  let x := profileSamples length d.samples
  let named := r.bound.isNone && decide (r.source = .fallbackStray)
  { r.flag (x.2 ++ flareFlags s o d.species x.1) with
    scanId := d.scanId
    origin := .strayAdopted
    species := if named then d.species else r.species
    source := if named then .scanner else r.source
    confidence := min d.confidence 100
    surfaceTemp := clampTemp d.surfaceTemp
    orientation := o
    length := some length
    samples := x.1 }

/-- The Log Track adopts a profile into a stray (R27): an open stray takes the profile's length and stops being open. -/
def State.adopt (s : State) (r : Rec) (d : ProfileData) (o : Orientation) : State :=
  let t := s.onRec r.key (fun q => q.adopt s d o)
  let t := { t with openStray := t.openStray.filter (fun x => x.key != r.key) }
  let t := if r.length.isNone then t.clamped else t
  (t.evalLiftFor r.key).afterMove s

/-- The record of a new profile, at its computed B0 (R25). -/
def profileRec (s : State) (d : ProfileData) (o : Orientation) (arrival : Pos) : Rec :=
  let x := profileSamples d.length d.samples
  { key := s.nextKey
    scanId := d.scanId
    origin := .scanned
    species := d.species
    source := .scanner
    confidence := min d.confidence 100
    surfaceTemp := clampTemp d.surfaceTemp
    orientation := o
    length := some d.length
    b0 := profileB0 s d arrival
    samples := x.1
    bound := none
    realign := .notChecked
    flags := addFlags (x.2 ++ flareFlags s o d.species x.1) []
    peakA := 0
    peakB := 0 }

/-- The Log Track admits a new record at the upstream end of the track (R21, R25). -/
def State.newRecord (s : State) (x : Rec) : State :=
  let t := { s with track := s.track ++ [x], nextKey := s.nextKey + 1 }
  t.clamped.afterMove s

/-- The new record's B0 is raised at its admission (R21). -/
def State.raisesNew (s : State) (x : Rec) : Bool :=
  match s.track.getLast? with
  | some r => decide (posDiff x.b0 (spanEnd s.points s.feed.pos r) < 0)
  | none => false

/-- CLAMPED or OK. -/
def clampedResult (c : Bool) : Result := if c then .clamped else .ok

/-- PROFILE's own checks and effect (R20). -/
def profileEffect (req : Req) (s : State) : Effect :=
  let d := readProfile req.payload
  match Orientation.ofCode d.orientation with
  | none => ⟨s, .badValue, []⟩
  | some o =>
    if d.scanId = 0 ∨ 250 < d.species then ⟨s, .badValue, []⟩
    else if d.length < 1000 ∨ 12000 < d.length then ⟨s, .badValue, []⟩
    else if d.samples.isEmpty then ⟨s, .badValue, []⟩
    else if s.track.any (fun r => r.scanId == d.scanId) then ⟨s, .duplicateLog, []⟩
    else
      match s.adopter d req.arrival with
      | some r =>
        let flags := (profileSamples (r.length.getD d.length) d.samples).2
        ⟨s.adopt r d o,
          clampedResult (profileClamped d || flags.contains .samplesHeld || flags.contains .diamClamped), []⟩
      | none =>
        if s.track.length < 12 then
          let x := profileRec s d o req.arrival
          ⟨s.newRecord x,
            clampedResult (profileClamped d || x.flags.contains .samplesHeld || x.flags.contains .diamClamped ||
              s.raisesNew x), []⟩
        else ⟨s, .trackFull, []⟩

/-- PROFILE (R20). -/
def execProfile (p : Port) (s : State) : Host.Outcome State Fault Refusal :=
  .next (s.serve p .profile (ofKind .profile) profileEffect)

/-! ### TRACK_READ (R41) -/

/-- The entry of a record (11, the track entry). -/
def trackEntry (s : State) (r : Rec) : List Byte :=
  bytes16 r.scanId ++ [byte r.origin.code, byte r.species, byte r.source.code] ++ bytes16 (r.length.getD 0) ++
    bytesInt32 (leadDist s r) ++ [byte r.bound.isSome.toNat, byte r.realign.code] ++ bytes16 (flagBits r.flags)

/-- TRACK_READ's reply: one entry for each record, the first record first (R41). -/
def trackReadEffect (_ : Req) (s : State) : Effect :=
  ⟨s, .ok, byte s.track.length :: s.track.flatMap (trackEntry s)⟩

/-- TRACK_READ (R41). -/
def execTrackRead (p : Port) (s : State) : Host.Outcome State Fault Refusal :=
  .next (s.serve p .trackRead (ofKind .trackRead) trackReadEffect)

/-! ### SPECIES_SET (R33) -/

/-- An unbound record's species changed by name: its arming lift and the advisory are worked out anew (R33, R35,
R105). -/
def State.setSpecies (s : State) (key : Nat) (code : Nat) (source : SpeciesSource) : State :=
  let t := s.onRec key (fun r => { r with species := code, source := source })
  (t.evalLiftFor key).advise

/-- SPECIES_SET's own checks and effect (R33). -/
def speciesSetEffect (req : Req) (s : State) : Effect :=
  let id := u16 req.payload 0
  let code := u8 req.payload 2
  match s.track.find? (fun r => decide (id ≠ 0) && (r.scanId == id)) with
  | none => ⟨s, .unknownLog, []⟩
  | some r =>
    if r.bound.isSome then ⟨s, .tooLate, []⟩
    else if (s.recipes.active.lookup code).isNone then ⟨s, .noRecord, []⟩
    else ⟨s.setSpecies r.key code .line, .ok, []⟩

/-- SPECIES_SET (R33, R34). -/
def execSpeciesSet (p : Port) (s : State) : Host.Outcome State Fault Refusal :=
  .next (s.serve p .speciesSet (ofKind .speciesSet) speciesSetEffect)

/-! ### SPECIES_FORCE (R35 to R37) -/

/-- A bound record rebound to a named code, its bound, species and source replaced (R36). -/
def Rec.rebind (r : Rec) (s : State) (code : Nat) : Rec :=
  { r with bound := some (s.bindingNow { r with species := code }), species := code, source := .panelForce }

/-- A rebinding hands its results on as a binding does (R37). -/
def State.rebindRec (s : State) (key : Nat) (code : Nat) : State :=
  let t := s.onRec key (fun r => r.rebind s code)
  ((t.evalPressFor key).evalLiftFor key).afterMove s

/-- The force on the first unbound record (R35). -/
def State.forceFirst (s : State) (code : Nat) : Effect :=
  match s.firstUnbound with
  | none => ⟨s, .unknownLog, []⟩
  | some r => ⟨s.setSpecies r.key code .panelForce, .ok, []⟩

/-- SPECIES_FORCE's own checks and effect: in MANUAL it rebinds a bound record covering ring A's plane (R36), else it
acts on the first unbound record (R35). -/
def speciesForceEffect (req : Req) (s : State) : Effect :=
  let code := u8 req.payload 0
  if (s.recipes.active.lookup code).isNone then ⟨s, .noRecord, []⟩
  else if s.control.mode = .manual then
    match s.track.find? (covers s .a) with
    | some r => if r.bound.isSome then ⟨s.rebindRec r.key code, .ok, []⟩ else s.forceFirst code
    | none => s.forceFirst code
  else s.forceFirst code

/-- SPECIES_FORCE (R35, R36). -/
def execSpeciesForce (p : Port) (s : State) : Host.Outcome State Fault Refusal :=
  .next (s.serve p .speciesForce (ofKind .speciesForce) speciesForceEffect)

end Sys2Proof.Machine
end

