-- ==== Sys2Proof/Machine/ValveCommands.lean ====
section
/-! DEFINITION. VALVE_FRAME, DEAD_INTERVAL_EXPIRY, ECHO_RECEIVED and DEVIATION_TIMEOUT (07). -/

namespace Sys2Proof.Machine

/-! ### The ramp and the interlock in one frame (R137, R138, R140, R141, R143) -/

/-- A released channel's command in the next frame: toward its target by at most one step (R140). -/
def ramp (pts : Points) (c : Chan) : Nat :=
  if c.command < c.target then min (c.command + pts.riseStep) c.target
  else Nat.max (c.command - pts.fallStep) c.target

/-- The dead interval run for a channel (R137). -/
def deadInterval (pts : Points) : Side → Nat
  | .lift => pts.pressLiftDead
  | .press => pts.liftPressDead

/-- An interval runs out in the frame now due: it is 10 ms a frame since its zero frame (R137). -/
def Interval.due (pts : Points) (i : Interval) : Bool :=
  match i.frames with
  | some n => decide (deadInterval pts i.side ≤ (n + 1) * 10)
  | none => false

/-- An interval one frame on. -/
def Interval.tick (i : Interval) : Interval := { i with frames := i.frames.map (· + 1) }

/-- The bypass of R141 applied to an interlock: a bypassed channel loses its release, and no interval is run for it. -/
def Interlock.bypass (level : Level) (il : Interlock) : Interlock :=
  { il with
    released := il.released.filter (fun x => !bypassed level x)
    interval := il.interval.filter (fun i => !bypassed level i.side) }

/-- An interlock whose interval has run out for a channel: the channel is released and the interval stops (R137, R138). -/
def Interlock.release (x : Side) (il : Interlock) : Interlock :=
  { il with released := some x, interval := none, hold := false }

/-- An interval of the interlock advanced by the frame: it runs out and releases its channel, or counts (R137, R138). -/
def Interlock.advance (pts : Points) (il : Interlock) : Interlock :=
  match il.interval with
  | none => il
  | some i =>
    if i.due pts then il.release i.side
    else { il with interval := some i.tick }

/-- A channel's command in the frame: 0 under the bypass, ramped where it is released, else falling to 0 (R137, R140,
R141). -/
def frameCommand (pts : Points) (level : Level) (il : Interlock) (x : Side) (c : Chan) : Nat :=
  if bypassed level x then 0
  else if il.released = some x then (if il.hold then c.command else ramp pts c)
  else c.command - pts.fallStep

/-- The zero frame noted: the first frame that sends the partner of the waiting channel at 0 (R138). -/
def Interlock.noteZero (il : Interlock) (press lift : Nat) : Interlock :=
  match il.interval with
  | some ⟨.press, none⟩ => if lift = 0 then { il with interval := some ⟨.press, some 0⟩ } else il
  | some ⟨.lift, none⟩ => if press = 0 then { il with interval := some ⟨.lift, some 0⟩ } else il
  | _ => il

/-- One ring's frame: its interlock and the commands of its press and lift channels (R143, 1 and 2). -/
def ringFrame (pts : Points) (level : Level) (il : Interlock) (press lift : Chan) : Interlock × Nat × Nat :=
  let moved := (il.bypass level).advance pts
  let p := frameCommand pts level moved .press press
  let l := frameCommand pts level moved .lift lift
  ({ moved.noteZero p l with hold := false }, p, l)

/-- A channel's frame sent: the command, its word on the line, and the echo wait opened where echo is enabled (R143, 3
and 4). -/
def Chan.sendFrame (c : Chan) (command : Nat) (echo : Bool) : Chan :=
  { c with command := command, sent := command, word := some (valveWord (2 * command) echo), wait := echo }

/-- The Valve Line's frames of one period (R143). -/
def Valve.frame (v : Valve) (pts : Points) (level : Level) : Valve :=
  let a := ringFrame pts level v.rings.a v.chans.aPress v.chans.aLift
  let b := ringFrame pts level v.rings.b v.chans.bPress v.chans.bLift
  { rings := ⟨a.1, b.1⟩
    chans :=
      { aPress := v.chans.aPress.sendFrame a.2.1 pts.echoEnable.aPress
        aLift := v.chans.aLift.sendFrame a.2.2 pts.echoEnable.aLift
        bPress := v.chans.bPress.sendFrame b.2.1 pts.echoEnable.bPress
        bLift := v.chans.bLift.sendFrame b.2.2 pts.echoEnable.bLift } }

/-! ### Reports (R152, R117, R132) -/

/-- A settled report taken by a ring: in a pressing state with the flag clear it is the ring's settled event (R132). -/
def State.settledReport (s : State) (k : Ring) : State :=
  if (s.ringState k).pressing && !(s.ring.get k).settled then
    (s.onSeq k (fun q => { q with settled := true })).markEvent (settledSource k)
  else s

/-- A lift-reached report taken by a ring: in an open state it sets the flag (R117). -/
def State.liftReachedReport (s : State) (k : Ring) : State :=
  if (s.ringState k).pressing then s else s.onSeq k (fun q => { q with liftReached := true })

/-- The report of a channel whose condition is judged now, its echo being within tolerance or off: its ring's intent
names it, its command equals its target, and it is OK (R152). -/
def State.report (s : State) (c : Channel) : State :=
  let x := s.valve.chans.get c
  if (s.valve.rings.get c.ring).intent = c.side ∧ x.command = x.target ∧ x.state = .ok then
    match c.side with
    | .press => s.settledReport c.ring
    | .lift => s.liftReachedReport c.ring
  else s

/-! ### The monitor (R144 to R149) -/

/-- A channel enters FAULT or MUTE: its cause is handed to the Release Unit and the notice raised (R149). -/
def State.enterFault (s : State) (c : Channel) (st : ChannelState) : State :=
  let t := s.onChan c (fun x => { x with state := st, timer := false })
  (t.raiseCause (.valveFault c)).notice .valveFault

/-- The monitor judges the channel: it is OK or DEVIATING. -/
def ChannelState.judged : ChannelState → Bool
  | .ok | .deviating => true
  | .fault | .mute => false

/-- A bad echo: the run counts up to 3, and the third puts a judged channel in MUTE (R145). -/
def State.badEcho (s : State) (c : Channel) : State :=
  let run := min ((s.valve.chans.get c).badRun + 1) 3
  let t := s.onChan c (fun x => { x with badRun := run })
  if run = 3 ∧ (s.valve.chans.get c).state.judged then t.enterFault c .mute else t

/-- An echo's deviation is within tolerance: the larger of 50 and 8 % of twice the command, rounded (R146). -/
def withinTolerance (command measured : Nat) : Bool :=
  decide (((measured : Int) - 2 * command).natAbs ≤ Nat.max 50 (roundDivNat (8 * (2 * command)) 100))

/-- The comparison of R146 on a judged channel. -/
def Chan.compare (c : Chan) (measured : Nat) : Chan :=
  if c.state.judged then
    if withinTolerance c.sent measured then { c with state := .ok, timer := false }
    else { c with state := .deviating, timer := true }
  else c

/-- A good echo: the measured value is set and the run cleared (R144, R145), the deviation compared (R146), the
driver-fault bit read (R148), and the channel's report made where it is OK and within tolerance (R152). -/
def State.goodEcho (s : State) (c : Channel) (w : Word16) : State :=
  let x := s.valve.chans.get c
  let m := echoCode w
  let t := s.onChan c (fun q => ({ q with measured := m, badRun := 0 } : Chan).compare m)
  if x.state.judged && echoFault w then t.enterFault c .fault
  else if withinTolerance x.sent m then t.report c
  else t

/-- ECHO_RECEIVED: an echo with no wait open is discarded; else it closes the wait and is good or bad by its check
(R144). -/
def execEchoReceived (c : Channel) (w : Word16) (s : State) : Host.Outcome State Fault Refusal :=
  if (s.valve.chans.get c).wait then
    let t := s.onChan c (fun x => { x with wait := false })
    .next (if echoGood w then t.goodEcho c w else t.badEcho c)
  else .next s

/-- DEVIATION_TIMEOUT: a DEVIATING channel's timer expires and the channel becomes FAULT (R147).  With the timer
stopped there is no expiry (log 11). -/
def execDeviationTimeout (c : Channel) (s : State) : Host.Outcome State Fault Refusal :=
  let x := s.valve.chans.get c
  if x.timer && decide (x.state = .deviating) then .next (s.enterFault c .fault) else .next s

/-! ### Frames (R143) -/

/-- The reports of the channels with echo off, judged as the frame is sent (R152). -/
def State.reportSilent (s : State) (c : Channel) : State :=
  if s.points.echoEnable.get c then s else s.report c

/-- VALVE_FRAME: the frames of one period are sent; the channels with echo off report; each wait the frame closes
without an echo is a bad echo (R143, R144, R152). -/
def execValveFrame (s : State) : Host.Outcome State Fault Refusal :=
  let missing := Channel.all.filter (fun c => (s.valve.chans.get c).wait)
  let t := { s with valve := s.valve.frame s.points s.release.level }
  let t := Channel.all.foldl State.reportSilent t
  .next (missing.foldl State.badEcho t)

/-- DEAD_INTERVAL_EXPIRY: the interval of a ring that runs out in the frame now due releases its channel; the channel's
first step is made in that frame, as every step is (R137, R138, R140; log 10).  With no interval due, or its channel
under the bypass, there is no expiry (log 11). -/
def execDeadIntervalExpiry (k : Ring) (s : State) : Host.Outcome State Fault Refusal :=
  match (s.valve.rings.get k).interval with
  | none => .next s
  | some i =>
    if i.due s.points && !bypassed s.release.level i.side then
      .next (s.onInterlock k (Interlock.release i.side))
    else .next s

end Sys2Proof.Machine
end

