-- ==== Sys2Proof/Machine/Dispatch.lean ====
section
/-! DEFINITION. One arm for each command. -/

namespace Sys2Proof.Machine

def exec (i : Instr) (s : State) : Host.Outcome State Fault Refusal :=
  match i with
  | .powerOn lines => Sys2Proof.Machine.execPowerOn lines s
  | .telegramReceived port kind payload => Sys2Proof.Machine.execTelegramReceived port kind payload s
  | .interByteTimeout port => Sys2Proof.Machine.execInterByteTimeout port s
  | .telegramSendBegin port => Sys2Proof.Machine.execTelegramSendBegin port s
  | .status port => Sys2Proof.Machine.execStatus port s
  | .profile port => Sys2Proof.Machine.execProfile port s
  | .trackRead port => Sys2Proof.Machine.execTrackRead port s
  | .speciesSet port => Sys2Proof.Machine.execSpeciesSet port s
  | .speciesForce port => Sys2Proof.Machine.execSpeciesForce port s
  | .release port => Sys2Proof.Machine.execRelease port s
  | .resume port => Sys2Proof.Machine.execResume port s
  | .mark port => Sys2Proof.Machine.execMark port s
  | .mode port => Sys2Proof.Machine.execMode port s
  | .winter port => Sys2Proof.Machine.execWinter port s
  | .summer port => Sys2Proof.Machine.execSummer port s
  | .recipeWrite port => Sys2Proof.Machine.execRecipeWrite port s
  | .recipeRead port => Sys2Proof.Machine.execRecipeRead port s
  | .recipeDelete port => Sys2Proof.Machine.execRecipeDelete port s
  | .recipeCommit port => Sys2Proof.Machine.execRecipeCommit port s
  | .recipeDiscard port => Sys2Proof.Machine.execRecipeDiscard port s
  | .manualSet port => Sys2Proof.Machine.execManualSet port s
  | .pointRead port => Sys2Proof.Machine.execPointRead port s
  | .pointWrite port => Sys2Proof.Machine.execPointWrite port s
  | .scaleWrite port => Sys2Proof.Machine.execScaleWrite port s
  | .geometryWrite port => Sys2Proof.Machine.execGeometryWrite port s
  | .windowArmWrite port => Sys2Proof.Machine.execWindowArmWrite port s
  | .ceilingWrite port => Sys2Proof.Machine.execCeilingWrite port s
  | .setpointPointWrite port => Sys2Proof.Machine.execSetpointPointWrite port s
  | .echoEnableWrite port => Sys2Proof.Machine.execEchoEnableWrite port s
  | .stopOnReleaseWrite port => Sys2Proof.Machine.execStopOnReleaseWrite port s
  | .markSourceWrite port => Sys2Proof.Machine.execMarkSourceWrite port s
  | .markGateWrite port => Sys2Proof.Machine.execMarkGateWrite port s
  | .thresholdWrite port => Sys2Proof.Machine.execThresholdWrite port s
  | .save port => Sys2Proof.Machine.execSave port s
  | .saveComplete => Sys2Proof.Machine.execSaveComplete s
  | .restart port => Sys2Proof.Machine.execRestart port s
  | .noticeEnable port => Sys2Proof.Machine.execNoticeEnable port s
  | .noticeClear port => Sys2Proof.Machine.execNoticeClear port s
  | .noticeRaise port => Sys2Proof.Machine.execNoticeRaise port s
  | .encoderChange enc1 enc2 => Sys2Proof.Machine.execEncoderChange enc1 enc2 s
  | .speedUpdate => Sys2Proof.Machine.execSpeedUpdate s
  | .cellRawChange cell blocked => Sys2Proof.Machine.execCellRawChange cell blocked s
  | .cellEdge cell => Sys2Proof.Machine.execCellEdge cell s
  | .valveFrame => Sys2Proof.Machine.execValveFrame s
  | .deadIntervalExpiry ring => Sys2Proof.Machine.execDeadIntervalExpiry ring s
  | .echoReceived channel word => Sys2Proof.Machine.execEchoReceived channel word s
  | .deviationTimeout channel => Sys2Proof.Machine.execDeviationTimeout channel s
  | .estopInputChange active => Sys2Proof.Machine.execEstopInputChange active s
  | .estopInactiveTaken => Sys2Proof.Machine.execEstopInactiveTaken s
  | .rotorInputChange ring running => Sys2Proof.Machine.execRotorInputChange ring running s
  | .rotorLevelTaken ring => Sys2Proof.Machine.execRotorLevelTaken ring s
  | .keyInputChange engineer => Sys2Proof.Machine.execKeyInputChange engineer s
  | .keyLevelTaken => Sys2Proof.Machine.execKeyLevelTaken s
  | .byteReceived port byte => Sys2Proof.Machine.execByteReceived port byte s

end Sys2Proof.Machine
end

