-- ==== Sys2Proof/Safety.lean ====
section
/-! DEFINITION. What a sound state of the part is, and the words the claims about commands are stated in. -/

namespace Sys2Proof.Machine

/-! ### Frames -/

/-- Two states of a port that differ in no more than the output list and the notice status set. -/
structure SamePort (q r : PortState) : Prop where
  receiver : r.receiver = q.receiver
  queue : r.queue = q.queue
  enable : r.enable = q.enable
  sending : r.sending = q.sending

/-- Two states that agree on what the part's blocks do not change among themselves: the input lines, the points, the
feed, the mode and its values, the key level, the store, each port's receiver, queue, enable set and telegram being
sent, the queue of commands; and on the shadow table. -/
structure SameOuter (s t : State) : Prop where
  lines : t.lines = s.lines
  points : t.points = s.points
  feed : t.feed = s.feed
  control : t.control = s.control
  key : t.key = s.key
  store : t.store = s.store
  pending : t.pending = s.pending
  shadow : t.recipes.shadow = s.recipes.shadow
  ports : ∀ p, SamePort (s.ports.get p) (t.ports.get p)

/-! ### What every command keeps -/

/-- The effective level is the highest among the causes present (R155). -/
def State.levelRight (s : State) : Prop := s.release.level = s.release.causes.level

/-- FEED_PERMIT holds the value of R169. -/
def State.permitRight (s : State) : Prop := s.permit = s.permitValue

/-- A state a ring may be in under the mode and the level: in SETUP it is IDLE or HELD (R128), and at IMMEDIATE and ESTOP
it is HELD (R123). -/
def State.allows (s : State) (st : RingState) : Prop :=
  (s.control.mode = .setup → st = .idle ∨ st = .held) ∧
    (s.release.level = .immediate ∨ s.release.level = .estop → st = .held)

/-- In t ring k has the state by geometry on s: BODY or TAIL for the record that stands in its plane, by its tail advance,
else ARMED for the first waiting record, else IDLE (R126, R129). -/
def State.placedByGeometry (s t : State) (k : Ring) : Prop :=
  (∀ r, s.standing k = some r →
    let tail := ∃ x len, r.bound = some x ∧ r.length = some len ∧
      s.points.planeOf k + len - x.species.tailAdv ≤ frontDist s r
    (tail → t.ring.get k = ⟨.tail, some r.key, none, false, false⟩) ∧
    (¬tail → t.ring.get k = ⟨.body, some r.key, none, false, false⟩)) ∧
  (∀ r, s.standing k = none → s.firstWaiting k = some r → t.ringState k = .armed ∧ (t.ring.get k).armedFor = some r.key) ∧
  (s.standing k = none → s.firstWaiting k = none → t.ringState k = .idle)

/-- Between s and t the marks of a source are set, none with none, and no recipe table moves. -/
structure State.marksFor (s t : State) (src : Option MarkSource) : Prop where
  marks : ∀ m, t.marks.get m = (s.marks.get m || decide (some (s.points.markSource.get m) = src))
  overrun : ∀ m, some (s.points.markSource.get m) = src → s.marks.get m = true →
    ∀ p, NoticeKind.markOverrun ∈ (t.ports.get p).status
  recipes : t.recipes = s.recipes

/-- Between s and t ring k has made the reports of a departure from pressing: its clear event, and from ring A the gap signal,
on which a pending swap is made (R75, R76, R130); the record that stands in the plane of a ring now HELD is flagged
RELEASED_DURING, and no other record moves or changes (R125). -/
structure State.departs (s t : State) (k : Ring) : Prop where
  openNow : (t.ringState k).pressing = false
  marks : ∀ m, t.marks.get m = (s.marks.get m || decide (s.points.markSource.get m = match k with
    | .a => .aClear
    | .b => .bClear))
  swap : k = .a → s.recipes.swapPending = true →
    t.recipes = ⟨s.recipes.shadow, s.recipes.shadow, false⟩ ∧ ∀ p, NoticeKind.swapDone ∈ (t.ports.get p).status
  noSwap : k = .b ∨ s.recipes.swapPending = false → t.recipes = s.recipes
  flagged : ∀ r, t.ringState k = .held → s.standing k = some r → t.track = s.track.map fun q =>
    if q.key = r.key then { q with flags := addFlags [.releasedDuring] q.flags } else q
  unflagged : t.ringState k ≠ .held ∨ s.standing k = none → t.track = s.track

/-- A sequencer serves a record in the pressing states alone, and is armed for one in ARMED alone (R110). -/
structure Sequencer.right (q : Sequencer) : Prop where
  served : q.served.isSome = q.state.pressing
  armedFor : q.armedFor.isSome = decide (q.state = .armed)

/-- Ring k is in a state the mode and the level allow it, and names records as its state has them. -/
structure State.ringRight (s : State) (k : Ring) : Prop where
  allowed : s.allows (s.ringState k)
  named : (s.ring.get k).right

/-- Where the level leaves ring k: at NONE it is not HELD (R126), and at AT_GAP outside SETUP not IDLE or ARMED (R124). -/
def State.rests (s : State) (k : Ring) : Prop :=
  (s.release.level = .none → s.ringState k ≠ .held) ∧
    (s.release.level = .atGap → s.control.mode ≠ .setup → s.ringState k ≠ .idle ∧ s.ringState k ≠ .armed)

/-- Ring k leaves its record as a tail out leaves it in s: HELD at AT_GAP, else in ENTRY for a record that stands in the
plane, else ARMED for the first waiting record, else IDLE (R116). -/
def State.leftByTail (s t : State) (k : Ring) : Prop :=
  (s.release.level = .atGap → t.ringState k = .held) ∧
    (s.release.level ≠ .atGap →
      (∀ r, s.standing k = some r → t.ring.get k = ⟨.entry, some r.key, none, false, false⟩) ∧
      (∀ r, s.standing k = none → s.firstWaiting k = some r →
        t.ringState k = .armed ∧ (t.ring.get k).armedFor = some r.key) ∧
      (s.standing k = none → s.firstWaiting k = none → t.ringState k = .idle))

/-- A ring's channels and interlock keep R137: never both commanded above 0; a channel released, or waited for since its
zero frame, has its partner at 0; both name the intent channel. -/
structure Interlocked (il : Interlock) (press lift : Nat) : Prop where
  exclusive : press = 0 ∨ lift = 0
  releasedIntent : ∀ x, il.released = some x → x = il.intent ∧ (match x with | .press => lift | .lift => press) = 0
  waitIntent : ∀ i, il.interval = some i → i.side = il.intent ∧ il.released = none
  zeroFrame : ∀ i n, il.interval = some i → i.frames = some n → (match i.side with | .press => lift | .lift => press) = 0

/-- Ring k keeps R137. -/
def State.interlocked (s : State) (k : Ring) : Prop :=
  Interlocked (s.valve.rings.get k) (s.valve.chans.get (channelOf k .press)).command
    (s.valve.chans.get (channelOf k .lift)).command

/-- No channel's command or target lies above the ceiling (R106, R142). -/
def State.underCeiling (s : State) : Prop :=
  ∀ c, (s.valve.chans.get c).command ≤ s.points.ceiling ∧ (s.valve.chans.get c).target ≤ s.points.ceiling

/-- The track holds at most 12 records (R17) and each queue at most 4 requests (R193). -/
def State.bounded (s : State) : Prop := s.track.length ≤ 12 ∧ ∀ p, (s.ports.get p).queue.length ≤ 4

/-- The names of a track's records: keys of their own, all given out already (log 7), and no scan_id but 0 twice (R17). -/
structure NamesRight (l : List Rec) (next : Nat) : Prop where
  keys : (l.map Rec.key).Nodup
  below : ∀ r ∈ l, r.key < next
  scanIds : l.Pairwise fun x y => x.scanId ≠ 0 → x.scanId ≠ y.scanId

/-- The records on the track are told apart. -/
def State.named (s : State) : Prop := NamesRight s.track s.nextKey

/-- The front lies at most 4 mm from P, on the side of the flag's direction (R5, R6). -/
def Feed.frontNear (f : Feed) : Prop :=
  match f.dir with
  | .fwd => 0 ≤ posDiff f.front f.pos ∧ posDiff f.front f.pos ≤ 4
  | .rev => 0 ≤ posDiff f.pos f.front ∧ posDiff f.pos f.front ≤ 4

/-- The count residue lies in 0..scale − 1 (R2). -/
def State.residueRight (s : State) : Prop := s.feed.residue < s.points.scale

/-! ### Requests -/

/-- A request stands at the head of a port's queue with others behind it, and no SAVE in flight holds the queue. -/
def State.atHead (s : State) (p : Port) (r : Req) (rest : List Req) : Prop :=
  (s.ports.get p).queue = r :: rest ∧ s.saving p = false

/-- A request is of a kind and passes checks 1 to 7 of R194 on a port. -/
def State.passes (s : State) (p : Port) (k : Kind) (r : Req) : Prop :=
  Kind.ofByte r.kind = some k ∧ refusal s p k r.payload = none

/-- The request of a kind at the head of a port's queue is taken: no SAVE in flight holds the queue, and it passes checks 1
to 7 of R194. -/
structure State.takes (s : State) (p : Port) (k : Kind) (r : Req) (rest : List Req) : Prop where
  head : s.atHead p r rest
  passed : s.passes p k r

/-- The head of a queue, where there is one, is a request of a known kind. -/
def headKnown : List Req → Bool
  | [] => true
  | r :: _ => (Kind.ofByte r.kind).isSome

/-! ### Runs of commands -/

/-- The state after each of a list of commands has been run in turn. -/
def State.after (s : State) : List Instr → State
  | [] => s
  | c :: rest =>
    match exec c s with
    | .next t => t.after rest
    | _ => s

/-! ### Starts -/

/-- The two rings are in a state a start leaves them in. -/
def State.ringsAt (s : State) (st : RingState) : Prop := s.ringState .a = st ∧ s.ringState .b = st

/-- A ring's channels are what a start leaves them: at 0, OK, with no timer, no bad echo and no echo awaited (R153). -/
structure Chan.fresh (c : Chan) : Prop where
  command : c.command = 0
  measured : c.measured = 0
  state : c.state = .ok
  timer : c.timer = false
  badRun : c.badRun = 0
  wait : c.wait = false

/-- What a start leaves of ring k's targets and flags, LIFT intended: no press target and the park lift, within the ceiling,
or 0 under an emergency stop (R104, R106, R107); no record served or armed for and neither flag set (R133); the interlock
as given (R153). -/
structure State.ringFresh (s : State) (k : Ring) (released : Option Side) (interval : Option Interval) : Prop where
  pressTarget : (s.setpoint.get k).pressTarget = 0
  liftTarget : (s.setpoint.get k).liftTarget =
    if s.release.estopActive then 0 else min s.points.parkLift s.points.ceiling
  handedPress : (s.valve.chans.get (channelOf k .press)).target = 0
  handedLift : (s.valve.chans.get (channelOf k .lift)).target = (s.setpoint.get k).liftTarget
  served : (s.ring.get k).served = none
  armedFor : (s.ring.get k).armedFor = none
  liftReached : (s.ring.get k).liftReached = false
  settled : (s.ring.get k).settled = false
  intent : (s.valve.rings.get k).intent = .lift
  releasedIs : (s.valve.rings.get k).released = released
  intervalIs : (s.valve.rings.get k).interval = interval

/-- The command that takes a write of a point of a row. -/
def WriteRow.command (p : Port) : WriteRow → Instr
  | .general => .pointWrite p
  | .scale => .scaleWrite p
  | .geometry => .geometryWrite p
  | .windowArm => .windowArmWrite p
  | .ceiling => .ceilingWrite p
  | .setpoint => .setpointPointWrite p
  | .echo => .echoEnableWrite p
  | .stop => .stopOnReleaseWrite p
  | .source => .markSourceWrite p
  | .gate => .markGateWrite p
  | .threshold => .thresholdWrite p

/-- The command that takes a request of a kind with a payload from a port's queue. -/
def commandOf (p : Port) (payload : List Byte) : Kind → Instr
  | .status => .status p
  | .profile => .profile p
  | .trackRead => .trackRead p
  | .speciesSet => .speciesSet p
  | .release => .release p
  | .resume => .resume p
  | .mark => .mark p
  | .mode => .mode p
  | .winter => .winter p
  | .summer => .summer p
  | .recipeWrite => .recipeWrite p
  | .recipeRead => .recipeRead p
  | .recipeDelete => .recipeDelete p
  | .recipeCommit => .recipeCommit p
  | .recipeDiscard => .recipeDiscard p
  | .manualSet => .manualSet p
  | .speciesForce => .speciesForce p
  | .point =>
    if isWriteAddress payload then (Machine.writeRow (Point.ofNumber (pointNumber payload))).command p
    else .pointRead p
  | .save => .save p
  | .restart => .restart p
  | .noticeEnable => .noticeEnable p
  | .noticeClear => .noticeClear p
  | .noticeRaise => .noticeRaise p

end Sys2Proof.Machine
end

