-- ==== Sys2Proof/Certificates/Slice0/Obligations.lean ====
section
/-! DEFINITION. The statements for the provers, in the order of the manual's chapters after the whole machine's. -/

open Sys2Proof Sys2Proof.Machine

/-! ### The queue of commands, the starts -/

/-- A step takes the command at the front of the queue and runs it with the queue's rest; with nothing waiting the block
idles.  The model's choices, logs 1 and 3: the spec gives the part no queue of commands and no tick. -/
def Obligations.StepRunsFrontCommand : Prop :=
  ∀ (c : Instr) (s : State) (rest : List Instr),
    step { s with pending := c :: rest } = exec c { s with pending := rest } ∧
      step { s with pending := [] } = .next { s with pending := [] }

/-- Every command answers a next state and leaves the queue of waiting commands as it was, in every state whose rings are
in states the mode and the level allow (log 1: the queue is the model's). -/
def Obligations.EveryCommandAnswers : Prop :=
  ∀ (c : Instr) (s : State), (∀ k, s.ringRight k) → ∃ t : State, exec c s = .next t ∧ t.pending = s.pending

/-- The state after reset keeps every invariant the statements of a step take as a premise. -/
def Obligations.ResetKeepsInvariants : Prop :=
  State.reset.levelRight ∧ State.reset.permitRight ∧ State.reset.underCeiling ∧ State.reset.bounded ∧ State.reset.named ∧
    State.reset.feed.frontNear ∧ State.reset.residueRight ∧
    ∀ k, State.reset.ringRight k ∧ State.reset.interlocked k ∧ State.reset.rests k

/-- What POWER_ON leaves (R207 and the start tables of the chapters): the settings of a valid image, or the factory
ones; no record; the Feed Counter and the cells at their start (R11, R62); each ring IDLE with its flags clear (R133),
its targets at R107's values and its channels and interlock at R153's; the marks CLEAR and the manual values 0 (R173,
R189); the ports empty (R209), the bytes of the telegram last begun among them (log 5, the model's choice).  Under an
emergency stop found ACTIVE the rings are HELD with every target 0, FEED_PERMIT is off and the marks of source RELEASE
are SET (R172, R173).  Each status set holds the notices the start raised, and an output list no more than their NOTICE
due. -/
def Obligations.PowerOnLeavesStartValues : Prop :=
  ∀ (l : Lines) (s : State), ∃ t : State, exec (.powerOn l) s = .next t ∧
    (match s.store.valid? with
      | some i => t.points = i.points ∧ t.recipes.active = i.table ∧ t.control.season = i.season
      | none => t.points = factoryPoints ∧ t.recipes.active = factoryTable ∧ t.control.season = .winter) ∧
    t.recipes.shadow = t.recipes.active ∧ t.recipes.swapPending = false ∧
    t.lines = l ∧ t.key = keyOf l.engineer ∧
    t.feed = { pos := 0, residue := 0, dir := .fwd, front := 0, speed := 0, kept := 0, enc := (l.enc1, l.enc2) } ∧
    t.cells = ⟨⟨l.entryBlocked, none, none⟩, ⟨l.exitBlocked, none, none⟩⟩ ∧ t.openStray = none ∧ t.track = [] ∧
    t.lastAdvise = 2000 ∧
    t.control.mode = .setup ∧ t.control.manualPress = ⟨0, 0⟩ ∧ t.control.manualLift = ⟨0, 0⟩ ∧
    t.store = { s.store with snapshot := none } ∧
    t.release.causes = { Causes.empty with estop := l.estopActive } ∧
    t.release.estopActive = l.estopActive ∧ t.release.rotorRunning = ⟨l.rotorA, l.rotorB⟩ ∧
    t.release.level = (if l.estopActive then .estop else .none) ∧
    t.ringsAt (if l.estopActive then .held else .idle) ∧
    (∀ m, t.marks.get m = (l.estopActive && decide (t.points.markSource.get m = .release))) ∧
    t.permit = !l.estopActive ∧
    (∀ c, (t.valve.chans.get c).fresh) ∧ (∀ k, t.ringFresh k (some .lift) none) ∧
    ∀ p, (t.ports.get p).receiver = .hunting ∧ (t.ports.get p).queue = [] ∧ (t.ports.get p).enable = defaultEnable p ∧
      (t.ports.get p).sending = [] ∧
      (∀ k, k ∈ (t.ports.get p).status ↔
        (k = .storeDefaults ∧ s.store.valid? = none) ∨ (k = .releaseChanged ∧ l.estopActive = true)) ∧
      (t.ports.get p).out =
        if (t.ports.get p).status.any fun k => decide (k ∈ defaultEnable p) then [.noticeDue] else []

/-- A warm restart keeps the points, the active table, the season, the enable sets and the output lists, and puts every
other block at its start values: those of POWER_ON, but that no channel is released and an interval is run for LIFT, its
zero frame to come, none under an active emergency stop (R153, R141); it is answered OK (R208).  Each status set holds the
RELEASE_CHANGED of an active emergency stop alone.  To an output list it adds that stop's NOTICE due, and on the Line
port's, ahead of it (log 37, the model's choice), an ADVISE of 2000 where the last value sent differs (R44, R172).
A RESTART that arrives while a SAVE is in flight is taken on arrival: refused, its refusal is answered at once and the
SAVE runs on; else the warm restart drops the SAVE with all that waited, the image is left not valid, and OK is the last
telegram placed (R208). -/
def Obligations.RestartKeepsSettings : Prop :=
  (∀ (s : State) (p : Port) (r : Req) (rest : List Req), s.takes p .restart r rest →
     ∃ t : State, exec (.restart p) s = .next (t.answer p r .ok []) ∧
       t.points = s.points ∧ t.recipes.active = s.recipes.active ∧ t.control.season = s.control.season ∧
       t.recipes.shadow = s.recipes.active ∧ t.recipes.swapPending = false ∧
       t.feed = { pos := 0, residue := 0, dir := .fwd, front := 0, speed := 0, kept := 0
                  enc := (s.lines.enc1, s.lines.enc2) } ∧
       t.cells = ⟨⟨s.lines.entryBlocked, none, none⟩, ⟨s.lines.exitBlocked, none, none⟩⟩ ∧ t.openStray = none ∧
       t.track = [] ∧ t.lastAdvise = 2000 ∧
       t.control.mode = .setup ∧ t.control.manualPress = ⟨0, 0⟩ ∧ t.control.manualLift = ⟨0, 0⟩ ∧
       t.lines = s.lines ∧ t.key = keyOf s.lines.engineer ∧ t.store = { s.store with snapshot := none } ∧
       t.release.causes = { Causes.empty with estop := s.lines.estopActive } ∧
       t.release.level = (if s.lines.estopActive then .estop else .none) ∧
       t.ringsAt (if s.lines.estopActive then .held else .idle) ∧
       t.release.estopActive = s.lines.estopActive ∧ t.release.rotorRunning = ⟨s.lines.rotorA, s.lines.rotorB⟩ ∧
       (∀ m, t.marks.get m = (s.lines.estopActive && decide (s.points.markSource.get m = .release))) ∧
       t.permit = !s.lines.estopActive ∧ (∀ c, (t.valve.chans.get c).fresh) ∧
       (∀ k, t.ringFresh k none (if s.lines.estopActive then none else some ⟨.lift, none⟩)) ∧
       ∀ q, (t.ports.get q).receiver = .hunting ∧ (t.ports.get q).queue = [] ∧
         (t.ports.get q).enable = (s.ports.get q).enable ∧ (t.ports.get q).sending = (s.ports.get q).sending ∧
         (∀ k, k ∈ (t.ports.get q).status ↔ k = .releaseChanged ∧ s.lines.estopActive = true) ∧
         let kept := (s.ports.get q).out
         let advised := if q = .line ∧ s.lastAdvise ≠ 2000 then placeAdvise 2000 kept else kept
         (t.ports.get q).out =
           if s.lines.estopActive = true ∧ NoticeKind.releaseChanged ∈ (s.ports.get q).enable then placeDue advised
           else advised) ∧
  (∀ (s : State) (payload : List Byte), s.saving .panel = true → payload.length ≤ 240 →
     let u := s.onPort .panel fun q => { q with receiver := .hunting }
     let r : Req := ⟨0x3C, payload, s.feed.pos⟩
     (∀ e, refusal s .panel .restart payload = some e →
       exec (.telegramReceived .panel 0x3C payload) s = .next (u.reply .panel r e [])) ∧
     (refusal s .panel .restart payload = none → s.store.closed = false →
       ∃ t : State, exec (.telegramReceived .panel 0x3C payload) s = .next t ∧ t.ports.panel.queue = [] ∧
         t.ports.panel.out.getLast? = some (.telegram 0xBC [byte 0]) ∧ t.store.snapshot = none ∧ t.store.valid? = none ∧
         t.track = []))

/-! ### What every step keeps -/

/-- The effective level is the highest among the levels of the causes present, NONE where there is none, after every step
(R155). -/
def Obligations.LevelIsHighestCause : Prop :=
  (∀ s t : State, (∀ k, s.ringRight k) → s.levelRight → step s = .next t → t.levelRight) ∧
  (∀ c : Causes,
     let levels : List Level := (if c.estop then [Level.estop] else []) ++ (if c.rotor then [.immediate] else []) ++
       (Channel.all.filter c.valveFault.get).map (fun _ => .immediate) ++ (if c.trackLost then [.atGap] else []) ++
       c.lineReq.toList ++ c.panelReq.toList
     (∀ l ∈ levels, l.rank ≤ c.level.rank) ∧ (c.level ∈ levels ∨ c.level = .none))

/-- FEED_PERMIT is off when the emergency-stop input is ACTIVE, a mark in state SET has its gate on, or a release is
active with stop_on_release on, and on in each other case, after every step and after reset (R169). -/
def Obligations.FeedPermitFollowsTerms : Prop :=
  (∀ s t : State, (∀ k, s.ringRight k) → s.permitRight → step s = .next t → t.permitRight) ∧
    State.reset.permitRight ∧
    ∀ s : State, s.permitRight → (s.permit = false ↔
      (s.release.estopActive = true ∨ (∃ m, s.marks.get m = true ∧ s.points.markGate.get m = true) ∨
        (s.release.level ≠ .none ∧ s.points.stopOnRelease = true)))

/-- A ring's press and lift channels are never both commanded above 0: kept by every step, with the interlock facts the
rule rests on (R137). -/
def Obligations.PressAndLiftNeverBothDriven : Prop :=
  ∀ s t : State, (∀ k, s.ringRight k) → (∀ k, s.interlocked k) → step s = .next t →
    ∀ k, t.interlocked k ∧
      ((t.valve.chans.get (channelOf k .press)).command = 0 ∨ (t.valve.chans.get (channelOf k .lift)).command = 0)

/-- Every channel's command and target lie within the ceiling after every step (R106, R142). -/
def Obligations.CommandsStayUnderCeiling : Prop :=
  ∀ s t : State, (∀ k, s.ringRight k) → s.underCeiling → step s = .next t → t.underCeiling

/-- The track holds at most 12 records and each queue at most 4 requests after every step (R17, R193).  No two records
share a scan_id other than 0 (R17), and each has a key of its own among those given out (log 7, the model's): kept by
every step. -/
def Obligations.TrackAndQueuesStayBounded : Prop :=
  (∀ s t : State, (∀ k, s.ringRight k) → s.bounded → step s = .next t → t.bounded) ∧
  (∀ s t : State, (∀ k, s.ringRight k) → s.named → step s = .next t → t.named) ∧
  ∀ s : State, s.named → ∀ (i j : Nat) (x y : Rec), s.track[i]? = some x → s.track[j]? = some y → i ≠ j →
    x.key ≠ y.key ∧ (x.scanId ≠ 0 → x.scanId ≠ y.scanId)

/-- After every step each ring is in a state its mode and level allow, in SETUP IDLE or HELD (R128), at IMMEDIATE and
ESTOP HELD (R123), and serves a record exactly in a pressing state and is armed for one exactly in ARMED (R110).
At NONE no ring is HELD (R126), after every step; at AT_GAP outside SETUP no ring is IDLE or ARMED (R124), after every
step that does not leave SETUP (log 32: a ring that pressed may stand IDLE in SETUP at AT_GAP, and takes its state by
geometry as SETUP is left). -/
def Obligations.RingsKeepAllowedStates : Prop :=
  (∀ s t : State, (∀ k, s.ringRight k) → step s = .next t → ∀ k, t.ringRight k) ∧
  (∀ s t : State, (∀ k, s.ringRight k) → step s = .next t →
     (∀ k, s.release.level = .none → s.ringState k ≠ .held) → ∀ k, t.release.level = .none → t.ringState k ≠ .held) ∧
  (∀ s t : State, (∀ k, s.ringRight k) → (∀ k, s.rests k) → step s = .next t →
     s.control.mode ≠ .setup ∨ t.control.mode = .setup → ∀ k, t.rests k)

/-- The front lies at most 4 mm from P on the side of the flag's direction, and the residue within 0..scale − 1, after
every step (R2, R5, R6). -/
def Obligations.FrontAndResidueStayInRange : Prop :=
  ∀ s t : State, (∀ k, s.ringRight k) → s.feed.frontNear → s.residueRight → step s = .next t →
    t.feed.frontNear ∧ t.residueRight

/-! ### The feed (01) -/

/-- A change of the encoder lines to the next state of the forward cycle is one forward count, to the one before it one
reverse count, and a change of both lines none; every new line state becomes the accepted one (R1).  A forward count
adds 1000 to the residue and a reverse one takes 1000, and P steps once for each scale that brings it back within
0..scale − 1 (R2).
The forward cycle of the encoder lines is 00, 10, 11, 01, and back to 00 (R1).
A step of P moves it by 1 modulo 2^32; the front follows it in the flag's direction, and the flag turns, with the front
at P, when P has come back 5 mm from the front (R4 to R6).  The feed after each of the steps an encoder change brings is
that step of the feed before it, whatever events the step has. -/
def Obligations.EncoderCountsConvertToSteps : Prop :=
  (∀ (s : State) (enc1 enc2 : Bool), 0 < s.points.scale → s.residueRight →
     ∃ (residue n : Nat) (up : Bool),
       exec (.encoderChange enc1 enc2) s = .next (({ s with
           lines := { s.lines with enc1 := enc1, enc2 := enc2 }
           feed := { s.feed with enc := (enc1, enc2), residue := residue } } : State).stepsPos up n) ∧
       residue < s.points.scale ∧
       ((enc1, enc2) = nextEnc s.feed.enc → up = true ∧ s.feed.residue + 1000 = n * s.points.scale + residue) ∧
       (s.feed.enc = nextEnc (enc1, enc2) → up = false ∧ s.feed.residue + n * s.points.scale = residue + 1000) ∧
       ((enc1, enc2) ≠ nextEnc s.feed.enc → s.feed.enc ≠ nextEnc (enc1, enc2) → n = 0 ∧ residue = s.feed.residue)) ∧
  (nextEnc (false, false) = (true, false) ∧ nextEnc (true, false) = (true, true) ∧
     nextEnc (true, true) = (false, true) ∧ nextEnc (false, true) = (false, false)) ∧
  (∀ (f : Feed) (up : Bool), f.frontNear →
       (f.step up).pos = (if up then f.pos + 1 else f.pos - 1) ∧
       (f.dir = .fwd → up = true → (f.step up).dir = .fwd ∧
         (f.step up).front = if f.front = f.pos then f.pos + 1 else f.front) ∧
       (f.dir = .fwd → up = false →
         (posDiff f.front f.pos < 4 → (f.step up).dir = .fwd ∧ (f.step up).front = f.front) ∧
         (posDiff f.front f.pos = 4 → (f.step up).dir = .rev ∧ (f.step up).front = f.pos - 1)) ∧
       (f.dir = .rev → up = false → (f.step up).dir = .rev ∧
         (f.step up).front = if f.front = f.pos then f.pos - 1 else f.front) ∧
       (f.dir = .rev → up = true →
         (posDiff f.pos f.front < 4 → (f.step up).dir = .rev ∧ (f.step up).front = f.front) ∧
         (posDiff f.pos f.front = 4 → (f.step up).dir = .fwd ∧ (f.step up).front = f.pos + 1)) ∧
       (f.step up).residue = f.residue ∧ (f.step up).speed = f.speed ∧ (f.step up).kept = f.kept ∧ (f.step up).enc = f.enc) ∧
  (∀ (s : State) (up : Bool) (n : Nat), (∀ k, s.ringRight k) →
     (s.stepPos up).feed = s.feed.step up ∧ (s.stepsPos up n).feed = (fun f : Feed => f.step up)^[n] s.feed)

/-- A speed measurement takes the difference from the position kept, times 20, held within −2500..2500, and keeps P; it
leaves every ring's state and every record's place, binding and length (R7).  Each pressing ring's target is evaluated
at the speed measured (R7, R87). -/
def Obligations.SpeedUpdateMeasuresTheFeed : Prop :=
  ∀ s : State, ∃ t : State, exec .speedUpdate s = .next t ∧
    SameOuter { s with feed := { s.feed with speed := heldWithin (-2500) 2500 (posDiff s.feed.pos s.feed.kept * 20)
                                             kept := s.feed.pos } } t ∧
    t.ring = s.ring ∧ t.release = s.release ∧ t.recipes = s.recipes ∧ t.marks = s.marks ∧ t.permit = s.permit ∧
    t.cells = s.cells ∧ t.openStray = s.openStray ∧
    t.track.map (fun r => (r.key, r.scanId, r.b0, r.length, r.bound, r.species, r.realign, r.samples)) =
      s.track.map (fun r => (r.key, r.scanId, r.b0, r.length, r.bound, r.species, r.realign, r.samples)) ∧
    (∀ c, (t.valve.chans.get c).command = (s.valve.chans.get c).command) ∧ t.lastAdvise = t.advisedLimit ∧
    let u : State := { s with feed := t.feed }
    ∀ k r, s.servedRec k = some r → (s.ringState k).pressing = true →
      (t.setpoint.get k).pressTarget = (pressValue u k r).1

/-- The crossing events of one cause are taken in the order the feed would cross them: ascending going forward,
descending in reverse; each is a threshold of a record on the track, crossed in its enabled direction (R8, R10).  At one
position the more downstream record's come first going forward, and one record's in the order of R8's table; in reverse
the opposite of both.
One list holds the events of every owner: R10 orders each owner's own, and the order among owners is the model's choice
(log 6). -/
def Obligations.CrossingsFallInFeedOrder : Prop :=
  ∀ before now : State,
    (now.feed.dir = .fwd → (crossings before now).Pairwise fun x y => x.at_ ≤ y.at_) ∧
    (now.feed.dir = .rev → (crossings before now).Pairwise fun x y => y.at_ ≤ x.at_) ∧
    (∀ x, x ∈ crossings before now ↔ ∃ r ∈ now.track, x.id ∈ eventIds r ∧ x.key = r.key ∧
      ∃ t, threshold now.points r x.id = some t ∧ x.at_ = t - frontDist now r ∧
        (now.feed.dir = .fwd → x.id.forward = true ∧ below before (before.rec? r.key) x.id = true ∧ t ≤ frontDist now r) ∧
        (now.feed.dir = .rev → x.id.reverse = true ∧ below before (before.rec? r.key) x.id = false ∧ frontDist now r < t)) ∧
    ((now.track.map Rec.key).Nodup →
      let rank := fun x : Crossing => now.track.findIdx fun r => r.key == x.key
      let first := fun x y : Crossing => rank x < rank y ∨ (x.key = y.key ∧ x.id.row ≤ y.id.row)
      (now.feed.dir = .fwd → (crossings before now).Pairwise fun x y => x.at_ < y.at_ ∨ first x y) ∧
      (now.feed.dir = .rev → (crossings before now).Pairwise fun x y => y.at_ < x.at_ ∨ first y x))

/-! ### The track (02) -/

/-- R18 applied to a track: each record lying before the end of the span ahead is raised to it and flagged, and no
record is left before it; every other record, and the most downstream one, is as it was.  That a record lying wholly
before the end of the span ahead is raised as one that overlaps it is the model's reading (log 20).
An open stray's span ends at the entry cell's track position, held above its B0, and a push clamps the records behind it
as R18 does, leaving those ahead; with no open stray nothing is pushed (R17, R19). -/
def Obligations.OverlapsAreClampedUpstream : Prop :=
  (∀ (pts : Points) (pos : Pos) (l : List Rec), let l' := clampSpans pts pos l
    l'.length = l.length ∧ l'.head? = l.head? ∧
    (∀ (i : Nat) (a b : Rec), l'[i]? = some a → l'[i + 1]? = some b → 0 ≤ posDiff b.b0 (spanEnd pts pos a)) ∧
    (∀ (i : Nat) (a b c : Rec), l'[i]? = some a → l[i + 1]? = some b → l'[i + 1]? = some c →
      (0 ≤ posDiff b.b0 (spanEnd pts pos a) → c = b) ∧
      (posDiff b.b0 (spanEnd pts pos a) < 0 →
        c = { b with b0 := spanEnd pts pos a, flags := addFlags [.overlapClamped] b.flags }))) ∧
  (∀ (pts : Points) (pos : Pos) (r : Rec),
     (∀ len, r.length = some len → spanEnd pts pos r = posAdd r.b0 len) ∧
     (r.length = none → let cell := posAdd pos (-((pts.dA : Int) - pts.cA))
       spanEnd pts pos r = if 1 ≤ posDiff cell r.b0 then cell else posAdd r.b0 1)) ∧
  (∀ (pts : Points) (pos : Pos) (l : List Rec), (∀ r ∈ l, r.length ≠ none) → pushBehindStray pts pos l = l) ∧
  ∀ (pts : Points) (pos : Pos) (a b : List Rec) (r : Rec), (∀ x ∈ a, x.length ≠ none) → r.length = none →
    pushBehindStray pts pos (a ++ r :: b) = a ++ clampSpans pts pos (r :: b)

/-- The sample list of a record holds ceil(length / 200) samples: short of that the last is repeated and SAMPLES_HELD
added, beyond it those after the n-th are dropped and SAMPLES_EXTRA added, at it the list is as sent; for lengths of
1000..12 000 mm that is 5..60 (R22). -/
def Obligations.SamplesAreFittedToTheLength : Prop :=
  ∀ (length : Nat) (l : List Nat), l ≠ [] → let n := sampleCount length
    (fitSamples n l).1.length = n ∧ n * 200 < length + 200 ∧ length ≤ n * 200 ∧
    (1000 ≤ length → length ≤ 12000 → 5 ≤ n ∧ n ≤ 60) ∧
    (l.length < n → fitSamples n l = (l ++ List.replicate (n - l.length) (l.getLastD 0), [.samplesHeld])) ∧
    (n < l.length → fitSamples n l = (l.take n, [.samplesExtra])) ∧ (l.length = n → fitSamples n l = (l, []))

/-- A PROFILE is checked in the order of R20 and the first failure gives the reply with nothing changed.
A profile no stray adopts, passing R20's checks, makes a new record at the upstream end, of B0 = P_arrival −
latency_comp − length, put through the clamp of R18, with the events of its admission (R21 to R25).  The reply is
CLAMPED where a sample was held or clamped, a value clamped or B0 raised; the list is fitted before it is clamped, and
samples dropped alone give OK (log 21, the model's reading).
A stray that adopts a profile keeps its B0, its realign state and its bound, and takes the profile's scan_id, confidence
and orientation; an open one takes the profile's length, a closed one keeps its own, and one unbound and of source
FALLBACK_STRAY takes the profile's species (R26, R27).
The adopting record takes its place in the track so, an open one no more the open stray and put through the clamp of R18
with its length; a ring armed for it evaluates its lift, and the events of the thresholds that come into being follow
(R16, R27; their order with the rings and the advisory: logs 6 and 16, the model's). -/
def Obligations.ProfileIsRefusedAdmittedOrAdopted : Prop :=
  (∀ (s : State) (p : Port) (r : Req) (rest : List Req), s.takes p .profile r rest →
     let d := readProfile r.payload
     let bad := d.scanId = 0 ∨ 250 < d.species ∨ 1 < d.orientation
     let short := d.length < 1000 ∨ 12000 < d.length
     let twin := ∃ x ∈ s.track, x.scanId = d.scanId
     (bad → exec (.profile p) s = .next (s.answer p r .badValue [])) ∧
     (short → exec (.profile p) s = .next (s.answer p r .badValue [])) ∧
     (d.samples = [] → exec (.profile p) s = .next (s.answer p r .badValue [])) ∧
     (¬bad → ¬short → d.samples ≠ [] → twin → exec (.profile p) s = .next (s.answer p r .duplicateLog [])) ∧
     (¬bad → ¬short → d.samples ≠ [] → ¬twin → 12 ≤ s.track.length → s.adopter d r.arrival = none →
       exec (.profile p) s = .next (s.answer p r .trackFull []))) ∧
  (∀ (s : State) (p : Port) (r : Req) (rest : List Req) (o : Orientation), s.takes p .profile r rest →
     let d := readProfile r.payload
     let x := profileRec s d o r.arrival
     let placed : State := { s with
       track := clampSpans s.points s.feed.pos (s.track ++ [x])
       nextKey := s.nextKey + 1 }
     let raised := (s.track.getLast?).any fun y => decide (posDiff x.b0 (spanEnd s.points s.feed.pos y) < 0)
     Orientation.ofCode d.orientation = some o → 1 ≤ d.scanId → d.species ≤ 250 → 1000 ≤ d.length → d.length ≤ 12000 →
     d.samples ≠ [] → (∀ y ∈ s.track, y.scanId ≠ d.scanId) → s.track.length < 12 → s.adopter d r.arrival = none →
     (exec (.profile p) s = .next ((placed.afterMove s).answer p r
       (if 100 < d.confidence ∨ (∃ t, d.surfaceTemp = some t ∧ (t < -40 ∨ 40 < t)) ∨ d.samples.length < sampleCount d.length ∨
           (∃ v ∈ (fitSamples (sampleCount d.length) d.samples).1, v < 60 ∨ 900 < v) ∨ raised = true
         then .clamped else .ok) [])) ∧
     x.b0 = posAdd r.arrival (-((s.points.latencyComp : Int) + d.length)) ∧ x.scanId = d.scanId ∧ x.origin = .scanned ∧
     x.species = d.species ∧ x.source = .scanner ∧ x.confidence = min d.confidence 100 ∧ x.orientation = o ∧
     x.surfaceTemp = d.surfaceTemp.map (heldWithin (-40) 40) ∧ x.length = some d.length ∧ x.bound = none ∧
     x.realign = .notChecked ∧ x.peakA = 0 ∧ x.peakB = 0 ∧
     x.samples = (fitSamples (sampleCount d.length) d.samples).1.map (heldNat 60 900) ∧
     (Flag.buttFlare ∈ x.flags ↔ o = .buttLeading ∧
       (s.recipes.active.recipeFor d.species).flareRatio * x.samples.getD 2 0 < x.samples.getD 0 0 * 100)) ∧
  (∀ (s : State) (x : Rec) (d : ProfileData) (o : Orientation), let y := x.adopt s d o
     y.b0 = x.b0 ∧ y.realign = x.realign ∧ y.bound = x.bound ∧ y.key = x.key ∧ y.peakA = x.peakA ∧ y.peakB = x.peakB ∧
     y.scanId = d.scanId ∧ y.origin = .strayAdopted ∧ y.confidence = min d.confidence 100 ∧ y.orientation = o ∧
     y.length = some (x.length.getD d.length) ∧
     y.samples = (fitSamples (sampleCount (x.length.getD d.length)) d.samples).1.map (heldNat 60 900) ∧
     (x.bound = none → x.source = .fallbackStray → y.species = d.species ∧ y.source = .scanner) ∧
     (x.bound ≠ none ∨ x.source ≠ .fallbackStray → y.species = x.species ∧ y.source = x.source) ∧
     (∀ f ∈ x.flags, f ∈ y.flags) ∧
     ∀ (p : Port) (r : Req) (rest : List Req), s.takes p .profile r rest → d = readProfile r.payload →
       Orientation.ofCode d.orientation = some o → 1 ≤ d.scanId → d.species ≤ 250 → 1000 ≤ d.length → d.length ≤ 12000 →
       d.samples ≠ [] → (∀ z ∈ s.track, z.scanId ≠ d.scanId) →
       s.track.find? (fun z => decide (z.origin = .stray) && overlapsSpan s (posAdd r.arrival
         (-((s.points.latencyComp : Int) + d.length))) d.length z) = some x →
       let n := sampleCount (x.length.getD d.length)
       let adopted := s.track.map fun z => if z.key = x.key then z.adopt s d o else z
       let placed : State := { s with
         track := if x.length = none then clampSpans s.points s.feed.pos adopted else adopted
         openStray := s.openStray.filter fun z => decide (z.key ≠ x.key) }
       exec (.profile p) s = .next (((placed.evalLiftFor x.key).afterMove s).answer p r
         (if 100 < d.confidence ∨ (∃ t, d.surfaceTemp = some t ∧ (t < -40 ∨ 40 < t)) ∨ d.samples.length < n ∨
             (∃ v ∈ (fitSamples n d.samples).1, v < 60 ∨ 900 < v)
           then .clamped else .ok) []))

/-- SPECIES_SET: UNKNOWN_LOG where no record holds the scan_id, TOO_LATE where that record is bound, NO_RECORD where no
active slot holds the code, in that order and with nothing changed; else the record's species and source change (R33).
SPECIES_FORCE: NO_RECORD where no active slot holds the code; it gives the first unbound record the code and source
PANEL_FORCE, or is refused with UNKNOWN_LOG where there is none (R35); in MANUAL a bound record covering ring A's plane
is rebound instead (R36).
A rebinding is handed on as a binding is: each ring that serves the record evaluates its press target, the thresholds
moved take their events, and the advisory is recomputed last (R37; log 6). -/
def Obligations.SpeciesRequestsNameARecord : Prop :=
  (∀ (s : State) (p : Port) (r : Req) (rest : List Req), s.takes p .speciesSet r rest →
     let id := u16 r.payload 0
     let code := u8 r.payload 2
     (id = 0 ∨ (∀ x ∈ s.track, x.scanId ≠ id) → exec (.speciesSet p) s = .next (s.answer p r .unknownLog [])) ∧
     ∀ x, id ≠ 0 → s.track.find? (fun y => decide (y.scanId = id)) = some x →
       (x.bound ≠ none → exec (.speciesSet p) s = .next (s.answer p r .tooLate [])) ∧
       (x.bound = none → s.recipes.active.lookup code = none →
         exec (.speciesSet p) s = .next (s.answer p r .noRecord [])) ∧
       (x.bound = none → s.recipes.active.lookup code ≠ none →
         ∃ t : State, exec (.speciesSet p) s = .next (t.answer p r .ok []) ∧
           t.track = s.track.map (fun y => if y.key = x.key then { y with species := code, source := .line } else y) ∧
           SameOuter s t ∧ t.ring = s.ring ∧ t.release = s.release ∧ t.recipes = s.recipes ∧ t.cells = s.cells ∧
           t.openStray = s.openStray ∧ t.marks = s.marks ∧ t.permit = s.permit ∧ t.lastAdvise = t.advisedLimit)) ∧
  (∀ (s : State) (p : Port) (r : Req) (rest : List Req), s.takes p .speciesForce r rest →
     let code := u8 r.payload 0
     (s.recipes.active.lookup code = none → exec (.speciesForce p) s = .next (s.answer p r .noRecord [])) ∧
     (s.recipes.active.lookup code ≠ none →
       (∀ x, s.control.mode = .manual → s.track.find? (covers s .a) = some x → x.bound ≠ none →
         let rebound : State := { s with track := s.track.map fun y => if y.key = x.key then y.rebind s code else y }
         let t := ((rebound.evalPressFor x.key).evalLiftFor x.key).afterMove s
         exec (.speciesForce p) s = .next (t.answer p r .ok []) ∧ t.lastAdvise = t.advisedLimit ∧
           (x.rebind s code).species = code ∧ (x.rebind s code).source = .panelForce ∧
           (x.rebind s code).bound = some (s.bindingNow { x with species := code }) ∧
           (x.rebind s code).flags = x.flags ∧ (x.rebind s code).peakA = x.peakA) ∧
       ((s.control.mode = .manual → ∀ x, s.track.find? (covers s .a) = some x → x.bound = none) →
         ((∀ x ∈ s.track, x.bound ≠ none) → exec (.speciesForce p) s = .next (s.answer p r .unknownLog [])) ∧
         ∀ x, s.firstUnbound = some x → ∃ t : State, exec (.speciesForce p) s = .next (t.answer p r .ok []) ∧
           t.track = s.track.map (fun y => if y.key = x.key then { y with species := code, source := .panelForce } else y) ∧
           SameOuter s t ∧ t.ring = s.ring ∧ t.release = s.release ∧ t.recipes = s.recipes ∧ t.cells = s.cells ∧
           t.marks = s.marks ∧ t.permit = s.permit)))

/-- What a binding places in a record: the active record of its code, or the fallback with species 0 and
FALLBACK_UNKNOWN; a fallback copy beside it where the confidence is below the threshold and the species is not 0 (R29);
frozen in WINTER with the surface temperature absent or at or below the frost threshold, and in no other case (R30).
A leading end at ring A's plane binds its record where its bound is absent, whatever the ring's state and the mode, and
a bound record takes it without a binding; no other event binds (R28).  The binding brings the crossings of the
thresholds it sets, the entry end and the tail advance of both rings, that lie at or below the front distance with the
flag at FWD (R8, R31). -/
def Obligations.BindingCopiesTheRecipe : Prop :=
  (∀ (s : State) (r : Rec), ∃ b, (r.bind s).bound = some b ∧
       (∀ x, s.recipes.active.lookup r.species = some x → b.species = x ∧ (r.bind s).species = r.species ∧
         (r.bind s).source = r.source ∧
         b.fallback = if r.confidence < s.points.confidenceThreshold ∧ r.species ≠ 0 then some s.recipes.active.fallback
           else none) ∧
       (s.recipes.active.lookup r.species = none → b.species = s.recipes.active.fallback ∧ b.fallback = none ∧
         (r.bind s).species = 0 ∧ (r.bind s).source = .fallbackUnknown) ∧
       (b.frozen = true ↔ s.control.season = .winter ∧
         ∀ t, r.surfaceTemp = some t → t ≤ s.points.frostThreshold)) ∧
  (∀ (s : State) (key : Nat) (r : Rec) (d : Int), s.rec? key = some r →
     let x := s.takeEvent ⟨key, .plane .a, d⟩
     (r.bound ≠ none → x = (s.takeCrossing ⟨key, .plane .a, d⟩, [])) ∧
     (r.bound = none → ∃ q, x.1.rec? key = some q ∧ q.bound = some (s.bindingNow r) ∧ q.species = (r.bind s).species ∧
       q.source = (r.bind s).source ∧ q.b0 = r.b0 ∧ q.length = r.length ∧
       ∀ y, y ∈ x.2 ↔ y.key = key ∧ s.feed.dir = .fwd ∧
         (y.id = .entryEnd .a ∨ y.id = .entryEnd .b ∨ y.id = .tailAdvance .a ∨ y.id = .tailAdvance .b) ∧
         ∃ t, threshold s.points q y.id = some t ∧ y.at_ = t - frontDist s r ∧ t ≤ frontDist s r)) ∧
  (∀ (s : State) (c : Crossing), c.id ≠ .plane .a → s.takeEvent c = (s.takeCrossing c, []))

/-- The advised feed limit is 2000 where no record covers a plane or is the first unbound one, and else the least of
their values: max_feed, or max_feed × frozen_feed_pct / 100 rounded for a frozen decision, the lower of two where a
fallback copy is held (R42).
A recomputation that gives the last value sent changes nothing; any other is placed as an ADVISE on the Line port and
becomes the last value sent (R43). -/
def Obligations.AdvisedLimitIsTheLeastValue : Prop :=
  (∀ s : State,
    let group := s.track.filter fun r =>
      covers s .a r || covers s .b r || decide (s.firstUnbound.map Rec.key = some r.key)
    (group = [] → s.advisedLimit = 2000) ∧
    (∀ r ∈ group, s.advisedLimit ≤ (s.recipeOf r).feed) ∧
    (group ≠ [] → ∃ r ∈ group, s.advisedLimit = (s.recipeOf r).feed) ∧
    ∀ (b : Bound), b.feed = (match b.fallback with
      | none => if b.frozen then roundDivNat (b.species.maxFeed * b.species.frozenFeedPct) 100 else b.species.maxFeed
      | some f => if b.frozen then
          min (roundDivNat (b.species.maxFeed * b.species.frozenFeedPct) 100) (roundDivNat (f.maxFeed * f.frozenFeedPct) 100)
        else min b.species.maxFeed f.maxFeed)) ∧
  ∀ s : State,
    (s.advisedLimit = s.lastAdvise → s.advise = s) ∧
    (s.advisedLimit ≠ s.lastAdvise → s.advise = ({ s with lastAdvise := s.advisedLimit } : State).onPort .line fun q =>
      { q with out := placeAdvise s.advisedLimit q.out })

/-! ### The cells (01, 03) -/

/-- A raw level away from the filtered level makes a candidate stamped with the present P and flag, with nothing else
changed; a level back at it drops the candidate with no edge; the level already on the line is no change (R12).
An edge is taken: the filtered level becomes the candidate's, the candidate goes, and the edge is reconciled; whatever
it does, the feed, the points, the mode and the inputs stay.  With no candidate there is no edge (R12, R13; log 11).
The edges that change no record: a rising edge at the exit cell, a tail leaving the entry cell with no open stray, a
tail coming back into the entry cell, and a leading end that comes forward again within W of a checked record's expected
position; no record waiting at the cell (R45, R46, R56). -/
def Obligations.CellLevelsAreFilteredToEdges : Prop :=
  (∀ (s : State) (c : Cell) (b : Bool), Lines.cellBlocked s.lines c ≠ b →
     (b ≠ (s.cells.get c).blocked →
       exec (.cellRawChange c b) s = .next { s with
         lines := (match c with
           | .entry => { s.lines with entryBlocked := b }
           | .exit => { s.lines with exitBlocked := b })
         cells := s.cells.modify c fun q => { q with candidate := some ⟨s.feed.pos, s.feed.dir⟩ } }) ∧
     (b = (s.cells.get c).blocked → (s.cells.get c).waiting = none →
       exec (.cellRawChange c b) s = .next { s with
         lines := (match c with
           | .entry => { s.lines with entryBlocked := b }
           | .exit => { s.lines with exitBlocked := b })
         cells := s.cells.modify c fun q => { q with candidate := none } }) ∧
     exec (.cellRawChange c (Lines.cellBlocked s.lines c)) s = .next s) ∧
  (∀ (s : State) (c : Cell), (∀ k, s.ringRight k) →
     ((s.cells.get c).candidate = none → exec (.cellEdge c) s = .next s) ∧
     ∀ stamp, (s.cells.get c).candidate = some stamp →
       ∃ t : State, exec (.cellEdge c) s = .next t ∧ SameOuter s t ∧
         (t.cells.get c).blocked = !(s.cells.get c).blocked ∧ (t.cells.get c).candidate = none) ∧
  (∀ (s : State) (c : Cell) (p : Pos) (d : Dir), (s.cells.get c).candidate = some ⟨p, d⟩ → (s.cells.get c).waiting = none →
     ((c = .exit ∧ (s.cells.get c).blocked = false) ∨
       (c = .exit ∧ (s.cells.get c).blocked = true ∧ d = .rev) ∨
       (c = .entry ∧ (s.cells.get c).blocked = true ∧ s.openStray = none) ∨
       (c = .entry ∧ (s.cells.get c).blocked = false ∧ d = .rev) ∨
       (c = .entry ∧ (s.cells.get c).blocked = false ∧ d = .fwd ∧ ∃ r ∈ s.track, r.realign ≠ .notChecked ∧
         (posDiff p (posAdd r.b0 (s.points.dA - s.points.cA))).natAbs ≤ s.points.realignWindow)) →
     exec (.cellEdge c) s = .next { s with
       cells := s.cells.modify c fun q => { q with blocked := !q.blocked, candidate := none } })

/-- A leading end at the entry cell that no record accounts for: with 12 records present the cause TRACK_LOST and its
notice are raised and no record is made (R47, R50); with room a stray is made open, at the place the cell gives, with
STRAY_LOG, all of the track being otherwise empty and the flag at REV, so that no crossing follows (R49).
A tail leaving the exit cell with no candidate: the oldest LONG record is finished, with LOG_DONE of its values placed
on the Line port; with none, EXIT_UNMATCHED is raised and no record changes (R58). -/
def Obligations.EdgesNoRecordAccountsFor : Prop :=
  (∀ (s : State) (p : Pos), s.cells.entry = ⟨false, some ⟨p, .fwd⟩, none⟩ → (∀ k, s.ringRight k) → s.levelRight →
     ((∀ r ∈ s.track, r.realign ≠ .notChecked ∧
         s.points.realignWindow < (posDiff p (posAdd r.b0 (s.points.dA - s.points.cA))).natAbs) →
       s.track.length = 12 →
       ∃ t : State, exec (.cellEdge .entry) s = .next t ∧ t.release.causes = { s.release.causes with trackLost := true } ∧
         1 ≤ t.release.level.rank ∧ t.track.map Rec.key = s.track.map Rec.key ∧ t.openStray = s.openStray ∧
         ∀ q, NoticeKind.trackLost ∈ (t.ports.get q).status) ∧
     (s.track = [] → s.feed.dir = .rev →
       ∃ (t : State) (x : Rec), exec (.cellEdge .entry) s = .next t ∧ t.track = [x] ∧
         x.origin = .stray ∧ x.source = .fallbackStray ∧ x.species = 0 ∧ x.scanId = 0 ∧ x.length = none ∧ x.samples = [] ∧
         x.bound = none ∧ x.realign = .realigned ∧ x.flags = [] ∧
         x.b0 = posAdd p (-((s.points.dA : Int) - s.points.cA)) ∧ t.openStray = some ⟨x.key, p⟩ ∧
         ∀ q, NoticeKind.strayLog ∈ (t.ports.get q).status)) ∧
  (∀ (s : State) (p : Pos), s.cells.exit = ⟨true, some ⟨p, .fwd⟩, none⟩ →
     (∀ r ∈ s.track, ∀ len, r.length = some len →
       s.points.realignWindow <
         (posDiff p (posAdd r.b0 ((s.points.dA : Int) + s.points.dAB + s.points.dX + len))).natAbs) →
     let u : State := { s with cells := { s.cells with exit := ⟨false, none, none⟩ } }
     ((∀ r ∈ s.track, Flag.long ∉ r.flags) → exec (.cellEdge .exit) s = .next (u.notice .exitUnmatched)) ∧
     ∀ r, s.track.find? (fun r => decide (Flag.long ∈ r.flags)) = some r →
       exec (.cellEdge .exit) s = .next (u.finish r.key))

/-- A rising edge at the entry cell stamped FWD that no checked record claims: within W of the first unchecked record's
expected position it realigns that record, B0 becoming P_e − (D_A − C_A) and realign REALIGNED; beyond W downstream of
it, it has the record removed as missing, and the edge then does what it does on the track that is left, the test made
again (R47, R48); with room and no unchecked record near or due before it, a stray is placed in B0 order, behind a
record of the same B0 (log 29), held open from P_e, with STRAY_LOG (R49).
A falling edge with a stray open closes it, stamped FWD, with its measured length held within 1000..12 000, and
withdraws it, stamped REV (R52, R53).
A tail leaving the exit cell within W of its candidate's expected position finishes the LONG records ahead, the most
downstream first, and then the candidate (R57, R61).
A change of B0 or of length is put through the clamp of R18, and the events that follow it move no record: those left
are of the track before, in its order, each with its place, length, samples and identity.
That the notice of a stray comes before its events and that of a removal after it is log 6, and that a ring reads a
moved record after its events log 16 (the model's). -/
def Obligations.EdgesMoveTheRecordsTheyMatch : Prop :=
  (∀ (s : State) (p : Pos), s.cells.entry = ⟨false, some ⟨p, .fwd⟩, none⟩ →
     let place : Pos := posAdd p (-((s.points.dA : Int) - s.points.cA))
     let off := fun x : Rec => posDiff p (posAdd x.b0 ((s.points.dA : Int) - s.points.cA))
     let w : Int := s.points.realignWindow
     let unchecked := s.track.find? fun x => decide (x.realign = .notChecked)
     let u : State := { s with cells := { s.cells with entry := ⟨true, none, none⟩ } }
     let stray : Rec :=
       { key := s.nextKey, scanId := 0, origin := .stray, species := 0, source := .fallbackStray, confidence := 0
         surfaceTemp := none, orientation := .topLeading, length := none, b0 := place, samples := [], bound := none
         realign := .realigned, flags := [], peakA := 0, peakB := 0 }
     (∀ x ∈ s.track, x.realign ≠ .notChecked → w < (off x).natAbs) →
     (∀ r, unchecked = some r → (off r).natAbs ≤ w →
       exec (.cellEdge .entry) s = .next (({ u with
         track := clampSpans s.points s.feed.pos (s.track.map fun x =>
           if x.key = r.key then { x with b0 := place, realign := .realigned } else x) } : State).afterMove u)) ∧
     ((∀ r, unchecked = some r → off r < -w) → s.track.length < 12 →
       exec (.cellEdge .entry) s = .next ((({ u with
         track := clampSpans s.points s.feed.pos (insertByB0 stray s.track)
         nextKey := s.nextKey + 1
         openStray := some ⟨s.nextKey, p⟩ } : State).notice .strayLog).afterMove u)) ∧
     (∀ r, unchecked = some r → w < off r →
       let v := (u.removeRec r.key).notice .logMissing
       exec (.cellEdge .entry) s = exec (.cellEdge .entry)
         { v with cells := { v.cells with entry := ⟨false, some ⟨p, .fwd⟩, none⟩ } })) ∧
  (∀ (x : Rec) (l : List Rec), ∃ a b, l = a ++ b ∧ insertByB0 x l = a ++ x :: b ∧
     (∀ r ∈ a, posDiff r.b0 x.b0 ≤ 0) ∧ ∀ r, b.head? = some r → 0 < posDiff r.b0 x.b0) ∧
  (∀ (s : State) (p : Pos) (d : Dir) (w : Option Nat) (o : OpenStray), s.cells.entry = ⟨true, some ⟨p, d⟩, w⟩ →
     s.openStray = some o →
     let u : State := { s with cells := { s.cells with entry := ⟨false, none, w⟩ } }
     (d = .fwd → exec (.cellEdge .entry) s = .next (({ u with
       track := clampSpans s.points s.feed.pos (s.track.map fun x =>
         if x.key = o.key then { x with length := some (heldWithin 1000 12000 (posDiff p o.rise)).toNat } else x)
       openStray := none } : State).afterMove u)) ∧
     (d = .rev → w = none → exec (.cellEdge .entry) s = .next (u.withdraw o.key))) ∧
  (∀ (s : State) (p : Pos) (c : Rec), s.cells.exit = ⟨true, some ⟨p, .fwd⟩, none⟩ →
     s.track.find? (fun r => r.length.any fun len : Nat => decide
       ((posDiff p (posAdd r.b0 ((s.points.dA : Int) + s.points.dAB + s.points.dX + len))).natAbs ≤
         s.points.realignWindow)) = some c →
     let u : State := { s with cells := { s.cells with exit := ⟨false, none, none⟩ } }
     let ahead := (s.track.takeWhile fun r => decide (r.key ≠ c.key)).filter fun r => decide (Flag.long ∈ r.flags)
     exec (.cellEdge .exit) s = .next ((ahead.foldl (fun t r => t.finish r.key) u).finish c.key)) ∧
  (∀ s before : State, (∀ k, s.ringRight k) →
     let held := fun r : Rec => (r.key, r.scanId, r.origin, r.b0, r.length, r.samples, r.orientation, r.confidence)
     SameOuter s (s.afterMove before) ∧ ((s.afterMove before).track.map held).Sublist (s.track.map held))

/-- An entry window passes (R54): without effect for a checked record; an unchecked one becomes UNCONFIRMED with the
cell BLOCKED, is removed as missing with it CLEAR and no candidate, or where another record waits, and else waits
itself.  A tail window passes (R59): with the exit cell CLEAR the record gains EXIT_INFERRED and is finished, with it
BLOCKED it gains LONG, or waits where a candidate stands and no record waits.  The record that waits takes its event
again without effect (log 17).
A waiting record is settled as the candidate ends (R55, R60): dropped, or taken as an edge stamped REV, by the filtered
level then held; after a rising edge stamped FWD at the entry cell none waits and the record is no more NOT_CHECKED;
after a falling edge stamped FWD at the exit cell none waits and the record has left the track. -/
def Obligations.PassedWindowsAreDecidedByTheCells : Prop :=
  (∀ (s : State) (key : Nat) (r : Rec) (d : Int), s.rec? key = some r →
     let c := s.cells.entry
     let t := s.takeCrossing ⟨key, .entryWindow, d⟩
     (r.realign ≠ .notChecked ∨ c.waiting = some key → t = s) ∧
     (r.realign = .notChecked → c.waiting ≠ some key →
       (c.blocked = true → t = s.onRec key fun x => { x with realign := .unconfirmed }) ∧
       (c.blocked = false → c.candidate = none ∨ c.waiting ≠ none → t = s.removeMissing key) ∧
       (c.blocked = false → c.candidate ≠ none → c.waiting = none →
         t = { s with cells := { s.cells with entry := { c with waiting := some key } } }))) ∧
  (∀ (s : State) (key : Nat) (r : Rec) (d : Int), s.rec? key = some r →
     let c := s.cells.exit
     let t := s.takeCrossing ⟨key, .tailWindow, d⟩
     (c.waiting = some key → t = s) ∧
     (c.waiting ≠ some key →
       (c.blocked = false →
         t = (s.onRec key fun x => { x with flags := addFlags [.exitInferred] x.flags }).finish key) ∧
       (c.blocked = true → c.candidate = none ∨ c.waiting ≠ none →
         t = s.onRec key fun x => { x with flags := addFlags [.long] x.flags }) ∧
       (c.blocked = true → c.candidate ≠ none → c.waiting = none →
         t = { s with cells := { s.cells with exit := { c with waiting := some key } } }))) ∧
  (∀ (s : State) (c : Cell) (key : Nat) (q : CellState), s.cells.get c = q → q.waiting = some key →
     let entry := fun (u : State) (blocked : Bool) =>
       if blocked then u.onRec key fun x => { x with realign := .unconfirmed } else u.removeMissing key
     let exit := fun (u : State) (blocked : Bool) =>
       if blocked then u.onRec key fun x => { x with flags := addFlags [.long] x.flags }
       else (u.onRec key fun x => { x with flags := addFlags [.exitInferred] x.flags }).finish key
     let settle := match c with
       | .entry => entry
       | .exit => exit
     (Lines.cellBlocked s.lines c ≠ q.blocked → exec (.cellRawChange c q.blocked) s = .next (settle
       { s with
         lines := Lines.setCell s.lines c q.blocked
         cells := s.cells.modify c fun x => { x with candidate := none, waiting := none } } q.blocked)) ∧
     (∀ p, q.candidate = some ⟨p, .rev⟩ → (c = .entry → s.openStray = none) → (c = .exit → q.blocked = true) →
       exec (.cellEdge c) s = .next (settle
         { s with cells := s.cells.modify c fun _ => ⟨!q.blocked, none, none⟩ } (!q.blocked))) ∧
     (∀ p, q.candidate = some ⟨p, .fwd⟩ → q.blocked = decide (c = .exit) → (∀ k, s.ringRight k) →
       ∃ t : State, exec (.cellEdge c) s = .next t ∧ (t.cells.get c).waiting = none ∧
         ∀ r ∈ t.track, r.key = key → c = .entry ∧ r.realign ≠ .notChecked))

/-- A record removed leaves the track, and the records behind keep their places; each cell and the open stray let go of
it, no ring outside SETUP serves it or is armed for it, a ring that did not is as it was, and the advisory is recomputed
(R39).
A finish sends LOG_DONE on the Line port with the record's values, hands its mark event on and removes the record (R40,
R61).
A record whose leading end backs out over the scanner line is withdrawn (R38); a withdrawal and a removal as missing
raise their notices and send no LOG_DONE (R39, R53, R54).
LOG_DONE goes before the removal (R40); that its mark event stands between them, and a removal's notice after its
advisory, is the model's choice (log 6). -/
def Obligations.RemovedRecordsLeaveTheTrack : Prop :=
  (∀ (s : State) (key : Nat), s.rec? key = none → s.removeRec key = s ∧ s.finish key = s) ∧
  (∀ (s : State) (key : Nat) (r : Rec), (∀ k, s.ringRight k) → s.rec? key = some r →
     let t := s.removeRec key
     let held := fun x : Rec => (x.key, x.b0, x.length, x.scanId, x.species, x.bound, x.realign, x.samples)
     SameOuter s t ∧ t.release = s.release ∧
     t.track.map held = (s.track.filter fun x => decide (x.key ≠ key)).map held ∧
     t.openStray = s.openStray.filter (fun o => decide (o.key ≠ key)) ∧
     (∀ c, t.cells.get c = { s.cells.get c with
       waiting := if (s.cells.get c).waiting = some key then none else (s.cells.get c).waiting }) ∧
     t.lastAdvise = t.advisedLimit ∧
     (∀ k, s.control.mode ≠ .setup → (t.ring.get k).served ≠ some key ∧ (t.ring.get k).armedFor ≠ some key) ∧
     (∀ k, s.control.mode = .setup ∨ ((s.ring.get k).served ≠ some key ∧ (s.ring.get k).armedFor ≠ some key) →
       t.ring.get k = s.ring.get k)) ∧
  (∀ (s : State) (key : Nat) (r : Rec), s.rec? key = some r → ∃ b : List Byte,
     s.finish key = (((s.onPort .line fun q => { q with out := q.out ++ [.telegram 0x51 b] }).markEvent
       .logDone).removeRec key) ∧
     b.length = 13 ∧ u16 b 0 = r.scanId % 65536 ∧ u8 b 2 = r.species % 256 ∧ u8 b 3 = r.source.code ∧
     u8 b 4 = (match r.bound with
       | some x => x.frozen.toNat
       | none => 255) ∧
     u16 b 5 = r.length.getD 0 % 65536 ∧ u16 b 7 = flagBits r.flags ∧ u16 b 9 = r.peakA % 65536 ∧
     u16 b 11 = r.peakB % 65536) ∧
  (∀ (s : State) (key : Nat) (r : Rec) (d : Int), s.rec? key = some r →
     s.takeCrossing ⟨key, .withdrawal, d⟩ = (s.removeRec key).notice .logWithdrawn ∧
     s.withdraw key = (s.removeRec key).notice .logWithdrawn ∧
     s.removeMissing key = (s.removeRec key).notice .logMissing)

/-! ### Recipes (04) -/

/-- RECIPE_WRITE: refused with SWAP_PENDING while a swap is pending and with BAD_VALUE where a check of R69 fails, with
nothing changed; else the record, held within its ranges, takes the shadow slot, and the active table stays (R69, R70).
RECIPE_DELETE: SWAP_PENDING, then BAD_VALUE for slot 0 and for none of 0..23; else the shadow slot becomes empty,
whether or not it held a record, and nothing else changes (R71). -/
def Obligations.RecipeEditsReachTheShadowAlone : Prop :=
  (∀ (s : State) (p : Port) (r : Req) (rest : List Req), s.takes p .recipeWrite r rest →
     let slot := u8 r.payload 0
     let x := readSpecies r.payload 1
     (s.recipes.swapPending = true → exec (.recipeWrite p) s = .next (s.answer p r .swapPending [])) ∧
     (s.recipes.swapPending = false →
       (23 < slot ∨ (slot = 0 ∧ x.code ≠ 0) ∨ (slot ≠ 0 ∧ (x.code = 0 ∨ 250 < x.code)) ∨
         nameFits ((r.payload.drop 2).take 12) = false ∨ curvesFit x = false ∨
         (∃ i y, i ≠ slot ∧ s.recipes.shadow[i]? = some (some y) ∧ y.code = x.code) →
           exec (.recipeWrite p) s = .next (s.answer p r .badValue [])) ∧
       (slot ≤ 23 → (slot = 0 ↔ x.code = 0) → x.code ≤ 250 → nameFits ((r.payload.drop 2).take 12) = true →
         curvesFit x = true → (∀ i y, i ≠ slot → s.recipes.shadow[i]? = some (some y) → y.code ≠ x.code) →
           exec (.recipeWrite p) s =
             .next (({ s with recipes := { s.recipes with shadow := s.recipes.shadow.set slot (some (clampSpecies x)) } } :
                 State).answer p r (if clampSpecies x = x then .ok else .clamped) [])))) ∧
  (∀ (s : State) (p : Port) (r : Req) (rest : List Req), s.takes p .recipeDelete r rest →
     let slot := u8 r.payload 0
     (s.recipes.swapPending = true → exec (.recipeDelete p) s = .next (s.answer p r .swapPending [])) ∧
     (s.recipes.swapPending = false → slot = 0 ∨ 23 < slot →
       exec (.recipeDelete p) s = .next (s.answer p r .badValue [])) ∧
     (s.recipes.swapPending = false → 1 ≤ slot → slot ≤ 23 →
       exec (.recipeDelete p) s =
         .next (({ s with recipes := { s.recipes with shadow := s.recipes.shadow.set slot none } } : State).answer
           p r .ok [])))

/-- The clamp of a record: each of the fourteen figures is its value held within the range of the field table (R67),
each pressure of a curve the lesser of its own and 1000 (R65); the code, the name, the diameters and whether there is a
frozen curve are as offered.  A record within its ranges is kept as it is, as a clamped one is. -/
def Obligations.RecipeFiguresAreHeldWithinRange : Prop :=
  ∀ r : Species, let x := clampSpecies r
    clampSpecies x = x ∧ x.code = r.code ∧ x.name = r.name ∧
    x.baseCurve = r.baseCurve.map (fun q => ⟨q.diam, min q.press 1000⟩) ∧
    x.frozenCurve = r.frozenCurve.map (List.map fun q => ⟨q.diam, min q.press 1000⟩) ∧
    x.frostPct = max 100 (min 250 r.frostPct) ∧ x.speedGain = min 300 r.speedGain ∧
    x.entryPct = max 20 (min 100 r.entryPct) ∧ x.entryLen = min 1500 r.entryLen ∧
    x.tailPct = max 20 (min 100 r.tailPct) ∧ x.tailAdv = min 1000 r.tailAdv ∧
    x.shareA = min 150 r.shareA ∧ x.shareB = min 150 r.shareB ∧
    x.maxPress = max 100 (min 1000 r.maxPress) ∧ x.lift = min 600 r.lift ∧
    x.flareRatio = max 110 (min 200 r.flareRatio) ∧ x.flareLift = min 300 r.flareLift ∧
    x.maxFeed = max 200 (min 2000 r.maxFeed) ∧ x.frozenFeedPct = max 30 (min 100 r.frozenFeedPct) ∧
    (x = r ↔ (∀ q ∈ r.baseCurve, q.press ≤ 1000) ∧ (∀ c, r.frozenCurve = some c → ∀ q ∈ c, q.press ≤ 1000) ∧
      (100 ≤ r.frostPct ∧ r.frostPct ≤ 250) ∧ r.speedGain ≤ 300 ∧ (20 ≤ r.entryPct ∧ r.entryPct ≤ 100) ∧
      r.entryLen ≤ 1500 ∧ (20 ≤ r.tailPct ∧ r.tailPct ≤ 100) ∧ r.tailAdv ≤ 1000 ∧
      r.shareA ≤ 150 ∧ r.shareB ≤ 150 ∧ (100 ≤ r.maxPress ∧ r.maxPress ≤ 1000) ∧
      r.lift ≤ 600 ∧ (110 ≤ r.flareRatio ∧ r.flareRatio ≤ 200) ∧ r.flareLift ≤ 300 ∧
      (200 ≤ r.maxFeed ∧ r.maxFeed ≤ 2000) ∧ (30 ≤ r.frozenFeedPct ∧ r.frozenFeedPct ≤ 100))

/-- RECIPE_READ is refused with BAD_VALUE for a table or a slot that is none, answered NO_RECORD for an empty slot, and
else OK with the table, the slot and the record as stored, whether or not a swap is pending; it changes no state (R72). -/
def Obligations.RecipeReadAnswersTheSlot : Prop :=
  ∀ (s : State) (p : Port) (r : Req) (rest : List Req), s.takes p .recipeRead r rest →
    let table := u8 r.payload 0
    let slot := u8 r.payload 1
    let t := if table = 0 then s.recipes.active else s.recipes.shadow
    (1 < table ∨ 23 < slot → exec (.recipeRead p) s = .next (s.answer p r .badValue [])) ∧
    (table ≤ 1 → slot ≤ 23 → (∀ x, t[slot]? ≠ some (some x)) →
      exec (.recipeRead p) s = .next (s.answer p r .noRecord [])) ∧
    (∀ x, table ≤ 1 → slot ≤ 23 → t[slot]? = some (some x) →
      exec (.recipeRead p) s = .next (s.answer p r .ok (byte table :: byte slot :: speciesBytes x)))

/-- A record a payload carries is read back from what RECIPE_READ sends of it: for every record that stands soundly in a
slot of a table (11, the species record). -/
def Obligations.SpeciesRecordReadsBackAsSent : Prop :=
  ∀ (t : Table) (slot : Nat) (r : Species) (before after : List Byte), slotSound t slot r = true →
    readSpecies (before ++ speciesBytes r ++ after) before.length = r ∧
      nameFits (nameField (before ++ speciesBytes r ++ after) before.length) = true ∧
      (speciesBytes r).length = 43 + 4 * (r.baseCurve.length + (r.frozenCurve.getD []).length)

/-- RECIPE_COMMIT with ring A open swaps at once and is answered OK; with ring A pressing it sets the swap-pending flag,
changes no table and is answered STAGED (R73, R74).  A swap makes the active table equal to the shadow, leaves the shadow,
clears the flag and raises SWAP_DONE; no record's binding or flags change (R76).
RECIPE_DISCARD clears the swap-pending flag and makes the shadow a copy of the active table; nothing else changes, and
edits are taken again (R80). -/
def Obligations.RecipeCommitAndDiscardMoveTheTables : Prop :=
  (∀ (s : State) (p : Port) (r : Req) (rest : List Req), s.takes p .recipeCommit r rest →
    ((s.ringState .a).pressing = true → exec (.recipeCommit p) s =
      .next (({ s with recipes := { s.recipes with swapPending := true } } : State).answer p r .staged [])) ∧
    ((s.ringState .a).pressing = false → ∃ t : State, exec (.recipeCommit p) s = .next (t.answer p r .ok []) ∧
      t.recipes = { active := s.recipes.shadow, shadow := s.recipes.shadow, swapPending := false } ∧
      (∀ q, NoticeKind.swapDone ∈ (t.ports.get q).status) ∧ SameOuter s t ∧ t.track = s.track ∧ t.ring = s.ring ∧
      t.release = s.release ∧ t.marks = s.marks ∧ t.permit = s.permit)) ∧
  ∀ (s : State) (p : Port) (r : Req) (rest : List Req), s.takes p .recipeDiscard r rest →
    exec (.recipeDiscard p) s =
      .next (({ s with recipes := { active := s.recipes.active, shadow := s.recipes.active, swapPending := false } } :
        State).answer p r .ok [])

/-! ### The setpoint arithmetic (05) -/

/-- The rounded quotient is the nearest integer, a half away from zero (R86). -/
def Obligations.QuotientsRoundToTheNearest : Prop :=
  (∀ (a : Int) (b : Nat), 0 < b →
    2 * (roundDiv a b * b - a).natAbs ≤ b ∧ (2 * (roundDiv a b * b - a).natAbs = b → a.natAbs < (roundDiv a b).natAbs * b)) ∧
    ∀ (a b : Nat), 0 < b → (roundDivNat a b : Int) = roundDiv a b

/-- Stage 1 on a well-formed curve: the end pressures outside and at the ends, the segment's interpolation, rounded,
between; EXTRAP exactly when the diameter lies strictly outside; the frozen curve for a frozen decision where the record
has one, and the base curve in every other case (R93). -/
def Obligations.CurveIsReadByDiameter : Prop :=
  (∀ (l : List CurvePoint) (d : Nat), curveFits l = true →
    ∀ first last, l.head? = some first → l.getLast? = some last →
      (d ≤ first.diam → (readCurve l d).1 = first.press) ∧ (last.diam ≤ d → (readCurve l d).1 = last.press) ∧
      (∀ (i : Nat) (q r : CurvePoint), l[i]? = some q → l[i + 1]? = some r → q.diam ≤ d → d < r.diam →
        ((readCurve l d).1 : Int) =
          q.press + roundDiv (((r.press : Int) - q.press) * ((d : Int) - q.diam)) (r.diam - q.diam) ∧
        min q.press r.press ≤ (readCurve l d).1 ∧ (readCurve l d).1 ≤ max q.press r.press) ∧
      ((readCurve l d).2 = true ↔ d < first.diam ∨ last.diam < d)) ∧
  ∀ r : Species, (∀ c, r.frozenCurve = some c → r.curveFor true = c) ∧
    (r.frozenCurve = none → r.curveFor true = r.baseCurve) ∧ r.curveFor false = r.baseCurve

/-- Stages 2 to 5 of a pass: frost for a frozen decision without a frozen curve, speed, the phase factor (entry_pct,
100, tail_pct) and the ring's share, each rounded (R92, R94 to R97).
Stage 6: without a fallback copy the first pass goes on with the species record's max_press; with one, the lower of the
two passes does, the fallback's with UNCERTAIN_MERGE only where it is strictly lower; EXTRAP is that of the pass that
goes on (R98). -/
def Obligations.StagesTwoToSixOfAPressTarget : Prop :=
  (∀ (r : Species) (frozen : Bool) (k : Ring) (phase : RingState) (d v : Nat), phase.pressing = true →
     let p1 := (readCurve (r.curveFor frozen) d).1
     let p2 := if frozen = true ∧ r.frozenCurve = none then roundDivNat (p1 * r.frostPct) 100 else p1
     let p3 := p2 + roundDivNat (r.speedGain * v) 1000
     let p4 := if phase = .body then p3 else roundDivNat (p3 * (if phase = .entry then r.entryPct else r.tailPct)) 100
     let share := match k with
       | .a => r.shareA
       | .b => r.shareB
     pass r frozen k phase d v = (roundDivNat (p4 * share) 100, (readCurve (r.curveFor frozen) d).2) ∧
       (v = 0 → p3 = p2) ∧ (share = 0 → (pass r frozen k phase d v).1 = 0)) ∧
  (∀ (b : Bound) (k : Ring) (phase : RingState) (d v : Nat),
     let x := pass b.species b.frozen k phase d v
     let m := stageMerge b k phase d v
     (b.fallback = none → m.1 = x.1 ∧ m.2.1 = b.species.maxPress ∧ Flag.uncertainMerge ∉ m.2.2 ∧
       (Flag.extrap ∈ m.2.2 ↔ x.2 = true)) ∧
     ∀ f, b.fallback = some f →
       let y := pass f b.frozen k phase d v
       m.1 = min x.1 y.1 ∧ (Flag.uncertainMerge ∈ m.2.2 ↔ y.1 < x.1) ∧
       (y.1 < x.1 → m.2.1 = f.maxPress ∧ (Flag.extrap ∈ m.2.2 ↔ y.2 = true)) ∧
       (x.1 ≤ y.1 → m.2.1 = b.species.maxPress ∧ (Flag.extrap ∈ m.2.2 ↔ x.2 = true)))

/-- Stage 7: every press target lies within [min(floor, upper), upper], upper being min(ceiling, max_press) in RUN and
the ceiling in MANUAL; it is the value itself where that lies within; CLAMP_HIGH exactly above upper, CLAMP_LOW exactly
below the lower limit; and within 20..1000 for points and records within their ranges (R99, R101). -/
def Obligations.PressTargetsAreClamped : Prop :=
  ∀ (pts : Points) (b : Bound) (k : Ring) (phase : RingState) (d v value : Nat),
    let m := stageMerge b k phase d v
    let upper := min pts.ceiling m.2.1
    let t := pressRun pts b k phase d v
    let u := pressManual pts value
    (min pts.floor upper ≤ t.1 ∧ t.1 ≤ upper) ∧
    (min pts.floor upper ≤ m.1 → m.1 ≤ upper → t.1 = m.1) ∧
    (Flag.clampHigh ∈ t.2 ↔ upper < m.1) ∧ (Flag.clampLow ∈ t.2 ↔ m.1 < min pts.floor upper) ∧
    (upper < m.1 → t.1 = upper) ∧ (m.1 < min pts.floor upper → t.1 = min pts.floor upper) ∧
    (min pts.floor pts.ceiling ≤ u.1 ∧ u.1 ≤ pts.ceiling) ∧
    (min pts.floor pts.ceiling ≤ value → value ≤ pts.ceiling → u.1 = value) ∧
    (Flag.clampHigh ∈ u.2 ↔ pts.ceiling < value) ∧ (Flag.clampLow ∈ u.2 ↔ value < min pts.floor pts.ceiling) ∧
    (∀ f ∈ u.2, f = .clampHigh ∨ f = .clampLow) ∧
    (20 ≤ pts.floor → 100 ≤ pts.ceiling → pts.ceiling ≤ 1000 → 100 ≤ m.2.1 → 20 ≤ t.1 ∧ t.1 ≤ 1000 ∧ 2 * t.1 ≤ 2000)

/-- Lift targets: IDLE the park lift, HELD the release lift or 0 at ESTOP, ARMED in MANUAL the manual lift, ARMED in RUN
the active record's lift for the armed-for record, with its flare_lift where that carries BUTT_FLARE, each held within
the ceiling and handed to the lift channel of an open ring (R102 to R105).
Press targets: for the record a pressing ring serves, of the sample at the plane, the index taken down and held within
the list, or the blind diameter where it has none (R90), and of v held within 0..2000 (R91), through R93 to R99, or in
MANUAL of the manual press value (R101).  The target is held and handed to the press channel, and the record takes the
flags and, where it is higher, the peak (R32, R85, R100).  A ring that is open, or serves no record of the track, is not
evaluated (R87, R89).
A record bound, rebound or changed is evaluated at each ring that serves it, or that is ARMED for it, and at no other
(R31, R37, R87, R105). -/
def Obligations.TargetsFollowTheStateAndAreHandedOn : Prop :=
  (∀ (s : State) (k : Ring),
       let t := s.evalLift k
       let x := (t.setpoint.get k).liftTarget
       x ≤ s.points.ceiling ∧
       ((s.ringState k).pressing = false → (t.valve.chans.get (channelOf k .lift)).target = x ∧
         (t.valve.rings.get k).intent = .lift) ∧
       (s.ringState k = .idle → x = min s.points.parkLift s.points.ceiling) ∧
       (s.ringState k = .held → x = if s.release.level = .estop then 0 else min s.points.releaseLift s.points.ceiling) ∧
       (s.ringState k = .armed → s.control.mode = .manual → x = min (s.control.manualLift.get k) s.points.ceiling) ∧
       (∀ key r, s.ringState k = .armed → s.control.mode ≠ .manual → (s.ring.get k).armedFor = some key →
         s.rec? key = some r → let y := s.recipes.active.recipeFor r.species
           x = min (y.lift + if Flag.buttFlare ∈ r.flags then y.flareLift else 0) s.points.ceiling)) ∧
  (∀ (s : State) (k : Ring),
     ((s.ringState k).pressing = false ∨ s.servedRec k = none → s.evalPress k = s) ∧
     ∀ r, (s.ringState k).pressing = true → s.servedRec k = some r →
       let t := s.evalPress k
       let n : Int := r.samples.length
       let i := max 0 (min (n - 1) ((frontDist s r - s.points.planeOf k) / 200))
       let d := if r.samples = [] then s.points.blindDiameter else r.samples.getD i.toNat 0
       let v := (max 0 (min 2000 s.feed.speed)).toNat
       let x := if s.control.mode = .manual then pressManual s.points (s.control.manualPress.get k)
         else pressRun s.points (r.bound.getD (s.bindingNow r)) k (s.ringState k) d v
       (t.setpoint.get k).pressTarget = x.1 ∧ (t.setpoint.get k).lastFlags = x.2 ∧
       (t.setpoint.get k).liftTarget = (s.setpoint.get k).liftTarget ∧
       (t.valve.chans.get (channelOf k .press)).target = x.1 ∧ (t.valve.chans.get (channelOf k .lift)).target = 0 ∧
       (t.valve.rings.get k).intent = .press ∧
       t.track = s.track.map (fun q => if q.key = r.key then
         match k with
         | .a => { q with flags := addFlags x.2 q.flags, peakA := max q.peakA x.1 }
         | .b => { q with flags := addFlags x.2 q.flags, peakB := max q.peakB x.1 }
         else q) ∧
       SameOuter s t ∧ t.ring = s.ring ∧ t.release = s.release ∧ t.recipes = s.recipes ∧ t.ports = s.ports ∧
       ∀ j, j ≠ k → t.setpoint.get j = s.setpoint.get j ∧ t.valve.rings.get j = s.valve.rings.get j) ∧
  ∀ (s : State) (key : Nat), let t := s.evalPressFor key; let u := s.evalLiftFor key
    SameOuter s t ∧ SameOuter s u ∧ t.ring = s.ring ∧ u.ring = s.ring ∧ u.track = s.track ∧
    ∀ k, ((s.ring.get k).served = some key → (s.ringState k).pressing = true → ∀ r, s.rec? key = some r →
        (t.setpoint.get k).pressTarget = (pressValue s k r).1) ∧
      ((s.ring.get k).served ≠ some key → t.setpoint.get k = s.setpoint.get k) ∧
      (s.ringState k = .armed → (s.ring.get k).armedFor = some key →
        u.setpoint.get k = (s.evalLift k).setpoint.get k) ∧
      (s.ringState k ≠ .armed ∨ (s.ring.get k).armedFor ≠ some key → u.setpoint.get k = s.setpoint.get k)

/-! ### The ring sequencers (06) -/

/-- The forward events of a ring, outside SETUP: an arm point arms an IDLE ring; a leading end at the plane puts an open
ring not held in ENTRY for its record, with SHORT_GAP where the lift was not reached and only there; an entry end takes
ENTRY to BODY and a tail advance ENTRY or BODY to TAIL, of the record served alone (R112 to R115, R120).
The end of pressing at a tail out: HELD at AT_GAP, else ENTRY for a record that stands in the plane, else ARMED for the
first waiting record, else IDLE (R116); at a leading end backing out, HELD at AT_GAP and else ARMED for the same record
(R118); of another record, or of an open ring, no effect.  A tail coming back in puts a ring in IDLE or ARMED in TAIL
for its record, and leaves a pressing ring (R119).
In SETUP no crossing event changes a ring or a record through its sequencer (R128); a HELD ring keeps its state and
flags the record of a leading end at the plane or of a tail coming back in RELEASED_DURING, and takes the others without
effect (R125).
The event of a record that has left the track is gone with it (R8); a sample boundary evaluates the ring that serves its
record (R87). -/
def Obligations.CrossingEventsMoveTheRing : Prop :=
  (∀ (s : State) (k : Ring) (key : Nat), s.control.mode ≠ .setup →
     let st := s.ringState k
     (let t := s.ringEvent key (.arm k);
       (st = .idle → t.ringState k = .armed ∧ (t.ring.get k).armedFor = some key) ∧ (st ≠ .idle → t = s)) ∧
     (let t := s.ringEvent key (.plane k);
       (st = .idle ∨ st = .armed → t.ring.get k = ⟨.entry, some key, none, false, false⟩ ∧
         ((s.ring.get k).liftReached = false → ∀ r ∈ t.track, r.key = key → Flag.shortGap ∈ r.flags) ∧
         ((s.ring.get k).liftReached = true →
           let gap := fun r : Rec => (r.key, decide (Flag.shortGap ∈ r.flags))
           t.track.map gap = s.track.map gap)) ∧
       (st.pressing = true → t = s)) ∧
     (let t := s.ringEvent key (.entryEnd k);
       (st = .entry → (s.ring.get k).served = some key → t.ring.get k = { s.ring.get k with state := .body }) ∧
       (st ≠ .entry ∨ (s.ring.get k).served ≠ some key → t = s)) ∧
     (let t := s.ringEvent key (.tailAdvance k);
       (st = .entry ∨ st = .body → (s.ring.get k).served = some key →
         t.ring.get k = { s.ring.get k with state := .tail }) ∧
       ((st ≠ .entry ∧ st ≠ .body) ∨ (s.ring.get k).served ≠ some key → t = s))) ∧
  (∀ (s : State) (k : Ring) (key : Nat), s.control.mode ≠ .setup →
     (let t := s.ringEvent key (.tailOut k);
       ((s.ringState k).pressing = true → (s.ring.get k).served = some key →
         (s.release.level = .atGap → t.ringState k = .held) ∧
         (s.release.level ≠ .atGap →
           (∀ r, s.standing k = some r → t.ring.get k = ⟨.entry, some r.key, none, false, false⟩) ∧
           (∀ r, s.standing k = none → s.firstWaiting k = some r →
             t.ringState k = .armed ∧ (t.ring.get k).armedFor = some r.key) ∧
           (s.standing k = none → s.firstWaiting k = none → t.ringState k = .idle))) ∧
       ((s.ringState k).pressing = false ∨ (s.ring.get k).served ≠ some key → t = s)) ∧
     (let t := s.ringEvent key (.backOut k);
       ((s.ringState k).pressing = true → (s.ring.get k).served = some key →
         (s.release.level = .atGap → t.ringState k = .held) ∧
         (s.release.level ≠ .atGap → t.ringState k = .armed ∧ (t.ring.get k).armedFor = some key)) ∧
       ((s.ringState k).pressing = false ∨ (s.ring.get k).served ≠ some key → t = s)) ∧
     (let t := s.ringEvent key (.tailBackIn k);
       (s.ringState k = .idle ∨ s.ringState k = .armed → t.ring.get k = ⟨.tail, some key, none, false, false⟩) ∧
       ((s.ringState k).pressing = true → t = s))) ∧
  (∀ (s : State) (key : Nat) (id : EventId) (k : Ring),
     (s.control.mode = .setup → s.ringEvent key id = s) ∧
     (s.control.mode ≠ .setup → s.ringState k = .held →
       (id = .arm k ∨ id = .entryEnd k ∨ id = .tailAdvance k ∨ id = .tailOut k ∨ id = .backOut k →
         s.ringEvent key id = s) ∧
       (id = .plane k ∨ id = .tailBackIn k →
         s.ringEvent key id = s.onRec key fun r => { r with flags := addFlags [.releasedDuring] r.flags }))) ∧
  ∀ (s : State) (key : Nat) (k : Ring) (d : Int),
    (∀ id, s.rec? key = none → s.takeCrossing ⟨key, id, d⟩ = s) ∧
    ∀ r, s.rec? key = some r →
      (∀ id ∈ [EventId.arm k, .plane k, .backOut k, .entryEnd k, .tailAdvance k, .tailBackIn k, .tailOut k],
        s.takeCrossing ⟨key, id, d⟩ = s.ringEvent key id) ∧
      ∀ j, ((s.ring.get k).served = some key → s.takeCrossing ⟨key, .sample k j, d⟩ = s.evalPress k) ∧
        ((s.ring.get k).served ≠ some key → s.takeCrossing ⟨key, .sample k j, d⟩ = s)

/-- A change of B0 or of length handed to a pressing ring: standing in the plane still, its record keeps it as it is;
upstream of the plane the ring leaves as at a leading end backing out, at or past the tail as at a tail out; an open
ring, and a ring in SETUP, is left as it is (R121, R128).
One cause's crossing events are taken one by one in their order; then, where a record's B0 or length differs from
before, the change is handed to ring A and to ring B, and the advisory is recomputed last (that order among the owners:
log 6, the model's choice; that the events come before a ring reads its moved record afresh: log 16, the model's
reading). A binding on the way brings its crossings, taken in their order (R31).
A removal handed to a ring: of the served record, it leaves as at a tail out on the track that remains; of the record it
is armed for, HELD at AT_GAP and else ARMED for the first waiting record, or IDLE; of any other, and in SETUP, no effect
(R122, R128). -/
def Obligations.MovesAndRemovalsReachTheRing : Prop :=
  (∀ (s : State) (k : Ring),
     (s.control.mode = .setup ∨ (s.ringState k).pressing = false → s.ringMoved k = s) ∧
     ∀ r, s.control.mode ≠ .setup → (s.ringState k).pressing = true → s.servedRec k = some r →
       let t := s.ringMoved k
       let d := frontDist s r - s.points.planeOf k
       (0 ≤ d → (∀ len, r.length = some len → d < len) → t = s) ∧
       (d < 0 → (s.release.level = .atGap → t.ringState k = .held) ∧
         (s.release.level ≠ .atGap → t.ringState k = .armed ∧ (t.ring.get k).armedFor = some r.key)) ∧
       (∀ len, r.length = some len → 0 ≤ d → (len : Int) ≤ d → s.leftByTail t k)) ∧
  (∀ before s : State, (∀ c ∈ crossings before s, c.id ≠ .plane .a) →
     let t := (crossings before s).foldl State.takeCrossing s
     ((∃ r ∈ s.track, ∃ q, before.rec? r.key = some q ∧ (q.b0 ≠ r.b0 ∨ q.length ≠ r.length)) →
       s.afterMove before = ((t.ringMoved .a).ringMoved .b).advise) ∧
     ((∀ r ∈ s.track, ∀ q, before.rec? r.key = some q → q.b0 = r.b0 ∧ q.length = r.length) →
       s.afterMove before = t.advise)) ∧
  (∀ (before s : State) (c : Crossing), crossings before s = [c] → c.id = .plane .a →
     (∀ r ∈ s.track, ∀ q, before.rec? r.key = some q → q.b0 = r.b0 ∧ q.length = r.length) →
     ∃ l : List Crossing, l.Perm (s.takeEvent c).2 ∧ l.Pairwise (fun x y => x.at_ ≤ y.at_) ∧
       s.afterMove before = (l.foldl State.takeCrossing (s.takeEvent c).1).advise) ∧
  (∀ (s : State) (k : Ring) (key : Nat),
     let t := s.ringRemoved k key
     (s.control.mode = .setup ∨ ((s.ring.get k).served ≠ some key ∧ (s.ring.get k).armedFor ≠ some key) → t = s) ∧
     (s.control.mode ≠ .setup →
       ((s.ring.get k).served = some key → s.leftByTail t k) ∧
       ((s.ring.get k).served ≠ some key → (s.ring.get k).armedFor = some key →
         (s.release.level = .atGap → t.ringState k = .held) ∧
         (s.release.level ≠ .atGap →
           (∀ r, s.firstWaiting k = some r → t.ringState k = .armed ∧ (t.ring.get k).armedFor = some r.key) ∧
           (s.firstWaiting k = none → t.ringState k = .idle)))))

/-- The reports of a ring's passages, outside SETUP.  A departure from pressing sets the marks of A_CLEAR or B_CLEAR,
makes a pending swap from ring A, and into HELD flags the record standing in the plane: at a leading end backing out, at
a tail out with no record in the plane or at AT_GAP, at a change of place that takes the record out, at its removal, at
a rise of the level to IMMEDIATE or above (R75, R125, R130).
A passage into ENTRY sets the marks of A_ENTRY or B_ENTRY: a leading end at the plane, and a touching log at a tail out,
which is no departure (R131).  Every other passage sets no mark and moves no table: an arm point, a tail back in, an
entry end, a tail advance, an event in HELD, the state by geometry out of HELD (R131).
A mark set already stays SET, with MARK_OVERRUN (R166).  An emergency stop, and a change to SETUP, make the reports of
each ring that pressed (R123, R128, R130). -/
def Obligations.PassagesMakeTheirReports : Prop :=
  (∀ (s : State) (k : Ring) (key : Nat), s.control.mode ≠ .setup →
     let entry : MarkSource := match k with
       | .a => .aEntry
       | .b => .bEntry
     let e := s.ringEvent key;
     ((s.ringState k).pressing = true → (s.ring.get k).served = some key →
       s.departs (e (.backOut k)) k ∧
       (s.release.level = .atGap ∨ s.standing k = none → s.departs (e (.tailOut k)) k) ∧
       (s.release.level ≠ .atGap → s.standing k ≠ none → s.marksFor (e (.tailOut k)) (some entry))) ∧
     (s.ringState k = .idle ∨ s.ringState k = .armed → s.marksFor (e (.plane k)) (some entry)) ∧
     (s.ringState k ≠ .idle → s.ringState k ≠ .armed → s.marksFor (e (.plane k)) none) ∧
     s.marksFor (e (.arm k)) none ∧ s.marksFor (e (.tailBackIn k)) none ∧ s.marksFor (e (.entryEnd k)) none ∧
     s.marksFor (e (.tailAdvance k)) none ∧ ((s.ringState k).pressing = false →
       s.marksFor (e (.backOut k)) none ∧ s.marksFor (e (.tailOut k)) none)) ∧
  (∀ (s : State) (k : Ring), s.control.mode ≠ .setup → (s.ringState k).pressing = true →
     (∀ r, s.servedRec k = some r → standsIn s k r = false → s.release.level = .atGap ∨ s.standing k = none →
       s.departs (s.ringMoved k) k) ∧
     (∀ key, (s.ring.get k).served = some key → s.release.level = .atGap ∨ s.standing k = none →
       s.departs (s.ringRemoved k key) k) ∧
     (s.release.level = .immediate ∨ s.release.level = .estop →
       s.departs (s.ringLevel k) k ∧ (s.ringLevel k).ringState k = .held)) ∧
  (∀ (s : State) (k : Ring), s.release.level = .none → s.ringState k = .held → s.marksFor (s.ringLevel k) none) ∧
  (∀ (s : State) (k : Ring), (∀ j, s.ringRight j) → s.levelRight → (s.ringState k).pressing = true →
     let clear : MarkSource := match k with
       | .a => .aClear
       | .b => .bClear
     let swapped := fun t : State => k = .a → s.recipes.swapPending = true →
       t.recipes = ⟨s.recipes.shadow, s.recipes.shadow, false⟩ ∧ ∀ p, NoticeKind.swapDone ∈ (t.ports.get p).status;
     (s.lines.estopActive = false → s.release.estopActive = false → ∃ t : State,
       exec (.estopInputChange true) s = .next t ∧ (∀ m, s.points.markSource.get m = clear → t.marks.get m = true) ∧
       swapped t ∧ ∀ r, s.standing k = some r → ∀ q ∈ t.track, q.key = r.key → Flag.releasedDuring ∈ q.flags) ∧
     (s.control.mode ≠ .setup → let t := s.changeMode .setup
       (∀ m, s.points.markSource.get m = clear → t.marks.get m = true) ∧ swapped t))

/-! ### The valve line (07) -/

/-- One period's frames: each channel's command is 0 under the bypass of its side, moves by at most the steps toward or,
not released, down from where it stood, and is sent as its valve word; the echo wait opens where echo is enabled (R140,
R141, R143, R211).
VALVE_FRAME sends the four frames; with every echo of the period before answered and every channel's echo on, that is
its whole effect; with a channel's wait still open, that echo is missing and is counted as bad (R143, R144).
The interlock after the frame: a channel is released that was released before, or whose dead interval runs out in the
frame, at least its length after its zero frame; a running interval counts, and the first frame that sends the partner
at 0 is the zero frame; a channel under the bypass is neither released nor waited for (R137, R138, R141). -/
def Obligations.ValveFrameMovesAndSendsCommands : Prop :=
  (∀ (s : State) (c : Channel),
     let x := s.valve.chans.get c
     let y := (s.valve.frame s.points s.release.level).chans.get c
     let il := ((s.valve.rings.get c.ring).bypass s.release.level).advance s.points
     (bypassed s.release.level c.side = true → y.command = 0) ∧
     (bypassed s.release.level c.side = false → il.released ≠ some c.side →
       y.command = x.command - s.points.fallStep) ∧
     (bypassed s.release.level c.side = false → il.released = some c.side → il.hold = false →
       (x.command < x.target → y.command = min (x.command + s.points.riseStep) x.target) ∧
       (x.target ≤ x.command → y.command = max (x.command - s.points.fallStep) x.target)) ∧
     y.sent = y.command ∧ y.target = x.target ∧ y.wait = s.points.echoEnable.get c ∧
     y.word = some (valveWord (2 * y.command) (s.points.echoEnable.get c)) ∧
     y.measured = x.measured ∧ y.state = x.state ∧ y.badRun = x.badRun ∧ y.timer = x.timer) ∧
  (∀ s : State, (∀ c, s.points.echoEnable.get c = true) →
     ((∀ c, (s.valve.chans.get c).wait = false) →
       exec .valveFrame s = .next { s with valve := s.valve.frame s.points s.release.level }) ∧
     ∀ c, (∀ d, (s.valve.chans.get d).wait = decide (d = c)) → (s.valve.chans.get c).badRun < 2 →
       exec .valveFrame s = .next (({ s with valve := s.valve.frame s.points s.release.level } : State).onChan c
         fun x => { x with badRun := x.badRun + 1 })) ∧
  (∀ (s : State) (k : Ring) (x : Side),
     let v := s.valve.frame s.points s.release.level
     let il := s.valve.rings.get k
     let il' := v.rings.get k
     let dead := match x with
       | .lift => s.points.pressLiftDead
       | .press => s.points.liftPressDead
     let frame := fun n : Option Nat => il.interval = some ⟨x, n⟩
     il'.intent = il.intent ∧
     (il'.released = some x →
       il.released = some x ∨ ∃ n, frame (some n) ∧ dead ≤ (n + 1) * 10) ∧
     (bypassed s.release.level x = true → il'.released ≠ some x ∧ ∀ n, il'.interval ≠ some ⟨x, n⟩) ∧
     (bypassed s.release.level x = false →
       (il.interval = none → il.released = some x → il'.released = some x) ∧
       (∀ n, frame (some n) → dead ≤ (n + 1) * 10 → il'.released = some x ∧ il'.interval = none) ∧
       (∀ n, frame (some n) → (n + 1) * 10 < dead → il'.interval = some ⟨x, some (n + 1)⟩) ∧
       (frame none → il'.interval =
         if (v.chans.get (channelOf k x.partner)).command = 0 then some ⟨x, some 0⟩ else some ⟨x, none⟩)))

/-- The word of a valve frame carries the code, the request and the check in their places, and its check holds; one bit
wrong in a word never leaves its check right (R143, R144, R211). -/
def Obligations.ValveWordChecksItself : Prop :=
  (∀ (code : Nat) (bit : Bool), code ≤ 2047 →
    echoCode (valveWord code bit) = code ∧ echoFault (valveWord code bit) = bit ∧
      echoGood (valveWord code bit) = true) ∧
    ∀ (w : Word16) (i : Nat), i < 16 → echoGood w = true → echoGood (w ^^^ (1 <<< i)) = false

/-- An intent that changes channel takes the old channel's release at once and sets its target to 0; the new channel, at
0, waits for its own interval, and one still above 0 is released again at once; an intent for the same channel leaves
the interlock (R136, R138, R139).
That a channel given back at 0 waits a whole interval anew, though no frame was sent between, is the model's choice (log
35).
A dead interval that runs out in the frame now due releases its channel and stops; with none running, none due or its
channel under the bypass, DEAD_INTERVAL_EXPIRY changes nothing (R137, R138; the model's choices, logs 10 and 11).
A change of the release level abandons an interval running for a channel the bypass begins to hold; a channel whose
bypass ends while it is the intent channel, not released and with no interval running, has one started, its zero frame
the next frame; every other interlock, and every command and target, is as it was (R141). -/
def Obligations.InterlockTurnsFromChannelToChannel : Prop :=
  (∀ (s : State) (k : Ring) (x : Side) (pressure : Nat),
     let il := s.valve.rings.get k
     let t := s.intent k x pressure
     let il' := t.valve.rings.get k
     (t.valve.chans.get (channelOf k x)).target = pressure ∧ (t.valve.chans.get (channelOf k x.partner)).target = 0 ∧
     (∀ c, (t.valve.chans.get c).command = (s.valve.chans.get c).command) ∧ il'.intent = x ∧
     (∀ j, j ≠ k → t.valve.rings.get j = s.valve.rings.get j) ∧
     (il.intent = x → il' = il) ∧
     (il.intent ≠ x → 0 < (s.valve.chans.get (channelOf k x)).command → il'.released = some x ∧ il'.interval = none) ∧
     (il.intent ≠ x → (s.valve.chans.get (channelOf k x)).command = 0 → bypassed s.release.level x = false →
       il'.released = none ∧ il'.interval = some ⟨x, none⟩)) ∧
  (∀ (s : State) (k : Ring),
     (∀ x n, (s.valve.rings.get k).interval = some ⟨x, some n⟩ →
       (match x with
         | .lift => s.points.pressLiftDead
         | .press => s.points.liftPressDead) ≤ (n + 1) * 10 → bypassed s.release.level x = false →
       exec (.deadIntervalExpiry k) s = .next (s.onInterlock k fun il =>
         { il with released := some x, interval := none, hold := false })) ∧
     ((s.valve.rings.get k).interval = none → exec (.deadIntervalExpiry k) s = .next s) ∧
     (∀ x, (s.valve.rings.get k).interval = some ⟨x, none⟩ → exec (.deadIntervalExpiry k) s = .next s) ∧
     (∀ x n, (s.valve.rings.get k).interval = some ⟨x, some n⟩ →
       ((n + 1) * 10 < (match x with
         | .lift => s.points.pressLiftDead
         | .press => s.points.liftPressDead) ∨ bypassed s.release.level x = true) →
       exec (.deadIntervalExpiry k) s = .next s)) ∧
  (∀ (s : State) (k : Ring) (before : Level),
     let il := s.valve.rings.get k
     let t := s.valveLevel before
     let il' := t.valve.rings.get k
     let now := s.release.level;
     t.valve.chans = s.valve.chans ∧ il'.intent = il.intent ∧ il'.released = il.released ∧ il'.hold = il.hold ∧
     (∀ i, il.interval = some i → i.side = il.intent →
       (bypassed now i.side = true → il'.interval = none) ∧ (bypassed now i.side = false → il' = il)) ∧
     (il.interval = none →
       (bypassed before il.intent = true → bypassed now il.intent = false → il.released ≠ some il.intent →
         il'.interval = some ⟨il.intent, none⟩) ∧
       (bypassed before il.intent = false ∨ bypassed now il.intent = true ∨ il.released = some il.intent → il' = il)))

/-- An echo with no wait open is discarded; one with its check wrong counts toward the bad run and closes the wait; a good
one clears the run, sets the measured value and is compared with the command of its frame, within or beyond the larger
of 50 and 8 % (R144 to R146).
The reports of a good echo within tolerance, its channel judged and so OK, its command at its target and its ring's intent
naming it: a lift channel's reaches an open ring as lift-reached, and a press channel's reaches a pressing ring not yet
settled as its settled event (R117, R132, R152).  A channel with echo off makes its report as its frame is sent, while it
is OK, its command at its target and its ring's intent naming it; else it makes none (R152). -/
def Obligations.EchoIsJudgedAndReported : Prop :=
  (∀ (s : State) (c : Channel) (w : Word16),
     let x := s.valve.chans.get c
     let tolerance := max 50 (roundDivNat (8 * (2 * x.sent)) 100)
     let off := ((echoCode w : Int) - 2 * x.sent).natAbs
     (x.wait = false → exec (.echoReceived c w) s = .next s) ∧
     (x.wait = true → echoGood w = false → x.badRun < 2 →
       exec (.echoReceived c w) s = .next (s.onChan c fun x => { x with wait := false, badRun := x.badRun + 1 })) ∧
     (x.wait = true → echoGood w = true → echoFault w = false → tolerance < off → (x.state = .ok ∨ x.state = .deviating) →
       exec (.echoReceived c w) s = .next (s.onChan c fun x =>
         { x with wait := false, measured := echoCode w, badRun := 0, state := .deviating, timer := true })) ∧
     (x.wait = true → echoGood w = true → (x.state = .fault ∨ x.state = .mute) →
       exec (.echoReceived c w) s = .next (s.onChan c fun x =>
         { x with wait := false, measured := echoCode w, badRun := 0 })) ∧
     (x.wait = true → echoGood w = true → echoFault w = false → off ≤ tolerance → (x.state = .ok ∨ x.state = .deviating) →
       let u := s.onChan c fun x => { x with wait := false, measured := echoCode w, badRun := 0, state := .ok, timer := false }
       (x.command ≠ x.target ∨ (s.valve.rings.get c.ring).intent ≠ c.side → exec (.echoReceived c w) s = .next u) ∧
       (x.command = x.target → (s.valve.rings.get c.ring).intent = c.side →
         (c.side = .lift → (s.ringState c.ring).pressing = false →
           exec (.echoReceived c w) s = .next (u.onSeq c.ring fun q => { q with liftReached := true })) ∧
         (c.side = .press → (s.ringState c.ring).pressing = true → (s.ring.get c.ring).settled = false →
           exec (.echoReceived c w) s = .next ((u.onSeq c.ring fun q => { q with settled := true }).markEvent
             (match c.ring with
               | .a => .aSettled
               | .b => .bSettled))) ∧
         (c.side = .press → (s.ring.get c.ring).settled = true → exec (.echoReceived c w) s = .next u) ∧
         ((s.ringState c.ring).pressing = decide (c.side = .lift) → exec (.echoReceived c w) s = .next u)))) ∧
  (∀ (s : State) (c : Channel), (∀ d, (s.valve.chans.get d).wait = false) →
     (∀ d, s.points.echoEnable.get d = decide (d ≠ c)) →
     let u : State := { s with valve := s.valve.frame s.points s.release.level }
     let y := u.valve.chans.get c
     (y.state ≠ .ok ∨ y.command ≠ y.target ∨ (s.valve.rings.get c.ring).intent ≠ c.side → exec .valveFrame s = .next u) ∧
     (y.state = .ok → y.command = y.target → (s.valve.rings.get c.ring).intent = c.side →
       (c.side = .lift → (s.ringState c.ring).pressing = false →
         exec .valveFrame s = .next (u.onSeq c.ring fun q => { q with liftReached := true })) ∧
       (c.side = .press → (s.ringState c.ring).pressing = true → (s.ring.get c.ring).settled = false →
         exec .valveFrame s = .next ((u.onSeq c.ring fun q => { q with settled := true }).markEvent
           (match c.ring with
             | .a => .aSettled
             | .b => .bSettled))) ∧
       (c.side = .press → (s.ring.get c.ring).settled = true → exec .valveFrame s = .next u) ∧
       ((s.ringState c.ring).pressing = decide (c.side = .lift) → exec .valveFrame s = .next u)))

/-- A third bad echo in a row, taken or found missing as the next frames are sent, makes a judged channel MUTE; a
driver-fault bit, and a deviation timer that expires, make it FAULT.  Its timer stops, the cause VALVE_FAULT naming it
is present, the level is IMMEDIATE or above, both rings are HELD and the notice is in every status set (R144, R145, R147
to R149).
DEVIATION_TIMEOUT with the channel's timer stopped changes nothing (R147; log 11); with it running, the channel becomes
FAULT and its timer stops, and the cause is handed on. -/
def Obligations.ChannelFaultHoldsTheRings : Prop :=
  (∀ (s : State) (c : Channel) (i : Instr) (st : ChannelState), (∀ k, s.ringRight k) → s.levelRight →
     let x := s.valve.chans.get c
     (x.state = .ok ∨ x.state = .deviating) →
     ((st = .fault ∧ x.wait = true ∧ ∃ w, i = .echoReceived c w ∧ echoGood w = true ∧ echoFault w = true) ∨
       (st = .mute ∧ x.wait = true ∧ 2 ≤ x.badRun ∧ ∃ w, i = .echoReceived c w ∧ echoGood w = false) ∨
       (st = .mute ∧ 2 ≤ x.badRun ∧ i = .valveFrame ∧ (∀ d, (s.valve.chans.get d).wait = decide (d = c)) ∧
         ∀ d, s.points.echoEnable.get d = true) ∨
       (st = .fault ∧ x.state = .deviating ∧ x.timer = true ∧ i = .deviationTimeout c)) →
     ∃ t : State, exec i s = .next t ∧ (t.valve.chans.get c).state = st ∧ (t.valve.chans.get c).timer = false ∧
       (st = .mute → (t.valve.chans.get c).badRun = 3) ∧
       t.release.causes = { s.release.causes with valveFault := s.release.causes.valveFault.modify c fun _ => true } ∧
       2 ≤ t.release.level.rank ∧
       (∀ k, t.ringState k = .held) ∧ (∀ p, NoticeKind.valveFault ∈ (t.ports.get p).status) ∧ SameOuter s t) ∧
  (∀ (s : State) (c : Channel),
     ((s.valve.chans.get c).timer = false → exec (.deviationTimeout c) s = .next s) ∧
     ((s.valve.chans.get c).timer = true → (s.valve.chans.get c).state = .deviating →
       exec (.deviationTimeout c) s =
         .next (((s.onChan c fun x => { x with state := .fault, timer := false }).raiseCause (.valveFault c)).notice
           .valveFault)))

/-! ### Release, marks, the feed permit, the inputs (08, 10) -/

/-- RELEASE enters the sending port's request at the named level, replacing the level of one that is present, and the
effective level becomes the highest among the causes: at IMMEDIATE both rings are HELD.  A level that is neither is
refused with BAD_VALUE (R160). -/
def Obligations.ReleaseEntersThePortsRequest : Prop :=
  ∀ (s : State) (p : Port) (r : Req) (rest : List Req), s.takes p .release r rest → (∀ k, s.ringRight k) →
    (u8 r.payload 0 ≠ 1 ∧ u8 r.payload 0 ≠ 2 → exec (.release p) s = .next (s.answer p r .badValue [])) ∧
    ∀ l : Level, (l = .atGap ∧ u8 r.payload 0 = 1) ∨ (l = .immediate ∧ u8 r.payload 0 = 2) →
      ∃ t : State, exec (.release p) s = .next (t.answer p r .ok []) ∧
        t.release.causes = (if p = .line then { s.release.causes with lineReq := some l }
          else { s.release.causes with panelReq := some l }) ∧
        t.release.level = t.release.causes.level ∧ t.release.estopActive = s.release.estopActive ∧
        t.release.rotorRunning = s.release.rotorRunning ∧ SameOuter s t ∧
        (l = .immediate → ∀ k, t.ringState k = .held) ∧
        (t.release.level ≠ s.release.level → ∀ q, NoticeKind.releaseChanged ∈ (t.ports.get q).status) ∧
        (t.release.level = s.release.level → t.ring = s.ring ∧ t.marks = s.marks ∧ t.permit = s.permit)

/-- RESUME ends every entry whose end condition holds, ESTOP with the input INACTIVE, ROTOR with both rotors RUNNING,
TRACK_LOST with fewer than 12 records, the rest always; returns every channel to OK; and answers OK where the set is
then empty, else CAUSE_PRESENT with the entries left (R162).
Where the level falls to NONE, a HELD ring goes to IDLE in SETUP, and else takes its state by geometry: BODY or TAIL for
the record standing in its plane, ARMED for the first that waits, or IDLE; any other ring stays as it is (R126).
Where the level falls from ESTOP, a ring left open whose lift channel lost its release to the bypass has an interval
started for it (R141), and a ring left HELD has the release lift as its lift target again (R104, R105). -/
def Obligations.ResumeEndsTheCausesThatHaveEnded : Prop :=
  ∀ (s : State) (p : Port) (r : Req) (rest : List Req), s.takes p .resume r rest → (∀ k, s.ringRight k) →
    let left : Causes :=
      { estop := s.release.causes.estop && s.release.estopActive
        rotor := s.release.causes.rotor && !(s.release.rotorRunning.a && s.release.rotorRunning.b)
        valveFault := ⟨false, false, false, false⟩
        trackLost := s.release.causes.trackLost && decide (12 ≤ s.track.length)
        lineReq := none
        panelReq := none }
    ∃ t : State, exec (.resume p) s = .next (if left = Causes.empty then t.answer p r .ok []
        else t.answer p r .causePresent (byte left.codes.length :: left.codes.map byte)) ∧
      t.release = { s.release with causes := left, level := left.level } ∧ SameOuter s t ∧
      (∀ c, (t.valve.chans.get c).state = .ok ∧
        ((t.valve.chans.get c).command = (s.valve.chans.get c).command)) ∧
      (left.level = .none → s.release.level ≠ .none → ∀ k, t.ringState k ≠ .held ∧
        (s.ringState k ≠ .held → t.ring.get k = s.ring.get k) ∧
        (s.ringState k = .held → (s.control.mode = .setup → t.ringState k = .idle) ∧
          (s.control.mode ≠ .setup → s.placedByGeometry t k))) ∧
      (s.release.level = .estop → left.level ≠ .estop → ∀ k, let il := s.valve.rings.get k
        (il.intent = .lift → il.released ≠ some .lift → il.interval = none → (t.ringState k).pressing = false →
          t.valve.rings.get k = { il with interval := some ⟨.lift, none⟩ }) ∧
        (left.level ≠ .none → t.ringState k = .held ∧
          (t.setpoint.get k).liftTarget = min s.points.releaseLift s.points.ceiling ∧
          (t.valve.chans.get (channelOf k .lift)).target = min s.points.releaseLift s.points.ceiling))

/-- MARK gives each named mark the named state and recomputes FEED_PERMIT where a gating mark changes; no notice is
raised and nothing else changes.  An operation that is neither SET nor CLEAR, or a mark that is none, is refused with
BAD_VALUE (R167).
A source event sets each CLEAR mark of its source and leaves every other mark's state; a SET mark of that source stays
SET and MARK_OVERRUN is raised; an event whose source no mark holds changes nothing (R166). -/
def Obligations.MarkSetsTheNamedMarks : Prop :=
  (∀ (s : State) (p : Port) (r : Req) (rest : List Req), s.takes p .mark r rest → s.permitRight →
     let named := marksOf (codesAt r.payload 2 (u8 r.payload 1))
     (named = none ∨ 1 < u8 r.payload 0 → exec (.mark p) s = .next (s.answer p r .badValue [])) ∧
     ∀ marks, named = some marks → u8 r.payload 0 ≤ 1 →
       ∃ (ms : PerMark Bool) (v : Bool),
         exec (.mark p) s = .next (({ s with marks := ms, permit := v } : State).answer p r .ok []) ∧
         (∀ m, ms.get m = if m ∈ marks then decide (u8 r.payload 0 = 1) else s.marks.get m) ∧
         ({ s with marks := ms, permit := v } : State).permitRight) ∧
  (∀ (s : State) (src : MarkSource),
     (∀ m, (s.markEvent src).marks.get m = (s.marks.get m || decide (s.points.markSource.get m = src))) ∧
     ((∃ m, s.points.markSource.get m = src ∧ s.marks.get m = true) →
       ∀ p, NoticeKind.markOverrun ∈ ((s.markEvent src).ports.get p).status) ∧
     ((∀ m, s.points.markSource.get m ≠ src) → s.markEvent src = s) ∧
     (s.permitRight → (s.markEvent src).permitRight))

/-- The emergency-stop input: a change to ACTIVE is taken at once, raises ESTOP, holds both rings and drops FEED_PERMIT;
where that changes the level, each ring's lift target, a ring's HELD already among them, and each channel's target
become 0, and no interval runs (R104, R105, R141); a change to INACTIVE is seen on the line alone until it has held, and
then lets the permit be recomputed, with the ESTOP entry kept (R157).
The rotor-run and key-switch inputs: a change is seen on the line alone until it has held; a rotor then taken as STOPPED
in RUN or MANUAL raises ROTOR and holds both rings, and in SETUP, or RUNNING, changes the level taken alone; the key
level taken becomes the line's (R158, R197).
With no hold running, ESTOP_INACTIVE_TAKEN and ROTOR_LEVEL_TAKEN change nothing, and a hold runs while the line differs
from the level taken (the model's choices, logs 3 and 11). -/
def Obligations.InputLevelsAreTaken : Prop :=
  (∀ s : State, (∀ k, s.ringRight k) → s.levelRight →
     (s.lines.estopActive = false → s.release.estopActive = false →
       ∃ t : State, exec (.estopInputChange true) s = .next t ∧ t.release.causes = { s.release.causes with estop := true } ∧
         t.release.estopActive = true ∧ t.release.level = .estop ∧ t.permit = false ∧ (∀ k, t.ringState k = .held) ∧
         (s.release.level ≠ .estop → (∀ k, (t.setpoint.get k).liftTarget = 0) ∧ (∀ c, (t.valve.chans.get c).target = 0) ∧
           ∀ k, s.interlocked k → (t.valve.rings.get k).interval = none) ∧
         SameOuter { s with lines := { s.lines with estopActive := true } } t) ∧
     (s.lines.estopActive = false → s.release.estopActive = true →
       exec (.estopInputChange true) s = .next { s with lines := { s.lines with estopActive := true } }) ∧
     exec (.estopInputChange false) s = .next { s with lines := { s.lines with estopActive := false } } ∧
     (s.release.estopActive = true → s.lines.estopActive = false →
       exec .estopInactiveTaken s =
         .next ({ s with release := { s.release with estopActive := false } } : State).recomputePermit) ∧
     (s.release.estopActive = false ∨ s.lines.estopActive = true → exec .estopInactiveTaken s = .next s)) ∧
  (∀ (s : State) (k : Ring) (b : Bool), (∀ j, s.ringRight j) → s.levelRight →
     exec (.rotorInputChange k b) s = .next { s with
       lines := (match k with
         | .a => { s.lines with rotorA := b }
         | .b => { s.lines with rotorB := b }) } ∧
     exec (.keyInputChange b) s = .next { s with lines := { s.lines with engineer := b } } ∧
     exec .keyLevelTaken s = .next { s with key := if s.lines.engineer then .engineer else .operator } ∧
     (let now := match k with
       | .a => s.lines.rotorA
       | .b => s.lines.rotorB
     (now = s.release.rotorRunning.get k → exec (.rotorLevelTaken k) s = .next s) ∧
     (now ≠ s.release.rotorRunning.get k → (now = true ∨ s.control.mode = .setup) →
       exec (.rotorLevelTaken k) s = .next { s with
         release := { s.release with rotorRunning := s.release.rotorRunning.modify k fun _ => now } }) ∧
     (now ≠ s.release.rotorRunning.get k → now = false → s.control.mode ≠ .setup →
       ∃ t : State, exec (.rotorLevelTaken k) s = .next t ∧ t.release.causes = { s.release.causes with rotor := true } ∧
         t.release.rotorRunning.get k = false ∧ 2 ≤ t.release.level.rank ∧ (∀ j, t.ringState j = .held) ∧
         SameOuter s t)))

/-! ### Modes, season, manual values (09) -/

/-- MODE: no mode's code is refused with BAD_VALUE; the mode held is answered OK with no change; a change to or from
SETUP is refused with BUSY while a record covers a ring plane by P; any other change is taken (R177).
A change of mode handed to the rings: to SETUP each goes to IDLE or stays HELD (R128; at AT_GAP too, the model's
reading, log 32); between RUN and MANUAL each keeps its state and the record it names (R129, R181); out of SETUP a HELD
ring stays as it is and an IDLE one takes its state by geometry: BODY or TAIL for the record standing in its plane,
ARMED for the first that waits, or IDLE (R126, R129, R180); with a rotor stopped ROTOR is raised and both are HELD
(R158, R178).
A change of mode evaluates each pressing ring's press target and each ring's lift target under the new mode, and hands
on the one its state reads: from RUN to MANUAL a pressing ring takes the manual value at once, and back the recipe's;
the lift target of a ring that presses in RUN is a free value (log 8); a ring taken out of pressing has press target 0
(R85, R88, R105, R181).
The owners act in the order R178 lists them, the Release Unit last (the model's choice, log 38). -/
def Obligations.ModeChangesOverUncoveredPlanes : Prop :=
  (∀ (s : State) (p : Port) (r : Req) (rest : List Req), s.takes p .mode r rest → (∀ k, s.ringRight k) →
     (3 ≤ u8 r.payload 0 → exec (.mode p) s = .next (s.answer p r .badValue [])) ∧
     ∀ m : Mode, u8 r.payload 0 = m.code →
       (m = s.control.mode → exec (.mode p) s = .next (s.answer p r .ok [])) ∧
       (m ≠ s.control.mode → (m = .setup ∨ s.control.mode = .setup) →
         (∃ x ∈ s.track, covers s .a x = true ∨ covers s .b x = true) →
         exec (.mode p) s = .next (s.answer p r .busy [])) ∧
       (m ≠ s.control.mode → ((m = .setup ∨ s.control.mode = .setup) →
           ∀ x ∈ s.track, covers s .a x = false ∧ covers s .b x = false) →
         exec (.mode p) s = .next ((s.changeMode m).answer p r .ok []) ∧
           SameOuter { s with control := { s.control with mode := m } } (s.changeMode m) ∧
           (s.control.mode ≠ .setup → (s.changeMode m).release = s.release))) ∧
  (∀ (s : State) (m : Mode), (∀ k, s.ringRight k) → s.levelRight → m ≠ s.control.mode →
     let t := s.changeMode m
     (m = .setup → ∀ k, t.ringState k = if s.ringState k = .held then .held else .idle) ∧
     let u : State := { s with control := { s.control with mode := m } };
     (m ≠ .setup → s.control.mode ≠ .setup → t.ring = s.ring ∧ ∀ k,
       (∀ x, (s.ringState k).pressing = true → s.servedRec k = some x →
         (t.setpoint.get k).pressTarget = (pressValue u k x).1 ∧
           (t.valve.chans.get (channelOf k .press)).target = (pressValue u k x).1) ∧
       ((s.ringState k).pressing = false → (t.setpoint.get k).liftTarget = min (liftValue u k) s.points.ceiling ∧
         (t.valve.chans.get (channelOf k .lift)).target = min (liftValue u k) s.points.ceiling) ∧
       ((s.ringState k).pressing = true → m = .manual →
         (t.setpoint.get k).liftTarget = min (s.control.manualLift.get k) s.points.ceiling) ∧
       ((s.ringState k).pressing = true → m = .run →
         ∃ n, (t.setpoint.get k).liftTarget = min (Config.freeLift n) s.points.ceiling)) ∧
     (m = .setup ∨ s.control.mode = .setup → ∀ k,
       (∀ x, (t.ringState k).pressing = true → t.servedRec k = some x →
         (t.setpoint.get k).pressTarget = (pressValue t k x).1 ∧
           (t.valve.chans.get (channelOf k .press)).target = (pressValue t k x).1) ∧
       ((t.ringState k).pressing = false → (t.setpoint.get k).liftTarget = min (liftValue t k) s.points.ceiling ∧
         (t.valve.chans.get (channelOf k .lift)).target = min (liftValue t k) s.points.ceiling ∧
         ((s.ringState k).pressing = true → (t.setpoint.get k).pressTarget = 0))) ∧
     (s.control.mode = .setup → (s.release.rotorRunning.a && s.release.rotorRunning.b) = false →
       t.release.causes.rotor = true ∧ ∀ k, t.ringState k = .held) ∧
     (s.control.mode = .setup → s.release.rotorRunning.a = true → s.release.rotorRunning.b = true →
       t.release = s.release ∧ ∀ k, (s.ringState k = .held → t.ring.get k = s.ring.get k) ∧
         (s.ringState k = .idle → s.placedByGeometry t k)))

/-- WINTER and SUMMER make the season theirs and are answered OK; a season already held changes nothing, and a change
recomputes the advisory and nothing else (R183).
MANUAL_SET stores both values of the named ring, each held within the ceiling; in SETUP and RUN that is all, answered
STAGED; in MANUAL the ring's targets follow at once, answered CLAMPED where a value was held; a ring that is none is
refused with BAD_VALUE (R186, R187). -/
def Obligations.SeasonAndManualValuesAreStored : Prop :=
  (∀ (s : State) (p : Port) (r : Req) (rest : List Req) (x : Season),
     let c : Instr := match x with
       | .winter => .winter p
       | .summer => .summer p
     let k : Kind := match x with
       | .winter => .winter
       | .summer => .summer
     s.takes p k r rest →
       (s.control.season = x → exec c s = .next (s.answer p r .ok [])) ∧
       (s.control.season ≠ x →
         let u : State := { s with control := { s.control with season := x } }
         (u.advisedLimit = s.lastAdvise → exec c s = .next (u.answer p r .ok [])) ∧
         (u.advisedLimit ≠ s.lastAdvise →
           exec c s = .next ((({ u with lastAdvise := u.advisedLimit } : State).onPort .line fun q =>
             { q with out := placeAdvise u.advisedLimit q.out }).answer p r .ok [])))) ∧
  (∀ (s : State) (p : Port) (r : Req) (rest : List Req), s.takes p .manualSet r rest →
     (2 ≤ u8 r.payload 0 → exec (.manualSet p) s = .next (s.answer p r .badValue [])) ∧
     ∀ k, Ring.ofCode (u8 r.payload 0) = some k →
       let press := min (u16 r.payload 1) s.points.ceiling
       let lift := min (u16 r.payload 3) s.points.ceiling
       let u : State := { s with
         control :=
           { s.control with
             manualPress := s.control.manualPress.modify k fun _ => press
             manualLift := s.control.manualLift.modify k fun _ => lift } }
       (s.control.mode ≠ .manual → exec (.manualSet p) s = .next (u.answer p r .staged [])) ∧
       (s.control.mode = .manual → ∃ t : State,
         exec (.manualSet p) s = .next (t.answer p r
           (if press = u16 r.payload 1 ∧ lift = u16 r.payload 3 then .ok else .clamped) []) ∧
         SameOuter u t ∧ t.ring = s.ring ∧ t.release = s.release ∧ t.recipes = s.recipes ∧ t.marks = s.marks ∧
         (s.ringState k = .armed → (t.setpoint.get k).liftTarget = lift ∧
           (t.valve.chans.get (channelOf k .lift)).target = lift) ∧
         (∀ x, s.servedRec k = some x → (s.ringState k).pressing = true →
           (t.setpoint.get k).pressTarget =
             (heldWithin (min s.points.floor s.points.ceiling) s.points.ceiling press).toNat)))

/-! ### Telegrams (10) -/

/-- A receiver that hunts takes the bytes of a whole telegram, one BYTE_RECEIVED each, as TELEGRAM_RECEIVED takes the
telegram; and a byte that begins none, a length above 240, a gap at any place inside the telegram, a wrong CRC, and a
kind of 0x80 or above each leave the part as it was (R191).  That the two rows of the table do the same is the model's
choice (log 13).
What each byte does to a receiver: a start byte opens a telegram, a byte inside one is kept until the last byte of the
CRC, and the gap's end closes it; each command completes and changes the receiver alone (R191). -/
def Obligations.ReceiverTakesWholeTelegramsAlone : Prop :=
  (∀ (s : State) (p : Port) (kind : Byte) (payload : List Byte), (s.ports.get p).receiver = .hunting →
     (∀ b : Byte, b ≠ 0xA5 → exec (.byteReceived p b) s = .next s) ∧
     (∀ n : Byte, 240 < n.toNat → s.after [.byteReceived p 0xA5, .byteReceived p n] = s) ∧
     (payload.length ≤ 240 →
       s.after ((frameBytes kind payload).map (Instr.byteReceived p)) = s.after [.telegramReceived p kind payload] ∧
       (0x80 ≤ kind.toNat → s.after [.telegramReceived p kind payload] = s) ∧
       (∀ n, n < (frameBytes kind payload).length →
         s.after ((((frameBytes kind payload).take n).map (Instr.byteReceived p)) ++ [.interByteTimeout p]) = s) ∧
       ∀ x y : Byte, [x, y] ≠ bytes16 (crc16 (byte payload.length :: kind :: payload)).toNat →
         s.after ((0xA5 :: byte payload.length :: kind :: payload ++ [x, y]).map (Instr.byteReceived p)) = s)) ∧
  (∀ (s : State) (p : Port),
     ((s.ports.get p).receiver = .hunting →
       exec (.byteReceived p 0xA5) s = .next (s.onPort p fun q => { q with receiver := .framing [] })) ∧
     (∀ (taken : List Byte) (b : Byte), (s.ports.get p).receiver = .framing taken →
       u8 (taken ++ [b]) 0 ≤ 240 → taken.length + 1 < u8 (taken ++ [b]) 0 + 4 →
       exec (.byteReceived p b) s = .next (s.onPort p fun q => { q with receiver := .framing (taken ++ [b]) })) ∧
     exec (.interByteTimeout p) s = .next (s.onPort p fun q => { q with receiver := .hunting }))

/-- What a complete telegram meets at its port (R191, R193): discarded at kind 0x80 or above; answered BUSY with 4
requests held; queued with the feed position held then; an unknown kind that reaches the head at once answered
BAD_FORMAT (log 12); while a SAVE is in flight, a SAVE answered BUSY on arrival, and any other request but a RESTART
queued behind it with fewer than 3 waiting there, and answered BUSY with 3, the SAVE counting among the 4. -/
def Obligations.ArrivingRequestIsQueuedOrAnswered : Prop :=
  ∀ (s : State) (p : Port) (kind : Byte) (payload : List Byte), payload.length ≤ 240 →
    let u := s.onPort p fun q => { q with receiver := .hunting }
    let r : Req := ⟨kind, payload, s.feed.pos⟩
    (0x80 ≤ kind.toNat → exec (.telegramReceived p kind payload) s = .next u) ∧
    (kind.toNat < 0x80 → s.saving p = false → 4 ≤ (s.ports.get p).queue.length →
      exec (.telegramReceived p kind payload) s = .next (u.reply p r .busy [])) ∧
    (s.saving p = false → (s.ports.get p).queue.length < 4 →
      headKnown ((s.ports.get p).queue ++ [r]) = true → kind.toNat < 0x80 →
      exec (.telegramReceived p kind payload) s = .next (u.onPort p fun q => { q with queue := q.queue ++ [r] })) ∧
    (s.saving p = false → (s.ports.get p).queue = [] → kind.toNat < 0x80 → Kind.ofByte kind = none →
      exec (.telegramReceived p kind payload) s = .next (u.reply p r .badFormat [])) ∧
    (s.saving p = true → Kind.ofByte kind = some .save →
      exec (.telegramReceived p kind payload) s = .next (u.reply p r .busy [])) ∧
    (∀ x rest, s.saving p = true → (s.ports.get p).queue = x :: rest → Kind.ofByte x.kind = some .save → kind.toNat < 0x80 →
      Kind.ofByte kind ≠ some .save → Kind.ofByte kind ≠ some .restart →
      (rest.length < 3 →
        exec (.telegramReceived p kind payload) s = .next (u.onPort p fun q => { q with queue := q.queue ++ [r] })) ∧
      (3 ≤ rest.length → exec (.telegramReceived p kind payload) s = .next (u.reply p r .busy [])))

/-- A request that fails a check of R194 is answered with the result of the first it fails and changes nothing: for
every kind, and for a POINT at every address; which row takes a POINT that is refused is the model's choice (log 24).
A reply: the request leaves its queue, and its reply, of its kind plus 0x80 with the result code first, joins the output
list (R193, R194); a request of no known kind that the reply brings to the head is answered BAD_FORMAT within the same
step (the model's reading, log 12).
A request's command with no such request at the head of its queue, or with a SAVE in flight holding the queue, changes
nothing (the model's choice, log 11).
The checks 2 to 7, in the order of R194's table: the ports of R195, the length of the kind's layout, NOTICE_ENABLE's
port, the key level of R197, POINT's NO_POINT, READ_ONLY and ACCESS, the mode of R176. -/
def Obligations.RefusedRequestChangesNothing : Prop :=
  (∀ (s : State) (p : Port) (k : Kind) (r : Req) (rest : List Req) (e : Result), s.atHead p r rest →
     Kind.ofByte r.kind = some k → refusal s p k r.payload = some e →
     exec (commandOf p r.payload k) s = .next (s.answer p r e [])) ∧
  (∀ (s : State) (p : Port) (r : Req) (res : Result) (bytes : List Byte),
     let u := s.onPort p fun q =>
       { q with queue := q.queue.tail, out := q.out ++ [.telegram (r.kind + 0x80) (byte res.code :: bytes)] }
     (headKnown (s.ports.get p).queue.tail = true → s.answer p r res bytes = u) ∧
     ∀ x rest, (s.ports.get p).queue.tail = x :: rest → Kind.ofByte x.kind = none →
       s.answer p r res bytes = u.answer p x .badFormat []) ∧
  (∀ (s : State) (p : Port) (k : Kind) (payload : List Byte),
     ((s.ports.get p).queue = [] ∨ s.saving p = true ∨
       ∃ r rest, (s.ports.get p).queue = r :: rest ∧ Kind.ofByte r.kind ≠ some k) →
     exec (commandOf p payload k) s = .next s) ∧
  ∀ (s : State) (p : Port) (k : Kind) (payload : List Byte),
    let ports : List Port := match k with
      | .status | .noticeEnable | .noticeClear => [.scanner, .line, .panel]
      | .profile => [.scanner]
      | .speciesSet => [.line]
      | .trackRead | .release | .resume | .mark => [.line, .panel]
      | _ => [.panel]
    let b := u8 payload
    let write := u16 payload 0 % 2 = 1
    let length : Nat := match k with
      | .profile => 10 + 2 * b 9
      | .speciesSet => 3
      | .speciesForce | .release | .mode | .recipeDelete => 1
      | .mark | .noticeEnable | .noticeRaise => 2 + b 1
      | .noticeClear => 1 + b 0
      | .manualSet => 5
      | .recipeWrite => 44 + 4 * b 14 + 4 * b (15 + 4 * b 14)
      | .recipeRead => 2
      | .point => if write then 6 else 2
      | _ => 0
    let n := u16 payload 0 / 2
    let live := 64 ≤ n ∧ n ≤ 89
    let operator := s.key = .operator
    let pointIs := fun c : PointClass => ∃ q, Point.ofNumber n = some q ∧ q.cls = c
    refusal s p k payload =
      if p ∉ ports then some .notPermitted
      else if payload.length ≠ length then some .badFormat
      else if k = .noticeEnable ∧ p ≠ .panel ∧ b 0 ≤ 2 ∧ b 0 ≠ p.code then some .notPermitted
      else if p = .panel ∧ operator ∧ (k = .restart ∨ k = .noticeRaise ∨ (k = .noticeEnable ∧ b 0 ≤ 1)) then some .access
      else if k = .point ∧ Point.ofNumber n = none ∧ ¬live then some .noPoint
      else if k = .point ∧ write ∧ live then some .readOnly
      else if k = .point ∧ write ∧ operator ∧ (pointIs .geometry ∨ pointIs .tuning) then some .access
      else if (k = .point ∧ write ∧ pointIs .geometry ∧ s.control.mode ≠ .setup) ∨
        (k = .speciesForce ∧ s.control.mode = .setup) ∨ (k = .restart ∧ s.control.mode ≠ .setup) then some .mode
      else none

/-- The first entry of an output list leaves it as it begins to be sent: a telegram as its frame; an ADVISE with its
value; a NOTICE with the listing formed then; a NOTICE due with an empty listing is dropped and nothing is sent (R196),
which is a step of its own (the model's reading, log 25).  With an empty list nothing begins (the model's choice, log
11).
At most one ADVISE and one NOTICE due wait in a list: placing one keeps that so, keeps every other entry in its order,
and an ADVISE placed over a waiting one takes its place with the new value (R196). -/
def Obligations.SendingTakesFirstEntry : Prop :=
  (∀ (s : State) (p : Port) (rest : List OutItem),
     (∀ kind payload, (s.ports.get p).out = .telegram kind payload :: rest →
       exec (.telegramSendBegin p) s =
         .next (s.onPort p fun q => { q with out := rest, sending := frameBytes kind payload })) ∧
     (∀ limit, (s.ports.get p).out = .advise limit :: rest →
       exec (.telegramSendBegin p) s =
         .next (s.onPort p fun q => { q with out := rest, sending := frameBytes 0x52 (bytes16 limit) })) ∧
     ((s.ports.get p).out = .noticeDue :: rest →
       let listed := NoticeKind.all.filter fun k =>
         decide (k ∈ (s.ports.get p).status) && decide (k ∈ (s.ports.get p).enable)
       (listed ≠ [] → exec (.telegramSendBegin p) s = .next (s.onPort p fun q =>
         { q with
           out := rest
           sending := frameBytes 0x50 (byte listed.length :: listed.map fun k => byte k.code) })) ∧
       (listed = [] → exec (.telegramSendBegin p) s = .next (s.onPort p fun q => { q with out := rest }))) ∧
     ((s.ports.get p).out = [] → exec (.telegramSendBegin p) s = .next s)) ∧
  (∀ (out : List OutItem) (limit : Nat), out.countP OutItem.isAdvise ≤ 1 → out.count .noticeDue ≤ 1 →
     (placeAdvise limit out).countP OutItem.isAdvise = 1 ∧ (placeAdvise limit out).count .noticeDue ≤ 1 ∧
     (placeDue out).count .noticeDue = 1 ∧ (placeDue out).countP OutItem.isAdvise ≤ 1 ∧
     OutItem.advise limit ∈ placeAdvise limit out ∧
     (∀ a b old, out = a ++ .advise old :: b → placeAdvise limit out = a ++ .advise limit :: b) ∧
     (out.countP OutItem.isAdvise = 0 → placeAdvise limit out = out ++ [.advise limit]) ∧
     (OutItem.noticeDue ∈ out → placeDue out = out) ∧ (OutItem.noticeDue ∉ out → placeDue out = out ++ [.noticeDue]) ∧
     (placeAdvise limit out).filter (fun x => !x.isAdvise) = out.filter (fun x => !x.isAdvise) ∧
     (placeDue out).filter (· ≠ .noticeDue) = out.filter (· ≠ .noticeDue))

/-! ### Reads, points, notices, the store (10, 11) -/

/-- STATUS is answered OK with the status block of the state held when it is taken, and changes no state; its fields
stand at the offsets the layout gives, the count of a status set without repeats among them (R204; 11, the status
block).
A POINT at a read address is answered OK with the point number and the value held then, and changes no state (R198); a
LIVE point's value is the quantity of its number in the directory, a listed one by its code, and the causes and the
marks as bit sets (R212).
TRACK_READ is answered OK with one entry of 15 bytes for each record, the first record first, each field at its offset,
and changes no state (R41; 11, the track entry). -/
def Obligations.ReadsAnswerTheStateHeld : Prop :=
  (∀ (s : State) (p : Port) (r : Req) (rest : List Req), s.takes p .status r rest →
     exec (.status p) s = .next (s.answer p r .ok (statusBlock s p)) ∧
     let c := s.release.causes.codes.length
     let b := statusBlock s p
     u8 b 0 = s.control.mode.code ∧ u8 b 1 = s.control.season.code ∧ u8 b 2 = s.release.level.rank ∧ u8 b 3 = c ∧
     ((b.drop 4).take c = s.release.causes.codes.map byte) ∧
     u8 b (4 + c) = (s.release.causes.lineReq.getD .none).rank ∧
     u8 b (5 + c) = (s.release.causes.panelReq.getD .none).rank ∧
     u8 b (6 + c) = (s.ringState .a).code ∧ u8 b (7 + c) = (s.ringState .b).code ∧
     u8 b (8 + c) = s.permit.toNat ∧ u8 b (9 + c) = markBits s.marks ∧
     u8 b (10 + c) = s.track.length % 256 ∧ u16 b (11 + c) = s.advisedLimit % 65536 ∧
     u8 b (13 + c) = s.recipes.swapPending.toNat ∧ u8 b (14 + c) = s.key.code ∧
     ((s.ports.get p).status.Nodup → u8 b (15 + c) = (s.ports.get p).status.length) ∧
     (b.drop (16 + c) = (NoticeKind.all.filter fun k => decide (k ∈ (s.ports.get p).status)).map fun k => byte k.code)) ∧
  (∀ (s : State) (p : Port) (r : Req) (rest : List Req), s.takes p .point r rest → isWriteAddress r.payload = false →
     let n := u16 r.payload 0 / 2
     exec (.pointRead p) s =
       .next (s.answer p r .ok (bytes16 n ++ bytesInt32 (match Point.ofNumber n with
         | some q => s.points.read q
         | none => liveValue s n)))) ∧
  (∀ s : State,
     liveValue s 64 = s.feed.pos.toInt ∧ liveValue s 65 = s.feed.speed ∧
     liveValue s 66 = (match s.feed.dir with
       | .fwd => 0
       | .rev => 1) ∧
     liveValue s 67 = s.track.length ∧
     (∀ k, let n := match k with
         | .a => 68
         | .b => 70
       liveValue s n = (match s.ringState k with
         | .idle => 0
         | .armed => 1
         | .entry => 2
         | .body => 3
         | .tail => 4
         | .held => 5) ∧
       liveValue s (n + 1) =
         if (s.ringState k).pressing then (s.setpoint.get k).pressTarget else (s.setpoint.get k).liftTarget) ∧
     (∀ c, let x := s.valve.chans.get c
       let i := match c with
         | .aPress => 0
         | .aLift => 1
         | .bPress => 2
         | .bLift => 3
       liveValue s (72 + i) = x.command ∧ liveValue s (76 + i) = x.measured ∧
       liveValue s (80 + i) = (match x.state with
         | .ok => 0
         | .deviating => 1
         | .fault => 2
         | .mute => 3)) ∧
     liveValue s 84 = (match s.release.level with
       | .none => 0
       | .atGap => 1
       | .immediate => 2
       | .estop => 3) ∧
     (let c := s.release.causes
      let v := c.valveFault
      liveValue s 85 = (c.estop.toNat + 2 * c.rotor.toNat + 4 * v.aPress.toNat + 8 * v.aLift.toNat + 16 * v.bPress.toNat +
        32 * v.bLift.toNat + 64 * c.trackLost.toNat + 128 * c.lineReq.isSome.toNat + 256 * c.panelReq.isSome.toNat : Nat)) ∧
     liveValue s 86 = (s.marks.m0.toNat + 2 * s.marks.m1.toNat + 4 * s.marks.m2.toNat + 8 * s.marks.m3.toNat : Nat) ∧
     liveValue s 87 = (match s.control.mode with
       | .setup => 0
       | .run => 1
       | .manual => 2) ∧
     liveValue s 88 = (match s.control.season with
       | .winter => 0
       | .summer => 1) ∧
     liveValue s 89 = s.recipes.swapPending.toNat) ∧
  (∀ (s : State) (p : Port) (r : Req) (rest : List Req), s.takes p .trackRead r rest →
     exec (.trackRead p) s = .next (s.answer p r .ok (byte s.track.length :: s.track.flatMap (trackEntry s))) ∧
     ∀ x : Rec, let b := trackEntry s x
       b.length = 15 ∧ u16 b 0 = x.scanId % 65536 ∧ u8 b 2 = x.origin.code ∧ u8 b 3 = x.species % 256 ∧
       u8 b 4 = x.source.code ∧ u16 b 5 = x.length.getD 0 % 65536 ∧ s32 b 7 = leadDist s x ∧
       u8 b 11 = x.bound.isSome.toNat ∧ u8 b 12 = x.realign.code ∧ u16 b 13 = flagBits x.flags)

/-- A write of a point stores the value, held within the point's range or refused with BAD_VALUE where it names none of a
list, and is answered with what is stored; it is handed to the point's owner, for every point of every owner: POINT_WRITE,
SCALE_WRITE, GEOMETRY_WRITE, WINDOW_ARM_WRITE, CEILING_WRITE, SETPOINT_POINT_WRITE, ECHO_ENABLE_WRITE,
STOP_ON_RELEASE_WRITE, MARK_SOURCE_WRITE, MARK_GATE_WRITE and THRESHOLD_WRITE.  No other
setting, input, mode value, feed value or port state moves, but the residue at a write of the scale (R3, R199).
A value a point takes is read back as it was stored, and a write moves no other point (R198, R199, R212). -/
def Obligations.PointWriteStoresTheHeldValue : Prop :=
  (∀ (s : State) (p : Port) (r : Req) (rest : List Req) (q : Point), s.takes p .point r rest →
     isWriteAddress r.payload = true → Point.ofNumber (u16 r.payload 0 / 2) = some q → (∀ k, s.ringRight k) →
     (∀ v held, q.range.take (s32 r.payload 2) = some (v, held) →
       ∃ t : State, exec ((writeRow (some q)).command p) s =
           .next (t.answer p r (if held then .clamped else .ok) (bytes16 (u16 r.payload 0 / 2) ++ bytesInt32 v)) ∧
         SameOuter { s with
           points := s.points.write q v
           feed := { s.feed with residue := if q = .scale then 0 else s.feed.residue } } t) ∧
     (q.range.take (s32 r.payload 2) = none →
       exec ((writeRow (some q)).command p) s = .next (s.answer p r .badValue []))) ∧
  (∀ (pts : Points) (q : Point) (x v : Int) (held : Bool), q.range.take x = some (v, held) →
     (pts.write q v).read q = v ∧ (∀ q', q' ≠ q → (pts.write q v).read q' = pts.read q') ∧
     q.range.take v = some (v, false) ∧ (held = false → v = x))

/-- A write of the scale sets the count residue to 0 and moves neither P nor any record; it is refused outside SETUP (R3). -/
def Obligations.ScaleWriteClearsTheResidue : Prop :=
  ∀ (s : State) (p : Port) (r : Req) (rest : List Req), Point.ofNumber (u16 r.payload 0 / 2) = some .scale →
    isWriteAddress r.payload = true →
    (s.takes p .point r rest →
      let v := heldWithin 400 40000 (s32 r.payload 2)
      exec (.scaleWrite p) s =
        .next (({ s with
            points := { s.points with scale := v.toNat }
            feed := { s.feed with residue := 0 } } : State).answer p r
          (if v = s32 r.payload 2 then .ok else .clamped) (bytes16 5 ++ bytesInt32 v)) ∧
      ∀ u : State, u.points.scale = v.toNat → u.feed.residue = 0 →
        (u.acceptEnc (nextEnc u.feed.enc)).2 = (1000 / v.toNat, true)) ∧
    (s.control.mode ≠ .setup → refusal s p .point r.payload ≠ none)

/-- A write of the ceiling takes every command and target above it down to it at once, and moves no command below it
(R142); every target handed on afterwards lies within it (R106).
A write of a channel's echo enable sets its bad-echo run to 0 and, turning it off, ends a deviation; a FAULT or MUTE
channel keeps its state, an open echo wait stays open, and nothing else changes (R151).
A write of stop_on_release or of a mark's gate recomputes FEED_PERMIT, and a write of a mark's source keeps the mark's
state; none of them changes a cause, a level, a ring or a mark (R164, R168).
A write of a geometry distance pushes behind an open stray and takes the crossings of the thresholds it moves, as a
write of the realign window or the arm distance does, with the points before it on the one side and those after it on
the other (R15, R16, R19, R62); that a push and the write that makes it are one cause is the model's reading (log 15),
and the order of the events, the rings and the advisory logs 6 and 16.  A write of the ceiling, the floor, the blind
diameter, the park lift or the release lift evaluates the targets that read it (R106), one of a threshold recomputes the
advisory (R43), and one of the dead intervals, the steps or latency_comp does no more than store it (R137, R140, R21). -/
def Obligations.PointWritesReachTheirOwners : Prop :=
  (∀ (s : State) (p : Port) (r : Req) (rest : List Req), s.takes p .point r rest → isWriteAddress r.payload = true →
       Point.ofNumber (u16 r.payload 0 / 2) = some .ceiling →
       let v := heldWithin 100 1000 (s32 r.payload 2)
       ∃ t : State, exec (.ceilingWrite p) s =
           .next (t.answer p r (if v = s32 r.payload 2 then .ok else .clamped) (bytes16 20 ++ bytesInt32 v)) ∧
         t.points = { s.points with ceiling := v.toNat } ∧
         (∀ c, (t.valve.chans.get c).command = min (s.valve.chans.get c).command v.toNat ∧
           (t.valve.chans.get c).target ≤ v.toNat ∧ (t.valve.chans.get c).state = (s.valve.chans.get c).state) ∧
         (let u : State := { s with points := { s.points with ceiling := v.toNat } };
           ∀ k, (∀ x, s.servedRec k = some x → (s.ringState k).pressing = true →
               (t.setpoint.get k).pressTarget = (pressValue u k x).1) ∧
             ((s.ringState k).pressing = false → (t.setpoint.get k).liftTarget = min (liftValue u k) v.toNat)) ∧
         t.ring = s.ring ∧ t.release = s.release ∧ t.marks = s.marks ∧ t.permit = s.permit ∧ t.recipes = s.recipes) ∧
  (∀ (s : State) (p : Port) (r : Req) (rest : List Req) (c : Channel), s.takes p .point r rest →
       isWriteAddress r.payload = true → Point.ofNumber (u16 r.payload 0 / 2) = some (.echoEnable c) →
       ∀ on : Bool, s32 r.payload 2 = on.toNat →
         exec (.echoEnableWrite p) s = .next ((({ s with
               points := { s.points with echoEnable := s.points.echoEnable.modify c fun _ => on } } : State).onChan c fun x =>
             if on = false ∧ x.state = .deviating then { x with badRun := 0, state := .ok, timer := false }
             else { x with badRun := 0 }).answer p r .ok (bytes16 (u16 r.payload 0 / 2) ++ bytesInt32 on.toNat))) ∧
  (∀ (s : State) (p : Port) (r : Req) (rest : List Req), s.takes p .point r rest → isWriteAddress r.payload = true →
       let n := u16 r.payload 0 / 2
       (∀ on : Bool, Point.ofNumber n = some .stopOnRelease → s32 r.payload 2 = on.toNat →
         exec (.stopOnReleaseWrite p) s = .next ((({ s with
             points := { s.points with stopOnRelease := on } } : State).recomputePermit).answer p r .ok
               (bytes16 n ++ bytesInt32 on.toNat))) ∧
       (∀ (m : Mark) (on : Bool), Point.ofNumber n = some (.markGate m) → s32 r.payload 2 = on.toNat →
         exec (.markGateWrite p) s = .next ((({ s with
             points := { s.points with markGate := s.points.markGate.modify m fun _ => on } } : State).recomputePermit).answer
               p r .ok (bytes16 n ++ bytesInt32 on.toNat))) ∧
       (∀ (m : Mark) (src : MarkSource), Point.ofNumber n = some (.markSource m) → s32 r.payload 2 = src.code →
         exec (.markSourceWrite p) s = .next ((({ s with
             points := { s.points with markSource := s.points.markSource.modify m fun _ => src } } : State)).answer
               p r .ok (bytes16 n ++ bytesInt32 src.code)))) ∧
  ∀ (s : State) (p : Port) (r : Req) (rest : List Req) (q : Point) (v : Int) (held : Bool), s.takes p .point r rest →
    isWriteAddress r.payload = true → Point.ofNumber (u16 r.payload 0 / 2) = some q →
    q.range.take (s32 r.payload 2) = some (v, held) →
    let u : State := { s with points := s.points.write q v }
    let done := fun t : State => Host.Outcome.next (t.answer p r (if held then .clamped else .ok)
      (bytes16 (u16 r.payload 0 / 2) ++ bytesInt32 v))
    (q ∈ [.dA, .dAB, .cA, .dX] → exec (.geometryWrite p) s =
      done (({ u with track := pushBehindStray u.points s.feed.pos s.track } : State).afterMove s)) ∧
    (q ∈ [.realignWindow, .armDistance] → exec (.windowArmWrite p) s = done (u.afterMove s)) ∧
    (q ∈ [.confidenceThreshold, .frostThreshold] → exec (.thresholdWrite p) s = done u.advise) ∧
    (q ∈ [.latencyComp, .pressLiftDead, .liftPressDead, .riseStep, .fallStep] → exec (.pointWrite p) s = done u) ∧
    (q ∈ [.floor, .blindDiameter, .parkLift, .releaseLift] → ∃ t : State, exec (.setpointPointWrite p) s = done t ∧
      SameOuter u t ∧ t.ring = s.ring ∧ t.release = s.release ∧
      ∀ k, (∀ x, (q = .floor ∨ (q = .blindDiameter ∧ x.samples = [])) → s.servedRec k = some x →
          (s.ringState k).pressing = true → (t.setpoint.get k).pressTarget = (pressValue u k x).1 ∧
            (t.valve.chans.get (channelOf k .press)).target = (pressValue u k x).1) ∧
        ((q = .parkLift ∧ s.ringState k = .idle) ∨ (q = .releaseLift ∧ s.ringState k = .held) →
          (t.setpoint.get k).liftTarget = min (liftValue u k) s.points.ceiling ∧
            (t.valve.chans.get (channelOf k .lift)).target = min (liftValue u k) s.points.ceiling) ∧
        ((q = .parkLift ∧ s.ringState k ≠ .idle) ∨ (q = .releaseLift ∧ s.ringState k ≠ .held) ∨
          ((q = .floor ∨ q = .blindDiameter) ∧ (s.ringState k).pressing = false) ∨
          (q = .blindDiameter ∧ ∀ x, s.servedRec k = some x → x.samples ≠ []) → t.setpoint.get k = s.setpoint.get k))

/-- A notice raised: its kind joins each port's status set where it is absent, and there, where it is enabled, places a
NOTICE due; a port that holds it already is left as it was (R200).
NOTICE_ENABLE replaces the named port's enable set by the set carried and changes nothing else; a port code or a kind that
is none is refused with BAD_VALUE (R201).
NOTICE_CLEAR removes the named kinds from the sending port's status set and changes nothing else, and a kind cleared joins
afresh when it is raised again; a kind that is none is refused with BAD_VALUE (R202).
NOTICE_RAISE adds the named kinds, one after another, to the named port's status set alone, each as a raised notice joins
one; a port or a kind that is none is refused with BAD_VALUE (R203). -/
def Obligations.NoticesJoinTheStatusSets : Prop :=
  (∀ (s : State) (k : NoticeKind) (p : Port),
       let q := s.ports.get p
       let q' := (s.notice k).ports.get p
       (k ∈ q.status → q' = q) ∧
       (k ∉ q.status → (∀ x, x ∈ q'.status ↔ x = k ∨ x ∈ q.status) ∧ q'.enable = q.enable ∧ q'.queue = q.queue ∧
         q'.receiver = q.receiver ∧ q'.sending = q.sending ∧ q'.out = if k ∈ q.enable then placeDue q.out else q.out)) ∧
  (∀ (s : State) (p : Port) (r : Req) (rest : List Req), s.takes p .noticeEnable r rest →
     (∀ q kinds, Port.ofCode (u8 r.payload 0) = some q → kindsOf (codesAt r.payload 2 (u8 r.payload 1)) = some kinds →
       ∃ set : List NoticeKind, (∀ k, k ∈ set ↔ k ∈ kinds) ∧ set.Nodup ∧
         exec (.noticeEnable p) s = .next ((s.onPort q fun x => { x with enable := set }).answer p r .ok [])) ∧
     (Port.ofCode (u8 r.payload 0) = none ∨ kindsOf (codesAt r.payload 2 (u8 r.payload 1)) = none →
       exec (.noticeEnable p) s = .next (s.answer p r .badValue []))) ∧
  (∀ (s : State) (p : Port) (r : Req) (rest : List Req), s.takes p .noticeClear r rest →
     (∀ kinds, kindsOf (codesAt r.payload 1 (u8 r.payload 0)) = some kinds →
       ∃ set : List NoticeKind, (∀ k, k ∈ set ↔ k ∈ (s.ports.get p).status ∧ k ∉ kinds) ∧
         exec (.noticeClear p) s = .next ((s.onPort p fun x => { x with status := set }).answer p r .ok [])) ∧
     (kindsOf (codesAt r.payload 1 (u8 r.payload 0)) = none →
       exec (.noticeClear p) s = .next (s.answer p r .badValue []))) ∧
  (∀ (s : State) (p : Port) (r : Req) (rest : List Req), s.takes p .noticeRaise r rest →
     (∀ q kinds, Port.ofCode (u8 r.payload 0) = some q → kindsOf (codesAt r.payload 2 (u8 r.payload 1)) = some kinds →
       ∃ t : State, exec (.noticeRaise p) s = .next (t.answer p r .ok []) ∧
         (∃ x, t = s.onPort q fun _ => x) ∧
         t.ports.get q = (kinds.foldl State.notice s).ports.get q) ∧
     (Port.ofCode (u8 r.payload 0) = none ∨ kindsOf (codesAt r.payload 2 (u8 r.payload 1)) = none →
       exec (.noticeRaise p) s = .next (s.answer p r .badValue [])))

/-- A SAVE begins its write, unanswered and holding the head of the queue: the snapshot is of the points, the active
table and the season held then, and the image is not valid; SAVE_COMPLETE leaves the image holding the snapshot and
answers OK (R205, R206).
A write that completed is what the next power-on loads: SAVE, SAVE_COMPLETE and POWER_ON leave the points, the active
table and the season as they stood at the SAVE, where they are within the checks of the image (R205 to R207). -/
def Obligations.SaveWritesTheSnapshot : Prop :=
  (∀ (s : State) (p : Port) (r : Req) (rest : List Req), s.takes p .save r rest →
     exec (.save p) s =
         .next { s with
           store :=
             { image := s.store.image
               closed := false
               snapshot := some ⟨s.points, s.recipes.active, s.control.season⟩ } } ∧
     ∀ (u : State) (i : Image) (x : Req) (more : List Req), u.store.snapshot = some i → u.ports.panel.queue = x :: more →
       exec .saveComplete u =
         .next (({ u with store := { image := some i, closed := true, snapshot := none } } : State).answer .panel x .ok [])) ∧
  (∀ (s : State) (p : Port) (r : Req) (rest : List Req) (l : Lines), s.takes p .save r rest →
     s.points.sound = true → tableSound s.recipes.active = true →
     let t := s.after [.save p, .saveComplete, .powerOn l]
     t.points = s.points ∧ t.recipes.active = s.recipes.active ∧ t.control.season = s.control.season ∧
       ∀ q, NoticeKind.storeDefaults ∉ (t.ports.get q).status)
end

