-- ==== Sys2Proof/Laws/State.lean ====
section
/-! SUPPORT. The small lemmas of the state: reading one of a collection after changing one, and each field after each
basic update. -/

namespace Sys2Proof.Machine

/-! ### Reading one of a collection after changing one -/

variable {α : Type}

@[simp] theorem PerRing.get_modify_self (p : PerRing α) (i : Ring) (f : α → α) : (p.modify i f).get i = f (p.get i) := by
  cases i <;> rfl

theorem PerRing.get_modify (p : PerRing α) (i j : Ring) (f : α → α) :
    (p.modify i f).get j = if j = i then f (p.get j) else p.get j := by
  cases i <;> cases j <;> rfl

@[ext] theorem PerRing.ext_get {p q : PerRing α} (h : ∀ i, p.get i = q.get i) : p = q := by
  cases p; cases q; simp only [PerRing.mk.injEq]; exact ⟨h .a, h .b⟩

@[simp] theorem PerChannel.get_modify_self (p : PerChannel α) (i : Channel) (f : α → α) : (p.modify i f).get i = f (p.get i) := by
  cases i <;> rfl

theorem PerChannel.get_modify (p : PerChannel α) (i j : Channel) (f : α → α) :
    (p.modify i f).get j = if j = i then f (p.get j) else p.get j := by
  cases i <;> cases j <;> rfl

@[ext] theorem PerChannel.ext_get {p q : PerChannel α} (h : ∀ i, p.get i = q.get i) : p = q := by
  cases p; cases q; simp only [PerChannel.mk.injEq]; exact ⟨h .aPress, h .aLift, h .bPress, h .bLift⟩

@[simp] theorem PerPort.get_modify_self (p : PerPort α) (i : Port) (f : α → α) : (p.modify i f).get i = f (p.get i) := by
  cases i <;> rfl

theorem PerPort.get_modify (p : PerPort α) (i j : Port) (f : α → α) :
    (p.modify i f).get j = if j = i then f (p.get j) else p.get j := by
  cases i <;> cases j <;> rfl

@[ext] theorem PerPort.ext_get {p q : PerPort α} (h : ∀ i, p.get i = q.get i) : p = q := by
  cases p; cases q; simp only [PerPort.mk.injEq]; exact ⟨h .scanner, h .line, h .panel⟩

@[simp] theorem PerCell.get_modify_self (p : PerCell α) (i : Cell) (f : α → α) : (p.modify i f).get i = f (p.get i) := by
  cases i <;> rfl

theorem PerCell.get_modify (p : PerCell α) (i j : Cell) (f : α → α) :
    (p.modify i f).get j = if j = i then f (p.get j) else p.get j := by
  cases i <;> cases j <;> rfl

@[ext] theorem PerCell.ext_get {p q : PerCell α} (h : ∀ i, p.get i = q.get i) : p = q := by
  cases p; cases q; simp only [PerCell.mk.injEq]; exact ⟨h .entry, h .exit⟩

@[simp] theorem PerMark.get_modify_self (p : PerMark α) (i : Mark) (f : α → α) : (p.modify i f).get i = f (p.get i) := by
  cases i <;> rfl

theorem PerMark.get_modify (p : PerMark α) (i j : Mark) (f : α → α) :
    (p.modify i f).get j = if j = i then f (p.get j) else p.get j := by
  cases i <;> cases j <;> rfl

@[ext] theorem PerMark.ext_get {p q : PerMark α} (h : ∀ i, p.get i = q.get i) : p = q := by
  cases p; cases q; simp only [PerMark.mk.injEq]; exact ⟨h .m0, h .m1, h .m2, h .m3⟩

@[simp] theorem PerChannel.get_map {β : Type} (p : PerChannel α) (f : α → β) (c : Channel) :
    (p.map f).get c = f (p.get c) := by
  cases c <;> rfl

@[simp] theorem PerPort.get_map {β : Type} (p : PerPort α) (f : α → β) (q : Port) : (p.map f).get q = f (p.get q) := by
  cases q <;> rfl

@[simp] theorem channelOf_ring (k : Ring) (x : Side) : (channelOf k x).ring = k := by cases k <;> cases x <;> rfl

@[simp] theorem channelOf_side (k : Ring) (x : Side) : (channelOf k x).side = x := by cases k <;> cases x <;> rfl

theorem channelOf_injective {k l : Ring} {x y : Side} : channelOf k x = channelOf l y ↔ k = l ∧ x = y := by
  cases k <;> cases l <;> cases x <;> cases y <;> simp [channelOf]

theorem Channel.eq_channelOf (c : Channel) : c = channelOf c.ring c.side := by cases c <;> rfl

/-! ### Each field after each basic update -/

variable (s : State)

@[simp] theorem State.onRec_lines (key : Nat) (f : Rec → Rec) : (s.onRec key f).lines = s.lines := rfl
@[simp] theorem State.onRec_points (key : Nat) (f : Rec → Rec) : (s.onRec key f).points = s.points := rfl
@[simp] theorem State.onRec_feed (key : Nat) (f : Rec → Rec) : (s.onRec key f).feed = s.feed := rfl
@[simp] theorem State.onRec_track (key : Nat) (f : Rec → Rec) : (s.onRec key f).track = s.track.map (fun r => if r.key == key then f r else r) := rfl
@[simp] theorem State.onRec_lastAdvise (key : Nat) (f : Rec → Rec) : (s.onRec key f).lastAdvise = s.lastAdvise := rfl
@[simp] theorem State.onRec_cells (key : Nat) (f : Rec → Rec) : (s.onRec key f).cells = s.cells := rfl
@[simp] theorem State.onRec_openStray (key : Nat) (f : Rec → Rec) : (s.onRec key f).openStray = s.openStray := rfl
@[simp] theorem State.onRec_recipes (key : Nat) (f : Rec → Rec) : (s.onRec key f).recipes = s.recipes := rfl
@[simp] theorem State.onRec_setpoint (key : Nat) (f : Rec → Rec) : (s.onRec key f).setpoint = s.setpoint := rfl
@[simp] theorem State.onRec_ring (key : Nat) (f : Rec → Rec) : (s.onRec key f).ring = s.ring := rfl
@[simp] theorem State.onRec_valve (key : Nat) (f : Rec → Rec) : (s.onRec key f).valve = s.valve := rfl
@[simp] theorem State.onRec_release (key : Nat) (f : Rec → Rec) : (s.onRec key f).release = s.release := rfl
@[simp] theorem State.onRec_marks (key : Nat) (f : Rec → Rec) : (s.onRec key f).marks = s.marks := rfl
@[simp] theorem State.onRec_permit (key : Nat) (f : Rec → Rec) : (s.onRec key f).permit = s.permit := rfl
@[simp] theorem State.onRec_control (key : Nat) (f : Rec → Rec) : (s.onRec key f).control = s.control := rfl
@[simp] theorem State.onRec_ports (key : Nat) (f : Rec → Rec) : (s.onRec key f).ports = s.ports := rfl
@[simp] theorem State.onRec_key (key : Nat) (f : Rec → Rec) : (s.onRec key f).key = s.key := rfl
@[simp] theorem State.onRec_store (key : Nat) (f : Rec → Rec) : (s.onRec key f).store = s.store := rfl
@[simp] theorem State.onRec_nextKey (key : Nat) (f : Rec → Rec) : (s.onRec key f).nextKey = s.nextKey := rfl
@[simp] theorem State.onRec_freeCount (key : Nat) (f : Rec → Rec) : (s.onRec key f).freeCount = s.freeCount := rfl
@[simp] theorem State.onRec_pending (key : Nat) (f : Rec → Rec) : (s.onRec key f).pending = s.pending := rfl

@[simp] theorem State.onSeq_lines (k : Ring) (f : Sequencer → Sequencer) : (s.onSeq k f).lines = s.lines := rfl
@[simp] theorem State.onSeq_points (k : Ring) (f : Sequencer → Sequencer) : (s.onSeq k f).points = s.points := rfl
@[simp] theorem State.onSeq_feed (k : Ring) (f : Sequencer → Sequencer) : (s.onSeq k f).feed = s.feed := rfl
@[simp] theorem State.onSeq_track (k : Ring) (f : Sequencer → Sequencer) : (s.onSeq k f).track = s.track := rfl
@[simp] theorem State.onSeq_lastAdvise (k : Ring) (f : Sequencer → Sequencer) : (s.onSeq k f).lastAdvise = s.lastAdvise := rfl
@[simp] theorem State.onSeq_cells (k : Ring) (f : Sequencer → Sequencer) : (s.onSeq k f).cells = s.cells := rfl
@[simp] theorem State.onSeq_openStray (k : Ring) (f : Sequencer → Sequencer) : (s.onSeq k f).openStray = s.openStray := rfl
@[simp] theorem State.onSeq_recipes (k : Ring) (f : Sequencer → Sequencer) : (s.onSeq k f).recipes = s.recipes := rfl
@[simp] theorem State.onSeq_setpoint (k : Ring) (f : Sequencer → Sequencer) : (s.onSeq k f).setpoint = s.setpoint := rfl
@[simp] theorem State.onSeq_ring (k : Ring) (f : Sequencer → Sequencer) : (s.onSeq k f).ring = s.ring.modify k f := rfl
@[simp] theorem State.onSeq_valve (k : Ring) (f : Sequencer → Sequencer) : (s.onSeq k f).valve = s.valve := rfl
@[simp] theorem State.onSeq_release (k : Ring) (f : Sequencer → Sequencer) : (s.onSeq k f).release = s.release := rfl
@[simp] theorem State.onSeq_marks (k : Ring) (f : Sequencer → Sequencer) : (s.onSeq k f).marks = s.marks := rfl
@[simp] theorem State.onSeq_permit (k : Ring) (f : Sequencer → Sequencer) : (s.onSeq k f).permit = s.permit := rfl
@[simp] theorem State.onSeq_control (k : Ring) (f : Sequencer → Sequencer) : (s.onSeq k f).control = s.control := rfl
@[simp] theorem State.onSeq_ports (k : Ring) (f : Sequencer → Sequencer) : (s.onSeq k f).ports = s.ports := rfl
@[simp] theorem State.onSeq_key (k : Ring) (f : Sequencer → Sequencer) : (s.onSeq k f).key = s.key := rfl
@[simp] theorem State.onSeq_store (k : Ring) (f : Sequencer → Sequencer) : (s.onSeq k f).store = s.store := rfl
@[simp] theorem State.onSeq_nextKey (k : Ring) (f : Sequencer → Sequencer) : (s.onSeq k f).nextKey = s.nextKey := rfl
@[simp] theorem State.onSeq_freeCount (k : Ring) (f : Sequencer → Sequencer) : (s.onSeq k f).freeCount = s.freeCount := rfl
@[simp] theorem State.onSeq_pending (k : Ring) (f : Sequencer → Sequencer) : (s.onSeq k f).pending = s.pending := rfl

@[simp] theorem State.onSetpoint_lines (k : Ring) (f : Setpoint → Setpoint) : (s.onSetpoint k f).lines = s.lines := rfl
@[simp] theorem State.onSetpoint_points (k : Ring) (f : Setpoint → Setpoint) : (s.onSetpoint k f).points = s.points := rfl
@[simp] theorem State.onSetpoint_feed (k : Ring) (f : Setpoint → Setpoint) : (s.onSetpoint k f).feed = s.feed := rfl
@[simp] theorem State.onSetpoint_track (k : Ring) (f : Setpoint → Setpoint) : (s.onSetpoint k f).track = s.track := rfl
@[simp] theorem State.onSetpoint_lastAdvise (k : Ring) (f : Setpoint → Setpoint) : (s.onSetpoint k f).lastAdvise = s.lastAdvise := rfl
@[simp] theorem State.onSetpoint_cells (k : Ring) (f : Setpoint → Setpoint) : (s.onSetpoint k f).cells = s.cells := rfl
@[simp] theorem State.onSetpoint_openStray (k : Ring) (f : Setpoint → Setpoint) : (s.onSetpoint k f).openStray = s.openStray := rfl
@[simp] theorem State.onSetpoint_recipes (k : Ring) (f : Setpoint → Setpoint) : (s.onSetpoint k f).recipes = s.recipes := rfl
@[simp] theorem State.onSetpoint_setpoint (k : Ring) (f : Setpoint → Setpoint) : (s.onSetpoint k f).setpoint = s.setpoint.modify k f := rfl
@[simp] theorem State.onSetpoint_ring (k : Ring) (f : Setpoint → Setpoint) : (s.onSetpoint k f).ring = s.ring := rfl
@[simp] theorem State.onSetpoint_valve (k : Ring) (f : Setpoint → Setpoint) : (s.onSetpoint k f).valve = s.valve := rfl
@[simp] theorem State.onSetpoint_release (k : Ring) (f : Setpoint → Setpoint) : (s.onSetpoint k f).release = s.release := rfl
@[simp] theorem State.onSetpoint_marks (k : Ring) (f : Setpoint → Setpoint) : (s.onSetpoint k f).marks = s.marks := rfl
@[simp] theorem State.onSetpoint_permit (k : Ring) (f : Setpoint → Setpoint) : (s.onSetpoint k f).permit = s.permit := rfl
@[simp] theorem State.onSetpoint_control (k : Ring) (f : Setpoint → Setpoint) : (s.onSetpoint k f).control = s.control := rfl
@[simp] theorem State.onSetpoint_ports (k : Ring) (f : Setpoint → Setpoint) : (s.onSetpoint k f).ports = s.ports := rfl
@[simp] theorem State.onSetpoint_key (k : Ring) (f : Setpoint → Setpoint) : (s.onSetpoint k f).key = s.key := rfl
@[simp] theorem State.onSetpoint_store (k : Ring) (f : Setpoint → Setpoint) : (s.onSetpoint k f).store = s.store := rfl
@[simp] theorem State.onSetpoint_nextKey (k : Ring) (f : Setpoint → Setpoint) : (s.onSetpoint k f).nextKey = s.nextKey := rfl
@[simp] theorem State.onSetpoint_freeCount (k : Ring) (f : Setpoint → Setpoint) : (s.onSetpoint k f).freeCount = s.freeCount := rfl
@[simp] theorem State.onSetpoint_pending (k : Ring) (f : Setpoint → Setpoint) : (s.onSetpoint k f).pending = s.pending := rfl

@[simp] theorem State.onChan_lines (c : Channel) (f : Chan → Chan) : (s.onChan c f).lines = s.lines := rfl
@[simp] theorem State.onChan_points (c : Channel) (f : Chan → Chan) : (s.onChan c f).points = s.points := rfl
@[simp] theorem State.onChan_feed (c : Channel) (f : Chan → Chan) : (s.onChan c f).feed = s.feed := rfl
@[simp] theorem State.onChan_track (c : Channel) (f : Chan → Chan) : (s.onChan c f).track = s.track := rfl
@[simp] theorem State.onChan_lastAdvise (c : Channel) (f : Chan → Chan) : (s.onChan c f).lastAdvise = s.lastAdvise := rfl
@[simp] theorem State.onChan_cells (c : Channel) (f : Chan → Chan) : (s.onChan c f).cells = s.cells := rfl
@[simp] theorem State.onChan_openStray (c : Channel) (f : Chan → Chan) : (s.onChan c f).openStray = s.openStray := rfl
@[simp] theorem State.onChan_recipes (c : Channel) (f : Chan → Chan) : (s.onChan c f).recipes = s.recipes := rfl
@[simp] theorem State.onChan_setpoint (c : Channel) (f : Chan → Chan) : (s.onChan c f).setpoint = s.setpoint := rfl
@[simp] theorem State.onChan_ring (c : Channel) (f : Chan → Chan) : (s.onChan c f).ring = s.ring := rfl
@[simp] theorem State.onChan_release (c : Channel) (f : Chan → Chan) : (s.onChan c f).release = s.release := rfl
@[simp] theorem State.onChan_marks (c : Channel) (f : Chan → Chan) : (s.onChan c f).marks = s.marks := rfl
@[simp] theorem State.onChan_permit (c : Channel) (f : Chan → Chan) : (s.onChan c f).permit = s.permit := rfl
@[simp] theorem State.onChan_control (c : Channel) (f : Chan → Chan) : (s.onChan c f).control = s.control := rfl
@[simp] theorem State.onChan_ports (c : Channel) (f : Chan → Chan) : (s.onChan c f).ports = s.ports := rfl
@[simp] theorem State.onChan_key (c : Channel) (f : Chan → Chan) : (s.onChan c f).key = s.key := rfl
@[simp] theorem State.onChan_store (c : Channel) (f : Chan → Chan) : (s.onChan c f).store = s.store := rfl
@[simp] theorem State.onChan_nextKey (c : Channel) (f : Chan → Chan) : (s.onChan c f).nextKey = s.nextKey := rfl
@[simp] theorem State.onChan_freeCount (c : Channel) (f : Chan → Chan) : (s.onChan c f).freeCount = s.freeCount := rfl
@[simp] theorem State.onChan_pending (c : Channel) (f : Chan → Chan) : (s.onChan c f).pending = s.pending := rfl

@[simp] theorem State.onInterlock_lines (k : Ring) (f : Interlock → Interlock) : (s.onInterlock k f).lines = s.lines := rfl
@[simp] theorem State.onInterlock_points (k : Ring) (f : Interlock → Interlock) : (s.onInterlock k f).points = s.points := rfl
@[simp] theorem State.onInterlock_feed (k : Ring) (f : Interlock → Interlock) : (s.onInterlock k f).feed = s.feed := rfl
@[simp] theorem State.onInterlock_track (k : Ring) (f : Interlock → Interlock) : (s.onInterlock k f).track = s.track := rfl
@[simp] theorem State.onInterlock_lastAdvise (k : Ring) (f : Interlock → Interlock) : (s.onInterlock k f).lastAdvise = s.lastAdvise := rfl
@[simp] theorem State.onInterlock_cells (k : Ring) (f : Interlock → Interlock) : (s.onInterlock k f).cells = s.cells := rfl
@[simp] theorem State.onInterlock_openStray (k : Ring) (f : Interlock → Interlock) : (s.onInterlock k f).openStray = s.openStray := rfl
@[simp] theorem State.onInterlock_recipes (k : Ring) (f : Interlock → Interlock) : (s.onInterlock k f).recipes = s.recipes := rfl
@[simp] theorem State.onInterlock_setpoint (k : Ring) (f : Interlock → Interlock) : (s.onInterlock k f).setpoint = s.setpoint := rfl
@[simp] theorem State.onInterlock_ring (k : Ring) (f : Interlock → Interlock) : (s.onInterlock k f).ring = s.ring := rfl
@[simp] theorem State.onInterlock_release (k : Ring) (f : Interlock → Interlock) : (s.onInterlock k f).release = s.release := rfl
@[simp] theorem State.onInterlock_marks (k : Ring) (f : Interlock → Interlock) : (s.onInterlock k f).marks = s.marks := rfl
@[simp] theorem State.onInterlock_permit (k : Ring) (f : Interlock → Interlock) : (s.onInterlock k f).permit = s.permit := rfl
@[simp] theorem State.onInterlock_control (k : Ring) (f : Interlock → Interlock) : (s.onInterlock k f).control = s.control := rfl
@[simp] theorem State.onInterlock_ports (k : Ring) (f : Interlock → Interlock) : (s.onInterlock k f).ports = s.ports := rfl
@[simp] theorem State.onInterlock_key (k : Ring) (f : Interlock → Interlock) : (s.onInterlock k f).key = s.key := rfl
@[simp] theorem State.onInterlock_store (k : Ring) (f : Interlock → Interlock) : (s.onInterlock k f).store = s.store := rfl
@[simp] theorem State.onInterlock_nextKey (k : Ring) (f : Interlock → Interlock) : (s.onInterlock k f).nextKey = s.nextKey := rfl
@[simp] theorem State.onInterlock_freeCount (k : Ring) (f : Interlock → Interlock) : (s.onInterlock k f).freeCount = s.freeCount := rfl
@[simp] theorem State.onInterlock_pending (k : Ring) (f : Interlock → Interlock) : (s.onInterlock k f).pending = s.pending := rfl

@[simp] theorem State.onPort_lines (p : Port) (f : PortState → PortState) : (s.onPort p f).lines = s.lines := rfl
@[simp] theorem State.onPort_points (p : Port) (f : PortState → PortState) : (s.onPort p f).points = s.points := rfl
@[simp] theorem State.onPort_feed (p : Port) (f : PortState → PortState) : (s.onPort p f).feed = s.feed := rfl
@[simp] theorem State.onPort_track (p : Port) (f : PortState → PortState) : (s.onPort p f).track = s.track := rfl
@[simp] theorem State.onPort_lastAdvise (p : Port) (f : PortState → PortState) : (s.onPort p f).lastAdvise = s.lastAdvise := rfl
@[simp] theorem State.onPort_cells (p : Port) (f : PortState → PortState) : (s.onPort p f).cells = s.cells := rfl
@[simp] theorem State.onPort_openStray (p : Port) (f : PortState → PortState) : (s.onPort p f).openStray = s.openStray := rfl
@[simp] theorem State.onPort_recipes (p : Port) (f : PortState → PortState) : (s.onPort p f).recipes = s.recipes := rfl
@[simp] theorem State.onPort_setpoint (p : Port) (f : PortState → PortState) : (s.onPort p f).setpoint = s.setpoint := rfl
@[simp] theorem State.onPort_ring (p : Port) (f : PortState → PortState) : (s.onPort p f).ring = s.ring := rfl
@[simp] theorem State.onPort_valve (p : Port) (f : PortState → PortState) : (s.onPort p f).valve = s.valve := rfl
@[simp] theorem State.onPort_release (p : Port) (f : PortState → PortState) : (s.onPort p f).release = s.release := rfl
@[simp] theorem State.onPort_marks (p : Port) (f : PortState → PortState) : (s.onPort p f).marks = s.marks := rfl
@[simp] theorem State.onPort_permit (p : Port) (f : PortState → PortState) : (s.onPort p f).permit = s.permit := rfl
@[simp] theorem State.onPort_control (p : Port) (f : PortState → PortState) : (s.onPort p f).control = s.control := rfl
@[simp] theorem State.onPort_ports (p : Port) (f : PortState → PortState) : (s.onPort p f).ports = s.ports.modify p f := rfl
@[simp] theorem State.onPort_key (p : Port) (f : PortState → PortState) : (s.onPort p f).key = s.key := rfl
@[simp] theorem State.onPort_store (p : Port) (f : PortState → PortState) : (s.onPort p f).store = s.store := rfl
@[simp] theorem State.onPort_nextKey (p : Port) (f : PortState → PortState) : (s.onPort p f).nextKey = s.nextKey := rfl
@[simp] theorem State.onPort_freeCount (p : Port) (f : PortState → PortState) : (s.onPort p f).freeCount = s.freeCount := rfl
@[simp] theorem State.onPort_pending (p : Port) (f : PortState → PortState) : (s.onPort p f).pending = s.pending := rfl

@[simp] theorem State.onCell_lines (c : Cell) (f : CellState → CellState) : (s.onCell c f).lines = s.lines := rfl
@[simp] theorem State.onCell_points (c : Cell) (f : CellState → CellState) : (s.onCell c f).points = s.points := rfl
@[simp] theorem State.onCell_feed (c : Cell) (f : CellState → CellState) : (s.onCell c f).feed = s.feed := rfl
@[simp] theorem State.onCell_track (c : Cell) (f : CellState → CellState) : (s.onCell c f).track = s.track := rfl
@[simp] theorem State.onCell_lastAdvise (c : Cell) (f : CellState → CellState) : (s.onCell c f).lastAdvise = s.lastAdvise := rfl
@[simp] theorem State.onCell_cells (c : Cell) (f : CellState → CellState) : (s.onCell c f).cells = s.cells.modify c f := rfl
@[simp] theorem State.onCell_openStray (c : Cell) (f : CellState → CellState) : (s.onCell c f).openStray = s.openStray := rfl
@[simp] theorem State.onCell_recipes (c : Cell) (f : CellState → CellState) : (s.onCell c f).recipes = s.recipes := rfl
@[simp] theorem State.onCell_setpoint (c : Cell) (f : CellState → CellState) : (s.onCell c f).setpoint = s.setpoint := rfl
@[simp] theorem State.onCell_ring (c : Cell) (f : CellState → CellState) : (s.onCell c f).ring = s.ring := rfl
@[simp] theorem State.onCell_valve (c : Cell) (f : CellState → CellState) : (s.onCell c f).valve = s.valve := rfl
@[simp] theorem State.onCell_release (c : Cell) (f : CellState → CellState) : (s.onCell c f).release = s.release := rfl
@[simp] theorem State.onCell_marks (c : Cell) (f : CellState → CellState) : (s.onCell c f).marks = s.marks := rfl
@[simp] theorem State.onCell_permit (c : Cell) (f : CellState → CellState) : (s.onCell c f).permit = s.permit := rfl
@[simp] theorem State.onCell_control (c : Cell) (f : CellState → CellState) : (s.onCell c f).control = s.control := rfl
@[simp] theorem State.onCell_ports (c : Cell) (f : CellState → CellState) : (s.onCell c f).ports = s.ports := rfl
@[simp] theorem State.onCell_key (c : Cell) (f : CellState → CellState) : (s.onCell c f).key = s.key := rfl
@[simp] theorem State.onCell_store (c : Cell) (f : CellState → CellState) : (s.onCell c f).store = s.store := rfl
@[simp] theorem State.onCell_nextKey (c : Cell) (f : CellState → CellState) : (s.onCell c f).nextKey = s.nextKey := rfl
@[simp] theorem State.onCell_freeCount (c : Cell) (f : CellState → CellState) : (s.onCell c f).freeCount = s.freeCount := rfl
@[simp] theorem State.onCell_pending (c : Cell) (f : CellState → CellState) : (s.onCell c f).pending = s.pending := rfl

@[simp] theorem State.recomputePermit_lines : s.recomputePermit.lines = s.lines := rfl
@[simp] theorem State.recomputePermit_points : s.recomputePermit.points = s.points := rfl
@[simp] theorem State.recomputePermit_feed : s.recomputePermit.feed = s.feed := rfl
@[simp] theorem State.recomputePermit_track : s.recomputePermit.track = s.track := rfl
@[simp] theorem State.recomputePermit_lastAdvise : s.recomputePermit.lastAdvise = s.lastAdvise := rfl
@[simp] theorem State.recomputePermit_cells : s.recomputePermit.cells = s.cells := rfl
@[simp] theorem State.recomputePermit_openStray : s.recomputePermit.openStray = s.openStray := rfl
@[simp] theorem State.recomputePermit_recipes : s.recomputePermit.recipes = s.recipes := rfl
@[simp] theorem State.recomputePermit_setpoint : s.recomputePermit.setpoint = s.setpoint := rfl
@[simp] theorem State.recomputePermit_ring : s.recomputePermit.ring = s.ring := rfl
@[simp] theorem State.recomputePermit_valve : s.recomputePermit.valve = s.valve := rfl
@[simp] theorem State.recomputePermit_release : s.recomputePermit.release = s.release := rfl
@[simp] theorem State.recomputePermit_marks : s.recomputePermit.marks = s.marks := rfl
@[simp] theorem State.recomputePermit_permit : s.recomputePermit.permit = s.permitValue := rfl
@[simp] theorem State.recomputePermit_control : s.recomputePermit.control = s.control := rfl
@[simp] theorem State.recomputePermit_ports : s.recomputePermit.ports = s.ports := rfl
@[simp] theorem State.recomputePermit_key : s.recomputePermit.key = s.key := rfl
@[simp] theorem State.recomputePermit_store : s.recomputePermit.store = s.store := rfl
@[simp] theorem State.recomputePermit_nextKey : s.recomputePermit.nextKey = s.nextKey := rfl
@[simp] theorem State.recomputePermit_freeCount : s.recomputePermit.freeCount = s.freeCount := rfl
@[simp] theorem State.recomputePermit_pending : s.recomputePermit.pending = s.pending := rfl

@[simp] theorem State.clamped_lines : s.clamped.lines = s.lines := rfl
@[simp] theorem State.clamped_points : s.clamped.points = s.points := rfl
@[simp] theorem State.clamped_feed : s.clamped.feed = s.feed := rfl
@[simp] theorem State.clamped_track : s.clamped.track = clampSpans s.points s.feed.pos s.track := rfl
@[simp] theorem State.clamped_lastAdvise : s.clamped.lastAdvise = s.lastAdvise := rfl
@[simp] theorem State.clamped_cells : s.clamped.cells = s.cells := rfl
@[simp] theorem State.clamped_openStray : s.clamped.openStray = s.openStray := rfl
@[simp] theorem State.clamped_recipes : s.clamped.recipes = s.recipes := rfl
@[simp] theorem State.clamped_setpoint : s.clamped.setpoint = s.setpoint := rfl
@[simp] theorem State.clamped_ring : s.clamped.ring = s.ring := rfl
@[simp] theorem State.clamped_valve : s.clamped.valve = s.valve := rfl
@[simp] theorem State.clamped_release : s.clamped.release = s.release := rfl
@[simp] theorem State.clamped_marks : s.clamped.marks = s.marks := rfl
@[simp] theorem State.clamped_permit : s.clamped.permit = s.permit := rfl
@[simp] theorem State.clamped_control : s.clamped.control = s.control := rfl
@[simp] theorem State.clamped_ports : s.clamped.ports = s.ports := rfl
@[simp] theorem State.clamped_key : s.clamped.key = s.key := rfl
@[simp] theorem State.clamped_store : s.clamped.store = s.store := rfl
@[simp] theorem State.clamped_nextKey : s.clamped.nextKey = s.nextKey := rfl
@[simp] theorem State.clamped_freeCount : s.clamped.freeCount = s.freeCount := rfl
@[simp] theorem State.clamped_pending : s.clamped.pending = s.pending := rfl

@[simp] theorem State.pushed_lines : s.pushed.lines = s.lines := rfl
@[simp] theorem State.pushed_points : s.pushed.points = s.points := rfl
@[simp] theorem State.pushed_feed : s.pushed.feed = s.feed := rfl
@[simp] theorem State.pushed_track : s.pushed.track = pushBehindStray s.points s.feed.pos s.track := rfl
@[simp] theorem State.pushed_lastAdvise : s.pushed.lastAdvise = s.lastAdvise := rfl
@[simp] theorem State.pushed_cells : s.pushed.cells = s.cells := rfl
@[simp] theorem State.pushed_openStray : s.pushed.openStray = s.openStray := rfl
@[simp] theorem State.pushed_recipes : s.pushed.recipes = s.recipes := rfl
@[simp] theorem State.pushed_setpoint : s.pushed.setpoint = s.setpoint := rfl
@[simp] theorem State.pushed_ring : s.pushed.ring = s.ring := rfl
@[simp] theorem State.pushed_valve : s.pushed.valve = s.valve := rfl
@[simp] theorem State.pushed_release : s.pushed.release = s.release := rfl
@[simp] theorem State.pushed_marks : s.pushed.marks = s.marks := rfl
@[simp] theorem State.pushed_permit : s.pushed.permit = s.permit := rfl
@[simp] theorem State.pushed_control : s.pushed.control = s.control := rfl
@[simp] theorem State.pushed_ports : s.pushed.ports = s.ports := rfl
@[simp] theorem State.pushed_key : s.pushed.key = s.key := rfl
@[simp] theorem State.pushed_store : s.pushed.store = s.store := rfl
@[simp] theorem State.pushed_nextKey : s.pushed.nextKey = s.nextKey := rfl
@[simp] theorem State.pushed_freeCount : s.pushed.freeCount = s.freeCount := rfl
@[simp] theorem State.pushed_pending : s.pushed.pending = s.pending := rfl

@[simp] theorem State.onChan_chans (c : Channel) (f : Chan → Chan) :
    (s.onChan c f).valve.chans = s.valve.chans.modify c f := rfl
@[simp] theorem State.onChan_rings (c : Channel) (f : Chan → Chan) : (s.onChan c f).valve.rings = s.valve.rings := rfl
@[simp] theorem State.onInterlock_chans (k : Ring) (f : Interlock → Interlock) :
    (s.onInterlock k f).valve.chans = s.valve.chans := rfl
@[simp] theorem State.onInterlock_rings (k : Ring) (f : Interlock → Interlock) :
    (s.onInterlock k f).valve.rings = s.valve.rings.modify k f := rfl

end Sys2Proof.Machine
end

