-- ==== Sys2Proof/Laws/Works.lean ====
section
/-! SUPPORT. What the part's blocks do among themselves below a change of the release level: every shared operation is a
chain of a few basic changes, said once for each operation, so that a fact proved of the basic changes holds of all. -/

namespace Sys2Proof.Machine

/-! ### The names of records -/

/-- A record's key and its scan_id. -/
def Rec.name (r : Rec) : Nat × Nat := (r.key, r.scanId)

theorem NamesRight.of_names {l l' : List Rec} {n : Nat} (e : l'.map Rec.name = l.map Rec.name) (h : NamesRight l n) :
    NamesRight l' n := by
  have hk : l'.map Rec.key = l.map Rec.key := by
    simpa [Rec.name, Function.comp_def] using congrArg (List.map Prod.fst) e
  have hs : l'.map Rec.scanId = l.map Rec.scanId := by
    simpa [Rec.name, Function.comp_def] using congrArg (List.map Prod.snd) e
  have hp : ∀ l : List Rec, (l.Pairwise fun x y => x.scanId ≠ 0 → x.scanId ≠ y.scanId) ↔
      (l.map Rec.scanId).Pairwise fun x y => x ≠ 0 → x ≠ y := fun l => by rw [List.pairwise_map]
  refine ⟨hk ▸ h.keys, fun r hr => ?_, by rw [hp, hs, ← hp]; exact h.scanIds⟩
  have : r.key ∈ l.map Rec.key := hk ▸ List.mem_map_of_mem hr
  obtain ⟨q, hq, e⟩ := List.mem_map.1 this
  exact e ▸ h.below q hq

theorem NamesRight.sublist {l l' : List Rec} {n : Nat} (e : l'.Sublist l) (h : NamesRight l n) : NamesRight l' n :=
  ⟨h.keys.sublist (e.map _), fun r hr => h.below r (e.subset hr), h.scanIds.sublist e⟩

theorem NamesRight.perm {l l' : List Rec} {n : Nat} (e : l'.Perm l) (h : NamesRight l n) : NamesRight l' n :=
  ⟨(e.map _).nodup_iff.2 h.keys, fun r hr => h.below r (e.subset hr),
    (e.pairwise_iff fun {x y} (g : x.scanId ≠ 0 → x.scanId ≠ y.scanId) hy hxy => g (hxy ▸ hy) hxy.symm).2 h.scanIds⟩

/-- A record placed under the next key, with a scan_id of its own or none. -/
theorem NamesRight.cons {l : List Rec} {n : Nat} {x : Rec} (h : NamesRight l n) (hk : x.key = n)
    (hs : x.scanId ≠ 0 → ∀ y ∈ l, y.scanId ≠ x.scanId) : NamesRight (x :: l) (n + 1) := by
  refine ⟨?_, fun r hr => ?_, ?_⟩
  · rw [List.map_cons, List.nodup_cons]
    refine ⟨fun hx => ?_, h.keys⟩
    obtain ⟨q, hq, e⟩ := List.mem_map.1 hx
    have := h.below q hq; omega
  · rcases List.mem_cons.1 hr with rfl | hr
    · omega
    · have := h.below r hr; omega
  · exact List.pairwise_cons.2 ⟨fun y hy hx e => hs hx y hy e.symm, h.scanIds⟩

/-- The record of a key given a scan_id no record holds. -/
theorem NamesRight.rename {l : List Rec} {n key id : Nat} {f : Rec → Rec} (h : NamesRight l n)
    (hf : ∀ r, (f r).key = r.key ∧ (f r).scanId = id) (hs : ∀ y ∈ l, y.scanId ≠ id) :
    NamesRight (l.map fun r => if r.key == key then f r else r) n := by
  have hk : ∀ r, (if r.key == key then f r else r).key = r.key := fun r => by split <;> simp [hf]
  refine ⟨?_, fun r hr => ?_, List.pairwise_map.2 ?_⟩
  · rw [List.map_map, show Rec.key ∘ _ = Rec.key from funext hk]; exact h.keys
  · obtain ⟨q, hq, rfl⟩ := List.mem_map.1 hr
    rw [hk]; exact h.below q hq
  · refine ((List.pairwise_map.1 h.keys).and h.scanIds).imp_of_mem ?_
    rintro x y hx hy ⟨ne, sx⟩
    by_cases ex : x.key = key <;> by_cases ey : y.key = key
    · exact absurd (ex.trans ey.symm) ne
    · simp only [ex, ey, beq_self_eq_true, if_true, beq_iff_eq, if_false, (hf x).2]; exact fun _ e => hs y hy e.symm
    · simp only [ex, ey, beq_self_eq_true, if_true, beq_iff_eq, if_false, (hf y).2]; exact fun _ => hs x hx
    · simp only [ex, ey, beq_iff_eq, if_false]; exact sx

/-- `t` comes from `s` by a chain of basic changes that leave the release causes and the level alone. -/
inductive Works : State → State → Prop
  | refl (s : State) : Works s s
  | trans {s t u : State} : Works s t → Works t u → Works s u
  /-- telegrams placed, notices raised -/
  | ports (s : State) (ps : PerPort PortState) (v : Nat)
      (h : ∀ p, SamePort (s.ports.get p) (ps.get p) ∧ ∀ k ∈ (s.ports.get p).status, k ∈ (ps.get p).status) :
      Works s { s with ports := ps, lastAdvise := v }
  /-- records changed, removed, or one placed where there is room -/
  | track (s : State) (l : List Rec) (c : PerCell CellState) (o : Option OpenStray) (n : Nat)
      (h : l.length ≤ s.track.length ∨ l.length ≤ 12)
      (hc : ∀ x, (c.get x).blocked = (s.cells.get x).blocked ∧ (c.get x).candidate = (s.cells.get x).candidate)
      (hn : s.named → NamesRight l n) :
      Works s { s with track := l, cells := c, openStray := o, nextKey := n }
  /-- a target evaluated -/
  | setpoint (s : State) (x : PerRing Setpoint) (n : Nat) : Works s { s with setpoint := x, freeCount := n }
  /-- an intent handed to the Valve Line -/
  | intent (s : State) (k : Ring) (x : Side) (pressure : Nat) (h : pressure ≤ s.points.ceiling) :
      Works s (s.intent k x pressure)
  /-- a ring's sequencer changed: its flags alone, or to a state the mode and the level allow -/
  | seq (s : State) (k : Ring) (q : Sequencer)
      (h : (q.state = (s.ring.get k).state ∧ q.served = (s.ring.get k).served ∧ q.armedFor = (s.ring.get k).armedFor) ∨
        (s.allows q.state ∧ q.right)) :
      Works s (s.onSeq k (fun _ => q))
  /-- the shadow table copied into the active one -/
  | copyTable (s : State) :
      Works s { s with recipes := { s.recipes with active := s.recipes.shadow, swapPending := false } }
  | mark (s : State) (v : Bool) (m : Mark) : Works s (s.setMark v m)
  | permit (s : State) : Works s s.recomputePermit
  /-- a channel's monitor, not its target or command -/
  | chans (s : State) (x : PerChannel Chan)
      (h : ∀ c, (x.get c).target = (s.valve.chans.get c).target ∧ (x.get c).command = (s.valve.chans.get c).command) :
      Works s { s with valve := { s.valve with chans := x } }

/-- A fold of operations that are chains is a chain. -/
theorem Works.foldl {β : Type} {f : State → β → State} (h : ∀ s b, Works s (f s b)) (l : List β) (s : State) :
    Works s (l.foldl f s) := by
  induction l generalizing s with
  | nil => exact .refl s
  | cons b l ih => exact (h s b).trans (ih _)

theorem SamePort.refl (q : PortState) : SamePort q q := ⟨rfl, rfl, rfl, rfl⟩

theorem SamePort.trans {q r u : PortState} (h : SamePort q r) (g : SamePort r u) : SamePort q u :=
  ⟨g.receiver.trans h.receiver, g.queue.trans h.queue, g.enable.trans h.enable, g.sending.trans h.sending⟩

/-! ### Output.lean -/

theorem PortState.raise_same (q : PortState) (k : NoticeKind) : SamePort q (q.raise k) := by
  unfold PortState.raise; split <;> exact ⟨rfl, rfl, rfl, rfl⟩

theorem PortState.raise_status (q : PortState) (k x : NoticeKind) (h : x ∈ q.status) : x ∈ (q.raise k).status := by
  unfold PortState.raise addKind; split
  · exact h
  · simp only [List.mem_filter, Bool.or_eq_true, List.contains_iff_mem]
    exact ⟨by cases x <;> decide, .inr h⟩

theorem onPort_same (s : State) (p : Port) (f : PortState → PortState)
    (h : ∀ q, SamePort q (f q) ∧ (f q).status = q.status) :
    Works s (s.onPort p f) := by
  refine Works.ports s (s.ports.modify p f) s.lastAdvise fun q => ?_
  rw [PerPort.get_modify]; split
  · exact ⟨(h _).1, fun k hk => by rw [(h (s.ports.get q)).2]; exact hk⟩
  · exact ⟨.refl _, fun _ hk => hk⟩

theorem State.send_works (s : State) (p : Port) (kind : Byte) (l : List Byte) : Works s (s.send p kind l) :=
  onPort_same s p _ fun _ => ⟨⟨rfl, rfl, rfl, rfl⟩, rfl⟩

theorem State.notice_works (s : State) (k : NoticeKind) : Works s (s.notice k) := by
  refine Works.ports s _ s.lastAdvise fun p => ?_
  rw [PerPort.get_map]; exact ⟨PortState.raise_same _ k, fun x => PortState.raise_status _ k x⟩

theorem State.markSourceAt_works (s : State) (src : MarkSource) (m : Mark) : Works s (s.markSourceAt src m) := by
  unfold State.markSourceAt
  split
  · split
    · exact s.notice_works _
    · next h => simpa [State.setMark, h] using Works.mark s true m
  · exact .refl s

theorem State.markEvent_works (s : State) (src : MarkSource) : Works s (s.markEvent src) :=
  Works.foldl (fun s m => s.markSourceAt_works src m) _ s

theorem State.advise_works (s : State) : Works s s.advise := by
  unfold State.advise
  split
  · exact .refl s
  · refine Works.ports s _ s.advisedLimit fun p => ?_
    simp only [PerPort.get_modify]
    split <;> exact ⟨⟨rfl, rfl, rfl, rfl⟩, fun _ hk => hk⟩

/-! ### SetpointUnit.lean -/

theorem stageClamp_le (lower upper p : Nat) (h : lower ≤ upper) : (stageClamp lower upper p).1 ≤ upper := by
  unfold stageClamp; split
  · exact le_rfl
  · split <;> simp <;> omega

theorem pressValue_le (s : State) (k : Ring) (r : Rec) : (pressValue s k r).1 ≤ s.points.ceiling := by
  unfold pressValue; split
  · exact stageClamp_le _ _ _ (Nat.min_le_right _ _)
  · exact (stageClamp_le _ _ _ (Nat.min_le_right _ _)).trans (Nat.min_le_left _ _)

theorem onRec_names {s : State} (key : Nat) (f : Rec → Rec) (hf : ∀ r, (f r).name = r.name) :
    (s.onRec key f).track.map Rec.name = s.track.map Rec.name := by
  simp only [State.onRec, List.map_map]
  refine List.map_congr_left fun r _ => ?_
  simp only [Function.comp_def]; split <;> simp [hf]

/-- A record changed, its names apart. -/
theorem State.onRec_works (s : State) (key : Nat) (f : Rec → Rec) (hf : ∀ r, (f r).name = r.name) :
    Works s (s.onRec key f) :=
  Works.track s _ s.cells s.openStray s.nextKey (.inl (by simp)) (fun _ => ⟨rfl, rfl⟩)
    (NamesRight.of_names (onRec_names key f hf))

/-- A cell's waiting record changed. -/
theorem State.waiting_works (s : State) (c : Cell) (w : Option Nat) :
    Works s (s.onCell c (fun q => { q with waiting := w })) :=
  Works.track s s.track _ s.openStray s.nextKey (.inl le_rfl)
    (fun x => by rw [PerCell.get_modify]; split <;> exact ⟨rfl, rfl⟩) id

theorem State.onSetpoint_works (s : State) (k : Ring) (f : Setpoint → Setpoint) : Works s (s.onSetpoint k f) :=
  Works.setpoint s _ s.freeCount

theorem State.evalPress_works (s : State) (k : Ring) : Works s (s.evalPress k) := by
  unfold State.evalPress
  split
  · exact .refl s
  · split
    · exact ((s.onSetpoint_works k _).trans (State.onRec_works _ _ _ fun r => by cases k <;> rfl)).trans
        (Works.intent _ _ _ _ (pressValue_le s k _))
    · exact .refl s

theorem State.evalLift_works (s : State) (k : Ring) : Works s (s.evalLift k) := by
  unfold State.evalLift
  simp only
  split
  · exact Works.setpoint s _ _
  · exact (s.onSetpoint_works k _).trans (Works.intent _ _ _ _ (Nat.min_le_right _ _))

theorem State.evalPresses_works (s : State) : Works s s.evalPresses :=
  (s.evalPress_works .a).trans (State.evalPress_works _ .b)

theorem State.evalLifts_works (s : State) : Works s s.evalLifts :=
  (s.evalLift_works .a).trans (State.evalLift_works _ .b)

theorem State.evalLiftIn_works (s : State) (st : RingState) (k : Ring) : Works s (s.evalLiftIn st k) := by
  unfold State.evalLiftIn; split
  · exact s.evalLift_works k
  · exact .refl s

theorem State.evalPressFor_works (s : State) (key : Nat) : Works s (s.evalPressFor key) := by
  have h : ∀ (t : State) (k : Ring),
      Works t (if (t.ring.get k).served = some key then t.evalPress k else t) := fun t k => by
    split
    · exact t.evalPress_works k
    · exact .refl t
  exact (h s .a).trans (h _ .b)

theorem State.evalLiftFor_works (s : State) (key : Nat) : Works s (s.evalLiftFor key) := by
  have h : ∀ (t : State) (k : Ring),
      Works t (if (t.ring.get k).armedFor = some key then t.evalLiftIn .armed k else t) := fun t k => by
    split
    · exact t.evalLiftIn_works _ k
    · exact .refl t
  exact (h s .a).trans (h _ .b)

/-! ### Rings.lean: passages -/

theorem State.swap_works (s : State) : Works s s.swap := by
  unfold State.swap
  exact (((Works.copyTable s).trans (State.notice_works _ _)).trans (State.advise_works _)).trans
    ((State.evalLiftIn_works _ _ _).trans (State.evalLiftIn_works _ _ _))

theorem State.gapSignal_works (s : State) : Works s s.gapSignal := by
  unfold State.gapSignal; split
  · exact s.swap_works
  · exact .refl s

theorem State.reportClear_works (s : State) (k : Ring) : Works s (s.reportClear k) := by
  unfold State.reportClear
  cases k
  · exact (s.markEvent_works _).trans (State.gapSignal_works _)
  · exact s.markEvent_works _

theorem State.flagStanding_works (s : State) (k : Ring) : Works s (s.flagStanding k) := by
  unfold State.flagStanding; split
  · exact s.onRec_works _ _ fun _ => by rfl
  · exact .refl s

/-- A change of a sequencer, to an allowed state. -/
theorem onSeq_works (s : State) (k : Ring) (f : Sequencer → Sequencer)
    (ha : s.allows (f (s.ring.get k)).state) (hr : (f (s.ring.get k)).right) : Works s (s.onSeq k f) := by
  have e : s.onSeq k f = s.onSeq k (fun _ => f (s.ring.get k)) := by cases k <;> rfl
  rw [e]; exact Works.seq s k _ (.inr ⟨ha, hr⟩)

/-- A change of a sequencer's flags. -/
theorem onSeq_flags_works (s : State) (k : Ring) (f : Sequencer → Sequencer)
    (h : ∀ q, (f q).state = q.state ∧ (f q).served = q.served ∧ (f q).armedFor = q.armedFor) :
    Works s (s.onSeq k f) := by
  have e : s.onSeq k f = s.onSeq k (fun _ => f (s.ring.get k)) := by cases k <;> rfl
  rw [e]; exact Works.seq s k _ (.inl (h _))

theorem State.goOpen_works (s : State) (k : Ring) (st : RingState) (armed : Option Nat) (h : s.allows st)
    (ho : st.pressing = false) (ha : armed.isSome = decide (st = .armed)) : Works s (s.goOpen k st armed) := by
  unfold State.goOpen
  simp only
  have hr : ∀ q : Sequencer,
      Sequencer.right { q with state := st, served := none, armedFor := armed } := fun q => ⟨by simp [ho], ha⟩
  refine Works.trans
    (onSeq_works s k (fun q => { q with state := st, served := none, armedFor := armed }) h (hr _)) ?_
  generalize s.onSeq k _ = t
  cases (s.ringState k).pressing
  · simpa using t.evalLift_works k
  · simp only [if_true, Bool.true_and]
    generalize hu : (t.onSetpoint k _).evalLift k = u
    refine Works.trans (t := u) (hu ▸ (t.onSetpoint_works k _).trans (State.evalLift_works _ k)) ?_
    split
    · exact (u.flagStanding_works k).trans (State.reportClear_works _ k)
    · exact u.reportClear_works k

theorem State.goPress_works (s : State) (k : Ring) (st : RingState) (key : Nat) (h : s.allows st)
    (hp : st.pressing = true) : Works s (s.goPress k st key) := by
  have hr : Sequencer.right { state := st, served := some key, armedFor := none, liftReached := false, settled := false } :=
    ⟨by simp [hp], by cases st <;> simp_all [RingState.pressing]⟩
  unfold State.goPress
  simp only
  refine Works.trans (onSeq_works s k
    (fun _ => { state := st, served := some key, armedFor := none, liftReached := false, settled := false }) h hr)
    ((State.evalPress_works _ k).trans ?_)
  split
  · exact State.markEvent_works _ _
  · exact .refl _

/-- Every state is allowed in RUN and MANUAL below IMMEDIATE. -/
theorem State.allows_all {s : State} (hm : s.control.mode ≠ .setup)
    (hl : s.release.level ≠ .immediate ∧ s.release.level ≠ .estop) (st : RingState) : s.allows st :=
  ⟨fun h => absurd h hm, fun h => h.elim (absurd · hl.1) (absurd · hl.2)⟩

/-- HELD is always allowed. -/
theorem State.allows_held (s : State) : s.allows .held := ⟨fun _ => .inr rfl, fun _ => rfl⟩

/-- A ring that is allowed a state other than HELD stands below IMMEDIATE. -/
theorem State.allows.below {s : State} {st : RingState} (h : s.allows st) (hs : st ≠ .held) :
    s.release.level ≠ .immediate ∧ s.release.level ≠ .estop :=
  ⟨fun e => hs (h.2 (.inl e)), fun e => hs (h.2 (.inr e))⟩

/-- A ring that is allowed to press, or to be armed, does so outside SETUP. -/
theorem State.allows.notSetup {s : State} {st : RingState} (h : s.allows st) (hi : st ≠ .idle) (hs : st ≠ .held) :
    s.control.mode ≠ .setup := fun e => (h.1 e).elim hi hs

theorem RingState.pressing_ne {st : RingState} (h : st.pressing = true) : st ≠ .idle ∧ st ≠ .held := by
  cases st <;> simp_all [RingState.pressing]

/-- A ring that presses may pass to any state. -/
theorem State.ringRight.all {s : State} {k : Ring} (h : s.ringRight k) (hp : (s.ringState k).pressing = true)
    (st : RingState) : s.allows st :=
  State.allows_all (h.allowed.notSetup (RingState.pressing_ne hp).1 (RingState.pressing_ne hp).2)
    (h.allowed.below (RingState.pressing_ne hp).2) st

theorem State.goPhase_works {s : State} {k : Ring} (h : s.ringRight k) (hs : (s.ringState k).pressing = true)
    (st : RingState) (hp : st.pressing = true) : Works s (s.goPhase k st) := by
  have hs' : (s.ring.get k).state.pressing = true := hs
  refine (onSeq_works s k _ (h.all hs _) ⟨?_, ?_⟩).trans (State.evalPress_works _ k)
  · simp [h.named.served, hs', hp]
  · simp only [h.named.armedFor]
    generalize (s.ring.get k).state = x at hs'
    cases x <;> cases st <;> simp_all [RingState.pressing]

theorem State.goWaiting_works (s : State) (k : Ring) (h : ∀ st, s.allows st) : Works s (s.goWaiting k) := by
  unfold State.goWaiting; split
  · exact s.goOpen_works k _ _ (h _) rfl rfl
  · exact s.goOpen_works k _ _ (h _) rfl rfl

theorem phaseByGeometry_pressing (s : State) (k : Ring) (r : Rec) : (phaseByGeometry s k r).pressing = true := by
  unfold phaseByGeometry; split
  · split <;> rfl
  · rfl

theorem State.takeGeometry_works (s : State) (k : Ring) (h : ∀ st, s.allows st) :
    Works s (s.takeGeometry k) := by
  unfold State.takeGeometry; split
  · exact s.goPress_works k _ _ (h _) (phaseByGeometry_pressing s k _)
  · exact s.goWaiting_works k h

theorem State.leaveByTail_works (s : State) (k : Ring) (h : ∀ st, s.allows st) : Works s (s.leaveByTail k) := by
  unfold State.leaveByTail; split
  · exact s.goOpen_works k _ _ (h _) rfl rfl
  · split
    · exact s.goPress_works k _ _ (h _) rfl
    · exact s.goWaiting_works k h

theorem State.leaveByBackOut_works (s : State) (k : Ring) (key : Nat) (h : ∀ st, s.allows st) :
    Works s (s.leaveByBackOut k key) := by
  unfold State.leaveByBackOut; split
  · exact s.goOpen_works k _ _ (h _) rfl rfl
  · exact s.goOpen_works k _ _ (h _) rfl rfl

/-! ### Rings.lean: events, outside SETUP -/

/-- An open ring outside SETUP that is not held may pass to any state. -/
theorem State.ringRight.open_all {s : State} {k : Ring} (h : s.ringRight k) (hm : s.control.mode ≠ .setup)
    (hs : s.ringState k ≠ .held) (st : RingState) : s.allows st :=
  State.allows_all hm (h.allowed.below hs) st

/-- A change of a record changes nothing a ring may be in. -/
theorem State.onRec_allows {s : State} {key : Nat} {f : Rec → Rec} {st : RingState} (h : s.allows st) :
    (s.onRec key f).allows st := h

theorem State.ringArm_works {s : State} {k : Ring} (h : s.ringRight k) (hm : s.control.mode ≠ .setup) (key : Nat) :
    Works s (s.ringArm k key) := by
  unfold State.ringArm; split
  · next e => exact s.goOpen_works k _ _ (h.open_all hm (by simp [e]) _) rfl rfl
  · exact .refl s

theorem State.ringPlane_works {s : State} {k : Ring} (h : s.ringRight k) (hm : s.control.mode ≠ .setup)
    (key : Nat) : Works s (s.ringPlane k key) := by
  have go : s.ringState k ≠ .held → Works s
      (State.goPress (if (s.ring.get k).liftReached then s else s.onRec key (Rec.flag · [.shortGap])) k .entry key) :=
    fun hs => by
      have a := h.open_all hm hs .entry
      split
      · exact s.goPress_works k _ _ a rfl
      · exact (s.onRec_works key (Rec.flag · [.shortGap]) fun _ => by rfl).trans
          (State.goPress_works _ k _ _ (State.onRec_allows a) rfl)
  unfold State.ringPlane
  split
  · next e => exact go (by simp [e])
  · next e => exact go (by simp [e])
  · exact s.onRec_works _ _ fun _ => by rfl
  all_goals exact .refl s

theorem State.ringEntryEnd_works {s : State} {k : Ring} (h : s.ringRight k) (key : Nat) :
    Works s (s.ringEntryEnd k key) := by
  unfold State.ringEntryEnd; split
  · next e =>
    have e : s.ringState k = .entry := by simp_all
    exact State.goPhase_works h (by simp [e, RingState.pressing]) _ rfl
  · exact .refl s

theorem State.ringTailAdvance_works {s : State} {k : Ring} (h : s.ringRight k) (key : Nat) :
    Works s (s.ringTailAdvance k key) := by
  unfold State.ringTailAdvance; split
  · next e =>
    have e : (s.ringState k).pressing = true := by
      simp only [Bool.and_eq_true, Bool.or_eq_true, decide_eq_true_eq] at e
      rcases e.2 with e | e <;> simp [e, RingState.pressing]
    exact State.goPhase_works h e _ rfl
  · exact .refl s

theorem State.ringTailOut_works {s : State} {k : Ring} (h : s.ringRight k) (key : Nat) :
    Works s (s.ringTailOut k key) := by
  unfold State.ringTailOut; split
  · next e => exact s.leaveByTail_works k (h.all (Bool.and_eq_true _ _ ▸ e).2)
  · exact .refl s

theorem State.ringBackOut_works {s : State} {k : Ring} (h : s.ringRight k) (key : Nat) :
    Works s (s.ringBackOut k key) := by
  unfold State.ringBackOut; split
  · next e => exact s.leaveByBackOut_works k key (h.all (Bool.and_eq_true _ _ ▸ e).2)
  · exact .refl s

theorem State.ringTailBackIn_works {s : State} {k : Ring} (h : s.ringRight k) (hm : s.control.mode ≠ .setup)
    (key : Nat) : Works s (s.ringTailBackIn k key) := by
  unfold State.ringTailBackIn
  split
  · next e => exact s.goPress_works k _ _ (h.open_all hm (by simp [e]) _) rfl
  · next e => exact s.goPress_works k _ _ (h.open_all hm (by simp [e]) _) rfl
  · exact s.onRec_works _ _ fun _ => by rfl
  all_goals exact .refl s

theorem State.ringEvent_works {s : State} (h : ∀ k, s.ringRight k) (key : Nat) (id : EventId) :
    Works s (s.ringEvent key id) := by
  unfold State.ringEvent
  split
  · exact .refl s
  · next hm =>
    cases id with
    | arm k => exact State.ringArm_works (h k) hm key
    | plane k => exact State.ringPlane_works (h k) hm key
    | entryEnd k => exact State.ringEntryEnd_works (h k) key
    | tailAdvance k => exact State.ringTailAdvance_works (h k) key
    | tailOut k => exact State.ringTailOut_works (h k) key
    | backOut k => exact State.ringBackOut_works (h k) key
    | tailBackIn k => exact State.ringTailBackIn_works (h k) hm key
    | _ => exact .refl s

theorem State.sampleEvent_works (s : State) (k : Ring) (key : Nat) : Works s (s.sampleEvent k key) := by
  unfold State.sampleEvent; split
  · exact s.evalPress_works k
  · exact .refl s

theorem State.ringMoved_works {s : State} {k : Ring} (h : s.ringRight k) : Works s (s.ringMoved k) := by
  unfold State.ringMoved
  split
  · exact .refl s
  · split
    · next hp =>
      split
      · exact .refl s
      · split
        · exact .refl s
        · split
          · exact s.leaveByBackOut_works k _ (h.all hp)
          · exact s.leaveByTail_works k (h.all hp)
    · exact .refl s

theorem State.ringRemoved_works {s : State} {k : Ring} (h : s.ringRight k) (key : Nat) :
    Works s (s.ringRemoved k key) := by
  unfold State.ringRemoved
  split
  · exact .refl s
  · next hm =>
    split
    · next e =>
      have e : (s.ring.get k).served = some key := by simpa [State.serves] using e
      have hp : (s.ringState k).pressing = true := by
        have := h.named.served; rw [e] at this; exact this.symm
      exact s.leaveByTail_works k (h.all hp)
    · split
      · next e =>
        have ha : s.ringState k = .armed := by
          have := h.named.armedFor; rw [e] at this; simpa [State.ringState] using this.symm
        have all := h.open_all hm (by simp [ha])
        split
        · exact s.goOpen_works k _ _ (all _) rfl rfl
        · exact s.goWaiting_works k all
      · exact .refl s

end Sys2Proof.Machine
end

