-- ==== Sys2Proof/Laws/Keeps.lean ====
section
/-! SUPPORT. What every chain of basic changes keeps. -/

namespace Sys2Proof.Machine

theorem SameOuter.refl (s : State) : SameOuter s s := ⟨rfl, rfl, rfl, rfl, rfl, rfl, rfl, rfl, fun _ => .refl _⟩

theorem SameOuter.trans {s t u : State} (h : SameOuter s t) (g : SameOuter t u) : SameOuter s u :=
  ⟨g.lines.trans h.lines, g.points.trans h.points, g.feed.trans h.feed, g.control.trans h.control, g.key.trans h.key,
    g.store.trans h.store, g.pending.trans h.pending, g.shadow.trans h.shadow, fun p => (h.ports p).trans (g.ports p)⟩

/-! ### The marks and the permit -/

theorem PerMark.any_all (f : Mark → Bool) : Mark.all.any f = (f .m0 || f .m1 || f .m2 || f .m3) := by
  simp [Mark.all, Bool.or_assoc]

/-- A mark that gates nothing leaves the gate where it is. -/
theorem State.gated_modify {s : State} {m : Mark} {v p : Bool} (h : s.points.markGate.get m = false) :
    State.gated { s with marks := s.marks.modify m (fun _ => v), permit := p } = s.gated := by
  unfold State.gated
  congr 1; funext j
  by_cases e : j = m
  · subst e; simp [h]
  · simp [PerMark.get_modify, e]

theorem State.setMark_sameOuter (s : State) (v : Bool) (m : Mark) : SameOuter s (s.setMark v m) := by
  unfold State.setMark
  split
  · exact .refl s
  · simp only; split <;> exact ⟨rfl, rfl, rfl, rfl, rfl, rfl, rfl, rfl, fun _ => .refl _⟩

/-- What setting a mark leaves alone. -/
theorem State.setMark_frame (s : State) (v : Bool) (m : Mark) :
    s.setMark v m = { s with marks := (s.setMark v m).marks, permit := (s.setMark v m).permit } := by
  unfold State.setMark
  split
  · rfl
  · simp only; split <;> rfl

theorem State.setMark_permitRight {s : State} (h : s.permitRight) (v : Bool) (m : Mark) :
    (s.setMark v m).permitRight := by
  unfold State.setMark
  split
  · exact h
  · simp only; split
    · rfl
    · next g =>
      have g : s.points.markGate.get m = false := by simpa using g
      have e := State.gated_modify (s := s) (m := m) (v := v) (p := s.permit) g
      unfold State.permitRight State.permitValue at h ⊢
      simpa [e] using h

theorem State.recomputePermit_permitRight (s : State) : s.recomputePermit.permitRight := rfl

/-! ### The interlock -/

/-- An interlock that keeps R137 keeps it as it takes an intent. -/
theorem Interlocked.take {il : Interlock} {press lift : Nat} (h : Interlocked il press lift) (x : Side) (held : Bool) :
    Interlocked (il.take x (match x with | .press => press | .lift => lift) held) press lift := by
  have hx := h.exclusive
  cases x
  all_goals
    simp only [Interlock.take]
    split
    · exact h
    · split
      · exact ⟨hx, fun y hy => by cases hy; exact ⟨rfl, by simp; omega⟩, fun i hi => by simp at hi,
          fun i n hi => by simp at hi⟩
      · refine ⟨hx, fun y hy => by simp at hy, fun i hi => ?_, fun i n hi hn => ?_⟩
        · cases held <;> simp at hi; subst hi; exact ⟨rfl, rfl⟩
        · cases held <;> simp at hi; subst hi; simp at hn

theorem State.intent_rings (s : State) (k : Ring) (x : Side) (p : Nat) :
    (s.intent k x p).valve.rings = s.valve.rings.modify k (fun il =>
      il.take x (s.valve.chans.get (channelOf k x)).command (bypassed s.release.level x)) := rfl

theorem State.intent_command (s : State) (k : Ring) (x : Side) (p : Nat) (c : Channel) :
    ((s.intent k x p).valve.chans.get c).command = (s.valve.chans.get c).command := by
  cases k <;> cases x <;> cases c <;> rfl

theorem State.intent_target (s : State) (k : Ring) (x : Side) (p : Nat) (c : Channel) :
    ((s.intent k x p).valve.chans.get c).target =
      if c.ring = k then (if c.side = x then p else 0) else (s.valve.chans.get c).target := by
  cases k <;> cases x <;> cases c <;> rfl

theorem State.intent_interlocked {s : State} {j : Ring} (h : s.interlocked j) (k : Ring) (x : Side) (p : Nat) :
    (s.intent k x p).interlocked j := by
  unfold State.interlocked at h ⊢
  simp only [State.intent_rings, State.intent_command, PerRing.get_modify]
  split
  · next e =>
    subst e
    have := h.take x (bypassed s.release.level x)
    cases x <;> exact this
  · exact h

theorem State.intent_underCeiling {s : State} (h : s.underCeiling) (k : Ring) (x : Side) {p : Nat}
    (hp : p ≤ s.points.ceiling) : (s.intent k x p).underCeiling := fun c => by
  rw [State.intent_command, State.intent_target]
  refine ⟨(h c).1, ?_⟩
  split
  · split
    · exact hp
    · exact Nat.zero_le _
  · exact (h c).2

/-! ### Chains -/

theorem Works.sameOuter {s t : State} (w : Works s t) : SameOuter s t := by
  induction w with
  | refl s => exact .refl s
  | trans _ _ h g => exact h.trans g
  | ports s ps v h => exact ⟨rfl, rfl, rfl, rfl, rfl, rfl, rfl, rfl, fun p => (h p).1⟩
  | mark s v m => exact s.setMark_sameOuter v m
  | _ => exact ⟨rfl, rfl, rfl, rfl, rfl, rfl, rfl, rfl, fun _ => .refl _⟩

theorem Works.release {s t : State} (w : Works s t) : t.release = s.release := by
  induction w with
  | trans _ _ h g => exact g.trans h
  | mark s v m => rw [State.setMark_frame]
  | _ => rfl

theorem Works.permitRight {s t : State} (w : Works s t) (h : s.permitRight) : t.permitRight := by
  induction w with
  | trans _ _ f g => exact g (f h)
  | mark s v m => exact State.setMark_permitRight h v m
  | permit s => rfl
  | _ => exact h

theorem Works.interlocked {s t : State} (w : Works s t) {k : Ring} (h : s.interlocked k) : t.interlocked k := by
  induction w with
  | trans _ _ f g => exact g (f h)
  | mark s v m => rw [State.setMark_frame]; exact h
  | intent s j x p _ => exact State.intent_interlocked h j x p
  | chans s x hx =>
    unfold State.interlocked at h ⊢
    simpa only [(hx _).2] using h
  | _ => exact h

theorem Works.underCeiling {s t : State} (w : Works s t) (h : s.underCeiling) : t.underCeiling := by
  induction w with
  | trans _ _ f g => exact g (f h)
  | mark s v m => rw [State.setMark_frame]; exact h
  | intent s j x p hp => exact State.intent_underCeiling h j x hp
  | chans s x hx => intro c; have := h c; simpa only [(hx c).1, (hx c).2] using this
  | _ => exact h

theorem Works.trackBound {s t : State} (w : Works s t) (h : s.track.length ≤ 12) : t.track.length ≤ 12 := by
  induction w with
  | trans _ _ f g => exact g (f h)
  | mark s v m => rw [State.setMark_frame]; exact h
  | track s l c o n hl _ _ => exact hl.elim (·.trans h) id
  | _ => exact h

theorem Works.named {s t : State} (w : Works s t) (h : s.named) : t.named := by
  induction w with
  | trans _ _ f g => exact g (f h)
  | mark s v m => rw [State.setMark_frame]; exact h
  | track s l c o n _ _ hn => exact hn h
  | _ => exact h

theorem Works.ringRight {s t : State} (w : Works s t) {k : Ring} (h : s.ringRight k) : t.ringRight k := by
  induction w with
  | trans _ _ f g => exact g (f h)
  | mark s v m => rw [State.setMark_frame]; exact ⟨h.allowed, h.named⟩
  | seq s j q hq =>
    by_cases e : k = j
    · subst e
      have hg : (s.onSeq k (fun _ => q)).ring.get k = q := by simp
      rcases hq with ⟨h1, h2, h3⟩ | ⟨ha, hr⟩
      · refine ⟨?_, ?_⟩
        · show s.allows ((s.onSeq k (fun _ => q)).ring.get k).state
          rw [hg, h1]; exact h.allowed
        · rw [hg]; exact ⟨by rw [h1, h2]; exact h.named.served, by rw [h1, h3]; exact h.named.armedFor⟩
      · refine ⟨?_, by rw [hg]; exact hr⟩
        show s.allows ((s.onSeq k (fun _ => q)).ring.get k).state
        rw [hg]; exact ha
    · have hg : (s.onSeq j (fun _ => q)).ring.get k = s.ring.get k := by
        simp [PerRing.get_modify, e]
      refine ⟨?_, by rw [hg]; exact h.named⟩
      show s.allows ((s.onSeq j (fun _ => q)).ring.get k).state
      rw [hg]; exact h.allowed
  | _ => exact ⟨h.allowed, h.named⟩

/-- A notice set only grows. -/
theorem Works.status {s t : State} (w : Works s t) (p : Port) {k : NoticeKind} (h : k ∈ (s.ports.get p).status) :
    k ∈ (t.ports.get p).status := by
  induction w with
  | trans _ _ f g => exact g (f h)
  | mark s v m => rw [State.setMark_frame]; exact h
  | ports s ps v hp => exact (hp p).2 k h
  | _ => exact h

/-- A cell's filtered level and candidate are kept. -/
theorem Works.cell {s t : State} (w : Works s t) (c : Cell) :
    (t.cells.get c).blocked = (s.cells.get c).blocked ∧ (t.cells.get c).candidate = (s.cells.get c).candidate := by
  induction w with
  | trans _ _ f g => exact ⟨g.1.trans f.1, g.2.trans f.2⟩
  | mark s v m => rw [State.setMark_frame]; exact ⟨rfl, rfl⟩
  | track s l x o n _ hc _ => exact hc c
  | _ => exact ⟨rfl, rfl⟩

end Sys2Proof.Machine
end

