-- ==== Sys2Proof/Laws/Level.lean ====
section
/-! SUPPORT. A change of the release level, and what it keeps. -/

namespace Sys2Proof.Machine

/-! ### The Valve Line at a change of level (R141) -/

theorem Interlocked.relevel {il : Interlock} {press lift : Nat} (h : Interlocked il press lift) (before now : Level)
    (x : Side) : Interlocked (il.relevel before now x) press lift := by
  unfold Interlock.relevel
  split
  · split
    · exact ⟨h.exclusive, h.releasedIntent, fun i hi => by simp at hi, fun i n hi => by simp at hi⟩
    · exact h
  · split
    · next e =>
      simp only [Bool.and_eq_true, decide_eq_true_eq] at e
      obtain ⟨⟨⟨_, hi⟩, hr⟩, _⟩ := e
      have hn : il.released = none := by
        cases hx : il.released with
        | none => rfl
        | some y => exact absurd (by rw [hx, (h.releasedIntent y hx).1, hi]) hr
      refine ⟨h.exclusive, h.releasedIntent, fun i e => ?_, fun i n e en => ?_⟩
      · cases e; exact ⟨hi.symm, hn⟩
      · cases e; simp at en
    · exact h

theorem State.valveLevel_interlocked {s : State} {j : Ring} (h : s.interlocked j) (before : Level) :
    (s.valveLevel before).interlocked j := by
  have f : ∀ il p l, Interlocked il p l → Interlocked
      ((il.relevel before s.release.level .press).relevel before s.release.level .lift) p l :=
    fun il p l h => (h.relevel _ _ _).relevel _ _ _
  cases j <;> exact f _ _ _ h

theorem State.valveLevel_sameOuter (s : State) (before : Level) : SameOuter s (s.valveLevel before) :=
  ⟨rfl, rfl, rfl, rfl, rfl, rfl, rfl, rfl, fun _ => .refl _⟩

theorem State.valveLevel_chans (s : State) (before : Level) :
    (s.valveLevel before).valve.chans = s.valve.chans := rfl

/-! ### A ring at a change of level (R123, R124, R126) -/

theorem State.ringLevel_works (s : State) (k : Ring) : Works s (s.ringLevel k) := by
  unfold State.ringLevel
  split
  · next e =>
    have below : s.release.level ≠ .immediate ∧ s.release.level ≠ .estop := by simp [e]
    split
    · split
      · refine s.goOpen_works k _ _ ⟨fun _ => .inl rfl, fun h => ?_⟩ rfl rfl
        rcases h with h | h <;> simp [e] at h
      · next hm => exact s.takeGeometry_works k (State.allows_all hm below)
    · exact .refl s
  · split
    · exact s.goOpen_works k _ _ s.allows_held rfl rfl
    · exact .refl s
  all_goals
    split
    · exact .refl s
    · exact s.goOpen_works k _ _ s.allows_held rfl rfl

/-- A ring's state after it opens is the one named. -/
theorem State.markEvent_ring (s : State) (src : MarkSource) : (s.markEvent src).ring = s.ring := by
  have h : ∀ (l : List Mark) (t : State), (l.foldl (fun t m => t.markSourceAt src m) t).ring = t.ring := by
    intro l
    induction l with
    | nil => intro t; rfl
    | cons m l ih =>
      intro t; rw [List.foldl_cons, ih]
      unfold State.markSourceAt; split
      · split
        · rfl
        · simp only; split <;> rfl
      · rfl
  exact h _ s

theorem State.advise_ring (s : State) : s.advise.ring = s.ring := by unfold State.advise; split <;> rfl

theorem State.evalLift_ring (s : State) (k : Ring) : (s.evalLift k).ring = s.ring := by
  unfold State.evalLift; simp only; split <;> rfl

theorem State.evalLiftIn_ring (s : State) (st : RingState) (k : Ring) : (s.evalLiftIn st k).ring = s.ring := by
  unfold State.evalLiftIn; split
  · exact s.evalLift_ring k
  · rfl

theorem State.evalPress_ring (s : State) (k : Ring) : (s.evalPress k).ring = s.ring := by
  unfold State.evalPress; split
  · rfl
  · split <;> rfl

theorem State.swap_ring (s : State) : s.swap.ring = s.ring := by
  unfold State.swap; simp [State.evalLiftIn_ring, State.advise_ring, State.notice]

theorem State.reportClear_ring (s : State) (k : Ring) : (s.reportClear k).ring = s.ring := by
  unfold State.reportClear
  cases k
  · show (State.gapSignal _).ring = _
    unfold State.gapSignal; split
    · rw [State.swap_ring, State.markEvent_ring]
    · exact State.markEvent_ring _ _
  · exact State.markEvent_ring _ _

theorem State.flagStanding_ring (s : State) (k : Ring) : (s.flagStanding k).ring = s.ring := by
  unfold State.flagStanding; split <;> rfl

theorem State.goOpen_ring (s : State) (k : Ring) (st : RingState) (a : Option Nat) :
    (s.goOpen k st a).ring =
      s.ring.modify k (fun q => { q with state := st, served := none, armedFor := a }) := by
  unfold State.goOpen
  simp only
  cases (s.ringState k).pressing <;> simp only [Bool.false_eq_true, if_false, if_true, Bool.false_and, Bool.true_and]
  · rw [State.evalLift_ring]; rfl
  · rw [State.reportClear_ring]; split
    · rw [State.flagStanding_ring, State.evalLift_ring]; rfl
    · rw [State.evalLift_ring]; rfl

theorem State.goOpen_right (s : State) (k : Ring) (st : RingState) (a : Option Nat) (h : s.allows st)
    (ho : st.pressing = false) (ha : a.isSome = decide (st = .armed)) : (s.goOpen k st a).ringRight k := by
  have hw := s.goOpen_works k st a h ho ha
  have hg : (s.goOpen k st a).ring.get k =
      { s.ring.get k with state := st, served := none, armedFor := a } := by rw [State.goOpen_ring]; simp
  refine ⟨?_, by rw [hg]; exact ⟨by simp [ho], ha⟩⟩
  unfold State.ringState; rw [hg]
  unfold State.allows at h ⊢; rw [hw.sameOuter.control, hw.release]; exact h

/-- A ring that had its place before a change of level has it after. -/
theorem State.ringLevel_right {s : State} {k : Ring}
    (hm : s.control.mode = .setup → s.ringState k = .idle ∨ s.ringState k = .held) (hn : (s.ring.get k).right) :
    (s.ringLevel k).ringRight k := by
  have keep : s.release.level ≠ .immediate ∧ s.release.level ≠ .estop → s.ringRight k := fun b =>
    ⟨⟨hm, fun h => h.elim (absurd · b.1) (absurd · b.2)⟩, hn⟩
  have hold : ∀ st, s.ringState k = .held → s.release.level = st → s.ringRight k := fun _ e _ =>
    ⟨by rw [e]; exact s.allows_held, hn⟩
  have w := s.ringLevel_works k
  cases e : s.release.level with
  | none => exact w.ringRight (keep (by simp [e]))
  | atGap => exact w.ringRight (keep (by simp [e]))
  | immediate =>
    unfold State.ringLevel; rw [e]; simp only
    split
    · next h => exact hold _ h rfl
    · exact s.goOpen_right k _ _ s.allows_held rfl rfl
  | estop =>
    unfold State.ringLevel; rw [e]; simp only
    split
    · next h => exact hold _ h rfl
    · exact s.goOpen_right k _ _ s.allows_held rfl rfl

/-! ### The whole change (R156) -/

/-- The state as the level held changes, before the owners act. -/
def State.leveled (s : State) : State :=
  { s with release := { s.release with level := s.release.causes.level } }

theorem lifts_chain (v : State) (p : Prop) [Decidable p] :
    Works v (if p then (v.evalLiftIn .held .a).evalLiftIn .held .b else v) := by
  split
  · exact (v.evalLiftIn_works _ _).trans (State.evalLiftIn_works _ _ _)
  · exact .refl v

theorem marks_chain (u : State) (p : Prop) [Decidable p] :
    Works u (State.notice (if p then u.markEvent .release else u) .releaseChanged) := by
  split
  · exact (u.markEvent_works _).trans (State.notice_works _ _)
  · exact u.notice_works _

/-- A change of level is: the rings take it; the Valve Line takes it and the held lift targets are worked out; the permit is
recomputed; the marks and the notices follow. -/
theorem State.relevel_chain (s : State) :
    (s.relevel = s ∧ s.release.causes.level = s.release.level) ∨
      ∃ t u, t = (s.leveled.ringLevel .a).ringLevel .b ∧ Works (t.valveLevel s.release.level) u ∧
        Works u.recomputePermit s.relevel := by
  by_cases h : s.release.causes.level = s.release.level
  · exact .inl ⟨by unfold State.relevel; simp only [h, if_true], h⟩
  · refine .inr ⟨_, _, rfl, lifts_chain _ (s.release.level = .estop ∨ s.release.causes.level = .estop), ?_⟩
    have e : s.relevel = State.notice (if s.release.level = .none then
        ((if s.release.level = .estop ∨ s.release.causes.level = .estop then
          ((((s.leveled.ringLevel .a).ringLevel .b).valveLevel s.release.level).evalLiftIn .held .a).evalLiftIn .held .b
          else ((s.leveled.ringLevel .a).ringLevel .b).valveLevel s.release.level).recomputePermit).markEvent .release
        else (if s.release.level = .estop ∨ s.release.causes.level = .estop then
          ((((s.leveled.ringLevel .a).ringLevel .b).valveLevel s.release.level).evalLiftIn .held .a).evalLiftIn .held .b
          else ((s.leveled.ringLevel .a).ringLevel .b).valveLevel s.release.level).recomputePermit) .releaseChanged := by
      unfold State.relevel; rw [if_neg h]; rfl
    rw [e]; exact marks_chain _ _

theorem State.leveled_sameOuter (s : State) : SameOuter s s.leveled :=
  ⟨rfl, rfl, rfl, rfl, rfl, rfl, rfl, rfl, fun _ => .refl _⟩

theorem State.recomputePermit_sameOuter (s : State) : SameOuter s s.recomputePermit :=
  ⟨rfl, rfl, rfl, rfl, rfl, rfl, rfl, rfl, fun _ => .refl _⟩

theorem State.relevel_sameOuter (s : State) : SameOuter s s.relevel := by
  rcases s.relevel_chain with ⟨e, _⟩ | ⟨t, u, rfl, h1, h2⟩
  · rw [e]; exact .refl s
  · exact s.leveled_sameOuter.trans <| (State.ringLevel_works _ _).sameOuter.trans <|
      (State.ringLevel_works _ _).sameOuter.trans <| (State.valveLevel_sameOuter _ _).trans <| h1.sameOuter.trans <|
      u.recomputePermit_sameOuter.trans h2.sameOuter

/-- After the level is worked out it is the highest among the causes, and the causes are as they were. -/
theorem State.relevel_release (s : State) :
    s.relevel.release = { s.release with level := s.release.causes.level } := by
  rcases s.relevel_chain with ⟨e, h⟩ | ⟨t, u, rfl, h1, h2⟩
  · rw [e, h]
  · rw [h2.release]; show u.release = _
    rw [h1.release]; show State.release (State.ringLevel _ _) = _
    rw [(State.ringLevel_works _ _).release, (State.ringLevel_works _ _).release]; rfl

theorem State.relevel_levelRight (s : State) : s.relevel.levelRight := by
  unfold State.levelRight; rw [s.relevel_release]

theorem State.relevel_permitRight {s : State} (h : s.permitRight) : s.relevel.permitRight := by
  rcases s.relevel_chain with ⟨e, _⟩ | ⟨t, u, _, _, h2⟩
  · rw [e]; exact h
  · exact h2.permitRight u.recomputePermit_permitRight

theorem State.relevel_interlocked {s : State} {k : Ring} (h : s.interlocked k) : s.relevel.interlocked k := by
  rcases s.relevel_chain with ⟨e, _⟩ | ⟨t, u, rfl, h1, h2⟩
  · rw [e]; exact h
  · have h0 : s.leveled.interlocked k := h
    exact h2.interlocked (h1.interlocked (State.valveLevel_interlocked
      ((State.ringLevel_works _ _).interlocked ((State.ringLevel_works _ _).interlocked h0)) _))

theorem State.relevel_underCeiling {s : State} (h : s.underCeiling) : s.relevel.underCeiling := by
  rcases s.relevel_chain with ⟨e, _⟩ | ⟨t, u, rfl, h1, h2⟩
  · rw [e]; exact h
  · have h0 : s.leveled.underCeiling := h
    have h3 := (State.ringLevel_works _ .b).underCeiling ((State.ringLevel_works _ .a).underCeiling h0)
    exact h2.underCeiling (h1.underCeiling h3)

theorem State.relevel_trackBound {s : State} (h : s.track.length ≤ 12) : s.relevel.track.length ≤ 12 := by
  rcases s.relevel_chain with ⟨e, _⟩ | ⟨t, u, rfl, h1, h2⟩
  · rw [e]; exact h
  · have h0 : s.leveled.track.length ≤ 12 := h
    have h3 := (State.ringLevel_works _ .b).trackBound ((State.ringLevel_works _ .a).trackBound h0)
    exact h2.trackBound (h1.trackBound h3)

theorem State.relevel_named {s : State} (h : s.named) : s.relevel.named := by
  rcases s.relevel_chain with ⟨e, _⟩ | ⟨t, u, rfl, h1, h2⟩
  · rw [e]; exact h
  · have h0 : s.leveled.named := h
    have h3 := (State.ringLevel_works _ .b).named ((State.ringLevel_works _ .a).named h0)
    exact h2.named (h1.named h3)

theorem State.relevel_ringRight {s : State} {k : Ring} (h : ∀ j, s.ringRight j) : s.relevel.ringRight k := by
  rcases s.relevel_chain with ⟨e, _⟩ | ⟨t, u, rfl, h1, h2⟩
  · rw [e]; exact h k
  · have hm : ∀ j, s.leveled.control.mode = .setup → s.leveled.ringState j = .idle ∨ s.leveled.ringState j = .held :=
      fun j => (h j).allowed.1
    have hn : ∀ j, (s.leveled.ring.get j).right := fun j => (h j).named
    have ha : (s.leveled.ringLevel .a).ringRight .a := State.ringLevel_right (hm .a) (hn .a)
    have wb : ((s.leveled.ringLevel .a).ringLevel .b).ringRight .b := by
      have w := s.leveled.ringLevel_works .a
      have hr : (s.leveled.ringLevel .a).ring.get .b = s.leveled.ring.get .b := by
        unfold State.ringLevel
        have go : ∀ st a, (s.leveled.goOpen .a st a).ring.get .b = s.leveled.ring.get .b := fun st a => by
          rw [State.goOpen_ring]; rfl
        have gp : ∀ st key, (s.leveled.goPress .a st key).ring.get .b = s.leveled.ring.get .b := fun st key => by
          unfold State.goPress; simp only
          split
          · rw [State.markEvent_ring, State.evalPress_ring]; rfl
          · rw [State.evalPress_ring]; rfl
        split
        · split
          · split
            · exact go _ _
            · unfold State.takeGeometry; split
              · exact gp _ _
              · unfold State.goWaiting; split <;> exact go _ _
          · rfl
        all_goals
          split
          · first | exact go _ _ | rfl
          · first | exact go _ _ | rfl
      refine State.ringLevel_right (fun hs => ?_) (by rw [hr]; exact hn .b)
      rw [w.sameOuter.control] at hs
      unfold State.ringState; rw [hr]; exact hm .b hs
    have h3 : ((s.leveled.ringLevel .a).ringLevel .b).ringRight k := by
      cases k
      · exact (State.ringLevel_works _ _).ringRight ha
      · exact wb
    have h4 : (((s.leveled.ringLevel .a).ringLevel .b).valveLevel s.release.level).ringRight k :=
      ⟨h3.allowed, h3.named⟩
    have h5 := h1.ringRight h4
    exact h2.ringRight ⟨h5.allowed, h5.named⟩

end Sys2Proof.Machine
end

