-- ==== Sys2Proof/Laws/Internal.lean ====
section
/-! SUPPORT. What the part's blocks do among themselves, changes of the release causes included: each remaining shared
operation is a chain of basic changes and of changes of the cause set; and what every such chain keeps. -/

namespace Sys2Proof.Machine

/-- `t` comes from `s` by basic changes and changes of the cause set. -/
inductive Internal : State → State → Prop
  | works {s t : State} : Works s t → Internal s t
  | trans {s t u : State} : Internal s t → Internal t u → Internal s u
  /-- the cause set changed and the level worked out -/
  | causes (s : State) (c : Causes) : Internal s (State.relevel { s with release := { s.release with causes := c } })

/-! ### What a chain keeps -/

theorem Internal.refl (s : State) : Internal s s := .works (.refl s)

theorem Internal.sameOuter {s t : State} (w : Internal s t) : SameOuter s t := by
  induction w with
  | works w => exact w.sameOuter
  | trans _ _ h g => exact h.trans g
  | causes s c =>
    exact SameOuter.trans (t := { s with release := { s.release with causes := c } })
      ⟨rfl, rfl, rfl, rfl, rfl, rfl, rfl, rfl, fun _ => .refl _⟩ (State.relevel_sameOuter _)

/-- The input levels the Release Unit has taken. -/
theorem Internal.inputs {s t : State} (w : Internal s t) :
    t.release.estopActive = s.release.estopActive ∧ t.release.rotorRunning = s.release.rotorRunning := by
  induction w with
  | works w => rw [w.release]; exact ⟨rfl, rfl⟩
  | trans _ _ h g => exact ⟨g.1.trans h.1, g.2.trans h.2⟩
  | causes s c => rw [State.relevel_release]; exact ⟨rfl, rfl⟩

theorem Internal.levelRight {s t : State} (w : Internal s t) (h : s.levelRight) : t.levelRight := by
  induction w with
  | works w => unfold State.levelRight; rw [w.release]; exact h
  | trans _ _ f g => exact g (f h)
  | causes s c => exact State.relevel_levelRight _

theorem Internal.permitRight {s t : State} (w : Internal s t) (h : s.permitRight) : t.permitRight := by
  induction w with
  | works w => exact w.permitRight h
  | trans _ _ f g => exact g (f h)
  | causes s c => exact State.relevel_permitRight h

theorem Internal.interlocked {s t : State} (w : Internal s t) {k : Ring} (h : s.interlocked k) : t.interlocked k := by
  induction w with
  | works w => exact w.interlocked h
  | trans _ _ f g => exact g (f h)
  | causes s c => exact State.relevel_interlocked h

theorem Internal.underCeiling {s t : State} (w : Internal s t) (h : s.underCeiling) : t.underCeiling := by
  induction w with
  | works w => exact w.underCeiling h
  | trans _ _ f g => exact g (f h)
  | causes s c => exact State.relevel_underCeiling h

theorem Internal.trackBound {s t : State} (w : Internal s t) (h : s.track.length ≤ 12) : t.track.length ≤ 12 := by
  induction w with
  | works w => exact w.trackBound h
  | trans _ _ f g => exact g (f h)
  | causes s c => exact State.relevel_trackBound h

theorem Internal.named {s t : State} (w : Internal s t) (h : s.named) : t.named := by
  induction w with
  | works w => exact w.named h
  | trans _ _ f g => exact g (f h)
  | causes s c => exact State.relevel_named h

theorem Internal.ringRight {s t : State} (w : Internal s t) (h : ∀ k, s.ringRight k) : ∀ k, t.ringRight k := by
  induction w with
  | works w => exact fun k => w.ringRight (h k)
  | trans _ _ f g => exact g (f h)
  | causes s c => exact fun k => State.relevel_ringRight fun j => ⟨(h j).allowed, (h j).named⟩

/-! ### Causes raised -/

theorem State.raiseCause_internal (s : State) (c : Cause) : Internal s (s.raiseCause c) := by
  unfold State.raiseCause; split
  · exact .refl s
  · exact .causes s _

/-! ### The track -/

/-- Two operations one after the other, the second needing the rings right. -/
theorem Internal.andThen {s t u : State} (h : ∀ k, s.ringRight k) (w : Internal s t)
    (f : (∀ k, t.ringRight k) → Internal t u) : Internal s u := w.trans (f (w.ringRight h))

theorem Works.andThen {s t u : State} (h : ∀ k, s.ringRight k) (w : Works s t)
    (f : (∀ k, t.ringRight k) → Works t u) : Works s u := w.trans (f fun k => w.ringRight (h k))

/-- A clamp moves records and flags them, and keeps their names. -/
theorem clampBehind_names (pts : Points) (pos : Pos) (l : List Rec) :
    ∀ e, (clampBehind pts pos e l).map Rec.name = l.map Rec.name := by
  induction l with
  | nil => intro e; rfl
  | cons r l ih => intro e; simp only [clampBehind, List.map_cons, ih]; split <;> rfl

theorem clampSpans_names (pts : Points) (pos : Pos) (l : List Rec) :
    (clampSpans pts pos l).map Rec.name = l.map Rec.name := by
  cases l <;> simp [clampSpans, clampBehind_names]

theorem pushBehindStray_names (pts : Points) (pos : Pos) (l : List Rec) :
    (pushBehindStray pts pos l).map Rec.name = l.map Rec.name := by
  induction l with
  | nil => rfl
  | cons r l ih => unfold pushBehindStray; split <;> simp [clampBehind_names, ih]

theorem length_of_names {l l' : List Rec} (e : l'.map Rec.name = l.map Rec.name) : l'.length = l.length := by
  simpa using congrArg List.length e

theorem State.clamped_works (s : State) : Works s s.clamped :=
  have e := clampSpans_names s.points s.feed.pos s.track
  Works.track s _ s.cells s.openStray s.nextKey (.inl (length_of_names e).le) (fun _ => ⟨rfl, rfl⟩) (NamesRight.of_names e)

theorem State.pushed_works (s : State) : Works s s.pushed :=
  have e := pushBehindStray_names s.points s.feed.pos s.track
  Works.track s _ s.cells s.openStray s.nextKey (.inl (length_of_names e).le) (fun _ => ⟨rfl, rfl⟩) (NamesRight.of_names e)

/-- A cell that lets go of a record keeps its levels. -/
theorem forget_kept {s : State} {key : Nat} (x : Cell) :
    ((⟨s.cells.entry.forget key, s.cells.exit.forget key⟩ : PerCell CellState).get x).blocked = (s.cells.get x).blocked ∧
      ((⟨s.cells.entry.forget key, s.cells.exit.forget key⟩ : PerCell CellState).get x).candidate =
        (s.cells.get x).candidate := by
  cases x <;> simp only [PerCell.get, CellState.forget] <;> split <;> exact ⟨rfl, rfl⟩

theorem State.removeRec_works {s : State} (h : ∀ k, s.ringRight k) (key : Nat) : Works s (s.removeRec key) := by
  unfold State.removeRec
  split
  · exact .refl s
  · refine Works.andThen h (t := { s with
        track := s.track.filter (fun r => r.key != key)
        cells := ⟨s.cells.entry.forget key, s.cells.exit.forget key⟩
        openStray := s.openStray.filter (fun o => o.key != key) })
      (Works.track s _ _ _ s.nextKey (.inl (List.length_filter_le _ _)) forget_kept
        (NamesRight.sublist List.filter_sublist)) fun h => ?_
    exact (Works.andThen h (State.ringRemoved_works (h .a) key) fun h =>
      State.ringRemoved_works (h .b) key).trans (State.advise_works _)

theorem State.finish_works {s : State} (h : ∀ k, s.ringRight k) (key : Nat) : Works s (s.finish key) := by
  unfold State.finish
  split
  · exact .refl s
  · exact Works.andThen h ((s.send_works _ _ _).trans (State.markEvent_works _ _)) fun h => State.removeRec_works h key

theorem State.finishInferred_works {s : State} (h : ∀ k, s.ringRight k) (key : Nat) :
    Works s (s.finishInferred key) :=
  Works.andThen h (s.onRec_works key _ fun _ => by rfl) fun h => State.finish_works h key

theorem State.removeMissing_works {s : State} (h : ∀ k, s.ringRight k) (key : Nat) : Works s (s.removeMissing key) :=
  (State.removeRec_works h key).trans (State.notice_works _ _)

theorem State.withdraw_works {s : State} (h : ∀ k, s.ringRight k) (key : Nat) : Works s (s.withdraw key) :=
  (State.removeRec_works h key).trans (State.notice_works _ _)

theorem State.entryWindowPassed_works {s : State} (h : ∀ k, s.ringRight k) (r : Rec) :
    Works s (s.entryWindowPassed r) := by
  unfold State.entryWindowPassed
  simp only
  split
  · exact .refl s
  · split
    · exact s.onRec_works _ _ fun _ => by rfl
    · split
      · exact State.removeMissing_works h _
      · exact s.waiting_works _ _

theorem State.tailWindowPassed_works {s : State} (h : ∀ k, s.ringRight k) (r : Rec) :
    Works s (s.tailWindowPassed r) := by
  unfold State.tailWindowPassed
  simp only
  split
  · exact .refl s
  · split
    · exact State.finishInferred_works h _
    · split
      · exact s.onRec_works _ _ fun _ => by rfl
      · exact s.waiting_works _ _

theorem State.bindRec_works (s : State) (key : Nat) : Works s (s.bindRec key).1 := by
  unfold State.bindRec
  split
  · exact .refl s
  · split
    · exact .refl s
    · simp only
      refine (s.onRec_works key (fun q => q.bind s) fun _ => by rfl).trans ((State.evalPressFor_works _ key).trans ?_)
      split
      · exact State.advise_works _
      · exact (State.evalLiftFor_works _ key).trans (State.advise_works _)

theorem State.takeCrossing_works {s : State} (h : ∀ k, s.ringRight k) (c : Crossing) : Works s (s.takeCrossing c) := by
  unfold State.takeCrossing
  split
  · exact .refl s
  · split
    · exact State.withdraw_works h _
    · exact State.entryWindowPassed_works h _
    · exact State.tailWindowPassed_works h _
    · exact s.sampleEvent_works _ _
    · exact State.ringEvent_works h _ _

theorem State.takeEvent_works {s : State} (h : ∀ k, s.ringRight k) (c : Crossing) : Works s (s.takeEvent c).1 := by
  unfold State.takeEvent
  split
  · exact (State.takeCrossing_works h c).trans (State.bindRec_works _ _)
  · exact State.takeCrossing_works h c

theorem takeCrossings_works (l : List Crossing) {s : State} (h : ∀ k, s.ringRight k) :
    Works s (l.foldl State.takeCrossing s) := by
  induction l generalizing s with
  | nil => exact .refl s
  | cons c l ih => exact Works.andThen h (State.takeCrossing_works h c) fun h => ih h

theorem runEvents_works (l : List Crossing) : ∀ (born : List Crossing) {s : State}, (∀ k, s.ringRight k) →
    Works s (runEvents l born s) := by
  induction l with
  | nil => intro born s h; exact takeCrossings_works born h
  | cons e l ih =>
    intro born s h
    simp only [runEvents]
    exact Works.andThen h (takeCrossings_works _ h) fun h =>
      Works.andThen h (State.takeEvent_works h e) fun h => ih _ h

theorem State.afterMove_works {s : State} (h : ∀ k, s.ringRight k) (before : State) : Works s (s.afterMove before) := by
  unfold State.afterMove
  refine Works.andThen h (runEvents_works (crossings before s) [] h) fun h => ?_
  split
  · exact (Works.andThen h (State.ringMoved_works (h .a)) fun h => State.ringMoved_works (h .b)).trans
      (State.advise_works _)
  · exact State.advise_works _

/-! ### The cells -/

theorem State.realignRec_works {s : State} (h : ∀ k, s.ringRight k) (key : Nat) (p : Pos) :
    Works s (s.realignRec key p) :=
  Works.andThen h ((s.onRec_works key _ fun _ => by rfl).trans (State.clamped_works _)) fun h => State.afterMove_works h s

theorem insertByB0_perm (x : Rec) (l : List Rec) : (insertByB0 x l).Perm (x :: l) := by
  induction l with
  | nil => exact .refl _
  | cons r l ih =>
    unfold insertByB0; split
    · exact (ih.cons r).trans (.swap x r l)
    · exact .refl _

theorem State.makeStray_internal {s : State} (h : ∀ k, s.ringRight k) (p : Pos) : Internal s (s.makeStray p) := by
  unfold State.makeStray
  split
  · next hl =>
    refine .works (Works.andThen h ((Works.track s _ s.cells _ (s.nextKey + 1) (.inr ?_) (fun _ => ⟨rfl, rfl⟩)
      fun hn => .perm (insertByB0_perm _ _) (.cons hn rfl fun h => absurd rfl h)).trans
      ((State.clamped_works _).trans (State.notice_works _ _))) fun h => State.afterMove_works h s)
    rw [(insertByB0_perm _ _).length_eq, List.length_cons]; omega
  · exact (s.raiseCause_internal _).trans (.works (State.notice_works _ _))

theorem State.matchEntry_internal (p : Pos) (n : Nat) : ∀ {s : State}, (∀ k, s.ringRight k) →
    Internal s (s.matchEntry p n) := by
  induction n with
  | zero => intro s h; exact State.makeStray_internal h p
  | succ n ih =>
    intro s h
    unfold State.matchEntry
    split
    · exact State.makeStray_internal h p
    · split
      · exact .works (State.realignRec_works h _ p)
      · split
        · exact State.makeStray_internal h p
        · exact Internal.andThen h (.works (State.removeMissing_works h _)) fun h => ih h

theorem State.entryRise_internal {s : State} (h : ∀ k, s.ringRight k) (p : Pos) : Internal s (s.entryRise p) := by
  unfold State.entryRise; split
  · exact .refl s
  · exact State.matchEntry_internal p _ h

theorem State.strayClose_works {s : State} (h : ∀ k, s.ringRight k) (p : Pos) : Works s (s.strayClose p) := by
  unfold State.strayClose
  split
  · exact .refl s
  · next o _ =>
    simp only
    generalize ht : s.onRec o.key _ = t
    have w : Works s { t with openStray := none } :=
      (ht ▸ s.onRec_works o.key _ fun _ => by rfl).trans
        (Works.track t t.track t.cells none t.nextKey (.inl le_rfl) (fun _ => ⟨rfl, rfl⟩) id)
    exact Works.andThen h (w.trans (State.clamped_works _)) fun h => State.afterMove_works h s

theorem State.strayWithdraw_works {s : State} (h : ∀ k, s.ringRight k) : Works s s.strayWithdraw := by
  unfold State.strayWithdraw; split
  · exact .refl s
  · exact State.withdraw_works h _

theorem State.settleEntryRise_works (s : State) : Works s s.settleEntryRise := by
  unfold State.settleEntryRise; split
  · exact .refl s
  · exact (s.waiting_works _ _).trans (State.onRec_works _ _ _ fun r => by (try split) <;> rfl)

theorem State.settleEntry_works {s : State} (h : ∀ k, s.ringRight k) : Works s s.settleEntry := by
  unfold State.settleEntry; split
  · exact .refl s
  · refine Works.andThen h (s.waiting_works .entry none) fun h => ?_
    simp only
    split
    · exact State.onRec_works _ _ _ fun _ => by rfl
    · exact State.removeMissing_works h _

theorem State.finishAll_works (l : List Nat) : ∀ {s : State}, (∀ k, s.ringRight k) → Works s (s.finishAll l) := by
  induction l with
  | nil => intro s _; exact .refl s
  | cons x l ih => intro s h; exact Works.andThen h (State.finish_works h x) fun h => ih h

theorem State.exitFall_works {s : State} (h : ∀ k, s.ringRight k) (p : Pos) : Works s (s.exitFall p) := by
  unfold State.exitFall
  split
  · exact Works.andThen h (State.finishAll_works _ h) fun h => State.finish_works h _
  · split
    · exact State.finish_works h _
    · exact s.notice_works _

theorem State.settleExit_works {s : State} (h : ∀ k, s.ringRight k) : Works s s.settleExit := by
  unfold State.settleExit; split
  · exact .refl s
  · refine Works.andThen h (s.waiting_works .exit none) fun h => ?_
    simp only
    split
    · exact State.onRec_works _ _ _ fun _ => by rfl
    · exact State.finishInferred_works h _

theorem State.entryEdge_internal {s : State} (h : ∀ k, s.ringRight k) (rising : Bool) (stamp : Stamp) :
    Internal s (s.entryEdge rising stamp) := by
  unfold State.entryEdge
  split
  · exact (State.entryRise_internal h _).trans (.works (State.settleEntryRise_works _))
  · exact .works (State.settleEntry_works h)
  · exact .works (State.strayClose_works h _)
  · exact .works (Works.andThen h (State.strayWithdraw_works h) fun h => State.settleEntry_works h)

theorem State.exitEdge_works {s : State} (h : ∀ k, s.ringRight k) (rising : Bool) (stamp : Stamp) :
    Works s (s.exitEdge rising stamp) := by
  unfold State.exitEdge
  split
  · exact .refl s
  · exact Works.andThen h (State.exitFall_works h _) fun h => State.settleExit_works h
  · exact State.settleExit_works h

theorem State.settleDropped_works {s : State} (h : ∀ k, s.ringRight k) (c : Cell) : Works s (s.settleDropped c) := by
  cases c
  · exact State.settleEntry_works h
  · exact State.settleExit_works h

/-! ### The requests -/

theorem State.adopt_works {s : State} (h : ∀ k, s.ringRight k) (r : Rec) (d : ProfileData) (o : Orientation)
    (hd : ∀ x ∈ s.track, x.scanId ≠ d.scanId) : Works s (s.adopt r d o) := by
  unfold State.adopt
  simp only
  refine Works.andThen h ?_ fun h => State.afterMove_works h s
  generalize hu : s.onRec r.key _ = u
  have w : Works s { u with openStray := u.openStray.filter (fun x => x.key != r.key) } :=
    (hu ▸ Works.track s _ s.cells s.openStray s.nextKey (.inl (by simp)) (fun _ => ⟨rfl, rfl⟩)
      (fun hn => .rename hn (fun _ => ⟨rfl, rfl⟩) hd) : Works s u).trans
      (Works.track u u.track u.cells _ u.nextKey (.inl le_rfl) (fun _ => ⟨rfl, rfl⟩) id)
  split
  · exact (w.trans (State.clamped_works _)).trans (State.evalLiftFor_works _ _)
  · exact w.trans (State.evalLiftFor_works _ _)

theorem State.newRecord_works {s : State} (h : ∀ k, s.ringRight k) (x : Rec) (hl : s.track.length < 12)
    (hk : x.key = s.nextKey) (hx : ∀ y ∈ s.track, y.scanId ≠ x.scanId) : Works s (s.newRecord x) := by
  unfold State.newRecord
  refine Works.andThen h ((Works.track s (s.track ++ [x]) s.cells s.openStray (s.nextKey + 1) (.inr ?_) (fun _ => ⟨rfl, rfl⟩)
    fun hn => .perm List.perm_append_comm (.cons hn hk fun _ => hx)).trans (State.clamped_works _)) fun h => State.afterMove_works h s
  simp; omega

theorem State.setSpecies_works (s : State) (key code : Nat) (src : SpeciesSource) :
    Works s (s.setSpecies key code src) :=
  (s.onRec_works _ _ fun _ => by rfl).trans ((State.evalLiftFor_works _ _).trans (State.advise_works _))

theorem State.rebindRec_works {s : State} (h : ∀ k, s.ringRight k) (key code : Nat) : Works s (s.rebindRec key code) :=
  Works.andThen h ((s.onRec_works _ _ fun _ => by rfl).trans ((State.evalPressFor_works _ _).trans (State.evalLiftFor_works _ _)))
    fun h => State.afterMove_works h s

theorem State.enterRequest_internal (s : State) (p : Port) (l : Level) : Internal s (s.enterRequest p l) := .causes s _

theorem State.dropEnded_internal (s : State) : Internal s s.dropEnded := .causes s _

theorem State.valveResume_works (s : State) : Works s s.valveResume := by
  refine Works.chans s _ fun c => ?_
  rw [PerChannel.get_map]; unfold Chan.resume; split <;> exact ⟨rfl, rfl⟩

theorem State.evalBlind_works (s : State) (k : Ring) : Works s (s.evalBlind k) := by
  unfold State.evalBlind; split
  · split
    · exact s.evalPress_works k
    · exact .refl s
  · exact .refl s

/-! ### The valve reports and the monitor -/

theorem onChan_works (s : State) (c : Channel) (f : Chan → Chan)
    (h : ∀ x, (f x).target = x.target ∧ (f x).command = x.command) : Works s (s.onChan c f) := by
  refine Works.chans s (s.valve.chans.modify c f) fun d => ?_
  rw [PerChannel.get_modify]; split
  · exact h _
  · exact ⟨rfl, rfl⟩

theorem State.settledReport_works (s : State) (k : Ring) : Works s (s.settledReport k) := by
  unfold State.settledReport; split
  · have w := onSeq_flags_works s k (fun q => { q with settled := true }) fun q => ⟨rfl, rfl, rfl⟩
    exact w.trans (State.markEvent_works _ _)
  · exact .refl s

theorem State.liftReachedReport_works (s : State) (k : Ring) : Works s (s.liftReachedReport k) := by
  unfold State.liftReachedReport; split
  · exact .refl s
  · exact onSeq_flags_works s k (fun q => { q with liftReached := true }) fun q => ⟨rfl, rfl, rfl⟩

theorem State.report_works (s : State) (c : Channel) : Works s (s.report c) := by
  unfold State.report
  simp only
  split
  · split
    · exact s.settledReport_works _
    · exact s.liftReachedReport_works _
  · exact .refl s

theorem State.enterFault_internal (s : State) (c : Channel) (st : ChannelState) : Internal s (s.enterFault c st) := by
  have w := onChan_works s c (fun x => { x with state := st, timer := false }) fun x => ⟨rfl, rfl⟩
  exact .trans (.works w) (.trans (State.raiseCause_internal _ _) (.works (State.notice_works _ _)))

theorem State.badEcho_internal (s : State) (c : Channel) : Internal s (s.badEcho c) := by
  have w := onChan_works s c (fun x => { x with badRun := min ((s.valve.chans.get c).badRun + 1) 3 })
    fun x => ⟨rfl, rfl⟩
  unfold State.badEcho
  simp only
  split
  · exact .trans (.works w) (State.enterFault_internal _ _ _)
  · exact .works w

theorem Chan.compare_kept (x : Chan) (m : Nat) : (x.compare m).target = x.target ∧ (x.compare m).command = x.command := by
  unfold Chan.compare; split
  · split <;> exact ⟨rfl, rfl⟩
  · exact ⟨rfl, rfl⟩

theorem State.goodEcho_internal (s : State) (c : Channel) (w : Word16) : Internal s (s.goodEcho c w) := by
  have h : Works s (s.onChan c
      (fun q => ({ q with measured := echoCode w, badRun := 0 } : Chan).compare (echoCode w))) :=
    onChan_works s c _ fun x => Chan.compare_kept _ _
  unfold State.goodEcho
  simp only
  split
  · exact .trans (.works h) (State.enterFault_internal _ _ _)
  · split
    · exact .works (h.trans (State.report_works _ _))
    · exact .works h

theorem State.reportSilent_works (s : State) (c : Channel) : Works s (s.reportSilent c) := by
  unfold State.reportSilent; split
  · exact .refl s
  · exact s.report_works c

theorem badEchoes_internal (l : List Channel) (s : State) : Internal s (l.foldl State.badEcho s) := by
  induction l generalizing s with
  | nil => exact .refl s
  | cons c l ih => exact (s.badEcho_internal c).trans (ih _)

/-! ### A step of the feed -/

/-- A step of P is a change of the feed and then a chain. -/
theorem State.stepPos_works {s : State} (h : ∀ k, s.ringRight k) (up : Bool) :
    Works { s with feed := s.feed.step up } (s.stepPos up) := by
  have h' : ∀ k, ({ s with feed := s.feed.step up } : State).ringRight k := fun k => ⟨(h k).allowed, (h k).named⟩
  exact Works.andThen h' (State.pushed_works _) fun h => State.afterMove_works h s

end Sys2Proof.Machine
end

