-- ==== Sys2Proof/Laws/Commands.lean ====
section
/-! SUPPORT. What a request's reply and an ordinary command may change: every command but the starts, the inputs of the
Release Unit, MODE, the frame, the dead interval and the writes of points is a chain of changes of the outer state and of
chains of Internal.lean. -/

namespace Sys2Proof.Machine

/-- Two states that agree on what the facts every step keeps are about, the feed and the ports apart. -/
structure SameCore (s t : State) : Prop where
  points : t.points = s.points
  track : t.track = s.track
  nextKey : t.nextKey = s.nextKey
  ring : t.ring = s.ring
  valve : t.valve = s.valve
  release : t.release = s.release
  marks : t.marks = s.marks
  permit : t.permit = s.permit
  mode : t.control.mode = s.control.mode
  pending : t.pending = s.pending

theorem SameCore.refl (s : State) : SameCore s s := ⟨rfl, rfl, rfl, rfl, rfl, rfl, rfl, rfl, rfl, rfl⟩

/-- `t` comes from `s` by changes outside the core and by chains of the part's own. -/
inductive Ordinary : State → State → Prop
  | core {s t : State} : SameCore s t → Ordinary s t
  | internal {s t : State} : Internal s t → Ordinary s t
  | trans {s t u : State} : Ordinary s t → Ordinary t u → Ordinary s u

theorem Ordinary.refl (s : State) : Ordinary s s := .core (.refl s)

theorem Ordinary.works {s t : State} (w : Works s t) : Ordinary s t := .internal (.works w)

/-! ### What an ordinary command keeps -/

theorem Ordinary.levelRight {s t : State} (w : Ordinary s t) (h : s.levelRight) : t.levelRight := by
  induction w with
  | core c => unfold State.levelRight; rw [c.release]; exact h
  | internal w => exact w.levelRight h
  | trans _ _ f g => exact g (f h)

theorem Ordinary.permitRight {s t : State} (w : Ordinary s t) (h : s.permitRight) : t.permitRight := by
  induction w with
  | core c =>
    unfold State.permitRight State.permitValue State.gated at *
    rw [c.permit, c.release, c.marks, c.points]; exact h
  | internal w => exact w.permitRight h
  | trans _ _ f g => exact g (f h)

theorem Ordinary.interlocked {s t : State} (w : Ordinary s t) {k : Ring} (h : s.interlocked k) : t.interlocked k := by
  induction w with
  | core c => unfold State.interlocked at *; rw [c.valve]; exact h
  | internal w => exact w.interlocked h
  | trans _ _ f g => exact g (f h)

theorem Ordinary.underCeiling {s t : State} (w : Ordinary s t) (h : s.underCeiling) : t.underCeiling := by
  induction w with
  | core c => unfold State.underCeiling at *; rw [c.valve, c.points]; exact h
  | internal w => exact w.underCeiling h
  | trans _ _ f g => exact g (f h)

theorem Ordinary.trackBound {s t : State} (w : Ordinary s t) (h : s.track.length ≤ 12) : t.track.length ≤ 12 := by
  induction w with
  | core c => rw [c.track]; exact h
  | internal w => exact w.trackBound h
  | trans _ _ f g => exact g (f h)

theorem Ordinary.named {s t : State} (w : Ordinary s t) (h : s.named) : t.named := by
  induction w with
  | core c => unfold State.named at *; rw [c.track, c.nextKey]; exact h
  | internal w => exact w.named h
  | trans _ _ f g => exact g (f h)

theorem SameCore.ringRight {s t : State} (c : SameCore s t) (h : ∀ k, s.ringRight k) (k : Ring) : t.ringRight k := by
  refine ⟨?_, by rw [c.ring]; exact (h k).named⟩
  have := (h k).allowed
  unfold State.allows State.ringState at *
  rw [c.ring, c.release, c.mode]; exact this

theorem Ordinary.ringRight {s t : State} (w : Ordinary s t) (h : ∀ k, s.ringRight k) : ∀ k, t.ringRight k := by
  induction w with
  | core c => exact c.ringRight h
  | internal w => exact w.ringRight h
  | trans _ _ f g => exact g (f h)

theorem Ordinary.pending {s t : State} (w : Ordinary s t) : t.pending = s.pending := by
  induction w with
  | core c => exact c.pending
  | internal w => exact w.sameOuter.pending
  | trans _ _ f g => exact g.trans f

/-- A chain, then another that needs the rings right. -/
theorem Ordinary.andThen {s t u : State} (h : ∀ k, s.ringRight k) (w : Ordinary s t)
    (g : (∀ k, t.ringRight k) → Ordinary t u) : Ordinary s u := w.trans (g (w.ringRight h))

/-! ### Replies and requests -/

theorem onPort_core (s : State) (p : Port) (f : PortState → PortState) : SameCore s (s.onPort p f) :=
  ⟨rfl, rfl, rfl, rfl, rfl, rfl, rfl, rfl, rfl, rfl⟩

theorem State.answer_core (s : State) (p : Port) (r : Req) (x : Result) (b : List Byte) : SameCore s (s.answer p r x b) :=
  ⟨rfl, rfl, rfl, rfl, rfl, rfl, rfl, rfl, rfl, rfl⟩

/-- Answering a request changes the ports alone. -/
theorem State.answer_ports (s : State) (p : Port) (r : Req) (x : Result) (b : List Byte) :
    ∃ ps, s.answer p r x b = { s with ports := ps } := ⟨_, rfl⟩

/-- What a port does with a command of a request: nothing, a refusal, or the request's effect with its reply. -/
theorem State.serve_cases (s : State) (p : Port) (k : Kind) (want : Req → Bool) (effect : Req → State → Effect) :
    s.serve p k want effect = s ∨
      (∃ r e, s.serve p k want effect = s.answer p r e []) ∨
      ∃ r, s.serve p k want effect = (effect r s).state.answer p r (effect r s).result (effect r s).rest := by
  unfold State.serve
  split
  · exact .inl rfl
  · next r _ =>
    split
    · exact .inr (.inl ⟨r, _, rfl⟩)
    · exact .inr (.inr ⟨r, rfl⟩)

theorem State.serve_ordinary (s : State) (p : Port) (k : Kind) (want : Req → Bool) (effect : Req → State → Effect)
    (h : ∀ r, Ordinary s (effect r s).state) : Ordinary s (s.serve p k want effect) := by
  rcases s.serve_cases p k want effect with e | ⟨r, x, e⟩ | ⟨r, e⟩ <;> rw [e]
  · exact .refl s
  · exact .core (s.answer_core p r x [])
  · exact (h r).trans (.core (State.answer_core _ p r _ _))

/-! ### The requests' effects -/

theorem profileEffect_ordinary {s : State} (h : ∀ k, s.ringRight k) (r : Req) : Ordinary s (profileEffect r s).state := by
  unfold profileEffect
  simp only
  split
  · exact .refl s
  · split; · exact .refl s
    split; · exact .refl s
    split; · exact .refl s
    split; · exact .refl s
    next hn =>
    have hd : ∀ x ∈ s.track, x.scanId ≠ (readProfile r.payload).scanId := by simpa using hn
    split
    · exact .works (State.adopt_works h _ _ _ hd)
    · split
      · next hl => exact .works (State.newRecord_works h _ hl rfl hd)
      · exact .refl s

theorem speciesSetEffect_ordinary (s : State) (r : Req) : Ordinary s (speciesSetEffect r s).state := by
  unfold speciesSetEffect
  simp only
  split
  · exact .refl s
  · split; · exact .refl s
    split; · exact .refl s
    exact .works (State.setSpecies_works _ _ _ _)

theorem State.forceFirst_ordinary (s : State) (code : Nat) : Ordinary s (s.forceFirst code).state := by
  unfold State.forceFirst; split
  · exact .refl s
  · exact .works (State.setSpecies_works _ _ _ _)

theorem speciesForceEffect_ordinary {s : State} (h : ∀ k, s.ringRight k) (r : Req) :
    Ordinary s (speciesForceEffect r s).state := by
  unfold speciesForceEffect
  simp only
  split
  · exact .refl s
  · split
    · split
      · split
        · exact .works (State.rebindRec_works h _ _)
        · exact s.forceFirst_ordinary _
      · exact s.forceFirst_ordinary _
    · exact s.forceFirst_ordinary _

theorem releaseEffect_ordinary (s : State) (p : Port) (r : Req) : Ordinary s (releaseEffect p r s).state := by
  unfold releaseEffect; split
  · exact .refl s
  · exact .internal (s.enterRequest_internal p _)

theorem resumeEffect_ordinary (s : State) (r : Req) : Ordinary s (resumeEffect r s).state := by
  have w : Ordinary s s.dropEnded.valveResume :=
    .internal (.trans s.dropEnded_internal (.works (State.valveResume_works _)))
  unfold resumeEffect; simp only; split <;> exact w

theorem setMarks_works (l : List Mark) (v : Bool) (s : State) : Works s (l.foldl (fun t m => t.setMark v m) s) :=
  Works.foldl (fun s m => .mark s v m) l s

theorem markEffect_ordinary (s : State) (r : Req) : Ordinary s (markEffect r s).state := by
  unfold markEffect; simp only; split
  · exact .refl s
  · split
    · exact .refl s
    · exact .works (setMarks_works _ _ _)

theorem State.setSeason_ordinary (s : State) (x : Season) : Ordinary s (s.setSeason x) := by
  unfold State.setSeason; split
  · exact .refl s
  · have c : SameCore s { s with control := { s.control with season := x } } :=
      ⟨rfl, rfl, rfl, rfl, rfl, rfl, rfl, rfl, rfl, rfl⟩
    exact .trans (.core c) (.works (State.advise_works _))

theorem manualSetEffect_ordinary (s : State) (r : Req) : Ordinary s (manualSetEffect r s).state := by
  have c : ∀ k x y, SameCore s (s.storeManual k x y) := fun k x y => ⟨rfl, rfl, rfl, rfl, rfl, rfl, rfl, rfl, rfl, rfl⟩
  unfold manualSetEffect; simp only; split
  · exact .refl s
  · split
    · exact .trans (.core (c _ _ _)) (.works ((State.evalPress_works _ _).trans (State.evalLift_works _ _)))
    · exact .core (c _ _ _)

theorem recipes_core (s : State) (x : Recipes) : SameCore s { s with recipes := x } :=
  ⟨rfl, rfl, rfl, rfl, rfl, rfl, rfl, rfl, rfl, rfl⟩

theorem recipeWriteEffect_ordinary (s : State) (r : Req) : Ordinary s (recipeWriteEffect r s).state := by
  unfold recipeWriteEffect; simp only; split
  · exact .refl s
  · split
    · exact .core (recipes_core s _)
    · exact .refl s

theorem recipeReadEffect_state (s : State) (r : Req) : (recipeReadEffect r s).state = s := by
  unfold recipeReadEffect; simp only; split
  · rfl
  · split
    · rfl
    · split <;> rfl

theorem recipeDeleteEffect_ordinary (s : State) (r : Req) : Ordinary s (recipeDeleteEffect r s).state := by
  unfold recipeDeleteEffect; simp only; split
  · exact .refl s
  · split
    · exact .refl s
    · exact .core (recipes_core s _)

theorem recipeCommitEffect_ordinary (s : State) (r : Req) : Ordinary s (recipeCommitEffect r s).state := by
  unfold recipeCommitEffect; split
  · exact .core (recipes_core s _)
  · exact .works s.swap_works

theorem noticeEnableEffect_ordinary (s : State) (r : Req) : Ordinary s (noticeEnableEffect r s).state := by
  unfold noticeEnableEffect; split
  · exact .core (onPort_core s _ _)
  · exact .refl s

theorem noticeClearEffect_ordinary (s : State) (p : Port) (r : Req) : Ordinary s (noticeClearEffect p r s).state := by
  unfold noticeClearEffect; split
  · exact .core (onPort_core s _ _)
  · exact .refl s

theorem noticeRaiseEffect_ordinary (s : State) (r : Req) : Ordinary s (noticeRaiseEffect r s).state := by
  unfold noticeRaiseEffect; split
  · exact .core (onPort_core s _ _)
  · exact .refl s

/-! ### Events -/

theorem State.stepPos_ordinary {s : State} (h : ∀ k, s.ringRight k) (up : Bool) : Ordinary s (s.stepPos up) := by
  have c : SameCore s { s with feed := s.feed.step up } := ⟨rfl, rfl, rfl, rfl, rfl, rfl, rfl, rfl, rfl, rfl⟩
  exact .trans (.core c) (.works (State.stepPos_works h up))

theorem State.stepsPos_ordinary (n : Nat) (up : Bool) : ∀ {s : State}, (∀ k, s.ringRight k) →
    Ordinary s (s.stepsPos up n) := by
  induction n with
  | zero => exact fun _ => .refl _
  | succ n ih => exact fun h => Ordinary.andThen h (State.stepPos_ordinary h up) fun h => ih h

theorem State.acceptEnc_core (s : State) (now : Bool × Bool) : SameCore s (s.acceptEnc now).1 := by
  unfold State.acceptEnc; simp only; split <;> exact ⟨rfl, rfl, rfl, rfl, rfl, rfl, rfl, rfl, rfl, rfl⟩

theorem State.speedUpdate_ordinary (s : State) : Ordinary s
    (({ s with feed := { s.feed with speed := measuredSpeed s.feed, kept := s.feed.pos } } : State).evalPresses.advise) :=
  Ordinary.trans (t := { s with feed := { s.feed with speed := measuredSpeed s.feed, kept := s.feed.pos } })
    (.core ⟨rfl, rfl, rfl, rfl, rfl, rfl, rfl, rfl, rfl, rfl⟩)
    (.works ((State.evalPresses_works _).trans (State.advise_works _)))

theorem cells_core (s : State) (x : PerCell CellState) : SameCore s { s with cells := x } :=
  ⟨rfl, rfl, rfl, rfl, rfl, rfl, rfl, rfl, rfl, rfl⟩

theorem lines_core (s : State) (x : Lines) : SameCore s { s with lines := x } :=
  ⟨rfl, rfl, rfl, rfl, rfl, rfl, rfl, rfl, rfl, rfl⟩

theorem State.cellRaw_ordinary {s : State} (h : ∀ k, s.ringRight k) (c : Cell) (b : Bool) :
    ∃ t : State, execCellRawChange c b s = .next t ∧ Ordinary s t := by
  unfold execCellRawChange
  split
  · exact ⟨_, rfl, .refl s⟩
  · simp only
    have l : SameCore s { s with lines := Lines.setCell s.lines c b } := lines_core s _
    split
    · exact ⟨_, rfl, .andThen h (.core l) fun h => .andThen h (.core (cells_core _ _)) fun h =>
        .works (State.settleDropped_works h c)⟩
    · exact ⟨_, rfl, .trans (.core l) (.core (cells_core _ _))⟩

theorem State.cellEdge_ordinary {s : State} (h : ∀ k, s.ringRight k) (c : Cell) :
    ∃ t : State, execCellEdge c s = .next t ∧ Ordinary s t := by
  unfold execCellEdge
  split
  · exact ⟨_, rfl, .refl s⟩
  · refine ⟨_, rfl, Ordinary.andThen (t := s.onCell c fun q =>
      { q with blocked := !(s.cells.get c).blocked, candidate := none }) h (.core (cells_core s _)) fun h => ?_⟩
    cases c
    · exact .internal (State.entryEdge_internal h _ _)
    · exact .works (State.exitEdge_works h _ _)

theorem State.echo_ordinary (s : State) (c : Channel) (w : Word16) :
    ∃ t : State, execEchoReceived c w s = .next t ∧ Internal s t := by
  unfold execEchoReceived
  split
  · refine ⟨_, rfl, .trans (.works (onChan_works s c (fun x => { x with wait := false }) fun x => ⟨rfl, rfl⟩)) ?_⟩
    split
    · exact State.goodEcho_internal _ _ _
    · exact State.badEcho_internal _ _
  · exact ⟨_, rfl, .refl s⟩

theorem State.deviation_ordinary (s : State) (c : Channel) :
    ∃ t : State, execDeviationTimeout c s = .next t ∧ Internal s t := by
  unfold execDeviationTimeout
  simp only
  split
  · exact ⟨_, rfl, State.enterFault_internal _ _ _⟩
  · exact ⟨_, rfl, .refl s⟩

theorem State.save_ordinary (s : State) (p : Port) : ∃ t : State, execSave p s = .next t ∧ Ordinary s t := by
  refine ⟨_, rfl, ?_⟩
  split
  · exact .refl s
  · split
    · exact .core (s.answer_core _ _ _ _)
    · exact .core ⟨rfl, rfl, rfl, rfl, rfl, rfl, rfl, rfl, rfl, rfl⟩

theorem State.saveComplete_ordinary (s : State) : ∃ t : State, execSaveComplete s = .next t ∧ Ordinary s t := by
  unfold execSaveComplete
  split
  · exact ⟨_, rfl, .refl s⟩
  · next i _ =>
    refine ⟨_, rfl, .trans (t := { s with store := { image := some i, closed := true, snapshot := none } })
      (.core ⟨rfl, rfl, rfl, rfl, rfl, rfl, rfl, rfl, rfl, rfl⟩) ?_⟩
    unfold State.answerSave
    split
    · exact .core (State.answer_core _ _ _ _ _)
    · exact .refl _

theorem State.encoder_ordinary {s : State} (h : ∀ k, s.ringRight k) (x y : Bool) :
    ∃ t : State, execEncoderChange x y s = .next t ∧ Ordinary s t :=
  ⟨_, rfl, .andThen h (.core (lines_core s _)) fun h => .andThen h (.core (State.acceptEnc_core _ _)) fun h =>
    State.stepsPos_ordinary _ _ h⟩

end Sys2Proof.Machine
end

