-- ==== Sys2Proof/Laws/Frames.lean ====
section
/-! SUPPORT. One period's frames and a dead interval that runs out: what they keep of the interlock (R137) and of the
ceiling (R106, R142). -/

namespace Sys2Proof.Machine

/-! ### The ceiling -/

theorem ramp_le (pts : Points) (c : Chan) : ramp pts c ≤ max c.command c.target := by
  unfold ramp; split
  · omega
  · have : Nat.max (c.command - pts.fallStep) c.target = max (c.command - pts.fallStep) c.target := rfl
    omega

theorem frameCommand_le (pts : Points) (level : Level) (il : Interlock) (x : Side) (c : Chan) :
    frameCommand pts level il x c ≤ max c.command c.target := by
  unfold frameCommand
  split
  · omega
  · split
    · split
      · omega
      · exact ramp_le pts c
    · omega

/-- A channel after a frame: its command is its ring's, its target as it was. -/
theorem Valve.frame_chan (v : Valve) (pts : Points) (level : Level) (k : Ring) (x : Side) :
    let y := (v.frame pts level).chans.get (channelOf k x)
    let f := ringFrame pts level (v.rings.get k) (v.chans.get (channelOf k .press)) (v.chans.get (channelOf k .lift))
    y.target = (v.chans.get (channelOf k x)).target ∧
      y.command = (match x with | .press => f.2.1 | .lift => f.2.2) := by
  cases k <;> cases x <;> exact ⟨rfl, rfl⟩

theorem Valve.frame_ring (v : Valve) (pts : Points) (level : Level) (k : Ring) :
    (v.frame pts level).rings.get k =
      (ringFrame pts level (v.rings.get k) (v.chans.get (channelOf k .press)) (v.chans.get (channelOf k .lift))).1 := by
  cases k <;> rfl

theorem State.frame_underCeiling {s : State} (h : s.underCeiling) :
    ({ s with valve := s.valve.frame s.points s.release.level } : State).underCeiling := by
  intro c
  have hc := h c
  rw [Channel.eq_channelOf c] at hc ⊢
  obtain ⟨ht, hm⟩ := s.valve.frame_chan s.points s.release.level c.ring c.side
  have hp := frameCommand_le s.points s.release.level
    (((s.valve.rings.get c.ring).bypass s.release.level).advance s.points) c.side
    (s.valve.chans.get (channelOf c.ring c.side))
  refine ⟨?_, by show Chan.target _ ≤ _; rw [ht]; exact hc.2⟩
  have e : ((s.valve.frame s.points s.release.level).chans.get (channelOf c.ring c.side)).command =
      frameCommand s.points s.release.level (((s.valve.rings.get c.ring).bypass s.release.level).advance s.points) c.side
        (s.valve.chans.get (channelOf c.ring c.side)) := by
    rw [hm]; cases c <;> rfl
  show Chan.command _ ≤ _
  rw [e]; have := hc.1; have := hc.2
  show _ ≤ s.points.ceiling
  omega

/-! ### The interlock -/

theorem Interlocked.bypass {il : Interlock} {p l : Nat} (h : Interlocked il p l) (level : Level) :
    Interlocked (il.bypass level) p l := by
  refine ⟨h.exclusive, fun x hx => h.releasedIntent x ?_, fun i hi => ?_, fun i n hi hn => h.zeroFrame i n ?_ hn⟩
  · simp only [Interlock.bypass, Option.filter_eq_some_iff] at hx; exact hx.1
  · simp only [Interlock.bypass, Option.filter_eq_some_iff] at hi ⊢
    have := h.waitIntent i hi.1
    exact ⟨this.1, by rw [this.2]; rfl⟩
  · simp only [Interlock.bypass, Option.filter_eq_some_iff] at hi; exact hi.1

/-- An interlock whose interval has run out keeps R137 as its channel is released. -/
theorem Interlocked.release {il : Interlock} {p l : Nat} (h : Interlocked il p l) {i : Interval} {n : Nat}
    (hi : il.interval = some i) (hn : i.frames = some n) : Interlocked (il.release i.side) p l :=
  ⟨h.exclusive, fun _ hx => by cases hx; exact ⟨(h.waitIntent i hi).1, h.zeroFrame i n hi hn⟩,
    fun _ hj => by simp [Interlock.release] at hj, fun _ _ hj => by simp [Interlock.release] at hj⟩

/-- The commands of a ring's two channels as one side and the other. -/
theorem Interlocked.advance {il : Interlock} {p l : Nat} (h : Interlocked il p l) (pts : Points) :
    Interlocked (il.advance pts) p l := by
  unfold Interlock.advance
  cases hi : il.interval with
  | none => simpa [hi] using h
  | some i =>
    simp only
    obtain ⟨hw, hr⟩ := h.waitIntent i hi
    split
    · next hd =>
      cases hf : i.frames with
      | none => simp [Interval.due, hf] at hd
      | some n => exact h.release hi hf
    · refine ⟨h.exclusive, fun x hx => by rw [hr] at hx; simp at hx, fun j hj => ?_, fun j m hj hm => ?_⟩
      · cases hj; exact ⟨hw, hr⟩
      · cases hj
        cases hf : i.frames with
        | none => simp [Interval.tick, hf] at hm
        | some n => exact h.zeroFrame i n hi hf

theorem Interlock.noteZero_same (il : Interlock) (p l : Nat) :
    (il.noteZero p l).intent = il.intent ∧ (il.noteZero p l).released = il.released ∧
      ((il.noteZero p l).interval = il.interval ∨
        (il.interval = some ⟨.press, none⟩ ∧ l = 0 ∧ (il.noteZero p l).interval = some ⟨.press, some 0⟩) ∨
        (il.interval = some ⟨.lift, none⟩ ∧ p = 0 ∧ (il.noteZero p l).interval = some ⟨.lift, some 0⟩)) := by
  unfold Interlock.noteZero
  split
  · next e =>
    split
    · next z => exact ⟨rfl, rfl, .inr (.inl ⟨e, z, rfl⟩)⟩
    · exact ⟨rfl, rfl, .inl rfl⟩
  · next e =>
    split
    · next z => exact ⟨rfl, rfl, .inr (.inr ⟨e, z, rfl⟩)⟩
    · exact ⟨rfl, rfl, .inl rfl⟩
  · exact ⟨rfl, rfl, .inl rfl⟩

theorem frameCommand_zero {pts : Points} {level : Level} {il : Interlock} {x : Side} {c : Chan}
    (h : c.command = 0) (hr : il.released ≠ some x) : frameCommand pts level il x c = 0 := by
  unfold frameCommand; split
  · rfl
  · simp [h]

theorem ringFrame_interlocked {il : Interlock} {press lift : Chan} (h : Interlocked il press.command lift.command)
    (pts : Points) (level : Level) :
    let f := ringFrame pts level il press lift
    Interlocked f.1 f.2.1 f.2.2 := by
  have hm := (h.bypass level).advance pts
  simp only [ringFrame]
  generalize (il.bypass level).advance pts = m at hm ⊢
  generalize hp : frameCommand pts level m .press press = p
  generalize hl : frameCommand pts level m .lift lift = l
  have hrp : m.released = some .press → l = 0 := fun e =>
    hl ▸ frameCommand_zero (hm.releasedIntent _ e).2 (by rw [e]; decide)
  have hrl : m.released = some .lift → p = 0 := fun e =>
    hp ▸ frameCommand_zero (hm.releasedIntent _ e).2 (by rw [e]; decide)
  have hz : m.released = none → press.command = 0 → p = 0 := fun e z => hp ▸ frameCommand_zero z (by rw [e]; decide)
  have hy : m.released = none → lift.command = 0 → l = 0 := fun e z => hl ▸ frameCommand_zero z (by rw [e]; decide)
  obtain ⟨e1, e2, e3⟩ := m.noteZero_same p l
  have ex : p = 0 ∨ l = 0 := by
    cases hx : m.released with
    | none => exact hm.exclusive.imp (hz hx) (hy hx)
    | some x => cases x with
      | press => exact .inr (hrp hx)
      | lift => exact .inl (hrl hx)
  refine ⟨ex, fun x hx => ?_, fun i hi => ?_, fun i n hi hn => ?_⟩
  · simp only [e1] at *
    rw [e2] at hx
    exact ⟨(hm.releasedIntent x hx).1, by cases x; exact hrp hx; exact hrl hx⟩
  · simp only [e1, e2]
    rcases e3 with e | ⟨e, _, e'⟩ | ⟨e, _, e'⟩
    · exact hm.waitIntent i (e ▸ hi)
    · simp only [e', Option.some.injEq] at hi; subst hi; exact hm.waitIntent ⟨.press, none⟩ e
    · simp only [e', Option.some.injEq] at hi; subst hi; exact hm.waitIntent ⟨.lift, none⟩ e
  · rcases e3 with e | ⟨e, z, e'⟩ | ⟨e, z, e'⟩
    · have hi' : m.interval = some i := e ▸ hi
      have r := (hm.waitIntent i hi').2
      have := hm.zeroFrame i n hi' hn
      cases hs : i.side <;> rw [hs] at this <;> simp only at this ⊢
      · exact hy r this
      · exact hz r this
    · simp only [e', Option.some.injEq] at hi; subst hi; exact z
    · simp only [e', Option.some.injEq] at hi; subst hi; exact z

theorem State.frame_interlocked {s : State} {k : Ring} (h : s.interlocked k) :
    ({ s with valve := s.valve.frame s.points s.release.level } : State).interlocked k := by
  have := ringFrame_interlocked h s.points s.release.level
  obtain ⟨_, hp⟩ := s.valve.frame_chan s.points s.release.level k .press
  obtain ⟨_, hl⟩ := s.valve.frame_chan s.points s.release.level k .lift
  show Interlocked ((s.valve.frame s.points s.release.level).rings.get k) (Chan.command _) (Chan.command _)
  rw [Valve.frame_ring, hp, hl]; exact this

end Sys2Proof.Machine
end

