-- ==== Sys2Proof/Laws/Modes.lean ====
section
/-! SUPPORT. A change of mode, in the order its parts are made, and what it keeps. -/

namespace Sys2Proof.Machine

/-! ### A change of mode (R128, R129, R178) -/

/-- A ring out of SETUP takes its state by geometry, below the levels that hold it. -/
theorem State.ringFromSetup_works {s : State} (k : Ring) (hm : s.control.mode ≠ .setup)
    (h : s.ringState k = .idle → s.release.level ≠ .immediate ∧ s.release.level ≠ .estop) :
    Works s (s.ringFromSetup k) := by
  unfold State.ringFromSetup; split
  · next e => exact s.takeGeometry_works k (State.allows_all hm (h e))
  · exact .refl s

theorem State.ringToSetup_works {s : State} (k : Ring)
    (h : s.ringState k ≠ .held → s.release.level ≠ .immediate ∧ s.release.level ≠ .estop) :
    Works s (s.ringToSetup k) := by
  unfold State.ringToSetup; split
  · exact .refl s
  · next e =>
    exact s.goOpen_works k _ _ ⟨fun _ => .inl rfl, fun x => x.elim (absurd · (h e).1) (absurd · (h e).2)⟩ rfl rfl

theorem State.ringRight.low {s : State} {k : Ring} (h : s.ringRight k) (n : s.ringState k ≠ .held) :
    s.release.level ≠ .immediate ∧ s.release.level ≠ .estop :=
  ⟨fun e => n (h.allowed.2 (.inl e)), fun e => n (h.allowed.2 (.inr e))⟩

theorem State.goOpen_other (s : State) (k j : Ring) (st : RingState) (a : Option Nat) (h : j ≠ k) :
    (s.goOpen k st a).ring.get j = s.ring.get j := by
  rw [State.goOpen_ring, PerRing.get_modify, if_neg h]

theorem State.goPress_ring (s : State) (k : Ring) (st : RingState) (key : Nat) :
    (s.goPress k st key).ring = s.ring.modify k fun _ => ⟨st, some key, none, false, false⟩ := by
  unfold State.goPress; simp only
  split
  · rw [State.markEvent_ring, State.evalPress_ring]; rfl
  · rw [State.evalPress_ring]; rfl

theorem State.takeGeometry_other (s : State) (k j : Ring) (h : j ≠ k) :
    (s.takeGeometry k).ring.get j = s.ring.get j := by
  unfold State.takeGeometry; split
  · rw [State.goPress_ring, PerRing.get_modify, if_neg h]
  · unfold State.goWaiting; split <;> exact s.goOpen_other _ _ _ _ h

theorem State.ringToSetup_other (s : State) (k j : Ring) (h : j ≠ k) :
    (s.ringToSetup k).ring.get j = s.ring.get j := by
  unfold State.ringToSetup; split
  · rfl
  · exact s.goOpen_other _ _ _ _ h

theorem State.ringToSetup_right {s : State} {k : Ring} (hn : (s.ring.get k).right)
    (h : s.ringState k ≠ .held → s.release.level ≠ .immediate ∧ s.release.level ≠ .estop) :
    (s.ringToSetup k).ringRight k := by
  unfold State.ringToSetup; split
  · next e => exact ⟨by rw [e]; exact s.allows_held, hn⟩
  · next e =>
    exact s.goOpen_right k _ _ ⟨fun _ => .inl rfl, fun x => x.elim (absurd · (h e).1) (absurd · (h e).2)⟩ rfl rfl

/-- The state as the mode held changes, before the owners act. -/
def State.moded (s : State) (m : Mode) : State := { s with control := { s.control with mode := m } }

theorem State.evalBoth_works (s : State) : Works s s.evalPresses.evalLifts :=
  s.evalPresses_works.trans (State.evalLifts_works _)

theorem rotor_chain (t : State) (p : Prop) [Decidable p] : Internal t (if p then t.raiseCause .rotor else t) := by
  split
  · exact t.raiseCause_internal _
  · exact .refl t

/-- The rings' part of a change of mode. -/
def State.handMode (t : State) (before m : Mode) : State :=
  if m = .setup then (t.ringToSetup .a).ringToSetup .b
  else if before = .setup then (t.ringFromSetup .a).ringFromSetup .b
  else t

theorem State.changeMode_eq (s : State) (m : Mode) :
    s.changeMode m =
      if s.control.mode = .setup ∧ ((s.moded m).handMode s.control.mode m).evalPresses.evalLifts.rotorStopped then
        ((s.moded m).handMode s.control.mode m).evalPresses.evalLifts.raiseCause .rotor
      else ((s.moded m).handMode s.control.mode m).evalPresses.evalLifts := rfl

/-- The rings in SETUP after the change. -/
theorem State.toSetup_chain {s : State} (hn : ∀ k, (s.ring.get k).right)
    (low : ∀ k, s.ringState k ≠ .held → s.release.level ≠ .immediate ∧ s.release.level ≠ .estop) :
    Works s ((s.ringToSetup .a).ringToSetup .b) ∧ ∀ k, ((s.ringToSetup .a).ringToSetup .b).ringRight k := by
  have wa := State.ringToSetup_works .a (low .a)
  have ra := State.ringToSetup_right (hn .a) (low .a)
  have eb : (s.ringToSetup .a).ring.get .b = s.ring.get .b := State.ringToSetup_other _ _ _ (by decide)
  have lb : (s.ringToSetup .a).ringState .b ≠ .held →
      (s.ringToSetup .a).release.level ≠ .immediate ∧ (s.ringToSetup .a).release.level ≠ .estop := by
    intro n; rw [wa.release]; exact low .b (by unfold State.ringState at n ⊢; rw [eb] at n; exact n)
  have wb := State.ringToSetup_works .b lb
  refine ⟨wa.trans wb, fun k => ?_⟩
  cases k
  · exact wb.ringRight ra
  · exact State.ringToSetup_right (by rw [eb]; exact hn .b) lb

/-- The rings out of SETUP after the change. -/
theorem State.fromSetup_chain {s : State} (hm : s.control.mode ≠ .setup) (h : ∀ k, s.ringRight k) :
    Works s ((s.ringFromSetup .a).ringFromSetup .b) := by
  have wa := State.ringFromSetup_works .a hm fun e => (h .a).low (by rw [e]; decide)
  refine Works.andThen h wa fun h => State.ringFromSetup_works .b ?_ fun e => (h .b).low (by rw [e]; decide)
  rw [wa.sameOuter.control]; exact hm

theorem State.handMode_chain {s : State} (h : ∀ k, s.ringRight k) (m : Mode) :
    Works (s.moded m) ((s.moded m).handMode s.control.mode m) ∧
      ∀ k, ((s.moded m).handMode s.control.mode m).ringRight k := by
  unfold State.handMode
  split
  · exact State.toSetup_chain (fun k => (h k).named) fun k => (h k).low
  · next hm =>
    have h' : ∀ k, (s.moded m).ringRight k := fun k => ⟨⟨fun e => absurd e hm, (h k).allowed.2⟩, (h k).named⟩
    split
    · have w := State.fromSetup_chain hm h'
      exact ⟨w, fun k => w.ringRight (h' k)⟩
    · exact ⟨.refl _, h'⟩

/-- A change of mode is the mode changed and then a chain, at whose end the rings have their places. -/
theorem State.changeMode_chain {s : State} (h : ∀ k, s.ringRight k) (m : Mode) :
    Internal (s.moded m) (s.changeMode m) ∧ ∀ k, (s.changeMode m).ringRight k := by
  obtain ⟨w, r⟩ := State.handMode_chain h m
  rw [State.changeMode_eq]
  have e := rotor_chain ((s.moded m).handMode s.control.mode m).evalPresses.evalLifts
    (s.control.mode = .setup ∧ ((s.moded m).handMode s.control.mode m).evalPresses.evalLifts.rotorStopped)
  exact ⟨.trans (.works (w.trans (State.evalBoth_works _))) e,
    e.ringRight fun k => (State.evalBoth_works _).ringRight (r k)⟩

end Sys2Proof.Machine
end

