-- ==== Sys2Proof/Tests/Slice0.lean ====
section
/-! SUPPORT. Tests on figures the manual gives, and for each statement a state and operands that meet its premises. -/

namespace Sys2Proof.Tests

set_option Elab.async false

open Sys2Proof Sys2Proof.Machine

/-! ### Well-formedness and the table's bits -/

/-- The check of WellFormed.lean refuses a payload of 241 bytes and takes one of 240 (R191). -/
theorem test_wellFormed_payload :
    (Instr.telegramReceived .panel 0x01 (List.replicate 241 0)).wellFormed = false ∧
      (Instr.telegramReceived .panel 0x01 (List.replicate 240 0)).wellFormed = true := by decide +kernel

/-- The table gives no row any bits. -/
theorem test_no_word_spells_a_command : decodeTableWord 8 1 = none ∧ State.reset.withFetchWord 8 1 = State.reset := by
  decide +kernel

/-! ### Figures of the manual -/

/-- R192: the nine characters 1 to 9 give 0x29B1. -/
theorem test_crc_check_value : crc16 [0x31, 0x32, 0x33, 0x34, 0x35, 0x36, 0x37, 0x38, 0x39] = 0x29B1 := by decide +kernel

/-- 11: a STATUS request is the five bytes A5 00 01 0D 2E. -/
theorem test_status_frame : frameBytes 0x01 [] = [0xA5, 0x00, 0x01, 0x0D, 0x2E] := by decide +kernel

/-- 11, worked figures: 580 kPa with echo enabled, and 0 kPa with echo enabled and disabled. -/
theorem test_valve_words : valveWord 1160 true = 0x9114 ∧ valveWord 0 true = 0x001E ∧ valveWord 0 false = 0x000F := by
  decide +kernel

/-- 11, worked figures: an echo of measured code 1148 with the fault bit clear. -/
theorem test_valve_echo : echoCode 0x8F80 = 1148 ∧ echoFault 0x8F80 = false ∧ echoGood 0x8F80 = true := by decide +kernel

/-- 11: ESTOP, ROTOR, LINE_REQ and PANEL_REQ present read as 387 at point 85. -/
theorem test_causes_point :
    ({ Causes.empty with estop := true, rotor := true, lineReq := some .atGap, panelReq := some .atGap } : Causes).bits =
      387 := by decide +kernel

/-- The spruce record of the worked cases of chapter 05. -/
def spruce : Species :=
  { factoryFallback with
    code := 12
    baseCurve := [⟨150, 220⟩, ⟨300, 320⟩, ⟨500, 420⟩, ⟨700, 480⟩]
    frostPct := 130, speedGain := 60, entryPct := 70, shareA := 110, shareB := 80, maxPress := 580 }

/-- 05, case 1: a frozen spruce in BODY. -/
theorem test_press_case1 :
    pressRun factoryPoints ⟨spruce, none, true⟩ .a .body 380 1200 = (580, [.clampHigh]) ∧
      pressRun factoryPoints ⟨spruce, none, true⟩ .b .body 380 1200 = (432, []) := by decide +kernel

/-- 05, case 2: rounding through every stage. -/
theorem test_press_case2 : pressRun factoryPoints ⟨spruce, none, true⟩ .a .entry 233 1150 = (329, []) := by decide +kernel

/-- 05, case 3: the fallback merge. -/
theorem test_press_case3 :
    pressRun factoryPoints ⟨spruce, some factoryFallback, true⟩ .a .body 380 1200 = (292, [.uncertainMerge]) ∧
      pressRun factoryPoints ⟨spruce, some factoryFallback, true⟩ .b .body 380 1200 = (234, [.uncertainMerge]) := by
  decide +kernel

/-- 05, case 4: a falling frozen curve. -/
theorem test_press_case4 :
    pressRun factoryPoints
      ⟨{ spruce with frozenCurve := some [⟨200, 380⟩, ⟨600, 330⟩, ⟨800, 340⟩], frostPct := 250, speedGain := 0
                     shareA := 100, maxPress := 600 }, none, true⟩ .a .body 220 900 = (377, []) := by decide +kernel

/-- 05, case 5: a zero share and a floor above the limit. -/
theorem test_press_case5 :
    pressRun { factoryPoints with floor := 200 } ⟨{ spruce with shareB := 0, maxPress := 150 }, none, true⟩ .b .body 380 0 =
      (150, [.clampLow]) := by decide +kernel

/-- 01, worked figures of R2: the first two forward counts and a reverse one at 400 counts a metre. -/
theorem test_coarse_scale_counts :
    let at_ := fun residue => ({ State.reset with
      points := { factoryPoints with scale := 400 }, feed := { State.reset.feed with residue := residue } } : State)
    (((at_ 0).acceptEnc (true, false)).1.feed.residue, ((at_ 0).acceptEnc (true, false)).2) = (200, 2, true) ∧
      (((at_ 200).acceptEnc (true, false)).1.feed.residue, ((at_ 200).acceptEnc (true, false)).2) = (0, 3, true) ∧
      (((at_ 0).acceptEnc (false, true)).1.feed.residue, ((at_ 0).acceptEnc (false, true)).2) = (200, 3, false) := by
  decide +kernel

/-- State.reset is what a power-on of a part never saved leaves. -/
theorem test_reset_is_power_on : exec (.powerOn resetLines) State.reset = .next State.reset := by rfl

/-- R10, R31, R114: a log admitted past ring B's plane with an entry length of 0 takes the plane first and then the entry
end at the same place, so ring B stands in BODY. -/
theorem test_entry_end_follows_the_plane :
    let before : State := { State.reset with
      control := { State.reset.control with mode := .run }
      cells := { State.reset.cells with entry := ⟨true, none, none⟩ }
      recipes := { State.reset.recipes with active := [some { factoryFallback with entryLen := 0 }] } }
    let now : State := { before with track := [{
      key := 0, scanId := 1, origin := .scanned, species := 0, source := .scanner, confidence := 100, surfaceTemp := none
      orientation := .topLeading, length := some 1000, b0 := posAdd 0 (-5900), samples := [300, 300, 300, 300, 300]
      bound := none, realign := .notChecked, flags := [], peakA := 0, peakB := 0 }] }
    (now.afterMove before).ringState .b = .body ∧ (now.afterMove before).ringState .a = .idle := by decide +kernel

/-- R137, R140, R143: DEAD_INTERVAL_EXPIRY releases ring A's lift channel and sends nothing; the next frame moves the command by
the target and the step held then. -/
theorem test_expiry_moves_nothing_before_the_frame :
    let s : State := (State.reset.onChan .aLift fun c => { c with target := 15 }).onInterlock .a fun il =>
      { il with released := none, interval := some ⟨.lift, some 5⟩, hold := false }
    let t := s.after [.deadIntervalExpiry .a]
    let u : State := t.onChan .aLift fun c => { c with target := 5 };
    (t.valve.rings.get .a).released = some .lift ∧ (t.valve.chans.get .aLift).command = 0 ∧
      ((u.after [.valveFrame]).valve.chans.get .aLift).command = 5 := by decide +kernel

/-! ### States and requests the witnesses are built from -/

/-- A request of a kind with a payload, arrived at position 0. -/
def ask (k : Kind) (payload : List Byte) : Req := ⟨byte k.code, payload, 0⟩

/-- A state with one request waiting on a port. -/
def asking (s : State) (p : Port) (k : Kind) (payload : List Byte) : State :=
  s.onPort p fun q => { q with queue := [ask k payload] }

theorem asking_takes {s : State} {p : Port} {k : Kind} {payload : List Byte}
    (h : (asking s p k payload).saving p = false ∧ Kind.ofByte (byte k.code) = some k ∧
      refusal (asking s p k payload) p k payload = none) :
    (asking s p k payload).takes p k (ask k payload) [] :=
  ⟨⟨by cases p <;> rfl, h.1⟩, h.2⟩

/-- Reset, with the key at ENGINEER. -/
def eng : State := { State.reset with key := .engineer }

/-- Reset in a mode, with the key at ENGINEER. -/
def inMode (m : Mode) : State := { eng with control := { eng.control with mode := m } }

/-- Reset with a SAVE in flight. -/
def inFlight : State := { State.reset with store := { State.reset.store with snapshot := some factoryImage } }

/-- A log record at a place, scanned, unbound. -/
def log (key scanId : Nat) (b0 : Pos) : Rec where
  key := key
  scanId := scanId
  origin := .scanned
  species := 0
  source := .scanner
  confidence := 100
  surfaceTemp := none
  orientation := .topLeading
  length := some 1000
  b0 := b0
  samples := [300, 300, 300, 300, 300]
  bound := none
  realign := .notChecked
  flags := []
  peakA := 0
  peakB := 0

/-- Twelve logs, one behind another. -/
def fullTrack : List Rec := (List.range 12).map fun i => log i (i + 1) (posAdd 0 (1000 * (i : Int) - 13000))

/-- A state with logs on the track. -/
def State.withTrack (s : State) (l : List Rec) : State := { s with track := l, nextKey := 100 }

/-- A ring's sequencer in a pressing state, serving a record. -/
def serving (st : RingState) (key : Nat) : Sequencer := ⟨st, some key, none, false, false⟩

/-- Reset in RUN, with both rings in a state. -/
def running (q : Sequencer) : State := { inMode .run with ring := ⟨q, q⟩ }

theorem rings_right {s : State} (h : s.ring = State.reset.ring) (g : s.release.level = .none) (k : Ring) :
    s.ringRight k := by
  have e : s.ring.get k = resetSequencer := by rw [h]; cases k <;> rfl
  refine ⟨⟨fun _ => .inl ?_, fun i => ?_⟩, ?_⟩
  · show (s.ring.get k).state = _
    rw [e]; rfl
  · rw [g] at i; simp at i
  · rw [e]; exact ⟨rfl, rfl⟩

/-! ### The queue of commands, the starts -/

theorem witness_EveryCommandAnswers : ∀ k, State.reset.ringRight k := rings_right rfl rfl

theorem witness_PowerOnLeavesStartValues :
    { State.reset.store with image := some factoryImage, closed := true : Store }.valid? = some factoryImage ∧
      State.reset.store.valid? = none := by decide +kernel

theorem witness_RestartKeepsSettings : (asking eng .panel .restart []).takes .panel .restart (ask .restart []) [] :=
  asking_takes (by decide +kernel)

/-- While a SAVE is in flight: at OPERATOR the RESTART is refused, at ENGINEER it is taken. -/
theorem witness_RestartKeepsSettings_on_arrival :
    inFlight.saving .panel = true ∧ refusal inFlight .panel .restart [] = some .access ∧
      ({ inFlight with key := .engineer } : State).saving .panel = true ∧
      refusal { inFlight with key := .engineer } .panel .restart [] = none ∧ inFlight.store.closed = false := by
  decide +kernel

/-! ### What every step keeps -/

/-- Reset with a command waiting. -/
def waiting : State := { State.reset with pending := [.estopInputChange true] }

theorem waiting_interlocked : ∀ k, waiting.interlocked k
  | .a => ⟨.inl rfl, fun _ h => by cases h; exact ⟨rfl, rfl⟩, (fun _ h => by cases h), fun _ _ h => by cases h⟩
  | .b => ⟨.inl rfl, fun _ h => by cases h; exact ⟨rfl, rfl⟩, (fun _ h => by cases h), fun _ _ h => by cases h⟩

/-- One state that meets every premise of the statements of a step. -/
theorem witness_step_invariants :
    (∀ k, waiting.ringRight k ∧ waiting.interlocked k) ∧ waiting.levelRight ∧ waiting.permitRight ∧ waiting.underCeiling ∧
      waiting.bounded ∧ waiting.feed.frontNear ∧ waiting.residueRight ∧ (∀ k, waiting.rests k) ∧
      ∃ t : State, step waiting = .next t ∧ t.release.level = .estop ∧ t.control.mode = .setup :=
  ⟨fun k => ⟨rings_right (s := waiting) rfl rfl k, waiting_interlocked k⟩, rfl, rfl, fun c => by cases c <;> decide,
    ⟨Nat.zero_le _, fun p => by cases p <;> decide⟩, ⟨by decide, by decide⟩, by unfold State.residueRight; decide,
    fun k => by cases k <;> exact ⟨fun _ => (by decide), fun h => (by cases h)⟩, _, rfl, rfl, rfl⟩

/-- A full track whose records are told apart. -/
theorem witness_TrackAndQueuesStayBounded_names :
    let s : State := { State.withTrack State.reset fullTrack with pending := [.estopInputChange true] }
    (∀ k, s.ringRight k) ∧ s.named ∧ s.track[0]? = some (log 0 1 (posAdd 0 (-13000))) ∧
      s.track[11]? = some (log 11 12 (posAdd 0 (-2000))) ∧ ∃ t : State, step s = .next t ∧ t.track.length = 12 :=
  ⟨rings_right (s := { State.withTrack State.reset fullTrack with pending := [.estopInputChange true] }) rfl rfl,
    ⟨by decide +kernel, by decide +kernel, by decide +kernel⟩, by decide +kernel, by decide +kernel, _, rfl, rfl⟩

/-- At AT_GAP in RUN, ring A pressing and ring B HELD: the level's rule holds, and its premises are met. -/
theorem witness_RingsKeepAllowedStates_at_gap :
    let s : State := { inMode .run with
      release := { State.reset.release with causes := { Causes.empty with trackLost := true }, level := .atGap }
      ring := ⟨serving .body 0, ⟨.held, none, none, false, false⟩⟩ }
    (∀ k, s.ringRight k) ∧ (∀ k, s.rests k) ∧ s.control.mode ≠ .setup ∧ s.release.level = .atGap := by
  intro s
  refine ⟨fun k => ?_, fun k => ?_, by decide, rfl⟩
  · cases k <;> exact ⟨⟨fun h => (by cases h), fun h => (by revert h; decide)⟩, ⟨rfl, rfl⟩⟩
  · cases k <;> exact ⟨fun h => (by cases h), fun _ _ => (by decide)⟩

/-! ### The feed -/

/-- A forward count, a reverse count and a change of both lines, at the ends of the residue's range. -/
theorem witness_EncoderCountsConvertToSteps :
    let s : State := { State.reset with feed := { State.reset.feed with residue := 9999 } }
    0 < s.points.scale ∧ s.residueRight ∧ State.reset.residueRight ∧
      (true, false) = nextEnc s.feed.enc ∧ State.reset.feed.enc = nextEnc (false, true) ∧
      (true, true) ≠ nextEnc s.feed.enc ∧ s.feed.enc ≠ nextEnc (true, true) :=
  ⟨by decide, by unfold State.residueRight; decide, by unfold State.residueRight; decide, by decide, by decide, by decide,
    by decide⟩

/-- A feed at each end of the front's range, in each direction. -/
theorem witness_EncoderCountsConvertToSteps_feed :
    let f (dir : Dir) (front : Pos) : Feed := { State.reset.feed with dir := dir, front := front }
    ((f .fwd 0).frontNear ∧ (f .fwd 3).frontNear ∧ (f .fwd 4).frontNear) ∧
      posDiff (f .fwd 3).front (f .fwd 3).pos < 4 ∧ posDiff (f .fwd 4).front (f .fwd 4).pos = 4 ∧
      ((f .rev 0).frontNear ∧ (f .rev (-3)).frontNear ∧ (f .rev (-4)).frontNear) ∧
      posDiff (f .rev (-3)).pos (f .rev (-3)).front < 4 ∧ posDiff (f .rev (-4)).pos (f .rev (-4)).front = 4 := by
  unfold Feed.frontNear; decide

/-- Both rings pressing a record of the track as the speed is measured. -/
theorem witness_SpeedUpdateMeasuresTheFeed :
    let s : State := { State.withTrack (inMode .run) [log 0 1 0] with ring := ⟨serving .body 0, serving .entry 0⟩ };
    ∀ k, s.servedRec k = some (log 0 1 0) ∧ (s.ringState k).pressing = true := by
  intro s k; cases k <;> decide

/-- A log crosses ring A's plane going forward, and its leading end comes back out in reverse. -/
theorem witness_CrossingsFallInFeedOrder :
    let s (front : Pos) (dir : Dir) : State :=
      { State.withTrack State.reset [log 0 1 0] with feed := { State.reset.feed with front := front, dir := dir } }
    crossings (s 4199 .fwd) (s 4200 .fwd) = [⟨0, .plane .a, 0⟩] ∧
      crossings (s 4200 .rev) (s 4199 .rev) = [⟨0, .backOut .a, 1⟩] ∧
      ((s 4200 .fwd).track.map Rec.key).Nodup := by decide +kernel

/-- Two events of two logs at one position: the more downstream log's first going forward, last in reverse. -/
theorem witness_CrossingsFallInFeedOrder_ties :
    let s (front : Pos) (dir : Dir) : State :=
      { State.withTrack State.reset [log 0 1 0, log 1 2 (posAdd 0 (-1600))] with
        feed := { State.reset.feed with front := front, dir := dir } };
    ((s 4199 .fwd).track.map Rec.key).Nodup ∧
      crossings (s 4199 .fwd) (s 4200 .fwd) = [⟨0, .plane .a, 0⟩, ⟨1, .plane .b, 0⟩] ∧
      crossings (s 4200 .rev) (s 4199 .rev) = [⟨1, .backOut .b, 1⟩, ⟨0, .backOut .a, 1⟩] := by decide +kernel

/-! ### The track -/

/-- Two logs that overlap by 1 mm, and two that touch. -/
theorem witness_OverlapsAreClampedUpstream :
    (clampSpans factoryPoints 0 [log 0 1 0, log 1 2 999])[1]? =
        some { log 1 2 1000 with flags := [.overlapClamped] } ∧
      posDiff (log 1 2 999).b0 (spanEnd factoryPoints 0 (log 0 1 0)) < 0 ∧
      0 ≤ posDiff (log 1 2 1000).b0 (spanEnd factoryPoints 0 (log 0 1 0)) := by decide +kernel

/-- An open stray with a log ahead of it and one behind; its span's end at the cell, and one that the cell has not left. -/
theorem witness_OverlapsAreClampedUpstream_push :
    let stray : Rec := { log 1 0 (-1000) with length := none }
    let cell : Pos := posAdd 0 (-((factoryPoints.dA : Int) - factoryPoints.cA));
    (∀ x ∈ [log 0 1 0], x.length ≠ none) ∧ stray.length = none ∧
      (1 ≤ posDiff cell (posAdd cell (-1)) ∧ ¬1 ≤ posDiff cell cell) ∧
      pushBehindStray factoryPoints 0 [log 0 1 0, { stray with b0 := posAdd cell (-200) }, log 2 2 (posAdd cell (-1))] =
        [log 0 1 0, { stray with b0 := posAdd cell (-200) }, { log 2 2 cell with flags := [.overlapClamped] }] := by
  decide +kernel

/-- A list one short, one over, and just as long; the shortest and the longest log. -/
theorem witness_SamplesAreFittedToTheLength :
    [300, 300, 300, 300].length < sampleCount 1000 ∧ sampleCount 1000 < [300, 300, 300, 300, 300, 300].length ∧
      [300, 300, 300, 300, 300].length = sampleCount 1000 ∧ sampleCount 12000 = 60 := by decide

/-- A PROFILE's payload: five samples of 300 mm, no surface temperature. -/
def profile (scanId species confidence orientation length : Nat) (samples : List Nat) : List Byte :=
  bytes16 scanId ++ [byte species, byte confidence, byte orientation, 0, 0] ++ bytes16 length ++
    byte samples.length :: samples.flatMap bytes16

/-- A profile that every check of R20 passes. -/
def goodProfile : List Byte := profile 1 0 100 0 1000 [300, 300, 300, 300, 300]

/-- Profiles each check of R20 refuses, at the bounds. -/
theorem witness_ProfileIsRefused :
    (∀ payload ∈ [profile 0 0 100 0 1000 [300], profile 1 251 100 0 1000 [300], profile 1 0 100 2 1000 [300],
        profile 1 0 100 0 999 [300], profile 1 0 100 0 12001 [300], profile 1 0 100 0 1000 []],
      (asking State.reset .scanner .profile payload).takes .scanner .profile (ask .profile payload) []) ∧
    (readProfile (profile 0 0 100 0 1000 [300])).scanId = 0 ∧ (readProfile (profile 1 251 100 0 1000 [300])).species = 251 ∧
      (readProfile (profile 1 0 100 2 1000 [300])).orientation = 2 ∧
      (readProfile (profile 1 0 100 0 999 [300])).length = 999 ∧
      (readProfile (profile 1 0 100 0 12001 [300])).length = 12001 ∧
      (readProfile (profile 1 0 100 0 1000 [])).samples = [] :=
  ⟨by
    intro x h
    apply asking_takes
    revert x
    decide +kernel, by decide +kernel⟩

/-- A twin on the track, and a full track. -/
theorem witness_ProfileIsRefused_by_the_track :
    let s := asking (State.withTrack State.reset [log 0 1 5000]) .scanner .profile goodProfile
    let payload := profile 13 0 100 0 1000 [300]
    let u := asking (State.withTrack State.reset fullTrack) .scanner .profile payload
    (s.takes .scanner .profile (ask .profile goodProfile) [] ∧ (∃ x ∈ s.track, x.scanId = (readProfile goodProfile).scanId)) ∧
      u.takes .scanner .profile (ask .profile payload) [] ∧
      ¬(∃ x ∈ u.track, x.scanId = (readProfile payload).scanId) ∧ 12 ≤ u.track.length ∧
      u.adopter (readProfile payload) 0 = none :=
  ⟨⟨asking_takes (by decide +kernel), by decide +kernel⟩, asking_takes (by decide +kernel), by decide +kernel,
    by decide +kernel, by decide +kernel⟩

/-- A profile that is admitted, of a log of the shortest and one of the longest length. -/
theorem witness_ProfileIsAdmitted :
    ∀ length ∈ [1000, 12000], let payload := profile 1 250 100 0 length [300]
      let s := asking State.reset .scanner .profile payload
      let d := readProfile payload
      s.takes .scanner .profile (ask .profile payload) [] ∧ Orientation.ofCode d.orientation = some .buttLeading ∧
        1 ≤ d.scanId ∧ d.species ≤ 250 ∧ d.length = length ∧ d.samples ≠ [] ∧ s.track.length < 12 ∧
        s.adopter d 0 = none := by
  intro length h payload s d
  refine ⟨asking_takes ?_, ?_⟩
  · revert length; decide +kernel
  · revert length; decide +kernel

/-- An open stray where the profile's span falls, which adopts it. -/
theorem witness_ProfileIsAdopted :
    let stray : Rec :=
      { log 0 0 (posAdd 0 (-1060)) with origin := .stray, source := .fallbackStray, length := none, samples := [] }
    let s := asking (State.withTrack State.reset [stray]) .scanner .profile goodProfile
    let d := readProfile goodProfile
    s.takes .scanner .profile (ask .profile goodProfile) [] ∧ (∀ z ∈ s.track, z.scanId ≠ d.scanId) ∧
      s.track.find? (fun z => decide (z.origin = .stray) && overlapsSpan s (posAdd (ask .profile goodProfile).arrival
        (-((s.points.latencyComp : Int) + d.length))) d.length z) = some stray ∧
      stray.bound = none ∧ stray.source = .fallbackStray ∧ ({ stray with source := .line } : Rec).source ≠ .fallbackStray :=
  ⟨asking_takes (by decide +kernel), by decide +kernel⟩

/-- A closed stray that adopts the profile, ring A ARMED for it. -/
theorem witness_ProfileIsAdopted_closed :
    let stray : Rec := { log 0 0 (posAdd 0 (-1060)) with origin := .stray, source := .fallbackStray, samples := [] }
    let s := asking { State.withTrack (inMode .run) [stray] with ring := ⟨⟨.armed, none, some 0, false, false⟩, resetSequencer⟩ }
      .scanner .profile goodProfile;
    s.takes .scanner .profile (ask .profile goodProfile) [] ∧ stray.length ≠ none ∧ (s.ring.get .a).armedFor = some 0 ∧
      s.track.find? (fun z => decide (z.origin = .stray) && overlapsSpan s (posAdd 0
        (-((s.points.latencyComp : Int) + (readProfile goodProfile).length))) (readProfile goodProfile).length z) = some stray :=
  ⟨asking_takes (by decide +kernel), by decide +kernel⟩

/-- SPECIES_SET of scan_id 1 and code 0: no such record, a bound one, a code no slot holds, an unbound one. -/
theorem witness_SpeciesSet :
    let s (l : List Rec) (code : Nat) := asking (State.withTrack State.reset l) .line .speciesSet (bytes16 1 ++ [byte code])
    let bound : Rec := { log 0 1 0 with bound := some ⟨spruce, none, true⟩ }
    (∀ l ∈ [[], [bound], [log 0 1 0]], ∀ code ∈ [0, 250],
      (s l code).takes .line .speciesSet (ask .speciesSet (bytes16 1 ++ [byte code])) []) ∧
    (s [bound] 0).track.find? (fun y => decide (y.scanId = 1)) = some bound ∧
    (s [log 0 1 0] 0).track.find? (fun y => decide (y.scanId = 1)) = some (log 0 1 0) ∧
    (s [] 0).recipes.active.lookup 0 ≠ none ∧ (s [] 0).recipes.active.lookup 250 = none := by
  refine ⟨fun l hl code hc => asking_takes ?_, by decide +kernel⟩
  revert l code; decide +kernel

/-- SPECIES_FORCE in RUN and in MANUAL: a code no slot holds, no unbound record, an unbound one, and a bound one that
covers ring A's plane in MANUAL. -/
theorem witness_SpeciesForce :
    let bound : Rec := { log 0 1 (posAdd 0 (-4200)) with bound := some ⟨spruce, none, true⟩ }
    let s (m : Mode) (l : List Rec) (code : Nat) := asking (State.withTrack (inMode m) l) .panel .speciesForce [byte code]
    (∀ m ∈ [Mode.run, .manual], ∀ l ∈ [[bound], [log 0 1 0]], ∀ code ∈ [0, 250],
      (s m l code).takes .panel .speciesForce (ask .speciesForce [byte code]) []) ∧
    (s .run [bound] 0).recipes.active.lookup 250 = none ∧ (s .run [bound] 0).recipes.active.lookup 0 ≠ none ∧
    (s .manual [bound] 0).track.find? (covers (s .manual [bound] 0) .a) = some bound ∧
    (s .manual [log 0 1 0] 0).track.find? (covers (s .manual [log 0 1 0] 0) .a) = none ∧
    (∀ x ∈ (s .run [bound] 0).track, x.bound ≠ none) ∧ (s .run [log 0 1 0] 0).firstUnbound = some (log 0 1 0) := by
  refine ⟨fun m hm l hl code hc => asking_takes ?_, by decide +kernel⟩
  revert m l code; decide +kernel

/-- A code a slot holds with a confidence below the threshold, and a code no slot holds. -/
theorem witness_BindingCopiesTheRecipe :
    factoryTable.lookup 0 = some factoryFallback ∧ factoryTable.lookup 1 = none ∧
      Table.lookup (some spruce :: List.replicate 23 none) 12 = some spruce ∧ 69 < factoryPoints.confidenceThreshold := by
  decide +kernel

/-- A leading end at ring A's plane of an unbound record, which brings its entry end, and of a bound one; another event. -/
theorem witness_BindingCopiesTheRecipe_at_the_plane :
    let r := log 0 1 (posAdd 0 (-4600))
    let b : Rec := { r with bound := some ⟨spruce, none, true⟩ };
    (State.withTrack (inMode .run) [r]).rec? 0 = some r ∧ r.bound = none ∧
      ((State.withTrack (inMode .run) [r]).takeEvent ⟨0, .plane .a, -400⟩).2 = [⟨0, .entryEnd .a, 0⟩] ∧
      (State.withTrack (inMode .run) [b]).rec? 0 = some b ∧ b.bound ≠ none ∧ EventId.plane .b ≠ .plane .a := by
  decide +kernel

/-- A track with nothing over a plane or unbound, and one with a first unbound record. -/
theorem witness_AdvisedLimitIsTheLeastValue :
    State.reset.advisedRecords = [] ∧ (State.withTrack State.reset [log 0 1 0]).advisedRecords = [log 0 1 0] ∧
      State.reset.advisedLimit = State.reset.lastAdvise ∧
      (let s : State := { State.reset with lastAdvise := 900 }; s.advisedLimit ≠ s.lastAdvise) := by
  decide +kernel

/-! ### The cells -/

/-- Reset with one cell in a state. -/
def cell (c : Cell) (q : CellState) (s : State) : State := s.onCell c fun _ => q

theorem witness_CellLevelsAreFilteredToEdges :
    Lines.cellBlocked State.reset.lines .entry ≠ true ∧ true ≠ (State.reset.cells.get .entry).blocked ∧
      (let s : State := { State.reset with lines := { resetLines with entryBlocked := true } };
        Lines.cellBlocked s.lines .entry ≠ false ∧ false = (s.cells.get .entry).blocked ∧
          (s.cells.get .entry).waiting = none) ∧
      (State.reset.cells.get .exit).candidate = none ∧
      ((cell .entry ⟨false, some ⟨0, .fwd⟩, none⟩ State.reset).cells.get .entry).candidate = some ⟨0, .fwd⟩ := by
  decide

/-- The edges that change no record, the last at the end of its window. -/
theorem witness_CellLevelsAreFilteredToEdges_no_record :
    let s := fun (c : Cell) (b : Bool) (d : Dir) => cell c ⟨b, some ⟨3800, d⟩, none⟩ State.reset;
    (∀ c b d, ((s c b d).cells.get c).candidate = some ⟨3800, d⟩ ∧ ((s c b d).cells.get c).waiting = none ∧
      ((s c b d).cells.get c).blocked = b ∧ (s c b d).openStray = none) ∧
    (let r : Rec := { log 0 1 0 with realign := .unconfirmed };
      r.realign ≠ .notChecked ∧
        (posDiff 3800 (posAdd r.b0 (factoryPoints.dA - factoryPoints.cA))).natAbs = factoryPoints.realignWindow) := by
  refine ⟨fun c b d => ?_, by decide⟩
  cases c <;> exact ⟨rfl, rfl, rfl, rfl⟩

/-- A leading end no record accounts for, just outside the window, with the track full and with it empty. -/
theorem witness_EdgesNoRecordAccountsFor :
    let l := (fullTrack.drop 1).map (fun r => { r with realign := .realigned }) ++
      [{ log 50 50 (posAdd 0 (-151)) with realign := .realigned }]
    let full := cell .entry ⟨false, some ⟨3950, .fwd⟩, none⟩ (State.withTrack State.reset l)
    let empty := cell .entry ⟨false, some ⟨3950, .fwd⟩, none⟩
      { State.reset with feed := { State.reset.feed with dir := .rev } }
    (full.cells.entry = ⟨false, some ⟨3950, .fwd⟩, none⟩ ∧ full.track.length = 12 ∧
      ∀ r ∈ full.track, r.realign ≠ .notChecked ∧
        full.points.realignWindow < (posDiff 3950 (posAdd r.b0 (full.points.dA - full.points.cA))).natAbs) ∧
    (∀ k, full.ringRight k) ∧ full.levelRight ∧ empty.cells.entry = ⟨false, some ⟨3950, .fwd⟩, none⟩ ∧
      (∀ k, empty.ringRight k) ∧ empty.levelRight ∧ empty.track = [] ∧ empty.feed.dir = .rev :=
  ⟨⟨rfl, by decide +kernel, by decide +kernel⟩, rings_right rfl rfl, rfl, rfl, rings_right rfl rfl, rfl, rfl, rfl⟩

/-- A tail leaving the exit cell with no candidate: with a LONG record on the track and with none. -/
theorem witness_EdgesNoRecordAccountsFor_at_the_exit :
    let r : Rec := { log 0 1 0 with flags := [.long] }
    let s := fun (l : List Rec) => cell .exit ⟨true, some ⟨7851, .fwd⟩, none⟩ (State.withTrack State.reset l);
    (∀ x ∈ [r, log 0 1 0], (s [x]).cells.exit = ⟨true, some ⟨7851, .fwd⟩, none⟩ ∧ ∀ q ∈ (s [x]).track, ∀ len ∈ q.length,
      (s [x]).points.realignWindow < (posDiff 7851
        (posAdd q.b0 (((s [x]).points.dA : Int) + (s [x]).points.dAB + (s [x]).points.dX + len))).natAbs) ∧
    (∀ x ∈ (s [log 0 1 0]).track, Flag.long ∉ x.flags) ∧
    (s [r]).track.find? (fun r => decide (Flag.long ∈ r.flags)) = some r := by decide +kernel

/-- A leading end at the end of the window of the first unchecked record, just upstream and just downstream of it; a tail leaving
the entry cell with a stray open, in each direction; a tail at the end of a record's window at the exit cell. -/
theorem witness_EdgesMoveTheRecordsTheyMatch :
    let s := fun (p : Pos) => cell .entry ⟨false, some ⟨p, .fwd⟩, none⟩ (State.withTrack State.reset [log 0 1 0])
    let fall := fun (d : Dir) => ({ cell .entry ⟨true, some ⟨5000, d⟩, none⟩ (State.withTrack State.reset
      [{ log 0 0 0 with length := none }]) with openStray := some ⟨0, 3950⟩ } : State)
    let exit := cell .exit ⟨true, some ⟨7850, .fwd⟩, none⟩
      (State.withTrack State.reset [{ log 1 2 2000 with flags := [.long] }, log 0 1 0])
    let off := fun (p : Pos) => posDiff p (posAdd (log 0 1 0).b0 ((factoryPoints.dA : Int) - factoryPoints.cA));
    (∀ p, (s p).cells.entry = ⟨false, some ⟨p, .fwd⟩, none⟩) ∧
      (∀ x ∈ (s 0).track, x.realign = .notChecked) ∧ (s 0).track.length < 12 ∧
      (s 0).track.find? (fun x => decide (x.realign = .notChecked)) = some (log 0 1 0) ∧
      (off 4100).natAbs = factoryPoints.realignWindow ∧ off 3799 < -(factoryPoints.realignWindow : Int) ∧
      (factoryPoints.realignWindow : Int) < off 4101 ∧
      (∀ d, (fall d).cells.entry = ⟨true, some ⟨5000, d⟩, none⟩ ∧ (fall d).openStray = some ⟨0, 3950⟩) ∧
      exit.cells.exit = ⟨true, some ⟨7850, .fwd⟩, none⟩ ∧
      exit.track.find? (fun r => r.length.any fun len : Nat => decide
        ((posDiff 7850 (posAdd r.b0 ((exit.points.dA : Int) + exit.points.dAB + exit.points.dX + len))).natAbs ≤
          exit.points.realignWindow)) = some (log 0 1 0) ∧
      ∀ k, exit.ringRight k :=
  ⟨fun _ => rfl, by decide, by decide, by decide, by decide, by decide, by decide, fun _ => ⟨rfl, rfl⟩, rfl, by decide +kernel,
    rings_right rfl rfl⟩

/-- An edge more than W downstream of the first unchecked record, with another unchecked record behind it and with none; no record
is checked. -/
theorem witness_EdgesMoveTheRecordsTheyMatch_past_the_window :
    let s := fun (l : List Rec) => cell .entry ⟨false, some ⟨4101, .fwd⟩, none⟩ (State.withTrack (inMode .run) l)
    let off := fun x : Rec => posDiff 4101 (posAdd x.b0 ((factoryPoints.dA : Int) - factoryPoints.cA));
    ∀ l ∈ [[log 0 1 0], [log 0 1 0, log 1 2 (-1000)]],
      (s l).cells.entry = ⟨false, some ⟨4101, .fwd⟩, none⟩ ∧ (∀ x ∈ (s l).track, x.realign = .notChecked) ∧
        (s l).track.find? (fun x => decide (x.realign = .notChecked)) = some (log 0 1 0) ∧
        ((s l).points.realignWindow : Int) < off (log 0 1 0) ∧ off (log 0 1 0) = 151 := by decide +kernel

/-- Each level of each cell with a window passing: with a candidate and without, another record waiting and the record itself;
a checked record. -/
theorem witness_PassedWindowsAreDecidedByTheCells :
    let s := fun (c : Cell) (b : Bool) (x : Option Stamp) (w : Option Nat) =>
      cell c ⟨b, x, w⟩ (State.withTrack State.reset [log 0 1 0, { log 1 2 (posAdd 0 (-1000)) with realign := .realigned }]);
    (∀ c b x w, (s c b x w).cells.get c = ⟨b, x, w⟩ ∧ (s c b x w).rec? 0 = some (log 0 1 0) ∧
      (s c b x w).openStray = none) ∧ (log 0 1 0).realign = .notChecked ∧
      (s .entry true none none).rec? 1 = some { log 1 2 (posAdd 0 (-1000)) with realign := .realigned } ∧
      (∀ k, (s .exit true (some ⟨0, .fwd⟩) (some 0)).ringRight k) ∧
      (s .exit true (some ⟨0, .fwd⟩) (some 0)).lines.exitBlocked ≠ true := by
  refine ⟨fun c b x w => ?_, rfl, by decide, rings_right rfl rfl, by decide⟩
  cases c <;> exact ⟨rfl, rfl, rfl⟩

/-- A record on the track and a key of none; a ring that serves it, one armed for it, and rings that do neither. -/
theorem witness_RemovedRecordsLeaveTheTrack :
    let s : State := { State.withTrack (inMode .run) [log 0 1 0] with
      ring := ⟨serving .body 0, ⟨.armed, none, some 0, false, false⟩⟩ };
    (∀ k, s.ringRight k) ∧ s.rec? 0 = some (log 0 1 0) ∧ s.rec? 1 = none ∧ s.control.mode ≠ .setup ∧
      (State.withTrack State.reset [log 0 1 0]).control.mode = .setup ∧
      ∀ k, ((State.withTrack State.reset [log 0 1 0]).ring.get k).served ≠ some 0 := by
  intro s
  refine ⟨fun k => ?_, by decide, by decide, by decide, rfl, fun k => by cases k <;> decide⟩
  cases k <;> exact ⟨⟨fun h => (by cases h), fun h => (by revert h; decide)⟩, ⟨rfl, rfl⟩⟩

/-! ### Recipes -/

/-- A RECIPE_WRITE's payload: a slot and a record. -/
def recipe (slot : Nat) (r : Species) : List Byte := byte slot :: speciesBytes r

/-- Reset with ring A pressing and a swap pending. -/
def pendingSwap : State := { eng with recipes := { eng.recipes with swapPending := true }, ring := ⟨serving .body 0, resetSequencer⟩ }

theorem witness_RecipeEdits_pending :
    (asking pendingSwap .panel .recipeWrite (recipe 1 spruce)).takes .panel .recipeWrite
        (ask .recipeWrite (recipe 1 spruce)) [] ∧
      (asking pendingSwap .panel .recipeDelete [1]).takes .panel .recipeDelete (ask .recipeDelete [1]) [] ∧
      (asking pendingSwap .panel .recipeDelete [1]).recipes.swapPending = true :=
  ⟨asking_takes (by decide +kernel), asking_takes (by decide +kernel), rfl⟩

/-- Writes each check of R69 refuses, at the bounds, and writes that are taken into the first and the last slots. -/
theorem witness_RecipeWrite :
    (∀ payload ∈ [recipe 24 spruce, recipe 0 spruce, recipe 1 { spruce with code := 0 }, recipe 1 { spruce with code := 251 },
        recipe 1 { spruce with name := [] }, recipe 1 { spruce with baseCurve := [⟨60, 100⟩] }, recipe 1 factoryFallback,
        recipe 0 factoryFallback, recipe 1 spruce, recipe 23 { spruce with code := 250 }],
      (asking eng .panel .recipeWrite payload).takes .panel .recipeWrite (ask .recipeWrite payload) []) ∧
    nameFits ((recipe 1 { spruce with name := [] }).drop 2 |>.take 12) = false ∧
    curvesFit (readSpecies (recipe 1 { spruce with baseCurve := [⟨60, 100⟩] }) 1) = false ∧
    eng.recipes.shadow[0]? = some (some factoryFallback) ∧
    (∀ x ∈ [(0, factoryFallback), (1, spruce), (23, { spruce with code := 250 })],
      readSpecies (recipe x.1 x.2) 1 = x.2 ∧ nameFits ((recipe x.1 x.2).drop 2 |>.take 12) = true ∧ curvesFit x.2 = true ∧
        noOtherHolds eng.recipes.shadow x.1 x.2.code = true) ∧
    eng.recipes.swapPending = false := by
  refine ⟨fun x h => asking_takes ?_, by decide +kernel⟩
  revert x; decide +kernel

theorem witness_RecipeDelete :
    ∀ slot ∈ [0, 1, 23, 24], (asking eng .panel .recipeDelete [byte slot]).takes .panel .recipeDelete
      (ask .recipeDelete [byte slot]) [] ∧ u8 [byte slot] 0 = slot := by
  intro x h
  exact ⟨asking_takes (by revert x; decide +kernel), by revert x; decide +kernel⟩

theorem witness_RecipeFiguresAreHeldWithinRange :
    clampSpecies spruce = spruce ∧ (clampSpecies { spruce with maxPress := 1001 }).maxPress = 1000 ∧ (clampSpecies { spruce with maxPress := 99 }).maxPress = 100 ∧
      spruce.maxPress ≤ 1000 ∧ 100 ≤ spruce.maxPress := by decide

/-- Reads of no table, of no slot, of an empty slot and of the fallback's slot, of either table. -/
theorem witness_RecipeReadAnswersTheSlot :
    (∀ x ∈ [(2, 0), (0, 24), (1, 23), (0, 0), (1, 0)], let payload := [byte x.1, byte x.2]
      (asking eng .panel .recipeRead payload).takes .panel .recipeRead (ask .recipeRead payload) [] ∧
        u8 payload 0 = x.1 ∧ u8 payload 1 = x.2) ∧
    eng.recipes.shadow[23]? = some none ∧ eng.recipes.active[0]? = some (some factoryFallback) := by
  refine ⟨fun x h => ⟨asking_takes ?_, ?_⟩, by decide +kernel⟩
  · revert x; decide +kernel
  · revert x; decide +kernel

theorem witness_SpeciesRecordReadsBackAsSent :
    slotSound factoryTable 0 factoryFallback = true ∧ slotSound factoryTable 23 spruce = true := by decide +kernel

theorem witness_RecipeCommitAndDiscardMoveTheTables :
    (asking pendingSwap .panel .recipeCommit []).takes .panel .recipeCommit (ask .recipeCommit []) [] ∧
      ((asking pendingSwap .panel .recipeCommit []).ringState .a).pressing = true ∧
      (asking eng .panel .recipeCommit []).takes .panel .recipeCommit (ask .recipeCommit []) [] ∧
      ((asking eng .panel .recipeCommit []).ringState .a).pressing = false ∧
      (asking pendingSwap .panel .recipeDiscard []).takes .panel .recipeDiscard (ask .recipeDiscard []) [] :=
  ⟨asking_takes (by decide +kernel), rfl, asking_takes (by decide +kernel), rfl, asking_takes (by decide +kernel)⟩

/-! ### The setpoint arithmetic -/

/-- A half is rounded away from zero, on both sides of 0. -/
theorem witness_QuotientsRoundToTheNearest :
    0 < 2 ∧ roundDiv 5 2 = 3 ∧ roundDiv (-5) 2 = -3 ∧ 2 * (roundDiv 5 2 * 2 - 5 : Int).natAbs = 2 := by decide

/-- The spruce curve at its ends, one beyond them, and in its first segment. -/
theorem witness_CurveIsReadByDiameter :
    curveFits spruce.baseCurve = true ∧ spruce.baseCurve.head? = some ⟨150, 220⟩ ∧
      spruce.baseCurve.getLast? = some ⟨700, 480⟩ ∧ spruce.baseCurve[0]? = some ⟨150, 220⟩ ∧
      spruce.baseCurve[1]? = some ⟨300, 320⟩ ∧
      [149, 150, 299, 300, 700, 701].map (fun d => (readCurve spruce.baseCurve d).1) = [220, 220, 319, 320, 480, 480] ∧
      spruce.frozenCurve = none ∧
      ({ spruce with frozenCurve := some spruce.baseCurve } : Species).frozenCurve = some spruce.baseCurve := by decide +kernel

theorem witness_StagesTwoToSixOfAPressTarget :
    RingState.entry.pressing = true ∧ RingState.tail.pressing = true ∧
      (let b : Bound := ⟨spruce, some factoryFallback, true⟩;
        b.fallback = some factoryFallback ∧
          (pass factoryFallback b.frozen .a .body 380 1200).1 < (pass b.species b.frozen .a .body 380 1200).1) ∧
      (let b : Bound := ⟨spruce, some spruce, true⟩;
        (pass b.species b.frozen .a .body 380 1200).1 ≤ (pass spruce b.frozen .a .body 380 1200).1) := by decide +kernel

/-- Stage 6 above the upper limit, within and below the lower one. -/
theorem witness_PressTargetsAreClamped :
    let m := fun (r : Species) => stageMerge ⟨r, none, true⟩ .a .body 380 1200
    min factoryPoints.ceiling (m spruce).2.1 < (m spruce).1 ∧
      (m { spruce with shareA := 0 }).1 < min factoryPoints.floor (min factoryPoints.ceiling (m { spruce with shareA := 0 }).2.1) ∧
      min factoryPoints.floor (min factoryPoints.ceiling (m { spruce with shareA := 80 }).2.1) ≤ (m { spruce with shareA := 80 }).1 ∧
      (m { spruce with shareA := 80 }).1 ≤ min factoryPoints.ceiling (m { spruce with shareA := 80 }).2.1 ∧
      20 ≤ factoryPoints.floor ∧ 100 ≤ factoryPoints.ceiling ∧ factoryPoints.ceiling ≤ 1000 ∧ 100 ≤ (m spruce).2.1 := by
  decide +kernel

/-- A ring in each open state, ARMED in RUN and in MANUAL, for a record on the track. -/
theorem witness_TargetsFollowTheStateAndAreHandedOn :
    let armed : Sequencer := ⟨.armed, none, some 0, false, false⟩
    let s := fun (m : Mode) (q : Sequencer) => { State.withTrack (inMode m) [log 0 1 0] with ring := ⟨q, q⟩ }
    State.reset.ringState .a = .idle ∧ (s .run ⟨.held, none, none, false, false⟩).ringState .a = .held ∧
      ((s .manual armed).ringState .a = .armed ∧ (s .manual armed).control.mode = .manual) ∧
      ((s .run armed).ringState .b = .armed ∧ (s .run armed).control.mode ≠ .manual ∧
        ((s .run armed).ring.get .b).armedFor = some 0 ∧ (s .run armed).rec? 0 = some (log 0 1 0)) := by decide +kernel

/-- A ring pressing a record with samples, its plane before the first and beyond the last, and one with none; one that serves no
record of the track, and an open one. -/
theorem witness_TargetsFollowTheStateAndAreHandedOn_press :
    let s := fun (x : Rec) => ({ State.withTrack (inMode .run) [x] with ring := ⟨serving .body 0, serving .entry 1⟩ } : State)
    let blind : Rec := { log 0 1 0 with samples := [] };
    ((s (log 0 1 0)).ringState .a).pressing = true ∧ (s (log 0 1 0)).servedRec .a = some (log 0 1 0) ∧
      (s blind).servedRec .a = some blind ∧ (s blind).servedRec .b = none ∧ (State.reset.ringState .a).pressing = false ∧
      sampleIndex (s (log 0 1 0)) .a (log 0 1 0) = 0 ∧ sampleIndex (s (log 0 1 (-9000))) .a (log 0 1 (-9000)) = 4 := by
  decide +kernel

/-- A record ring A presses and ring B is ARMED for; another that neither names. -/
theorem witness_TargetsFollowTheStateAndAreHandedOn_for_a_record :
    let s : State := { State.withTrack (inMode .run) [log 0 1 0, log 1 2 (-1000)] with
      ring := ⟨serving .body 0, ⟨.armed, none, some 0, false, false⟩⟩ };
    (s.ring.get .a).served = some 0 ∧ (s.ringState .a).pressing = true ∧ s.rec? 0 = some (log 0 1 0) ∧
      (s.ring.get .b).served ≠ some 0 ∧ s.ringState .b = .armed ∧ (s.ring.get .b).armedFor = some 0 ∧
      (s.ring.get .a).served ≠ some 1 ∧ (s.ring.get .b).armedFor ≠ some 1 := by decide +kernel

/-! ### The ring sequencers -/

/-- A ring in each state, in RUN and in SETUP, serving record 0 where it presses; nothing else on the track, a record
standing in the plane, and one waiting at it. -/
theorem witness_CrossingEventsMoveTheRing :
    (inMode .run).control.mode ≠ .setup ∧ State.reset.control.mode = .setup ∧ (inMode .run).ringState .a = .idle ∧
      (∀ st ∈ [RingState.entry, .body, .tail], (running (serving st 0)).ringState .a = st ∧ st.pressing = true ∧
        ((running (serving st 0)).ring.get .a).served = some 0) ∧
      (running ⟨.armed, none, some 0, false, false⟩).ringState .a = .armed ∧
      (running ⟨.held, none, none, false, false⟩).ringState .a = .held ∧
      (let s := running (serving .tail 0);
        s.release.level ≠ .atGap ∧
          ({ s with release := { s.release with level := .atGap } } : State).release.level = .atGap ∧
          s.standing .a = none ∧ s.firstWaiting .a = none ∧
          (State.withTrack s [log 1 2 (posAdd 0 (-4200))]).standing .a = some (log 1 2 (posAdd 0 (-4200))) ∧
          (State.withTrack s [log 1 2 (posAdd 0 (-3800))]).standing .a = none ∧
          (State.withTrack s [log 1 2 (posAdd 0 (-3800))]).firstWaiting .a = some (log 1 2 (posAdd 0 (-3800)))) ∧
      ((inMode .run).ring.get .a).liftReached = false ∧ ((running ⟨.idle, none, none, true, false⟩).ring.get .a).liftReached = true ∧
      (State.withTrack (inMode .run) [log 1 2 0]).rec? 0 = none ∧ (State.withTrack (inMode .run) [log 1 2 0]).rec? 1 = some (log 1 2 0) :=
  by decide +kernel

/-- Ring A pressing record 0 with the record at its plane, at its last millimetre, upstream of it and with its tail out; a change of
place with no crossing, and no change. -/
theorem witness_MovesAndRemovalsReachTheRing :
    let s := fun (b0 : Pos) => ({ State.withTrack (inMode .run) [log 0 1 b0] with
      ring := ⟨serving .body 0, ⟨.armed, none, some 0, false, false⟩⟩ } : State)
    let d := fun (b0 : Pos) => frontDist (s b0) (log 0 1 b0) - (s b0).points.planeOf .a;
    (∀ b0, (s b0).control.mode ≠ .setup ∧ ((s b0).ringState .a).pressing = true ∧
      (s b0).servedRec .a = some (log 0 1 b0)) ∧
      d (-4200) = 0 ∧ d (-5199) = 999 ∧ d (-5200) = 1000 ∧ d (-4199) = -1 ∧ (s 0).release.level ≠ .atGap ∧
      crossings (s (-5100)) (s (-5101)) = [] ∧ (s (-5100)).rec? 0 = some (log 0 1 (-5100)) ∧
      (log 0 1 (-5100)).b0 ≠ (log 0 1 (-5101)).b0 ∧ crossings (s 0) (s 0) = [] ∧
      ((s 0).ring.get .a).served = some 0 ∧ ((s 0).ring.get .b).served ≠ some 0 ∧ ((s 0).ring.get .b).armedFor = some 0 := by
  refine ⟨fun b0 => ⟨nofun, rfl, rfl⟩, by decide +kernel⟩

/-- Crossings none of which is ring A's plane, with and without a change of place; and that one alone, which binds. -/
theorem witness_MovesAndRemovalsReachTheRing_crossings :
    let s := fun (front b0 : Pos) => ({ State.withTrack (inMode .run) [log 0 1 b0] with
      feed := { State.reset.feed with front := front } } : State);
    crossings (s 5799 0) (s 5800 0) = [⟨0, .plane .b, 0⟩] ∧ crossings (s 5799 0) (s 5799 (-1)) = [⟨0, .plane .b, 0⟩] ∧
      crossings (s 4199 0) (s 4200 0) = [⟨0, .plane .a, 0⟩] ∧ (s 4199 0).rec? 0 = some (log 0 1 0) := by decide +kernel

/-- Ring A, whose place the record has: pressing with a pending swap, at NONE and at AT_GAP, with a record standing in the plane and
with none; open; HELD; each with a mark of A_CLEAR and one of A_ENTRY. -/
theorem witness_PassagesMakeTheirReports :
    let there := log 1 2 (posAdd 0 (-4200))
    let s := fun (q : Sequencer) (l : List Rec) => ({ State.withTrack (inMode .run) l with
      ring := ⟨q, resetSequencer⟩
      recipes := { State.reset.recipes with swapPending := true }
      points := { factoryPoints with markSource := ⟨.aClear, .aEntry, .none, .none⟩ }
      marks := ⟨true, true, false, false⟩ } : State)
    let gap := fun s : State => { s with release := { s.release with causes := { Causes.empty with trackLost := true }, level := .atGap } };
    (s (serving .body 0) []).control.mode ≠ .setup ∧ ((s (serving .body 0) []).ringState .a).pressing = true ∧
      ((s (serving .body 0) []).ring.get .a).served = some 0 ∧ (s (serving .body 0) []).release.level ≠ .atGap ∧
      (s (serving .body 0) []).standing .a = none ∧ (s (serving .body 0) [there]).standing .a = some there ∧
      (gap (s (serving .body 0) [there])).release.level = .atGap ∧
      (s resetSequencer []).ringState .a = .idle ∧ (s ⟨.held, none, none, false, false⟩ []).ringState .a = .held ∧
      (s (serving .body 0) [log 0 1 0]).servedRec .a = some (log 0 1 0) ∧
      standsIn (s (serving .body 0) [log 0 1 0]) .a (log 0 1 0) = false ∧
      (s (serving .body 0) []).recipes.swapPending = true ∧ State.reset.recipes.swapPending = false := by decide +kernel

/-- The level at IMMEDIATE as a pressing ring takes it; a pressing ring as an emergency stop comes, and as SETUP is entered. -/
theorem witness_PassagesMakeTheirReports_levels :
    let s : State := { inMode .run with ring := ⟨serving .body 0, serving .body 0⟩ }
    let now : State := { s with release := { s.release with causes := { Causes.empty with estop := true }, level := .estop } };
    (∀ k, s.ringRight k) ∧ s.levelRight ∧ (s.ringState .a).pressing = true ∧ s.lines.estopActive = false ∧
      s.release.estopActive = false ∧ s.control.mode ≠ .setup ∧ s.release.level = .none ∧ now.release.level = .estop ∧
      (now.ringState .a).pressing = true := by
  refine ⟨fun k => ?_, rfl, rfl, rfl, rfl, by decide, rfl, rfl, rfl⟩
  cases k <;> exact ⟨⟨fun h => (by cases h), fun h => (by revert h; decide)⟩, ⟨rfl, rfl⟩⟩

/-! ### The valve line -/

/-- Reset with one channel changed. -/
def chan (c : Channel) (f : Chan → Chan) : State := State.reset.onChan c f

/-- A channel released below its target and at it; one not released; the lift channels under ESTOP. -/
theorem witness_ValveFrameMovesAndSendsCommands :
    let il := ((State.reset.valve.rings.get .a).bypass .none).advance factoryPoints
    let on := ((({ State.reset.valve.rings.get .a with hold := false }).bypass .none).advance factoryPoints)
    bypassed .estop .lift = true ∧ bypassed .none .press = false ∧ bypassed .none .lift = false ∧
      il.released ≠ some .press ∧ on.released = some .lift ∧ on.hold = false ∧
      (State.reset.valve.chans.get .aLift).command < (State.reset.valve.chans.get .aLift).target ∧
      ((chan .aLift fun c => { c with command := 120 }).valve.chans.get .aLift).target ≤ 120 ∧
      (∀ c, State.reset.points.echoEnable.get c = true) ∧ (∀ c, (State.reset.valve.chans.get c).wait = false) ∧
      (∀ d, ((chan .aLift fun c => { c with wait := true, badRun := 1 }).valve.chans.get d).wait = decide (d = .aLift)) ∧
      ((chan .aLift fun c => { c with wait := true, badRun := 1 }).valve.chans.get .aLift).badRun < 2 := by
  refine ⟨by decide, by decide, by decide, by decide, by decide, by decide, by decide, by decide, fun c => ?_, fun c => ?_,
    fun c => ?_, by decide⟩ <;> cases c <;> decide

/-- A released channel with no interval; an interval that waits for its zero frame, one that runs out in the frame and one a frame
short of that; a channel under the bypass. -/
theorem witness_ValveFrameMovesAndSendsCommands_interlock :
    let s := fun (r : Option Side) (i : Option Interval) => State.reset.onInterlock .a fun il =>
      { il with released := r, interval := i };
    (∀ r i, ((s r i).valve.rings.get .a).released = r ∧ ((s r i).valve.rings.get .a).interval = i) ∧
      factoryPoints.pressLiftDead ≤ (5 + 1) * 10 ∧ (4 + 1) * 10 < factoryPoints.pressLiftDead ∧
      bypassed .none .lift = false ∧ bypassed .immediate .press = true :=
  ⟨fun _ _ => ⟨rfl, rfl⟩, by decide, by decide, rfl, rfl⟩

theorem witness_ValveWordChecksItself : 1160 ≤ 2047 ∧ 15 < 16 ∧ echoGood 0x9114 = true ∧ echoGood 0x001E = true := by decide

/-- Ring A in IDLE given an intent for its press channel, at 0 and still above 0, and one for the same channel. -/
theorem witness_InterlockTurnsFromChannelToChannel :
    (State.reset.valve.rings.get .a).intent ≠ .press ∧ (State.reset.valve.rings.get .a).intent = .lift ∧
      (State.reset.valve.chans.get (channelOf .a .press)).command = 0 ∧ bypassed State.reset.release.level .press = false ∧
      0 < ((chan .aPress fun c => { c with command := 1 }).valve.chans.get (channelOf .a .press)).command := by decide

/-- An interval that runs out in the frame due and one a frame short of that; one under the bypass. -/
theorem witness_InterlockTurns_dead_interval :
    let il := fun n => ({ intent := .lift, released := none, interval := some ⟨.lift, n⟩, hold := false } : Interlock)
    let s := fun n => State.reset.onInterlock .a fun _ => il n;
    ((s (some 5)).valve.rings.get .a).interval = some ⟨.lift, some 5⟩ ∧ State.reset.points.pressLiftDead ≤ (5 + 1) * 10 ∧
      ((s (some 4)).valve.rings.get .a).interval = some ⟨.lift, some 4⟩ ∧ (4 + 1) * 10 < State.reset.points.pressLiftDead ∧
      ((s none).valve.rings.get .a).interval = some ⟨.lift, none⟩ ∧ (State.reset.valve.rings.get .a).interval = none ∧
      bypassed .none .lift = false ∧ bypassed .estop .lift = true := by decide

/-- The levels as they rise to ESTOP and fall from it: ring A's lift channel waiting, released, and neither. -/
theorem witness_InterlockTurns_bypass :
    let s := fun (level : Level) (released : Option Side) (interval : Option Interval) =>
      ({ State.reset with release := { State.reset.release with level := level } } : State).onInterlock .a fun _ =>
        ⟨.lift, released, interval, false⟩;
    ((s .estop none (some ⟨.lift, some 3⟩)).valve.rings.get .a).interval = some ⟨.lift, some 3⟩ ∧
      bypassed .estop .lift = true ∧ bypassed .immediate .lift = false ∧ bypassed .none .press = false ∧
      ((s .none none none).valve.rings.get .a).interval = none ∧ (s .none none none).release.level = .none ∧
      ((s .none none none).valve.rings.get .a).released ≠ some .lift ∧
      ((s .none (some .lift) none).valve.rings.get .a).released = some .lift ∧
      ((s .none none none).valve.rings.get .a).intent = .lift := by decide +kernel

/-- Reset with a channel commanded, and sent, 580 kPa at its target, waiting for its echo. -/
def driven (c : Channel) (st : ChannelState) (badRun : Nat) : State :=
  chan c fun x => { x with target := 580, command := 580, sent := 580, wait := true, state := st, badRun := badRun }

/-- The word of a good echo at the measured code, its fault bit clear or set; a word whose check is wrong. -/
theorem witness_EchoIsJudgedAndReported :
    let x := fun st n => (driven .aPress st n).valve.chans.get .aPress;
    (State.reset.valve.chans.get .aPress).wait = false ∧ (x .ok 1).wait = true ∧ (x .ok 1).badRun < 2 ∧
      echoGood 0x9115 = false ∧
      (∀ code ∈ [1068, 1067, 1252, 1253], echoGood (valveWord code false) = true ∧ echoFault (valveWord code false) = false ∧
        echoCode (valveWord code false) = code) ∧
      max 50 (roundDivNat (8 * (2 * (x .ok 0).sent)) 100) = 93 ∧ ((1067 : Int) - 2 * (x .ok 0).sent).natAbs = 93 ∧
      ((1253 : Int) - 2 * (x .ok 0).sent).natAbs = 93 ∧ ((1066 : Int) - 2 * (x .ok 0).sent).natAbs = 94 ∧
      (x .ok 0).state = .ok ∧ (x .deviating 0).state = .deviating ∧ (x .fault 0).state = .fault ∧ (x .mute 0).state = .mute ∧
      ((chan .aPress fun c => { c with wait := true, target := 15 }).valve.chans.get .aPress).command ≠
        ((chan .aPress fun c => { c with wait := true, target := 15 }).valve.chans.get .aPress).target := by decide +kernel

/-- A good echo 50 half-kPa off, of a ring's lift channel while it is open and of its press channel while it presses. -/
theorem witness_EchoReports :
    let lift := driven .aLift .ok 0
    let press := ({ driven .aPress .ok 0 with ring := ⟨serving .body 0, resetSequencer⟩ } : State).onInterlock .a fun il =>
      { il with intent := .press, released := some .press }
    (∀ x ∈ [(lift, Channel.aLift), (press, .aPress)], let c := x.1.valve.chans.get x.2
      c.wait = true ∧ c.state = .ok ∧ c.command = c.target ∧ c.sent = c.command ∧
        ((echoCode (valveWord 1110 false) : Int) - 2 * c.sent).natAbs = 50 ∧ (x.1.valve.rings.get x.2.ring).intent = x.2.side) ∧
    echoGood (valveWord 1110 false) = true ∧ echoFault (valveWord 1110 false) = false ∧
    (lift.ringState .a).pressing = false ∧ (press.ringState .a).pressing = true ∧ (press.ring.get .a).settled = false ∧
    (({ lift with ring := press.ring } : State).ringState Channel.aLift.ring).pressing = decide (Channel.aLift.side = .lift) := by
  decide +kernel

/-- The same beyond 50 and within 8 %, from OK and from DEVIATING, on ring B too; a press channel settled already; a channel whose
ring's intent names its partner, and one short of its target. -/
theorem witness_EchoReports_within_tolerance :
    let press := fun (c : Channel) (st : ChannelState) (settled : Bool) =>
      ({ driven c st 0 with ring := ⟨⟨.body, some 0, none, false, settled⟩, ⟨.body, some 0, none, false, settled⟩⟩ } : State).onInterlock c.ring
        fun il => { il with intent := .press, released := some .press };
    (∀ c ∈ [Channel.aPress, .bPress], ∀ st ∈ [ChannelState.ok, .deviating], ∀ settled, let x := (press c st settled).valve.chans.get c
      x.wait = true ∧ x.state = st ∧ x.command = x.target ∧ ((press c st settled).valve.rings.get c.ring).intent = c.side ∧
        ((press c st settled).ringState c.ring).pressing = true ∧ ((press c st settled).ring.get c.ring).settled = settled ∧
        ((echoCode (valveWord 1067 false) : Int) - 2 * x.sent).natAbs = 93) ∧
      ((driven .aPress .ok 0).valve.rings.get .a).intent ≠ Channel.aPress.side := by decide +kernel

/-- Frames with ring A's lift channel's echo off, no wait open, its command at its target and short of it. -/
theorem witness_EchoReports_echo_off :
    let s := fun (target : Nat) => ({ chan .aLift fun x => { x with target := target, command := 15 } with
      points := { factoryPoints with echoEnable := ⟨true, false, true, true⟩ } } : State)
    let y := fun target => ((s target).valve.frame (s target).points (s target).release.level).chans.get .aLift;
    (∀ d, ((s 15).valve.chans.get d).wait = false) ∧ (∀ d, (s 15).points.echoEnable.get d = decide (d ≠ .aLift)) ∧
      (y 15).state = .ok ∧ (y 15).command = (y 15).target ∧ (y 500).command ≠ (y 500).target ∧
      ((s 15).valve.rings.get .a).intent = .lift ∧ ((s 15).ringState .a).pressing = false :=
  ⟨fun d => by cases d <;> rfl, fun d => by cases d <;> rfl, by decide +kernel⟩

/-- A driver-fault bit, a third bad echo and a deviation timer's expiry, on a channel judged. -/
theorem witness_ChannelFaultHoldsTheRings :
    (∀ k, (driven .aPress .ok 2).ringRight k) ∧ (driven .aPress .ok 2).levelRight ∧
      ((driven .aPress .ok 2).valve.chans.get .aPress).wait = true ∧ echoGood 0x9115 = false ∧
      2 ≤ ((driven .aPress .ok 2).valve.chans.get .aPress).badRun ∧
      echoGood (valveWord 1160 true) = true ∧ echoFault (valveWord 1160 true) = true ∧
      (let s := (driven .aPress .deviating 0).onChan .aPress fun x => { x with timer := true };
        (∀ k, s.ringRight k) ∧ s.levelRight ∧ (s.valve.chans.get .aPress).state = .deviating ∧
          (s.valve.chans.get .aPress).timer = true) ∧
      (State.reset.valve.chans.get .aPress).timer = false ∧
      (∀ d, ((driven .aPress .ok 2).valve.chans.get d).wait = decide (d = .aPress)) ∧
      ∀ d, (driven .aPress .ok 2).points.echoEnable.get d = true :=
  ⟨rings_right (s := driven .aPress .ok 2) rfl rfl, rfl, rfl, by decide, by decide, by decide, by decide,
    ⟨rings_right (s := (driven .aPress .deviating 0).onChan .aPress fun x => { x with timer := true }) rfl rfl, rfl, rfl, rfl⟩,
    rfl, fun d => by cases d <;> rfl, fun d => by cases d <;> rfl⟩

/-! ### Release, marks, the inputs, the modes -/

theorem witness_ReleaseEntersThePortsRequest :
    (∀ p ∈ [Port.line, .panel], ∀ n ∈ [0, 1, 2, 3],
      (asking State.reset p .release [byte n]).takes p .release (ask .release [byte n]) [] ∧ u8 [byte n] 0 = n) ∧
    (∀ k, (asking State.reset .line .release [1]).ringRight k) := by
  refine ⟨fun p h n hn => ⟨asking_takes ?_, ?_⟩, rings_right (s := asking State.reset .line .release [1]) rfl rfl⟩
  · revert p n; decide +kernel
  · revert n; decide +kernel

/-- A RESUME with a cause that has ended and with one that has not. -/
theorem witness_ResumeEndsTheCausesThatHaveEnded :
    let s := fun active => asking { State.reset with
      release := { State.reset.release with causes := { Causes.empty with estop := true }, level := .estop, estopActive := active }
      ring := ⟨⟨.held, none, none, false, false⟩, ⟨.held, none, none, false, false⟩⟩ } .line .resume []
    ∀ active, (s active).takes .line .resume (ask .resume []) [] ∧ ∀ k, (s active).ringRight k := by
  refine fun active => ⟨asking_takes ?_, fun k => ?_⟩
  · revert active; decide +kernel
  · cases k <;> exact ⟨⟨fun _ => .inr rfl, fun _ => rfl⟩, rfl, rfl⟩

/-- A RESUME to NONE in SETUP and in RUN: ring A HELD with a record in its plane, one waiting, and none; ring B pressing. -/
theorem witness_ResumeEndsTheCausesThatHaveEnded_by_geometry :
    let there := log 1 2 (posAdd 0 (-4200))
    let behind := log 1 2 (posAdd 0 (-3800))
    let s := fun (m : Mode) (l : List Rec) => asking { State.withTrack (inMode m) l with
      release := { State.reset.release with causes := { Causes.empty with lineReq := some .atGap }, level := .atGap }
      ring := ⟨⟨.held, none, none, false, false⟩, ⟨.held, none, none, false, false⟩⟩ } .line .resume [];
    (∀ m ∈ [Mode.setup, .run], ∀ l ∈ [[], [there], [behind]], (s m l).takes .line .resume (ask .resume []) []) ∧
      (∀ m l k, (s m l).ringRight k) ∧ (∀ m l, (s m l).release.level ≠ .none ∧ (s m l).ringState .a = .held) ∧
      (s .run [there]).standing .a = some there ∧ (s .run [behind]).standing .a = none ∧
      (s .run [behind]).firstWaiting .a = some behind ∧ (s .run []).firstWaiting .a = none := by
  refine ⟨fun m hm l hl => asking_takes ?_, fun m l k => ?_, fun m l => ⟨nofun, rfl⟩, by decide +kernel⟩
  · revert m l; decide +kernel
  · cases k <;> exact ⟨⟨fun _ => .inr rfl, fun _ => rfl⟩, rfl, rfl⟩

/-- A RESUME that takes the level from ESTOP to NONE and, with a full track, to AT_GAP: both rings HELD, their lift channels' release
lost. -/
theorem witness_ResumeEndsTheCausesThatHaveEnded_bypass :
    let s := fun (full : Bool) => asking { State.withTrack State.reset (if full then fullTrack else []) with
      valve := { State.reset.valve with rings := ⟨⟨.lift, none, none, false⟩, ⟨.lift, none, none, false⟩⟩ }
      release := { State.reset.release with causes := { Causes.empty with estop := true, trackLost := full }, level := .estop }
      ring := ⟨⟨.held, none, none, false, false⟩, ⟨.held, none, none, false, false⟩⟩ } .line .resume [];
    ∀ full, (s full).takes .line .resume (ask .resume []) [] ∧ (∀ k, (s full).ringRight k) ∧
      (s full).release.level = .estop ∧ (s full).release.estopActive = false ∧ (12 ≤ (s full).track.length ↔ full = true) ∧
      ∀ k, ((s full).valve.rings.get k).intent = .lift ∧ ((s full).valve.rings.get k).released ≠ some .lift ∧
        ((s full).valve.rings.get k).interval = none := by
  refine fun full => ⟨asking_takes ?_, fun k => ?_, rfl, rfl, ?_, fun k => ?_⟩
  · revert full; decide +kernel
  · cases k <;> exact ⟨⟨fun _ => .inr rfl, fun _ => rfl⟩, rfl, rfl⟩
  · revert full; decide +kernel
  · cases k <;> exact ⟨rfl, nofun, rfl⟩

/-- A MARK of M0 and M3, of an operation that is none, and of a mark that is none; a source of a CLEAR and of a SET mark. -/
theorem witness_MarkSetsTheNamedMarks :
    (∀ payload ∈ [[0, 2, 0, 3], [1, 2, 0, 3], [2, 1, 0], [1, 1, 4]],
      (asking State.reset .line .mark payload).takes .line .mark (ask .mark payload) []) ∧
    State.reset.permitRight ∧ marksOf (codesAt [1, 2, 0, 3] 2 2) = some [.m0, .m3] ∧ marksOf (codesAt [1, 1, 4] 2 1) = none ∧
    (let s : State := { State.reset with
        points := { factoryPoints with markSource := ⟨.aEntry, .none, .none, .none⟩ }, marks := ⟨true, false, false, false⟩ };
      s.points.markSource.get .m0 = .aEntry ∧ s.marks.get .m0 = true ∧ ∀ m, s.points.markSource.get m ≠ .release) := by
  refine ⟨fun x h => asking_takes ?_, rfl, by decide +kernel, by decide +kernel, rfl, rfl, fun m => ?_⟩
  · revert x; decide +kernel
  · cases m <;> decide

theorem witness_InputLevelsAreTaken :
    (∀ k, State.reset.ringRight k) ∧ State.reset.levelRight ∧ State.reset.lines.estopActive = false ∧
      State.reset.release.estopActive = false ∧
      (let s : State := { State.reset with release := { State.reset.release with estopActive := true } };
        (∀ k, s.ringRight k) ∧ s.levelRight ∧ s.release.estopActive = true ∧ s.lines.estopActive = false) :=
  ⟨rings_right rfl rfl, rfl, rfl, rfl,
    rings_right (s := { State.reset with release := { State.reset.release with estopActive := true } }) rfl rfl, rfl, rfl, rfl⟩

/-- An emergency stop from AT_GAP with both rings HELD already, an interval running for ring A's lift channel. -/
theorem witness_InputLevelsAreTaken_held :
    let s : State := ({ State.reset with
      release := { State.reset.release with causes := { Causes.empty with trackLost := true }, level := .atGap }
      ring := ⟨⟨.held, none, none, false, false⟩, ⟨.held, none, none, false, false⟩⟩ } : State).onInterlock .a fun _ =>
        ⟨.lift, none, some ⟨.lift, some 3⟩, false⟩;
    (∀ k, s.ringRight k) ∧ s.levelRight ∧ s.lines.estopActive = false ∧ s.release.estopActive = false ∧
      s.release.level ≠ .estop ∧ s.interlocked .a ∧ (s.valve.rings.get .a).interval = some ⟨.lift, some 3⟩ := by
  refine ⟨fun k => ?_, rfl, rfl, rfl, by decide, ⟨.inl rfl, nofun, ?_, ?_⟩, rfl⟩
  · cases k <;> exact ⟨⟨fun _ => .inr rfl, fun _ => rfl⟩, rfl, rfl⟩
  · intro i h; cases h; exact ⟨rfl, rfl⟩
  · intro i n h _; cases h; rfl

/-- A rotor found stopped, in SETUP and in RUN, and one found as it was taken. -/
theorem witness_InputLevelsAreTaken_rotor :
    let s := fun m => ({ inMode m with lines := { resetLines with rotorA := false } } : State);
    (∀ m k, (s m).ringRight k) ∧ (∀ m, (s m).levelRight) ∧ (s .run).control.mode ≠ .setup ∧
      (s .setup).control.mode = .setup ∧ ∀ m, false ≠ (s m).release.rotorRunning.get .a ∧
        true = (s m).release.rotorRunning.get .b :=
  ⟨fun m => rings_right (s := { inMode m with lines := { resetLines with rotorA := false } }) rfl rfl, fun _ => rfl, by decide,
    rfl, fun m => by cases m <;> decide⟩

/-- A MODE for each mode and for none, with a record over a plane and with none. -/
theorem witness_ModeChangesOverUncoveredPlanes :
    let there := log 0 1 (posAdd 0 (-4200));
    (∀ l ∈ [[], [there]], ∀ n ∈ [0, 1, 2, 3],
      (asking (State.withTrack State.reset l) .panel .mode [byte n]).takes .panel .mode (ask .mode [byte n]) [] ∧
        u8 [byte n] 0 = n) ∧
    (∀ l k, (asking (State.withTrack State.reset l) .panel .mode [1]).ringRight k) ∧
    covers (State.withTrack State.reset [there]) .a there = true ∧ State.reset.levelRight ∧ Mode.run.code = 1 := by
  refine ⟨fun l h n hn => ⟨asking_takes ?_, ?_⟩, fun l => rings_right (s := asking (State.withTrack State.reset l) .panel .mode [1]) rfl rfl,
    by decide +kernel, rfl, rfl⟩
  · revert l n; decide +kernel
  · revert n; decide +kernel

/-- Between RUN and MANUAL, and out of SETUP with a rotor stopped. -/
theorem witness_ModeChanges_handed_on :
    (∀ k, (inMode .run).ringRight k) ∧ (inMode .run).levelRight ∧ Mode.manual ≠ (inMode .run).control.mode ∧
      (let s : State := { State.reset with release := { State.reset.release with rotorRunning := ⟨false, true⟩ } };
        (∀ k, s.ringRight k) ∧ s.levelRight ∧ Mode.run ≠ s.control.mode ∧ s.control.mode = .setup ∧
          (s.release.rotorRunning.a && s.release.rotorRunning.b) = false) :=
  ⟨rings_right (s := inMode .run) rfl rfl, rfl, by decide,
    rings_right (s := { State.reset with release := { State.reset.release with rotorRunning := ⟨false, true⟩ } }) rfl rfl, rfl,
    by decide, rfl, rfl⟩

/-- RUN to MANUAL and back, ring A pressing a record and ring B open. -/
theorem witness_ModeChanges_evaluations :
    let s := fun (m : Mode) => ({ State.withTrack (inMode m) [log 0 1 0] with ring := ⟨serving .body 0, resetSequencer⟩ } : State);
    ∀ m ∈ [Mode.run, .manual], (∀ k, (s m).ringRight k) ∧ (s m).levelRight ∧ (s m).control.mode = m ∧
      ((s m).ringState .a).pressing = true ∧ (s m).servedRec .a = some (log 0 1 0) ∧ ((s m).ringState .b).pressing = false := by
  intro s m h
  have hm : m ≠ .setup := by revert m; decide
  refine ⟨fun k => ?_, rfl, rfl, rfl, rfl, rfl⟩
  cases k
  · exact ⟨⟨fun e => absurd e hm, fun e => e.elim nofun nofun⟩, rfl, rfl⟩
  · exact ⟨⟨fun _ => .inl rfl, fun e => e.elim nofun nofun⟩, rfl, rfl⟩

/-- Out of SETUP with both rotors running: ring A with a record standing in its plane past its tail advance and one short of it, a
record waiting, and none; and a HELD ring. -/
theorem witness_ModeChanges_by_geometry :
    let bound : Rec := { log 0 1 0 with bound := some ⟨spruce, none, true⟩ }
    let s := fun (b0 : Pos) => State.withTrack State.reset [{ bound with b0 := b0 }]
    let held : State := { State.reset with
      release := { State.reset.release with causes := { Causes.empty with trackLost := true }, level := .atGap }
      ring := ⟨⟨.held, none, none, false, false⟩, resetSequencer⟩ };
    (∀ b0 k, (s b0).ringRight k) ∧ (∀ b0, (s b0).levelRight) ∧ (∀ k, held.ringRight k) ∧ held.levelRight ∧
      State.reset.control.mode = .setup ∧ Mode.run ≠ .setup ∧
      State.reset.release.rotorRunning = ⟨true, true⟩ ∧ held.ringState .a = .held ∧ State.reset.ringState .a = .idle ∧
      (s (-4900)).standing .a = some { bound with b0 := -4900 } ∧
      (s (-4900)).points.planeOf .a + 1000 - spruce.tailAdv = frontDist (s (-4900)) { bound with b0 := -4900 } ∧
      (s (-4899)).standing .a = some { bound with b0 := -4899 } ∧ (s (-4199)).standing .a = none ∧
      (s (-4199)).firstWaiting .a = some { bound with b0 := -4199 } ∧ (s 0).firstWaiting .a = none := by
  refine ⟨fun _ => rings_right rfl rfl, fun _ => rfl, fun k => ?_, rfl, rfl, by decide, rfl, rfl, rfl, by decide +kernel⟩
  cases k <;> exact ⟨⟨fun _ => (by decide), fun h => (by revert h; decide)⟩, ⟨rfl, rfl⟩⟩

/-- WINTER and SUMMER from WINTER; the second leaves the limit where it was with nothing on the track, and changes it
with a log that the season decides. -/
theorem witness_Seasons :
    (asking eng .panel .winter []).takes .panel .winter (ask .winter []) [] ∧
      (asking eng .panel .summer []).takes .panel .summer (ask .summer []) [] ∧
      (asking (State.withTrack eng [log 0 1 0]) .panel .summer []).takes .panel .summer (ask .summer []) [] ∧
      eng.control.season = .winter ∧
      ({ eng with control := { eng.control with season := .summer } } : State).advisedLimit = eng.lastAdvise ∧
      ({ State.withTrack eng [log 0 1 0] with control := { eng.control with season := .summer } } : State).advisedLimit ≠
        (State.withTrack eng [log 0 1 0]).lastAdvise :=
  ⟨asking_takes (by decide +kernel), asking_takes (by decide +kernel), asking_takes (by decide +kernel), by decide,
    by decide +kernel, by decide +kernel⟩

/-- A MANUAL_SET of 701 and 700 for each ring and for none, in each mode; in MANUAL with the ring armed and pressing. -/
theorem witness_ManualValues :
    (∀ m ∈ [Mode.setup, .run, .manual], ∀ n ∈ [0, 1, 2], let payload := byte n :: (bytes16 701 ++ bytes16 700)
      (asking (inMode m) .panel .manualSet payload).takes .panel .manualSet (ask .manualSet payload) [] ∧
        u8 payload 0 = n ∧ u16 payload 1 = 701 ∧ u16 payload 3 = 700) ∧
    Ring.ofCode 0 = some .a ∧ Ring.ofCode 1 = some .b ∧
    (let s : State := { State.withTrack (inMode .manual) [log 0 1 0] with
        ring := ⟨serving .body 0, ⟨.armed, none, some 0, false, false⟩⟩ };
      s.control.mode = .manual ∧ s.servedRec .a = some (log 0 1 0) ∧ (s.ringState .a).pressing = true ∧
        s.ringState .b = .armed) := by
  refine ⟨fun m h n hn => ⟨asking_takes ?_, ?_⟩, by decide +kernel⟩
  · revert m n; decide +kernel
  · revert n; decide +kernel

/-! ### Telegrams -/

/-- A hunting receiver, bytes that frame nothing, an empty payload and the longest one, a kind above 0x7F, a wrong CRC. -/
theorem witness_ReceiverTakesWholeTelegramsAlone :
    (State.reset.ports.get .panel).receiver = .hunting ∧ (0xA4 : Byte) ≠ 0xA5 ∧ 240 < (0xF1 : Byte).toNat ∧
      ([] : List Byte).length ≤ 240 ∧ (List.replicate 240 (0 : Byte)).length ≤ 240 ∧ 0x80 ≤ (0x80 : Byte).toNat ∧
      4 < (frameBytes 0x01 []).length ∧ ([0x0D, 0x2F] : List Byte) ≠ bytes16 (crc16 [byte 0, 0x01]).toNat := by
  decide +kernel

/-- A receiver in a telegram of the longest payload, one byte short of its end. -/
theorem witness_ReceiverTakesWholeTelegramsAlone_inside :
    let taken : List Byte := 0xF0 :: List.replicate 241 0;
    ((State.reset.onPort .line fun q => { q with receiver := .framing taken }).ports.get .line).receiver = .framing taken ∧
      u8 (taken ++ [0]) 0 ≤ 240 ∧ taken.length + 1 < u8 (taken ++ [0]) 0 + 4 := by decide +kernel

/-- Four requests held and three; a queue whose head is known, an empty one; an unknown kind; a SAVE in flight. -/
theorem witness_ArrivingRequestIsQueuedOrAnswered :
    let held := fun n => State.reset.onPort .panel fun q => { q with queue := List.replicate n (ask .status []) };
    ((held 4).saving .panel = false ∧ 4 ≤ ((held 4).ports.get .panel).queue.length) ∧
      ((held 3).saving .panel = false ∧ ((held 3).ports.get .panel).queue.length < 4 ∧
        headKnown (((held 3).ports.get .panel).queue ++ [ask .status []]) = true) ∧
      (0x7F : Byte).toNat < 0x80 ∧ 0x80 ≤ (0x80 : Byte).toNat ∧ Kind.ofByte 0x7F = none ∧
      ((State.reset.ports.get .panel).queue = [] ∧ State.reset.saving .panel = false) ∧
      inFlight.saving .panel = true ∧ Kind.ofByte 0x3B = some .save := by decide +kernel

/-- While a SAVE is in flight at the head of the Panel's queue: 2 and 3 requests behind it as a STATUS, and one of no known kind,
arrives. -/
theorem witness_ArrivingRequestIsQueuedOrAnswered_behind_a_save :
    let s := fun n => inFlight.onPort .panel fun q => { q with queue := ask .save [] :: List.replicate n (ask .status []) };
    (∀ n ∈ [2, 3], (s n).saving .panel = true ∧
      ((s n).ports.get .panel).queue = ask .save [] :: List.replicate n (ask .status []) ∧
        (List.replicate n (ask .status [])).length = n) ∧
      Kind.ofByte (ask .save []).kind = some .save ∧
      ∀ k ∈ [(byte Kind.status.code), 0x7F], k.toNat < 0x80 ∧ Kind.ofByte k ≠ some .save ∧ Kind.ofByte k ≠ some .restart := by
  decide +kernel

/-- A request of every kind, refused on the Scanner port by its length, or on a port it may not be sent on. -/
theorem witness_RefusedRequestChangesNothing :
    ∀ k ∈ Kind.all, let s := asking State.reset .scanner k (List.replicate 240 0)
      (s.ports.get .scanner).queue = [ask k (List.replicate 240 0)] ∧ s.saving .scanner = false ∧
        Kind.ofByte (byte k.code) = some k ∧ (refusal s .scanner k (List.replicate 240 0)).isSome := by decide +kernel

/-- A request that fails each check of R194's table in turn, and one that passes all: a port, a length, another port's enable set, the
key, a number of no point, a LIVE point, a point's class, the mode. -/
theorem witness_RefusedRequestChangesNothing_checks :
    let op (m : Mode) : State := { State.reset with control := { State.reset.control with mode := m } }
    (∀ x ∈ [(op .run, Port.line, Kind.mode, [0], some Result.notPermitted), (op .run, .panel, .mode, [], some .badFormat),
        (op .run, .line, .noticeEnable, [2, 0], some .notPermitted), (op .run, .line, .noticeEnable, [1, 0], none),
        (op .run, .panel, .noticeEnable, [1, 0], some .access), (op .setup, .panel, .restart, [], some .access),
        (op .run, .panel, .point, [0, 14], some .noPoint), (op .run, .panel, .point, [0, 129, 0, 0, 0, 0], some .readOnly),
        (op .run, .panel, .point, [0, 3, 0, 0, 0, 0], some .access), (inMode .run, .panel, .point, [0, 3, 0, 0, 0, 0], some .mode),
        (inMode .setup, .panel, .point, [0, 3, 0, 0, 0, 0], none), (op .setup, .panel, .speciesForce, [0], some .mode),
        (op .run, .panel, .speciesForce, [0], none)],
      refusal x.1 x.2.1 x.2.2.1 x.2.2.2.1 = x.2.2.2.2) := by decide +kernel

/-- A queue that a reply leaves empty, and one it leaves with a request of no known kind; a queue empty, held by a SAVE,
and headed by another kind. -/
theorem witness_RefusedRequestChangesNothing_replies :
    let s := State.reset.onPort .panel fun q => { q with queue := [ask .status [], ⟨0x7F, [], 0⟩] };
    headKnown ((asking State.reset .panel .status []).ports.get .panel).queue.tail = true ∧
      (s.ports.get .panel).queue.tail = [⟨0x7F, [], 0⟩] ∧ Kind.ofByte 0x7F = none ∧
      (State.reset.ports.get .panel).queue = [] ∧ inFlight.saving .panel = true ∧
      Kind.ofByte (ask .status []).kind ≠ some .resume := by decide +kernel

/-- A list headed by each kind of entry; a NOTICE due with a listing and with none; lists an entry is placed in. -/
theorem witness_SendingTakesFirstEntry :
    let s := fun x => State.reset.onPort .line fun q => { q with out := [x] };
    (∀ x ∈ [OutItem.telegram 0x81 [0], .advise 900, .noticeDue], ((s x).ports.get .line).out = [x]) ∧
      (State.reset.ports.get .line).out = [] ∧
      (NoticeKind.all.filter fun k => decide (k ∈ (State.reset.ports.get .line).status) &&
        decide (k ∈ (State.reset.ports.get .line).enable)) = [] ∧
      (NoticeKind.all.filter fun k => decide (k ∈ (State.reset.ports.get .panel).status) &&
        decide (k ∈ (State.reset.ports.get .panel).enable)) = [.storeDefaults] ∧
      [OutItem.advise 900, .noticeDue].countP OutItem.isAdvise ≤ 1 ∧ [OutItem.advise 900, .noticeDue].count .noticeDue ≤ 1 ∧
      [OutItem.noticeDue].countP OutItem.isAdvise = 0 ∧ OutItem.noticeDue ∉ [OutItem.advise 900] ∧
      placeAdvise 800 [.noticeDue, .advise 900, .telegram 0x81 [0]] = [.noticeDue, .advise 800, .telegram 0x81 [0]] := by
  decide +kernel

/-! ### Reads, points, notices, the store -/

/-- A POINT's payload at a read address, and at a write address with a value. -/
def pointAt (n : Nat) : List Byte := bytes16 (2 * n)
def pointSet (n : Nat) (v : Int) : List Byte := bytes16 (2 * n + 1) ++ bytesInt32 v

/-- A STATUS on each port, a TRACK_READ of a full track, reads of the first and the last points of the directory. -/
theorem witness_ReadsAnswerTheStateHeld :
    (∀ p ∈ [Port.scanner, .line, .panel], (asking State.reset p .status []).takes p .status (ask .status []) []) ∧
    (asking (State.withTrack State.reset fullTrack) .line .trackRead []).takes .line .trackRead (ask .trackRead []) [] ∧
    ∀ n ∈ [1, 49, 64, 89], (asking State.reset .panel .point (pointAt n)).takes .panel .point (ask .point (pointAt n)) [] ∧
      isWriteAddress (pointAt n) = false ∧ (State.reset.ports.get .panel).status.Nodup := by
  refine ⟨fun p h => asking_takes ?_, asking_takes (by decide +kernel), fun n h => ⟨asking_takes ?_, ?_⟩⟩
  · revert p; decide +kernel
  · revert n; decide +kernel
  · revert n; decide +kernel

/-- A write of a point of each row, at and beyond the ends of its range, taken in SETUP at ENGINEER. -/
theorem witness_PointWriteStoresTheHeldValue :
    (∀ x ∈ [(6, 500, WriteRow.general), (5, 399, .scale), (1, 12001, .geometry), (22, 50, .windowArm), (20, 100, .ceiling),
        (25, 301, .setpoint), (28, 2, .echo), (27, 1, .stop), (32, 9, .source), (39, 0, .gate), (49, -21, .threshold)],
      let payload := pointSet x.1 x.2.1;
      (asking eng .panel .point payload).takes .panel .point (ask .point payload) [] ∧ isWriteAddress payload = true ∧
        u16 payload 0 / 2 = x.1 ∧ (Point.ofNumber x.1).isSome ∧ writeRow (Point.ofNumber x.1) = x.2.2 ∧
        s32 payload 2 = x.2.1) ∧
    (∀ k, (asking eng .panel .point (pointSet 5 399)).ringRight k) ∧
    Point.scale.range.take 399 = some (400, true) ∧ (Point.markSource .m0).range.take 9 = none := by
  refine ⟨fun x h => ⟨asking_takes ?_, ?_⟩, rings_right (s := asking eng .panel .point (pointSet 5 399)) rfl rfl, by decide⟩
  · revert x; decide +kernel
  · revert x; decide +kernel

theorem witness_ScaleWriteClearsTheResidue :
    Point.ofNumber (u16 (pointSet 5 400) 0 / 2) = some .scale ∧ isWriteAddress (pointSet 5 400) = true ∧
      (asking eng .panel .point (pointSet 5 400)).takes .panel .point (ask .point (pointSet 5 400)) [] ∧
      (inMode .run).control.mode ≠ .setup ∧
      (let u : State := { State.reset with points := { factoryPoints with scale := 400 } };
        u.points.scale = (heldWithin 400 40000 (s32 (pointSet 5 400) 2)).toNat ∧ u.feed.residue = 0) :=
  ⟨by decide +kernel, by decide +kernel, asking_takes (by decide +kernel), by decide, by decide +kernel⟩

theorem witness_PointWritesReachTheirOwners_ceiling :
    let s := asking { driven .aPress .ok 0 with key := .engineer } .panel .point (pointSet 20 100)
    s.takes .panel .point (ask .point (pointSet 20 100)) [] ∧ isWriteAddress (pointSet 20 100) = true ∧
      Point.ofNumber (u16 (pointSet 20 100) 0 / 2) = some .ceiling ∧ (s.valve.chans.get .aPress).command = 580 :=
  ⟨asking_takes (by decide +kernel), by decide +kernel, by decide +kernel, rfl⟩

theorem witness_PointWritesReachTheirOwners_echo :
    ∀ on : Bool, let s := asking { driven .aPress .deviating 2 with key := .engineer } .panel .point (pointSet 28 on.toNat)
      s.takes .panel .point (ask .point (pointSet 28 on.toNat)) [] ∧ isWriteAddress (pointSet 28 on.toNat) = true ∧
        Point.ofNumber (u16 (pointSet 28 on.toNat) 0 / 2) = some (.echoEnable .aPress) ∧
        s32 (pointSet 28 on.toNat) 2 = on.toNat ∧ (s.valve.chans.get .aPress).state = .deviating := by
  refine fun on => ⟨asking_takes ?_, ?_⟩ <;> revert on <;> decide +kernel

theorem witness_PointWritesReachTheirOwners_permit :
    ∀ x ∈ [(27, 0, Point.stopOnRelease), (27, 1, .stopOnRelease), (36, 0, .markGate .m0), (39, 1, .markGate .m3),
        (32, 0, .markSource .m0), (35, 8, .markSource .m3)],
      let payload := pointSet x.1 x.2.1;
      (asking eng .panel .point payload).takes .panel .point (ask .point payload) [] ∧ isWriteAddress payload = true ∧
        Point.ofNumber (u16 payload 0 / 2) = some x.2.2 ∧ s32 payload 2 = x.2.1 := by
  intro x h
  refine ⟨asking_takes ?_, ?_⟩ <;> revert x <;> decide +kernel

/-- A write of a point handed to each owner, in SETUP and, where R176 lets it, in RUN with ring A pressing and ring B open. -/
theorem witness_PointWritesReachTheirOwners_owners :
    (∀ x ∈ [(1, 5000, Point.dA), (2, 1700, .dAB), (3, 400, .cA), (4, 900, .dX), (6, 200, .latencyComp)], let payload := pointSet x.1 x.2.1;
      (asking eng .panel .point payload).takes .panel .point (ask .point payload) [] ∧ isWriteAddress payload = true ∧
        Point.ofNumber (u16 payload 0 / 2) = some x.2.2 ∧ x.2.2.range.take (s32 payload 2) = some (x.2.1, false)) ∧
    (∀ x ∈ [(22, 200, Point.realignWindow), (23, 2000, .armDistance), (48, 50, .confidenceThreshold), (49, 0, .frostThreshold),
        (16, 200, .pressLiftDead), (17, 200, .liftPressDead), (18, 20, .riseStep), (19, 20, .fallStep), (21, 100, .floor),
        (24, 300, .blindDiameter), (25, 50, .parkLift), (26, 60, .releaseLift)], let payload := pointSet x.1 x.2.1;
      let s := asking { State.withTrack (inMode .run) [{ log 0 1 0 with samples := [] }] with ring := ⟨serving .body 0, resetSequencer⟩ }
        .panel .point payload
      s.takes .panel .point (ask .point payload) [] ∧ isWriteAddress payload = true ∧ (s.ringState .b = .idle) ∧
        Point.ofNumber (u16 payload 0 / 2) = some x.2.2 ∧ (x.2.2.range.take (s32 payload 2)).isSome ∧
        s.servedRec .a = some { log 0 1 0 with samples := [] } ∧ (s.ringState .a).pressing = true) := by
  refine ⟨fun x h => ⟨asking_takes ?_, ?_⟩, fun x h => ⟨asking_takes ?_, ?_⟩⟩ <;> revert x <;> decide +kernel

/-- A kind the Panel's set holds, and one it does not. -/
theorem witness_NoticesJoinTheStatusSets :
    NoticeKind.storeDefaults ∈ (State.reset.ports.get .panel).status ∧ NoticeKind.logMissing ∉ (State.reset.ports.get .panel).status := by
  decide

/-- Sets of the first and the last kind, of no kind, of a kind that is none; a port that is none. -/
theorem witness_NoticesJoinTheStatusSets_requests :
    (∀ payload ∈ [[2, 2, 0, 9], [0, 0], [2, 1, 10], [3, 0]],
      (asking eng .panel .noticeEnable payload).takes .panel .noticeEnable (ask .noticeEnable payload) [] ∧
        (asking eng .panel .noticeRaise payload).takes .panel .noticeRaise (ask .noticeRaise payload) []) ∧
    (∀ payload ∈ [[2, 0, 9], [0], [1, 10]],
      (asking eng .line .noticeClear payload).takes .line .noticeClear (ask .noticeClear payload) []) ∧
    kindsOf (codesAt [2, 2, 0, 9] 2 2) = some [.logMissing, .storeDefaults] ∧ kindsOf (codesAt [2, 1, 10] 2 1) = none ∧
    Port.ofCode 2 = some .panel ∧ Port.ofCode 3 = none := by
  refine ⟨fun x h => ⟨asking_takes ?_, asking_takes ?_⟩, fun x h => asking_takes ?_, by decide +kernel⟩
  all_goals revert x; decide +kernel

/-- A SAVE taken, and one whose write is in flight; sound settings. -/
theorem witness_SaveWritesTheSnapshot :
    (asking eng .panel .save []).takes .panel .save (ask .save []) [] ∧
      (asking eng .panel .save []).points.sound = true ∧ tableSound (asking eng .panel .save []).recipes.active = true ∧
      inFlight.store.snapshot = some factoryImage ∧ ((asking inFlight .panel .save []).ports.panel.queue) = [ask .save []] :=
  ⟨asking_takes (by decide +kernel), by decide +kernel, by decide +kernel, rfl, rfl⟩

end Sys2Proof.Tests
end

section
/-! PROOFS. What a port does with a request it takes, what a write of a point makes of the state, and the write of the
scale (R3). -/

namespace Sys2Proof.Machine

/-! ### A request that is taken -/

/-- The request a port takes is the one it looks for, where it is of those wanted. -/
theorem State.request?_of_takes {s : State} {p : Port} {k : Kind} {r : Req} {rest : List Req} {want : Req → Bool}
    (h : s.takes p k r rest) (hw : want r = true) : s.request? p want = some r := by
  obtain ⟨hqueue, hsaving⟩ := h.head
  simp [State.request?, hqueue, hsaving, hw]

/-- A request that is taken has its effect, and the reply its effect gives. -/
theorem State.serve_of_takes {s : State} {p : Port} {k : Kind} {r : Req} {rest : List Req} {want : Req → Bool}
    (h : s.takes p k r rest) (hw : want r = true) (effect : Req → State → Effect) :
    s.serve p k want effect = (effect r s).state.answer p r (effect r s).result (effect r s).rest := by
  have hpass : refusal s p k r.payload = none := h.passed.2
  simp only [State.serve, State.request?_of_takes h hw, hpass]

/-! ### Writes of points (R199) -/

/-- A write of a value its point takes stores the value, hands it to the point's owner and echoes it. -/
theorem writeEffect_of_take {r : Req} {q : Point} {v : Int} {held : Bool}
    (hq : Point.ofNumber (pointNumber r.payload) = some q) (hv : q.range.take (s32 r.payload 2) = some (v, held))
    (owner : Point → State → State → State) (s : State) :
    writeEffect owner r s = ⟨owner q s { s with points := s.points.write q v }, if held then .clamped else .ok,
      pointReply (pointNumber r.payload) v⟩ := by
  simp only [writeEffect, hq, hv]

/-- The row of a point takes its write: the owner's state, answered with the value stored. -/
theorem State.writeRow_of_takes {s : State} {p : Port} {r : Req} {rest : List Req} {q : Point} {v : Int} {held : Bool}
    (h : s.takes p .point r rest) (hw : isWriteAddress r.payload = true)
    (hq : Point.ofNumber (pointNumber r.payload) = some q) (hv : q.range.take (s32 r.payload 2) = some (v, held))
    (owner : Point → State → State → State) :
    s.writeRow p (Machine.writeRow (some q)) owner =
      (owner q s { s with points := s.points.write q v }).answer p r (if held then .clamped else .ok)
        (pointReply (pointNumber r.payload) v) := by
  have hkind : Kind.ofByte r.kind = some .point := h.passed.1
  have hwant : writeOf (fun x => decide (Machine.writeRow x = Machine.writeRow (some q))) r = true := by
    simp [writeOf, ofKind, hkind, hw, hq]
  rw [State.writeRow, State.serve_of_takes h hwant, writeEffect_of_take hq hv]

/-- A POINT that passes the checks of R194 passes those of its point. -/
theorem pointRefusal_of_refusal {s : State} {p : Port} {payload : List Byte}
    (h : refusal s p .point payload = none) : pointRefusal s payload = none := by
  simp only [refusal, reduceIte] at h
  split_ifs at h
  exact h

/-- Outside SETUP a write of a geometry point is refused, on every port and at every key level. -/
theorem refusal_geometry_write_ne_none {s : State} {payload : List Byte} {q : Point}
    (hq : Point.ofNumber (pointNumber payload) = some q) (hcls : q.cls = .geometry)
    (hw : isWriteAddress payload = true) (hmode : s.control.mode ≠ .setup) (p : Port) :
    refusal s p .point payload ≠ none := by
  intro h
  have hpoint : pointRefusal s payload = none := pointRefusal_of_refusal h
  by_cases hkey : s.key = .operator <;> simp [pointRefusal, hq, hw, hcls, hkey, hmode] at hpoint

/-! ### The scale (R2, R3) -/

theorem Point.ofNumber_eq_scale {n : Nat} : Point.ofNumber n = some .scale ↔ n = 5 := by
  refine ⟨fun h => ?_, fun h => h ▸ rfl⟩
  unfold Point.ofNumber at h
  split at h <;> simp_all

theorem exec_scaleWrite (p : Port) (s : State) : exec (.scaleWrite p) s = .next (s.writeRow p .scale scaleOwner) := rfl

/-- A forward change of the lines gives the forward steps of the residue (R1, R2). -/
theorem State.acceptEnc_next_steps (s : State) :
    (s.acceptEnc (nextEnc s.feed.enc)).2 = ((forwardSteps s.points.scale s.feed.residue).1, true) := by
  have hcount : encoderCount s.feed.enc (nextEnc s.feed.enc) = .forward := if_pos rfl
  simp only [State.acceptEnc, hcount]

/-- Settles O57: the scale's row takes the write and its owner clears the residue of the state with the scale stored. -/
theorem scaleWriteClearsTheResidue : Obligations.ScaleWriteClearsTheResidue := by
  intro s p r rest hq hw
  refine ⟨fun h => ⟨?_, fun u hscale hresidue => ?_⟩, fun hmode => ?_⟩
  · have hn : pointNumber r.payload = 5 := Point.ofNumber_eq_scale.mp hq
    have hrow : Machine.writeRow (some .scale) = .scale := rfl
    rw [exec_scaleWrite, ← hrow, State.writeRow_of_takes h hw hq rfl, hn]
    simp [scaleOwner, Points.write, pointReply]
  · rw [State.acceptEnc_next_steps, hscale, hresidue]
    simp only [forwardSteps, Nat.zero_add]
  · exact refusal_geometry_write_ne_none hq rfl hw hmode p

end Sys2Proof.Machine
end

section
/-! PROOFS. A record's sample list and the number of samples its length asks for. -/

namespace Sys2Proof.Machine

/-! ### The number of samples (R22) -/

theorem sampleCount_mul_lt (length : Nat) : sampleCount length * 200 < length + 200 := by
  unfold sampleCount
  omega

theorem le_sampleCount_mul (length : Nat) : length ≤ sampleCount length * 200 := by
  unfold sampleCount
  omega

/-- The lengths R20 admits ask for 5 to 60 samples. -/
theorem sampleCount_bounds {length : Nat} (hmin : 1000 ≤ length) (hmax : length ≤ 12000) :
    5 ≤ sampleCount length ∧ sampleCount length ≤ 60 := by
  have hbelow := sampleCount_mul_lt length
  have habove := le_sampleCount_mul length
  omega

/-! ### The list fitted (R22) -/

theorem fitSamples_of_length_lt {n : Nat} {l : List Nat} (h : l.length < n) :
    fitSamples n l = (l ++ List.replicate (n - l.length) (l.getLastD 0), [.samplesHeld]) := if_pos h

theorem fitSamples_of_lt_length {n : Nat} {l : List Nat} (h : n < l.length) :
    fitSamples n l = (l.take n, [.samplesExtra]) :=
  (if_neg h.not_gt).trans (if_pos h)

theorem fitSamples_of_length_eq {n : Nat} {l : List Nat} (h : l.length = n) : fitSamples n l = (l, []) :=
  (if_neg h.not_lt).trans (if_neg h.not_gt)

@[simp] theorem length_fitSamples (n : Nat) (l : List Nat) : (fitSamples n l).1.length = n := by
  obtain hshort | hexact | hlong := lt_trichotomy l.length n
  · rw [fitSamples_of_length_lt hshort, List.length_append, List.length_replicate]
    exact Nat.add_sub_of_le hshort.le
  · rw [fitSamples_of_length_eq hexact, hexact]
  · rw [fitSamples_of_lt_length hlong, List.length_take_of_le hlong.le]

/-- Settles O17: the rounding of `sampleCount`, and the three cases of `fitSamples` by the length of the list sent. -/
theorem samplesAreFittedToTheLength : Obligations.SamplesAreFittedToTheLength := by
  intro length l _ n
  exact ⟨length_fitSamples n l, sampleCount_mul_lt length, le_sampleCount_mul length, sampleCount_bounds,
    fitSamples_of_length_lt, fitSamples_of_lt_length, fitSamples_of_length_eq⟩

end Sys2Proof.Machine
end

section
/-! PROOFS. What RECIPE_READ answers (R72). -/

namespace Sys2Proof.Machine

/-! ### A request of a kind of its own -/

theorem State.ofKind_of_takes {s : State} {p : Port} {k : Kind} {r : Req} {rest : List Req} (h : s.takes p k r rest) :
    ofKind k r = true :=
  decide_eq_true h.passed.1

/-! ### The table named -/

theorem Recipes.table_of_one_lt {n : Nat} (h : 1 < n) (recipes : Recipes) : recipes.table n = none := by
  match n, h with
  | _ + 2, _ => rfl

theorem Recipes.table_of_le_one {n : Nat} (h : n ≤ 1) (recipes : Recipes) :
    recipes.table n = some (if n = 0 then recipes.active else recipes.shadow) := by
  match n, h with
  | 0, _ => rfl
  | 1, _ => rfl

/-! ### The effect of the read -/

theorem recipeReadEffect_of_no_table {s : State} {r : Req} (h : s.recipes.table (u8 r.payload 0) = none) :
    recipeReadEffect r s = ⟨s, .badValue, []⟩ := by
  simp only [recipeReadEffect, h]

theorem recipeReadEffect_of_no_slot {s : State} {r : Req} (h : 23 < u8 r.payload 1) :
    recipeReadEffect r s = ⟨s, .badValue, []⟩ := by
  cases htable : s.recipes.table (u8 r.payload 0) with
  | none => exact recipeReadEffect_of_no_table htable
  | some t => simp only [recipeReadEffect, htable, if_pos h]

theorem recipeReadEffect_of_empty {s : State} {r : Req} {t : Table} (htable : s.recipes.table (u8 r.payload 0) = some t)
    (hslot : u8 r.payload 1 ≤ 23) (hempty : ∀ x, t[u8 r.payload 1]? ≠ some (some x)) :
    recipeReadEffect r s = ⟨s, .noRecord, []⟩ := by
  have hnone : (t[u8 r.payload 1]?).join = none := by
    simpa only [Option.eq_none_iff_forall_ne_some, ne_eq, Option.join_eq_some_iff] using hempty
  simp only [recipeReadEffect, htable, if_neg hslot.not_gt, hnone]

theorem recipeReadEffect_of_found {s : State} {r : Req} {t : Table} {x : Species}
    (htable : s.recipes.table (u8 r.payload 0) = some t) (hslot : u8 r.payload 1 ≤ 23)
    (hfound : t[u8 r.payload 1]? = some (some x)) :
    recipeReadEffect r s = ⟨s, .ok, byte (u8 r.payload 0) :: byte (u8 r.payload 1) :: speciesBytes x⟩ := by
  simp only [recipeReadEffect, htable, if_neg hslot.not_gt, hfound, Option.join_some]

/-! ### The answer -/

/-- A RECIPE_READ that is taken is answered as its effect says, on the state as it stands. -/
theorem exec_recipeRead_of_takes {s : State} {p : Port} {r : Req} {rest : List Req} (h : s.takes p .recipeRead r rest) :
    exec (.recipeRead p) s =
      .next (s.answer p r (recipeReadEffect r s).result (recipeReadEffect r s).rest) := by
  have harm : exec (.recipeRead p) s =
      .next (s.serve p .recipeRead (ofKind .recipeRead) recipeReadEffect) := rfl
  rw [harm, State.serve_of_takes h (State.ofKind_of_takes h), recipeReadEffect_state]

/-- Settles O29: the four outcomes of the read's effect, by the table named, the slot and what stands in it. -/
theorem recipeReadAnswersTheSlot : Obligations.RecipeReadAnswersTheSlot := by
  intro s p r rest htakes table slot t
  rw [exec_recipeRead_of_takes htakes]
  refine ⟨fun hnone => ?_, fun htable hslot hempty => ?_, fun x htable hslot hfound => ?_⟩
  · have heffect : recipeReadEffect r s = ⟨s, .badValue, []⟩ := by
      obtain htable | hslot := hnone
      · exact recipeReadEffect_of_no_table (Recipes.table_of_one_lt htable s.recipes)
      · exact recipeReadEffect_of_no_slot hslot
    rw [heffect]
  · rw [recipeReadEffect_of_empty (Recipes.table_of_le_one htable s.recipes) hslot hempty]
  · rw [recipeReadEffect_of_found (Recipes.table_of_le_one htable s.recipes) hslot hfound]

end Sys2Proof.Machine
end

section
/-! PROOFS. The setpoint arithmetic (05): bounds on a rounded quotient, the reading of a curve, stages 2 to 6. -/

namespace Sys2Proof.Machine

/-! ### Rounded quotients (R86) -/

theorem roundDiv_le {a c : Int} {b : Nat} (hb : 0 < b) (h : a ≤ c * b) : roundDiv a b ≤ c := by
  have htwo : (0 : Int) < 2 * b := by omega
  unfold roundDiv
  split <;> push_cast
  · next hnonneg =>
    rw [Int.toNat_of_nonneg hnonneg]
    exact Int.lt_add_one_iff.mp ((Int.ediv_lt_iff_lt_mul htwo).mpr (by linarith))
  · next hneg =>
    rw [Int.toNat_of_nonneg (by omega)]
    exact Int.neg_le_of_neg_le ((Int.le_ediv_iff_mul_le htwo).mpr (by linarith))

theorem le_roundDiv {a c : Int} {b : Nat} (hb : 0 < b) (h : c * b ≤ a) : c ≤ roundDiv a b := by
  have htwo : (0 : Int) < 2 * b := by omega
  unfold roundDiv
  split <;> push_cast
  · next hnonneg =>
    rw [Int.toNat_of_nonneg hnonneg]
    exact (Int.le_ediv_iff_mul_le htwo).mpr (by linarith)
  · next hneg =>
    rw [Int.toNat_of_nonneg (by omega)]
    exact Int.le_neg_of_le_neg (Int.lt_add_one_iff.mp ((Int.ediv_lt_iff_lt_mul htwo).mpr (by linarith)))

/-- A multiple of the divisor is divided exactly. -/
theorem roundDivNat_mul_self (a : Nat) {b : Nat} (hb : 0 < b) : roundDivNat (a * b) b = a := by
  have hsum : 2 * (a * b) + b = 2 * b * a + b := by ring
  rw [roundDivNat, hsum, Nat.mul_add_div (by omega), Nat.div_eq_of_lt (by omega), Nat.add_zero]

@[simp] theorem roundDivNat_zero (b : Nat) : roundDivNat 0 b = 0 := by
  obtain rfl | hb := b.eq_zero_or_pos
  · rfl
  · simpa only [Nat.zero_mul] using roundDivNat_mul_self 0 hb

/-! ### One segment of a curve (R93) -/

/-- The pressure a segment of a curve has at a diameter, as `readCurveFrom` computes it. -/
def segmentPress (q r : CurvePoint) (d : Nat) : Int :=
  q.press + roundDiv (((r.press : Int) - q.press) * ((d : Int) - q.diam)) (r.diam - q.diam)

section Segment

variable {q r : CurvePoint} {d : Nat}

theorem segmentPress_at_start (hqr : q.diam < r.diam) : segmentPress q r q.diam = q.press := by
  have hpos : 0 < r.diam - q.diam := by omega
  have hzero : roundDiv 0 (r.diam - q.diam) = 0 :=
    le_antisymm (roundDiv_le hpos (by simp)) (le_roundDiv hpos (by simp))
  simp [segmentPress, hzero]

/-- Within the segment the fraction of the way is at most 1, so the pressure lies between those of the ends. -/
theorem segmentPress_bounds (hq : q.diam ≤ d) (hr : d < r.diam) :
    (min q.press r.press : Nat) ≤ segmentPress q r d ∧ segmentPress q r d ≤ (max q.press r.press : Nat) := by
  have hpos : 0 < r.diam - q.diam := by omega
  have hway : (0 : Int) ≤ (d : Int) - q.diam := by omega
  have hlen : (d : Int) - q.diam ≤ (r.diam - q.diam : Nat) := by omega
  unfold segmentPress
  obtain hle | hle := le_total q.press r.press
  · have hrise : (0 : Int) ≤ (r.press : Int) - q.press := by omega
    have hlow := le_roundDiv (c := 0) hpos (by simpa using mul_nonneg hrise hway)
    have hhigh := roundDiv_le hpos (mul_le_mul_of_nonneg_left hlen hrise)
    omega
  · have hfall : (r.press : Int) - q.press ≤ 0 := by omega
    have hlow := le_roundDiv hpos (mul_le_mul_of_nonpos_left hlen hfall)
    have hhigh := roundDiv_le (c := 0) hpos (by simpa using mul_nonpos_of_nonpos_of_nonneg hfall hway)
    omega

end Segment

/-! ### The reading of a rising curve (R93) -/

/-- The diameters of a curve's points rise strictly (R65). -/
def Rising (l : List CurvePoint) : Prop := l.Pairwise fun q r => q.diam < r.diam

theorem rising_cons {q : CurvePoint} {l : List CurvePoint} :
    Rising (q :: l) ↔ (∀ r ∈ l, q.diam < r.diam) ∧ Rising l :=
  List.pairwise_cons

theorem isChain_of_zip_tail {l : List CurvePoint}
    (h : (l.zip l.tail).all (fun q => decide (q.1.diam < q.2.diam)) = true) :
    l.IsChain fun q r => q.diam < r.diam := by
  induction l using List.twoStepInduction with
  | nil => exact .nil
  | singleton q => exact .singleton q
  | cons_cons q r rest _ ih =>
    simp only [List.tail_cons, List.zip_cons_cons, List.all_cons, Bool.and_eq_true, decide_eq_true_eq] at h
    exact List.isChain_cons_cons.mpr ⟨h.1, ih r h.2⟩

theorem rising_of_curveFits {l : List CurvePoint} (h : curveFits l = true) : Rising l := by
  simp only [curveFits, Bool.and_eq_true] at h
  have hdiams : (l.map CurvePoint.diam).IsChain (· < ·) :=
    (List.isChain_map CurvePoint.diam).mpr (isChain_of_zip_tail h.2)
  exact List.pairwise_map.mp (List.isChain_iff_pairwise.mp hdiams)

theorem readCurveFrom_of_lt {q r : CurvePoint} {d : Nat} (h : d < r.diam) (rest : List CurvePoint) :
    readCurveFrom d (q :: r :: rest) = (segmentPress q r d, false) := if_pos h

theorem readCurveFrom_of_le {q r : CurvePoint} {d : Nat} (h : r.diam ≤ d) (rest : List CurvePoint) :
    readCurveFrom d (q :: r :: rest) = readCurveFrom d (r :: rest) := if_neg h.not_gt

section Curve

variable {l : List CurvePoint} {d : Nat} {first last : CurvePoint}

theorem Rising.eq_head_or_lt (h : Rising l) (hfirst : l.head? = some first) {q : CurvePoint} (hq : q ∈ l) :
    q = first ∨ first.diam < q.diam := by
  obtain ⟨rest, rfl⟩ := List.head?_eq_some_iff.mp hfirst
  exact (List.mem_cons.mp hq).imp_right ((rising_cons.mp h).1 q)

theorem Rising.head_le (h : Rising l) (hfirst : l.head? = some first) {q : CurvePoint} (hq : q ∈ l) :
    first.diam ≤ q.diam := by
  obtain rfl | hlt := h.eq_head_or_lt hfirst hq
  · exact le_rfl
  · exact hlt.le

theorem readCurveFrom_of_last_le (h : Rising l) (hlast : l.getLast? = some last) (hd : last.diam ≤ d) :
    (readCurveFrom d l).1 = last.press := by
  induction l using List.twoStepInduction with
  | nil => cases hlast
  | singleton q => cases hlast; rfl
  | cons_cons q r rest _ ih =>
    rw [List.getLast?_cons_cons] at hlast
    have htail : Rising (r :: rest) := (rising_cons.mp h).2
    rw [readCurveFrom_of_le ((htail.head_le rfl (List.mem_of_getLast? hlast)).trans hd), ih r htail hlast]

theorem readCurveFrom_snd_iff (h : Rising l) (hlast : l.getLast? = some last) :
    (readCurveFrom d l).2 = true ↔ last.diam < d := by
  induction l using List.twoStepInduction with
  | nil => cases hlast
  | singleton q => cases hlast; exact decide_eq_true_iff
  | cons_cons q r rest _ ih =>
    rw [List.getLast?_cons_cons] at hlast
    have htail : Rising (r :: rest) := (rising_cons.mp h).2
    have hle : r.diam ≤ last.diam := htail.head_le rfl (List.mem_of_getLast? hlast)
    obtain hlt | hge := lt_or_ge d r.diam
    · simp only [readCurveFrom_of_lt hlt, Bool.false_eq_true, false_iff]
      omega
    · rw [readCurveFrom_of_le hge, ih r htail hlast]

/-- The segment read is the one the diameter falls in. -/
theorem readCurveFrom_of_segment {i : Nat} {q r : CurvePoint} (h : Rising l) (hq : l[i]? = some q)
    (hr : l[i + 1]? = some r) (hqd : q.diam ≤ d) (hdr : d < r.diam) :
    readCurveFrom d l = (segmentPress q r d, false) := by
  induction l using List.twoStepInduction generalizing i with
  | nil => cases hq
  | singleton x => cases hr
  | cons_cons x y rest _ ih =>
    cases i with
    | zero =>
      cases hq
      cases hr
      exact readCurveFrom_of_lt hdr rest
    | succ j =>
      have htail : Rising (y :: rest) := (rising_cons.mp h).2
      have hmem : q ∈ y :: rest := List.mem_of_getElem? (i := j) hq
      have hyq : y.diam ≤ q.diam := htail.head_le rfl hmem
      rw [readCurveFrom_of_le (hyq.trans hqd), ih y htail hq hr]

theorem readCurve_of_le_head (hfirst : l.head? = some first) (hd : d ≤ first.diam) :
    readCurve l d = (first.press, decide (d < first.diam)) := by
  obtain ⟨rest, rfl⟩ := List.head?_eq_some_iff.mp hfirst
  exact if_pos hd

theorem readCurve_of_head_lt (hfirst : l.head? = some first) (hd : first.diam < d) :
    readCurve l d = ((readCurveFrom d l).1.toNat, (readCurveFrom d l).2) := by
  obtain ⟨rest, rfl⟩ := List.head?_eq_some_iff.mp hfirst
  exact if_neg hd.not_ge

theorem readCurve_of_last_le (h : Rising l) (hfirst : l.head? = some first) (hlast : l.getLast? = some last)
    (hd : last.diam ≤ d) : (readCurve l d).1 = last.press := by
  obtain hhead | hhead := le_or_gt d first.diam
  · obtain rfl | hlt := h.eq_head_or_lt hfirst (List.mem_of_getLast? hlast)
    · rw [readCurve_of_le_head hfirst hhead]
    · omega
  · rw [readCurve_of_head_lt hfirst hhead, readCurveFrom_of_last_le h hlast hd, Int.toNat_natCast]

/-- A diameter at the first point is in the first segment, whose start has the first point's pressure. -/
theorem readCurve_of_segment {i : Nat} {q r : CurvePoint} (h : Rising l) (hfirst : l.head? = some first)
    (hq : l[i]? = some q) (hr : l[i + 1]? = some r) (hqd : q.diam ≤ d) (hdr : d < r.diam) :
    ((readCurve l d).1 : Int) = segmentPress q r d := by
  obtain hhead | hhead := le_or_gt d first.diam
  · obtain rfl | hlt := h.eq_head_or_lt hfirst (List.mem_of_getElem? hq)
    · obtain rfl := hhead.antisymm hqd
      rw [readCurve_of_le_head hfirst hhead, segmentPress_at_start hdr]
    · omega
  · have hnonneg : 0 ≤ segmentPress q r d := (Int.natCast_nonneg _).trans (segmentPress_bounds hqd hdr).1
    rw [readCurve_of_head_lt hfirst hhead, readCurveFrom_of_segment h hq hr hqd hdr, Int.toNat_of_nonneg hnonneg]

theorem readCurve_snd_iff (h : Rising l) (hfirst : l.head? = some first) (hlast : l.getLast? = some last) :
    (readCurve l d).2 = true ↔ d < first.diam ∨ last.diam < d := by
  have hle : first.diam ≤ last.diam := h.head_le hfirst (List.mem_of_getLast? hlast)
  obtain hd | hd := le_or_gt d first.diam
  · rw [readCurve_of_le_head hfirst hd, decide_eq_true_iff]
    omega
  · rw [readCurve_of_head_lt hfirst hd, readCurveFrom_snd_iff h hlast]
    omega

end Curve

/-! ### The curve chosen (R93) -/

theorem Species.curveFor_frozen_of_some {r : Species} {c : List CurvePoint} (h : r.frozenCurve = some c) :
    r.curveFor true = c := by
  simp [Species.curveFor, h]

theorem Species.curveFor_frozen_of_none {r : Species} (h : r.frozenCurve = none) :
    r.curveFor true = r.baseCurve := by
  simp [Species.curveFor, h]

@[simp] theorem Species.curveFor_not_frozen (r : Species) : r.curveFor false = r.baseCurve := rfl

/-- Settles O33: the reading below the first point, above the last and in a segment of a rising curve. -/
theorem curveIsReadByDiameter : Obligations.CurveIsReadByDiameter := by
  refine ⟨fun l d hfits first last hfirst hlast => ?_, fun r =>
    ⟨fun c => Species.curveFor_frozen_of_some, Species.curveFor_frozen_of_none, r.curveFor_not_frozen⟩⟩
  have hrising : Rising l := rising_of_curveFits hfits
  refine ⟨fun hd => by rw [readCurve_of_le_head hfirst hd], readCurve_of_last_le hrising hfirst hlast,
    fun i q r hq hr hqd hdr => ?_, readCurve_snd_iff hrising hfirst hlast⟩
  have hread : ((readCurve l d).1 : Int) = segmentPress q r d := readCurve_of_segment hrising hfirst hq hr hqd hdr
  obtain ⟨hlow, hhigh⟩ := segmentPress_bounds hqd hdr
  exact ⟨hread, Int.ofNat_le.mp (hread ▸ hlow), Int.ofNat_le.mp (hread ▸ hhigh)⟩

/-! ### Stages 2 to 5 (R94 to R97) -/

theorem stageFrost_eq (r : Species) (frozen : Bool) (p : Nat) :
    stageFrost r frozen p =
      if frozen = true ∧ r.frozenCurve = none then roundDivNat (p * r.frostPct) 100 else p := by
  simp [stageFrost]

@[simp] theorem stageSpeed_at_rest (r : Species) (p : Nat) : stageSpeed r 0 p = p := by
  simp [stageSpeed]

/-- In the body the phase factor is 100, which leaves the pressure as it is. -/
theorem roundDivNat_phaseFactor (r : Species) {phase : RingState} (h : phase.pressing = true) (p : Nat) :
    roundDivNat (p * r.phaseFactor phase) 100 =
      if phase = .body then p else roundDivNat (p * (if phase = .entry then r.entryPct else r.tailPct)) 100 := by
  cases phase with
  | entry | tail => rfl
  | body => exact roundDivNat_mul_self p (Nat.succ_pos 99)
  | idle | armed | held => cases h

theorem pass_of_share_eq_zero {r : Species} {k : Ring} (h : r.share k = 0) (frozen : Bool) (phase : RingState)
    (d v : Nat) : (pass r frozen k phase d v).1 = 0 := by
  simp [pass, h]

/-! ### Stage 6 (R98) -/

/-- What a pass that goes on to stage 7 hands over: its pressure, its record's limit, EXTRAP where it has it, and the
flags stage 6 adds. -/
def passedOn (x : Nat × Bool) (limit : Nat) (more : List Flag) : Nat × Nat × List Flag :=
  (x.1, limit, (if x.2 then [.extrap] else []) ++ more)

theorem extrap_mem_passedOn {more : List Flag} (h : Flag.extrap ∉ more) (x : Nat × Bool) (limit : Nat) :
    Flag.extrap ∈ (passedOn x limit more).2.2 ↔ x.2 = true := by
  cases hx : x.2 <;> simp [passedOn, hx, h]

theorem uncertainMerge_mem_passedOn {more : List Flag} (x : Nat × Bool) (limit : Nat) :
    Flag.uncertainMerge ∈ (passedOn x limit more).2.2 ↔ Flag.uncertainMerge ∈ more := by
  cases hx : x.2 <;> simp [passedOn, hx]

section Merge

variable {b : Bound} {f : Species} {k : Ring} {phase : RingState} {d v : Nat}

theorem stageMerge_of_no_fallback (h : b.fallback = none) :
    stageMerge b k phase d v = passedOn (pass b.species b.frozen k phase d v) b.species.maxPress [] := by
  simp only [stageMerge, h, passedOn]

theorem stageMerge_of_fallback_lower (h : b.fallback = some f)
    (hlt : (pass f b.frozen k phase d v).1 < (pass b.species b.frozen k phase d v).1) :
    stageMerge b k phase d v = passedOn (pass f b.frozen k phase d v) f.maxPress [.uncertainMerge] := by
  simp only [stageMerge, h, if_pos hlt, passedOn]

theorem stageMerge_of_fallback_not_lower (h : b.fallback = some f)
    (hle : (pass b.species b.frozen k phase d v).1 ≤ (pass f b.frozen k phase d v).1) :
    stageMerge b k phase d v = passedOn (pass b.species b.frozen k phase d v) b.species.maxPress [] := by
  simp only [stageMerge, h, if_neg hle.not_gt, passedOn]

end Merge

/-- Settles O34: the equations of the stages of a pass, and of the merge by whether the fallback's pass is strictly
lower. -/
theorem stagesTwoToSixOfAPressTarget : Obligations.StagesTwoToSixOfAPressTarget := by
  refine ⟨?_, fun b k phase d v => ?_⟩
  · intro r frozen k phase d v hphase p1 p2 p3 p4 share
    have hshare : r.share k = share := by cases k <;> rfl
    have hp2 : stageFrost r frozen p1 = p2 := stageFrost_eq r frozen p1
    have hp3 : stageSpeed r v (stageFrost r frozen p1) = p3 := by rw [hp2, stageSpeed]
    have hp4 : roundDivNat (p3 * r.phaseFactor phase) 100 = p4 := roundDivNat_phaseFactor r hphase p3
    refine ⟨?_, fun hv => ?_, fun hzero => pass_of_share_eq_zero (hshare.trans hzero) frozen phase d v⟩
    · rw [← hp4, ← hp3, ← hshare, pass]
    · rw [← hp3, hv, stageSpeed_at_rest, hp2]
  intro x m
  refine ⟨fun hnone => ?_, fun f hsome => ?_⟩
  · have hm : m = passedOn x b.species.maxPress [] := stageMerge_of_no_fallback hnone
    rw [hm, uncertainMerge_mem_passedOn]
    exact ⟨rfl, rfl, List.not_mem_nil, extrap_mem_passedOn List.not_mem_nil x _⟩
  · intro y
    obtain hlt | hle := lt_or_ge y.1 x.1
    · have hm : m = passedOn y f.maxPress [.uncertainMerge] := stageMerge_of_fallback_lower hsome hlt
      rw [hm, uncertainMerge_mem_passedOn, extrap_mem_passedOn (by decide)]
      exact ⟨(min_eq_right hlt.le).symm, by simp [hlt], fun _ => ⟨rfl, Iff.rfl⟩, fun hle => absurd hlt hle.not_gt⟩
    · have hm : m = passedOn x b.species.maxPress [] := stageMerge_of_fallback_not_lower hsome hle
      rw [hm, uncertainMerge_mem_passedOn, extrap_mem_passedOn List.not_mem_nil]
      exact ⟨(min_eq_left hle).symm, by simp [hle.not_gt], fun hlt => absurd hlt hle.not_gt, fun _ => ⟨rfl, Iff.rfl⟩⟩

end Sys2Proof.Machine
end

section
/-! PROOFS. The commands that are ordinary changes, and FEED_PERMIT at the value of its three terms (R169). -/

namespace Sys2Proof.Machine

/-! ### The ordinary commands -/

/-- A command that is neither a start, nor brings a telegram that may be a RESTART, nor changes the mode, nor writes a
point, nor moves a valve's command, nor has the Release Unit take an input's level. -/
def isOrdinary : Instr → Bool
  | .powerOn _ | .restart _ | .telegramReceived .. | .byteReceived .. | .mode _
  | .pointWrite _ | .scaleWrite _ | .geometryWrite _ | .windowArmWrite _ | .ceilingWrite _ | .setpointPointWrite _
  | .echoEnableWrite _ | .stopOnReleaseWrite _ | .markSourceWrite _ | .markGateWrite _ | .thresholdWrite _
  | .valveFrame | .deadIntervalExpiry _
  | .estopInputChange _ | .estopInactiveTaken | .rotorLevelTaken _ => false
  | _ => true

/-- An ordinary command answers a next state, and comes to it by an ordinary change. -/
theorem exec_ordinary {s : State} (hr : ∀ k, s.ringRight k) :
    ∀ i : Instr, isOrdinary i = true → ∃ t, exec i s = .next t ∧ Ordinary s t
  | .interByteTimeout _, _ => ⟨_, rfl, .core (onPort_core _ _ _)⟩
  | .telegramSendBegin _, _ => ⟨_, rfl, .core (onPort_core _ _ _)⟩
  | .status _, _ => ⟨_, rfl, s.serve_ordinary _ _ _ _ fun _ => .refl s⟩
  | .profile _, _ => ⟨_, rfl, s.serve_ordinary _ _ _ _ (profileEffect_ordinary hr)⟩
  | .trackRead _, _ => ⟨_, rfl, s.serve_ordinary _ _ _ _ fun _ => .refl s⟩
  | .speciesSet _, _ => ⟨_, rfl, s.serve_ordinary _ _ _ _ (speciesSetEffect_ordinary s)⟩
  | .speciesForce _, _ => ⟨_, rfl, s.serve_ordinary _ _ _ _ (speciesForceEffect_ordinary hr)⟩
  | .release p, _ => ⟨_, rfl, s.serve_ordinary _ _ _ _ (releaseEffect_ordinary s p)⟩
  | .resume _, _ => ⟨_, rfl, s.serve_ordinary _ _ _ _ (resumeEffect_ordinary s)⟩
  | .mark _, _ => ⟨_, rfl, s.serve_ordinary _ _ _ _ (markEffect_ordinary s)⟩
  | .winter _, _ => ⟨_, rfl, s.serve_ordinary _ _ _ _ fun _ => s.setSeason_ordinary _⟩
  | .summer _, _ => ⟨_, rfl, s.serve_ordinary _ _ _ _ fun _ => s.setSeason_ordinary _⟩
  | .recipeWrite _, _ => ⟨_, rfl, s.serve_ordinary _ _ _ _ (recipeWriteEffect_ordinary s)⟩
  | .recipeRead _, _ => ⟨_, rfl, s.serve_ordinary _ _ _ _ fun r => by rw [recipeReadEffect_state]; exact .refl s⟩
  | .recipeDelete _, _ => ⟨_, rfl, s.serve_ordinary _ _ _ _ (recipeDeleteEffect_ordinary s)⟩
  | .recipeCommit _, _ => ⟨_, rfl, s.serve_ordinary _ _ _ _ (recipeCommitEffect_ordinary s)⟩
  | .recipeDiscard _, _ => ⟨_, rfl, s.serve_ordinary _ _ _ _ fun _ => .core (recipes_core s _)⟩
  | .manualSet _, _ => ⟨_, rfl, s.serve_ordinary _ _ _ _ (manualSetEffect_ordinary s)⟩
  | .pointRead _, _ => ⟨_, rfl, s.serve_ordinary _ _ _ _ fun _ => .refl s⟩
  | .save p, _ => s.save_ordinary p
  | .saveComplete, _ => s.saveComplete_ordinary
  | .noticeEnable _, _ => ⟨_, rfl, s.serve_ordinary _ _ _ _ (noticeEnableEffect_ordinary s)⟩
  | .noticeClear p, _ => ⟨_, rfl, s.serve_ordinary _ _ _ _ (noticeClearEffect_ordinary s p)⟩
  | .noticeRaise _, _ => ⟨_, rfl, s.serve_ordinary _ _ _ _ (noticeRaiseEffect_ordinary s)⟩
  | .encoderChange x y, _ => State.encoder_ordinary hr x y
  | .speedUpdate, _ => ⟨_, rfl, s.speedUpdate_ordinary⟩
  | .cellRawChange c b, _ => State.cellRaw_ordinary hr c b
  | .cellEdge c, _ => State.cellEdge_ordinary hr c
  | .echoReceived c w, _ => (s.echo_ordinary c w).imp fun _ ⟨he, hi⟩ => ⟨he, .internal hi⟩
  | .deviationTimeout c, _ => (s.deviation_ordinary c).imp fun _ ⟨he, hi⟩ => ⟨he, .internal hi⟩
  | .rotorInputChange _ _, _ => ⟨_, rfl, .core (lines_core s _)⟩
  | .keyInputChange _, _ => ⟨_, rfl, .core (lines_core s _)⟩
  | .keyLevelTaken, _ => ⟨_, rfl, .core ⟨rfl, rfl, rfl, rfl, rfl, rfl, rfl, rfl, rfl, rfl⟩⟩

/-! ### The three terms (R169) -/

theorem Mark.mem_all (m : Mark) : m ∈ Mark.all := by cases m <;> decide

theorem State.gated_iff (s : State) :
    s.gated = true ↔ ∃ m, s.marks.get m = true ∧ s.points.markGate.get m = true := by
  simp [State.gated, Mark.mem_all]

theorem State.permitValue_eq_false_iff (s : State) :
    s.permitValue = false ↔
      s.release.estopActive = true ∨ (∃ m, s.marks.get m = true ∧ s.points.markGate.get m = true) ∨
        (s.release.level ≠ .none ∧ s.points.stopOnRelease = true) := by
  simp only [State.permitValue, Bool.not_eq_false', Bool.or_eq_true, Bool.and_eq_true, decide_eq_true_eq, s.gated_iff,
    or_assoc, and_comm (a := s.points.stopOnRelease = true)]

/-- The permit's terms read of the points the gate flags and stop_on_release alone. -/
theorem State.permitRight.withPoints {s : State} (h : s.permitRight) {pts : Points}
    (hgate : pts.markGate = s.points.markGate) (hstop : pts.stopOnRelease = s.points.stopOnRelease) :
    ({ s with points := pts } : State).permitRight := by
  simpa only [State.permitRight, State.permitValue, State.gated, hgate, hstop] using h

/-! ### Starts (R173) -/

/-- A start recomputes the permit, whatever it was before. -/
theorem State.startCauses_permitRight (s : State) : s.startCauses.permitRight := by
  unfold State.startCauses
  simp only
  split
  · exact (State.raiseCause_internal _ _).permitRight s.recomputePermit_permitRight
  · exact s.recomputePermit_permitRight

theorem State.warmRestart_permitRight (s : State) : s.warmRestart.permitRight :=
  State.startCauses_permitRight _

/-! ### Telegrams received -/

theorem SameCore.permitRight {s t : State} (c : SameCore s t) (h : s.permitRight) : t.permitRight :=
  (Ordinary.core c).permitRight h

theorem State.reply_core (s : State) (p : Port) (r : Req) (x : Result) (b : List Byte) : SameCore s (s.reply p r x b) :=
  onPort_core s p _

theorem State.receive_core (s : State) (p : Port) (r : Receiver) : SameCore s (s.receive p r) :=
  onPort_core s p _

theorem State.restartOnArrival_permitRight {s : State} (h : s.permitRight) (r : Req) :
    (s.restartOnArrival r).permitRight := by
  unfold State.restartOnArrival
  split
  · exact (s.reply_core _ _ _ _).permitRight h
  · exact (State.reply_core _ _ _ _ _).permitRight s.warmRestart_permitRight

theorem State.accept_permitRight {s : State} (h : s.permitRight) (p : Port) (kind : Byte) (payload : List Byte) :
    (s.accept p kind payload).permitRight := by
  unfold State.accept
  simp only
  split_ifs
  · exact h
  · exact (s.reply_core _ _ _ _).permitRight h
  · exact State.restartOnArrival_permitRight h _
  · exact (s.reply_core _ _ _ _).permitRight h
  · exact (onPort_core s _ _).permitRight h

theorem State.frameByte_permitRight {s : State} (h : s.permitRight) (p : Port) (bytes : List Byte) :
    (s.frameByte p bytes).permitRight := by
  have hreceive : ∀ r, (s.receive p r).permitRight := fun r => (s.receive_core p r).permitRight h
  unfold State.frameByte
  simp only
  split_ifs
  · exact hreceive _
  · exact hreceive _
  · exact State.accept_permitRight (hreceive _) _ _ _
  · exact hreceive _

theorem exec_telegramReceived_permitRight {s : State} (h : s.permitRight) (p : Port) (kind : Byte)
    (payload : List Byte) : ∃ t, exec (.telegramReceived p kind payload) s = .next t ∧ t.permitRight := by
  show ∃ t, execTelegramReceived p kind payload s = .next t ∧ t.permitRight
  unfold execTelegramReceived
  split
  · exact ⟨_, rfl, State.accept_permitRight ((s.receive_core _ _).permitRight h) _ _ _⟩
  · exact ⟨_, rfl, h⟩

theorem exec_byteReceived_permitRight {s : State} (h : s.permitRight) (p : Port) (b : Byte) :
    ∃ t, exec (.byteReceived p b) s = .next t ∧ t.permitRight := by
  show ∃ t, execByteReceived p b s = .next t ∧ t.permitRight
  unfold execByteReceived
  split
  · refine ⟨_, rfl, ?_⟩
    split
    · exact (s.receive_core _ _).permitRight h
    · exact h
  · exact ⟨_, rfl, State.frameByte_permitRight h _ _⟩

/-! ### Requests and writes of points -/

/-- The request a port takes is of those wanted. -/
theorem State.wanted_of_request? {s : State} {p : Port} {want : Req → Bool} {r : Req}
    (h : s.request? p want = some r) : want r = true := by
  unfold State.request? at h
  split at h
  · exact absurd h nofun
  · split at h
    · next hwant =>
      cases h
      exact (Bool.and_eq_true _ _ ▸ hwant).1
    · exact absurd h nofun

/-- A request keeps the permit right where its effect on the requests its row takes does. -/
theorem State.serve_permitRight {s : State} (h : s.permitRight) (p : Port) (k : Kind) {want : Req → Bool}
    {effect : Req → State → Effect} (heffect : ∀ r, want r = true → (effect r s).state.permitRight) :
    (s.serve p k want effect).permitRight := by
  unfold State.serve
  split
  · exact h
  · next r hrequest =>
    split
    · exact (s.answer_core _ _ _ _).permitRight h
    · exact (State.answer_core _ _ _ _ _).permitRight (heffect r (State.wanted_of_request? hrequest))

/-- A row's write keeps the permit right where the owner does at every point of the row. -/
theorem State.writeRow_permitRight {s : State} (h : s.permitRight) (p : Port) {row : WriteRow}
    {owner : Point → State → State → State}
    (howner : ∀ q v, Machine.writeRow (some q) = row →
      (owner q s { s with points := s.points.write q v }).permitRight) :
    (s.writeRow p row owner).permitRight := by
  refine State.serve_permitRight h p .point fun r hwant => ?_
  simp only [writeOf, Bool.and_eq_true, decide_eq_true_eq] at hwant
  obtain ⟨_, hrow⟩ := hwant
  unfold writeEffect
  simp only
  split
  · exact h
  · next q hq =>
    split
    · exact h
    · exact howner q _ (hq ▸ hrow)

theorem Points.write_markGate {q : Point} (hq : Machine.writeRow (some q) ≠ .gate) (pts : Points) (v : Int) :
    (pts.write q v).markGate = pts.markGate := by
  cases q with
  | markGate m => exact absurd rfl hq
  | _ => rfl

theorem Points.write_stopOnRelease {q : Point} (hq : Machine.writeRow (some q) ≠ .stop) (pts : Points) (v : Int) :
    (pts.write q v).stopOnRelease = pts.stopOnRelease := by
  cases q with
  | stopOnRelease => exact absurd rfl hq
  | _ => rfl

/-- A write of a point that is no term of the permit keeps it right where the owner's own work does. -/
theorem State.writeRow_permitRight_of_keeps {s : State} (hr : ∀ k, s.ringRight k) (h : s.permitRight) (p : Port)
    {row : WriteRow} {owner : Point → State → State → State} (hgate : row ≠ .gate) (hstop : row ≠ .stop)
    (howner : ∀ q (t : State), (∀ k, t.ringRight k) → t.permitRight → (owner q s t).permitRight) :
    (s.writeRow p row owner).permitRight :=
  State.writeRow_permitRight h p fun q v hrow =>
    howner q _ (fun k => ⟨(hr k).allowed, (hr k).named⟩)
      (h.withPoints (Points.write_markGate (hrow.trans_ne hgate) _ v) (Points.write_stopOnRelease (hrow.trans_ne hstop) _ v))

theorem setpointOwner_works (q : Point) (s t : State) : Works t (setpointOwner q s t) := by
  unfold setpointOwner
  split
  · exact t.evalPresses_works
  · exact (t.evalBlind_works _).trans (State.evalBlind_works _ _)
  · exact (t.evalLiftIn_works _ _).trans (State.evalLiftIn_works _ _ _)
  · exact (t.evalLiftIn_works _ _).trans (State.evalLiftIn_works _ _ _)
  · exact .refl t

theorem ceilingOwner_permitRight {t : State} (h : t.permitRight) (q : Point) (s : State) :
    (ceilingOwner q s t).permitRight := by
  have hceiling : t.valveCeiling.permitRight := h
  exact (State.evalBoth_works _).permitRight hceiling

theorem echoOwner_permitRight {t : State} (h : t.permitRight) (q : Point) (s : State) :
    (echoOwner q s t).permitRight := by
  unfold echoOwner
  split
  · exact h
  · exact h

/-! ### The mode, the frames, the inputs -/

theorem modeEffect_permitRight {s : State} (hr : ∀ k, s.ringRight k) (h : s.permitRight) (r : Req) :
    (modeEffect r s).state.permitRight := by
  unfold modeEffect
  split
  · exact h
  · next m _ =>
    have hmoded : (s.moded m).permitRight := h
    split_ifs
    · exact h
    · exact h
    · exact (State.changeMode_chain hr m).1.permitRight hmoded

theorem exec_valveFrame_permitRight {s : State} (h : s.permitRight) :
    ∃ t, exec .valveFrame s = .next t ∧ t.permitRight := by
  have hframe : ({ s with valve := s.valve.frame s.points s.release.level } : State).permitRight := h
  have hsilent := Works.foldl State.reportSilent_works Channel.all
    { s with valve := s.valve.frame s.points s.release.level }
  exact ⟨_, rfl, (badEchoes_internal _ _).permitRight (hsilent.permitRight hframe)⟩

theorem exec_deadIntervalExpiry_permitRight {s : State} (h : s.permitRight) (k : Ring) :
    ∃ t, exec (.deadIntervalExpiry k) s = .next t ∧ t.permitRight := by
  show ∃ t, execDeadIntervalExpiry k s = .next t ∧ t.permitRight
  unfold execDeadIntervalExpiry
  split
  · exact ⟨_, rfl, h⟩
  · split
    · exact ⟨_, rfl, h⟩
    · exact ⟨_, rfl, h⟩

theorem exec_estopInputChange_permitRight {s : State} (h : s.permitRight) (active : Bool) :
    ∃ t, exec (.estopInputChange active) s = .next t ∧ t.permitRight := by
  show ∃ t, execEstopInputChange active s = .next t ∧ t.permitRight
  unfold execEstopInputChange
  simp only
  split_ifs
  · exact ⟨_, rfl, h⟩
  · exact ⟨_, rfl, State.recomputePermit_permitRight _⟩
  · exact ⟨_, rfl, h⟩

theorem exec_estopInactiveTaken_permitRight {s : State} (h : s.permitRight) :
    ∃ t, exec .estopInactiveTaken s = .next t ∧ t.permitRight := by
  show ∃ t, execEstopInactiveTaken s = .next t ∧ t.permitRight
  unfold execEstopInactiveTaken
  simp only
  split
  · exact ⟨_, rfl, State.recomputePermit_permitRight _⟩
  · exact ⟨_, rfl, h⟩

theorem State.takeRotor_permitRight {s : State} (h : s.permitRight) (k : Ring) (running : Bool) :
    (s.takeRotor k running).permitRight := by
  have htaken : ({ s with release :=
      { s.release with rotorRunning := s.release.rotorRunning.modify k fun _ => running } } : State).permitRight := h
  unfold State.takeRotor
  simp only
  split
  · exact (State.raiseCause_internal _ _).permitRight htaken
  · exact htaken

theorem exec_rotorLevelTaken_permitRight {s : State} (h : s.permitRight) (k : Ring) :
    ∃ t, exec (.rotorLevelTaken k) s = .next t ∧ t.permitRight := by
  show ∃ t, execRotorLevelTaken k s = .next t ∧ t.permitRight
  unfold execRotorLevelTaken
  split
  · exact ⟨_, rfl, h⟩
  · exact ⟨_, rfl, State.takeRotor_permitRight h _ _⟩

/-! ### Every command -/

/-- Every command answers a state with the permit right: an ordinary one by its chain, a start and a write of a term by
the permit recomputed, the rest by leaving the terms alone. -/

theorem exec_permitRight {s : State} (hr : ∀ k, s.ringRight k) (h : s.permitRight) (i : Instr) :
    ∃ t, exec i s = .next t ∧ t.permitRight := by
  by_cases hordinary : isOrdinary i = true
  · obtain ⟨t, hexec, hchange⟩ := exec_ordinary hr i hordinary
    exact ⟨t, hexec, hchange.permitRight h⟩
  have keeps {row : WriteRow} {owner : Point → State → State → State} (p : Port) (hgate : row ≠ .gate)
      (hstop : row ≠ .stop)
      (howner : ∀ q (t : State), (∀ k, t.ringRight k) → t.permitRight → (owner q s t).permitRight) :
      (s.writeRow p row owner).permitRight := State.writeRow_permitRight_of_keeps hr h p hgate hstop howner
  have recomputes (p : Port) (row : WriteRow) : (s.writeRow p row fun _ _ t => t.recomputePermit).permitRight :=
    State.writeRow_permitRight h p fun _ _ _ => State.recomputePermit_permitRight _
  cases i with
  | powerOn l => exact ⟨_, rfl, State.startCauses_permitRight _⟩
  | restart p => exact ⟨_, rfl, State.serve_permitRight h p _ fun _ _ => s.warmRestart_permitRight⟩
  | telegramReceived p kind payload => exact exec_telegramReceived_permitRight h p kind payload
  | byteReceived p b => exact exec_byteReceived_permitRight h p b
  | mode p => exact ⟨_, rfl, State.serve_permitRight h p _ fun r _ => modeEffect_permitRight hr h r⟩
  | pointWrite p => exact ⟨_, rfl, keeps p nofun nofun fun _ _ _ ht => ht⟩
  | scaleWrite p => exact ⟨_, rfl, keeps p nofun nofun fun _ _ _ ht => ht⟩
  | geometryWrite p =>
    exact ⟨_, rfl, keeps p nofun nofun fun _ t htr ht =>
      (Works.andThen htr t.pushed_works fun hpr => State.afterMove_works hpr s).permitRight ht⟩
  | windowArmWrite p =>
    exact ⟨_, rfl, keeps p nofun nofun fun _ _ htr ht => (State.afterMove_works htr s).permitRight ht⟩
  | ceilingWrite p => exact ⟨_, rfl, keeps p nofun nofun fun q _ _ ht => ceilingOwner_permitRight ht q s⟩
  | setpointPointWrite p =>
    exact ⟨_, rfl, keeps p nofun nofun fun q t _ ht => (setpointOwner_works q s t).permitRight ht⟩
  | echoEnableWrite p => exact ⟨_, rfl, keeps p nofun nofun fun q _ _ ht => echoOwner_permitRight ht q s⟩
  | stopOnReleaseWrite p => exact ⟨_, rfl, recomputes p .stop⟩
  | markSourceWrite p => exact ⟨_, rfl, keeps p nofun nofun fun _ _ _ ht => ht⟩
  | markGateWrite p => exact ⟨_, rfl, recomputes p .gate⟩
  | thresholdWrite p => exact ⟨_, rfl, keeps p nofun nofun fun _ t _ ht => t.advise_works.permitRight ht⟩
  | valveFrame => exact exec_valveFrame_permitRight h
  | deadIntervalExpiry k => exact exec_deadIntervalExpiry_permitRight h k
  | estopInputChange active => exact exec_estopInputChange_permitRight h active
  | estopInactiveTaken => exact exec_estopInactiveTaken_permitRight h
  | rotorLevelTaken k => exact exec_rotorLevelTaken_permitRight h k
  | _ => exact absurd rfl hordinary

theorem step_permitRight {s t : State} (hr : ∀ k, s.ringRight k) (h : s.permitRight) (hstep : step s = .next t) :
    t.permitRight := by
  unfold step at hstep
  split at hstep
  · cases hstep
    exact h
  · next c rest _ =>
    obtain ⟨u, hexec, hu⟩ :=
      exec_permitRight (s := { s with pending := rest }) (fun k => ⟨(hr k).allowed, (hr k).named⟩) h c
    cases hexec.symm.trans hstep
    exact hu

/-- Settles O7: each command recomputes the permit or leaves its three terms and its value alone. -/
theorem feedPermitFollowsTerms : Obligations.FeedPermitFollowsTerms :=
  ⟨fun _ _ hr h hstep => step_permitRight hr h hstep, rfl,
    fun s h => (Eq.congr_left h).trans s.permitValue_eq_false_iff⟩

end Sys2Proof.Machine
end

section
/-! PROOFS. What MARK and a source event make of the marks (R166, R167). -/

namespace Sys2Proof.Machine

/-! ### Marks set by name (R167) -/

theorem State.setMark_marks (s : State) (v : Bool) (m : Mark) :
    (s.setMark v m).marks = s.marks.modify m fun _ => v := by
  unfold State.setMark
  split
  · next hv =>
    ext j
    rw [PerMark.get_modify]
    split
    · next hj => rw [hj, hv]
    · rfl
  · simp only
    split <;> rfl

theorem State.setMark_marks_get (s : State) (v : Bool) (m j : Mark) :
    (s.setMark v m).marks.get j = if j = m then v else s.marks.get j := by
  rw [State.setMark_marks, PerMark.get_modify]

theorem setMarks_marks_get (l : List Mark) (v : Bool) (j : Mark) : ∀ s : State,
    (l.foldl (fun t m => t.setMark v m) s).marks.get j = if j ∈ l then v else s.marks.get j := by
  induction l with
  | nil => exact fun _ => rfl
  | cons m l ih =>
    intro s
    rw [List.foldl_cons, ih, State.setMark_marks_get]
    by_cases hl : j ∈ l <;> simp [hl]

/-- Marks set by name change the marks and the permit alone. -/
theorem setMarks_frame (l : List Mark) (v : Bool) : ∀ s : State,
    let t := l.foldl (fun t m => t.setMark v m) s
    t = { s with marks := t.marks, permit := t.permit } := by
  induction l with
  | nil => exact fun _ => rfl
  | cons m l ih =>
    intro s
    have htail := ih (s.setMark v m)
    rw [List.foldl_cons]
    rw [s.setMark_frame v m] at htail ⊢
    exact htail

theorem markEffect_of_bad_value {s : State} {r : Req}
    (h : marksOf (codesAt r.payload 2 (u8 r.payload 1)) = none ∨ 1 < u8 r.payload 0) :
    markEffect r s = ⟨s, .badValue, []⟩ := by
  unfold markEffect
  simp only
  split
  · rfl
  · next hmarks => rw [if_pos (h.resolve_left (by simp [hmarks]))]

theorem markEffect_of_marks {s : State} {r : Req} {marks : List Mark}
    (hmarks : marksOf (codesAt r.payload 2 (u8 r.payload 1)) = some marks) (hop : u8 r.payload 0 ≤ 1) :
    markEffect r s = ⟨marks.foldl (fun t m => t.setMark (decide (u8 r.payload 0 = 1)) m) s, .ok, []⟩ := by
  simp only [markEffect, hmarks, if_neg hop.not_gt]

theorem exec_mark_of_takes {s : State} {p : Port} {r : Req} {rest : List Req} (h : s.takes p .mark r rest) :
    exec (.mark p) s =
      .next ((markEffect r s).state.answer p r (markEffect r s).result (markEffect r s).rest) := by
  have harm : exec (.mark p) s = .next (s.serve p .mark (ofKind .mark) markEffect) := rfl
  rw [harm, State.serve_of_takes h (State.ofKind_of_takes h)]

/-! ### A source event at one mark (R166) -/

/-- A mark of another source takes no notice of the event. -/
theorem State.markSourceAt_of_ne {s : State} {src : MarkSource} {m : Mark} (h : s.points.markSource.get m ≠ src) :
    s.markSourceAt src m = s := if_neg h

theorem State.markSourceAt_of_set {s : State} {src : MarkSource} {m : Mark} (h : s.points.markSource.get m = src)
    (hset : s.marks.get m = true) : s.markSourceAt src m = s.notice .markOverrun := by
  rw [State.markSourceAt, if_pos h, if_pos hset]

theorem State.markSourceAt_of_clear {s : State} {src : MarkSource} {m : Mark} (h : s.points.markSource.get m = src)
    (hclear : s.marks.get m = false) : s.markSourceAt src m = s.setMark true m := by
  simp [State.markSourceAt, State.setMark, h, hclear]

theorem State.markSourceAt_marks_get (s : State) (src : MarkSource) (m j : Mark) :
    (s.markSourceAt src m).marks.get j =
      (s.marks.get j || decide (j = m ∧ s.points.markSource.get j = src)) := by
  by_cases hsrc : s.points.markSource.get m = src
  · cases hmark : s.marks.get m
    · rw [State.markSourceAt_of_clear hsrc hmark, State.setMark_marks_get]
      by_cases hj : j = m <;> simp [hj, hsrc]
    · rw [State.markSourceAt_of_set hsrc hmark]
      show s.marks.get j = _
      by_cases hj : j = m <;> simp [hj, hmark]
  · rw [State.markSourceAt_of_ne hsrc]
    by_cases hj : j = m <;> simp [hj, hsrc]

@[simp] theorem State.markSourceAt_points (s : State) (src : MarkSource) (m : Mark) :
    (s.markSourceAt src m).points = s.points := (s.markSourceAt_works src m).sameOuter.points

/-- A mark that is set stays set at a source event. -/
theorem State.markSourceAt_marks_of_set {s : State} {j : Mark} (h : s.marks.get j = true) (src : MarkSource) (m : Mark) :
    (s.markSourceAt src m).marks.get j = true := by
  rw [State.markSourceAt_marks_get, h, Bool.true_or]

/-! ### A source event at the marks in turn -/

theorem markSources_marks_get (src : MarkSource) (l : List Mark) (j : Mark) : ∀ s : State,
    (l.foldl (fun t m => t.markSourceAt src m) s).marks.get j =
      (s.marks.get j || decide (j ∈ l ∧ s.points.markSource.get j = src)) := by
  induction l with
  | nil => exact fun s => by simp
  | cons m l ih =>
    intro s
    rw [List.foldl_cons, ih, State.markSourceAt_marks_get, State.markSourceAt_points, Bool.or_assoc, ← Bool.decide_or]
    simp only [List.mem_cons, or_and_right]

theorem PortState.mem_raise_status (q : PortState) (k : NoticeKind) : k ∈ (q.raise k).status := by
  unfold PortState.raise
  split
  · next h => exact List.contains_iff_mem.mp h
  · simp only [addKind, List.mem_filter, beq_self_eq_true, Bool.true_or, and_true]
    cases k <;> decide

theorem State.mem_notice_status (s : State) (k : NoticeKind) (p : Port) : k ∈ ((s.notice k).ports.get p).status := by
  simpa only [State.notice, PerPort.get_map] using PortState.mem_raise_status _ k

/-- A mark of the source, set already as the event comes to it, raises MARK_OVERRUN at every port. -/
theorem markSources_overrun {src : MarkSource} {j : Mark} (p : Port) (l : List Mark) : ∀ {s : State}, j ∈ l →
    s.points.markSource.get j = src → s.marks.get j = true →
    NoticeKind.markOverrun ∈ ((l.foldl (fun t m => t.markSourceAt src m) s).ports.get p).status := by
  induction l with
  | nil => exact fun hj => absurd hj List.not_mem_nil
  | cons m l ih =>
    intro s hj hsrc hset
    rw [List.foldl_cons]
    obtain rfl | hl := List.mem_cons.mp hj
    · refine (Works.foldl (fun t m => t.markSourceAt_works src m) l _).status p ?_
      rw [State.markSourceAt_of_set hsrc hset]
      exact s.mem_notice_status _ p
    · exact ih hl (by rw [State.markSourceAt_points, hsrc]) (State.markSourceAt_marks_of_set hset src m)

theorem State.markEvent_marks_get (s : State) (src : MarkSource) (m : Mark) :
    (s.markEvent src).marks.get m = (s.marks.get m || decide (s.points.markSource.get m = src)) := by
  rw [State.markEvent, markSources_marks_get]
  simp only [Mark.mem_all, true_and]

/-- An event whose source no mark holds changes nothing. -/
theorem State.markEvent_of_no_source {s : State} {src : MarkSource} (h : ∀ m, s.points.markSource.get m ≠ src) :
    s.markEvent src = s :=
  List.foldl_fixed' (fun m => State.markSourceAt_of_ne (h m)) Mark.all

/-- Settles O47: MARK sets its marks one by one, each step with the permit recomputed where the mark gates; a source
event visits the four marks in turn. -/
theorem markSetsTheNamedMarks : Obligations.MarkSetsTheNamedMarks := by
  refine ⟨fun s p r rest htakes hpermit => ?_, fun s src => ⟨s.markEvent_marks_get src,
    fun ⟨m, hsrc, hset⟩ p => markSources_overrun p Mark.all (Mark.mem_all m) hsrc hset,
    State.markEvent_of_no_source, (s.markEvent_works src).permitRight⟩⟩
  rw [exec_mark_of_takes htakes]
  refine ⟨fun hbad => by rw [markEffect_of_bad_value hbad], fun marks hmarks hop => ?_⟩
  rw [markEffect_of_marks hmarks hop]
  generalize hv : decide (u8 r.payload 0 = 1) = v
  have hframe := setMarks_frame marks v s
  have hright := (setMarks_works marks v s).permitRight hpermit
  exact ⟨_, _, by rw [← hframe], fun m => setMarks_marks_get marks v m s, hframe ▸ hright⟩

end Sys2Proof.Machine
end

section
/-! PROOFS. What every command makes of the state: a chain of ordinary changes, starts, writes of points, changes of mode,
frames, dead intervals and input levels; and what every such chain keeps. -/

namespace Sys2Proof.Machine

/-- `t` comes from `s` by ordinary changes and by the changes they leave out. -/
inductive Change : State → State → Prop
  | ordinary {s t : State} : Ordinary s t → Change s t
  | trans {s t u : State} : Change s t → Change t u → Change s u
  /-- every block at its start values, the points being loaded or kept -/
  | start (s u : State) (il : Interlock) (hil : Interlocked il 0 0) (hp : u.pending = s.pending) :
      Change s (u.startBlocks il)
  /-- a point other than the ceiling stored -/
  | stored (s : State) (q : Point) (v : Int) (hq : q ≠ .ceiling) : Change s { s with points := s.points.write q v }
  /-- the ceiling stored, and the channels taken down to it -/
  | ceiling (s : State) (v : Int) : Change s ({ s with points := s.points.write .ceiling v } : State).valveCeiling
  | mode (s : State) (m : Mode) : Change s (s.changeMode m)
  /-- the input levels the Release Unit has taken -/
  | inputs (s : State) (e : Bool) (r : PerRing Bool) :
      Change s { s with release := { s.release with estopActive := e, rotorRunning := r } }
  | frame (s : State) : Change s { s with valve := s.valve.frame s.points s.release.level }
  /-- a dead interval run out, its zero frame sent -/
  | expiry (s : State) (k : Ring) (i : Interval) (n : Nat) (hi : (s.valve.rings.get k).interval = some i)
      (hn : i.frames = some n) : Change s (s.onInterlock k (Interlock.release i.side))

theorem Change.refl (s : State) : Change s s := .ordinary (.refl s)

theorem Change.core {s t : State} (c : SameCore s t) : Change s t := .ordinary (.core c)

theorem Change.internal {s t : State} (w : Internal s t) : Change s t := .ordinary (.internal w)

theorem Change.works {s t : State} (w : Works s t) : Change s t := .ordinary (.works w)

/-! ### What a start leaves -/

theorem startLift_le (pts : Points) : startLift pts ≤ pts.ceiling := Nat.min_le_right _ _

theorem State.startBlocks_chan (s : State) (il : Interlock) (c : Channel) :
    (s.startBlocks il).valve.chans.get c = resetChan (match c.side with
      | .press => 0
      | .lift => startLift s.points) := by
  cases c <;> rfl

theorem State.startBlocks_rings (s : State) (il : Interlock) (k : Ring) :
    (s.startBlocks il).valve.rings.get k = il := by
  cases k <;> rfl

theorem State.startBlocks_seq (s : State) (il : Interlock) (k : Ring) :
    (s.startBlocks il).ring.get k = resetSequencer := by
  cases k <;> rfl

theorem State.startBlocks_ringRight (s : State) (il : Interlock) (k : Ring) : (s.startBlocks il).ringRight k := by
  have hseq := s.startBlocks_seq il k
  refine ⟨⟨fun _ => .inl ?_, fun h => absurd h (by simp [State.startBlocks, startRelease])⟩, by rw [hseq]; exact ⟨rfl, rfl⟩⟩
  rw [State.ringState, hseq]
  rfl

theorem State.startBlocks_interlocked (s : State) {il : Interlock} (h : Interlocked il 0 0) (k : Ring) :
    (s.startBlocks il).interlocked k := by
  cases k <;> exact h

theorem State.startBlocks_underCeiling (s : State) (il : Interlock) : (s.startBlocks il).underCeiling := by
  intro c
  rw [State.startBlocks_chan]
  refine ⟨Nat.zero_le _, ?_⟩
  cases c.side
  · exact Nat.zero_le _
  · exact startLift_le s.points

theorem resetInterlock_interlocked : Interlocked resetInterlock 0 0 where
  exclusive := .inl rfl
  releasedIntent _ h := by cases h; exact ⟨rfl, rfl⟩
  waitIntent := nofun
  zeroFrame := nofun

theorem restartInterlock_interlocked : Interlocked restartInterlock 0 0 where
  exclusive := .inl rfl
  releasedIntent := nofun
  waitIntent _ h := by cases h; exact ⟨rfl, rfl⟩
  zeroFrame _ _ h hn := by cases h; cases hn

/-! ### What a chain keeps -/

theorem Points.write_ceiling {q : Point} (hq : q ≠ .ceiling) (pts : Points) (v : Int) :
    (pts.write q v).ceiling = pts.ceiling := by
  cases q with
  | ceiling => exact absurd rfl hq
  | _ => rfl

/-- The channels after a write of the ceiling: each command and target taken down to it (R142). -/
theorem State.valveCeiling_chan (s : State) (c : Channel) :
    s.valveCeiling.valve.chans.get c = (s.valve.chans.get c).under s.points.ceiling := by
  cases c <;> rfl

theorem State.valveCeiling_underCeiling (s : State) : s.valveCeiling.underCeiling := by
  intro c
  rw [State.valveCeiling_chan]
  exact ⟨Nat.min_le_right _ _, Nat.min_le_right _ _⟩

/-- Lower commands keep R137. -/
theorem Interlocked.lower {il : Interlock} {press lift press' lift' : Nat} (h : Interlocked il press lift)
    (hpress : press' ≤ press) (hlift : lift' ≤ lift) : Interlocked il press' lift' := by
  refine ⟨h.exclusive.imp (by omega) (by omega), fun x hx => ?_, h.waitIntent, fun i n hi hn => ?_⟩
  · obtain ⟨hintent, hzero⟩ := h.releasedIntent x hx
    refine ⟨hintent, ?_⟩
    cases x <;> simp only at hzero ⊢ <;> omega
  · have hzero := h.zeroFrame i n hi hn
    cases hs : i.side <;> simp only [hs] at hzero ⊢ <;> omega

theorem State.valveCeiling_interlocked {s : State} {k : Ring} (h : s.interlocked k) : s.valveCeiling.interlocked k := by
  unfold State.interlocked at h ⊢
  rw [State.valveCeiling_chan, State.valveCeiling_chan]
  exact h.lower (Nat.min_le_left _ _) (Nat.min_le_left _ _)

theorem Change.ringRight {s t : State} (w : Change s t) (h : ∀ k, s.ringRight k) : ∀ k, t.ringRight k := by
  induction w with
  | ordinary w => exact w.ringRight h
  | trans _ _ f g => exact g (f h)
  | start s u il _ _ => exact u.startBlocks_ringRight il
  | mode s m => exact (State.changeMode_chain h m).2
  | _ => exact fun k => ⟨(h k).allowed, (h k).named⟩

theorem Change.pending {s t : State} (w : Change s t) (h : ∀ k, s.ringRight k) : t.pending = s.pending := by
  induction w with
  | ordinary w => exact w.pending
  | trans a _ f g => exact (g (a.ringRight h)).trans (f h)
  | start s u il _ hp => exact hp
  | mode s m => exact (State.changeMode_chain h m).1.sameOuter.pending
  | _ => rfl

theorem Change.levelRight {s t : State} (w : Change s t) (hr : ∀ k, s.ringRight k) (h : s.levelRight) :
    t.levelRight := by
  induction w with
  | ordinary w => exact w.levelRight h
  | trans a _ f g => exact g (a.ringRight hr) (f hr h)
  | start s u il _ _ => rfl
  | mode s m =>
    have hmoded : (s.moded m).levelRight := h
    exact (State.changeMode_chain hr m).1.levelRight hmoded
  | _ => exact h

theorem Change.interlocked {s t : State} (w : Change s t) (hr : ∀ k, s.ringRight k) (h : ∀ k, s.interlocked k) :
    ∀ k, t.interlocked k := by
  induction w with
  | ordinary w => exact fun k => w.interlocked (h k)
  | trans a _ f g => exact g (a.ringRight hr) (f hr h)
  | start s u il hil _ => exact u.startBlocks_interlocked hil
  | ceiling s v =>
    have hstored : ∀ k, ({ s with points := s.points.write .ceiling v } : State).interlocked k := h
    exact fun k => State.valveCeiling_interlocked (hstored k)
  | mode s m =>
    have hmoded : ∀ k, (s.moded m).interlocked k := h
    exact fun k => (State.changeMode_chain hr m).1.interlocked (hmoded k)
  | frame s => exact fun k => State.frame_interlocked (h k)
  | expiry s k i n hi hn =>
    intro j
    have hj := h j
    unfold State.interlocked at hj ⊢
    rw [State.onInterlock_rings, State.onInterlock_chans, PerRing.get_modify]
    split
    · next hjk =>
      subst hjk
      exact hj.release hi hn
    · exact hj
  | _ => exact h

theorem Change.underCeiling {s t : State} (w : Change s t) (hr : ∀ k, s.ringRight k) (h : s.underCeiling) :
    t.underCeiling := by
  induction w with
  | ordinary w => exact w.underCeiling h
  | trans a _ f g => exact g (a.ringRight hr) (f hr h)
  | start s u il _ _ => exact u.startBlocks_underCeiling il
  | stored s q v hq =>
    intro c
    show _ ≤ (s.points.write q v).ceiling ∧ _ ≤ (s.points.write q v).ceiling
    rw [Points.write_ceiling hq]
    exact h c
  | ceiling s v => exact State.valveCeiling_underCeiling _
  | mode s m =>
    have hmoded : (s.moded m).underCeiling := h
    exact (State.changeMode_chain hr m).1.underCeiling hmoded
  | frame s => exact State.frame_underCeiling h
  | _ => exact h

theorem Change.trackBound {s t : State} (w : Change s t) (hr : ∀ k, s.ringRight k) (h : s.track.length ≤ 12) :
    t.track.length ≤ 12 := by
  induction w with
  | ordinary w => exact w.trackBound h
  | trans a _ f g => exact g (a.ringRight hr) (f hr h)
  | start s u il _ _ => exact Nat.zero_le _
  | mode s m =>
    have hmoded : (s.moded m).track.length ≤ 12 := h
    exact (State.changeMode_chain hr m).1.trackBound hmoded
  | _ => exact h

theorem Change.named {s t : State} (w : Change s t) (hr : ∀ k, s.ringRight k) (h : s.named) : t.named := by
  induction w with
  | ordinary w => exact w.named h
  | trans a _ f g => exact g (a.ringRight hr) (f hr h)
  | start s u il _ _ => exact ⟨List.nodup_nil, fun _ hr => absurd hr List.not_mem_nil, List.Pairwise.nil⟩
  | mode s m =>
    have hmoded : (s.moded m).named := h
    exact (State.changeMode_chain hr m).1.named hmoded
  | _ => exact h

/-! ### Starts and telegrams received -/

theorem State.startCauses_works (s : State) : Internal s s.startCauses := by
  unfold State.startCauses
  simp only
  split
  · exact .trans (.works (.permit s)) (State.raiseCause_internal _ _)
  · exact .works (.permit s)

theorem State.warmRestart_change (s : State) : Change s s.warmRestart :=
  .trans (.start s s restartInterlock restartInterlock_interlocked rfl)
    (.trans (.core (t := { s.startBlocks restartInterlock with
        ports := (s.startBlocks restartInterlock).ports.map PortState.restart })
      ⟨rfl, rfl, rfl, rfl, rfl, rfl, rfl, rfl, rfl, rfl⟩)
      (.internal (.trans (.works (State.advise_works _)) (State.startCauses_works _))))

theorem execPowerOn_change (l : Lines) (s : State) : ∃ t, exec (.powerOn l) s = .next t ∧ Change s t := by
  refine ⟨_, rfl, .trans (.start s (({ s with lines := l } : State).load (s.store.valid?.getD factoryImage))
    resetInterlock resetInterlock_interlocked rfl) (.trans (.core ?_) (.internal (State.startCauses_works _)))⟩
  split <;> exact ⟨rfl, rfl, rfl, rfl, rfl, rfl, rfl, rfl, rfl, rfl⟩

theorem State.restartOnArrival_change (s : State) (r : Req) : Change s (s.restartOnArrival r) := by
  unfold State.restartOnArrival
  split
  · exact .core (s.reply_core _ _ _ _)
  · exact .trans s.warmRestart_change (.core (State.reply_core _ _ _ _ _))

theorem State.accept_change (s : State) (p : Port) (kind : Byte) (payload : List Byte) :
    Change s (s.accept p kind payload) := by
  unfold State.accept
  simp only
  split_ifs
  · exact .refl s
  · exact .core (s.reply_core _ _ _ _)
  · exact s.restartOnArrival_change _
  · exact .core (s.reply_core _ _ _ _)
  · exact .core (onPort_core s _ _)

theorem State.frameByte_change (s : State) (p : Port) (bytes : List Byte) : Change s (s.frameByte p bytes) := by
  have hreceive : ∀ r, Change s (s.receive p r) := fun r => .core (s.receive_core p r)
  unfold State.frameByte
  simp only
  split_ifs
  · exact hreceive _
  · exact hreceive _
  · exact (hreceive _).trans (State.accept_change _ _ _ _)
  · exact hreceive _

/-! ### Requests and writes of points -/

/-- A port's command changes the state as the request's effect does, on the requests its row takes. -/
theorem State.serve_change {s : State} (p : Port) (k : Kind) {want : Req → Bool} {effect : Req → State → Effect}
    (heffect : ∀ r, want r = true → Change s (effect r s).state) : Change s (s.serve p k want effect) := by
  unfold State.serve
  split
  · exact .refl s
  · next r hrequest =>
    split
    · exact .core (s.answer_core _ _ _ _)
    · exact (heffect r (State.wanted_of_request? hrequest)).trans (.core (State.answer_core _ _ _ _ _))

/-- A row's write changes the state as the owner does at the points of the row. -/
theorem State.writeRow_change {s : State} (p : Port) {row : WriteRow} {owner : Point → State → State → State}
    (howner : ∀ q v, Machine.writeRow (some q) = row → Change s (owner q s { s with points := s.points.write q v })) :
    Change s (s.writeRow p row owner) := by
  refine State.serve_change p .point fun r hwant => ?_
  simp only [writeOf, Bool.and_eq_true, decide_eq_true_eq] at hwant
  obtain ⟨_, hrow⟩ := hwant
  unfold writeEffect
  simp only
  split
  · exact .refl s
  · next q hq =>
    split
    · exact .refl s
    · exact howner q _ (hq ▸ hrow)

/-- A row other than the ceiling's stores the point, and then the owner acts on a state whose rings are right. -/
theorem State.writeRow_change_of_owner {s : State} (hr : ∀ k, s.ringRight k) (p : Port) {row : WriteRow}
    {owner : Point → State → State → State} (hrow : row ≠ .ceiling)
    (howner : ∀ q (t : State), (∀ k, t.ringRight k) → Change t (owner q s t)) : Change s (s.writeRow p row owner) := by
  refine State.writeRow_change p fun q v hq => ?_
  have hstored : Change s { s with points := s.points.write q v } :=
    .stored s q v fun hceiling => hrow (hq ▸ hceiling ▸ rfl)
  exact hstored.trans (howner q _ (hstored.ringRight hr))

theorem geometryOwner_works {t : State} (h : ∀ k, t.ringRight k) (q : Point) (s : State) :
    Works t (geometryOwner q s t) :=
  Works.andThen h t.pushed_works fun h => State.afterMove_works h s

theorem echoOwner_works (q : Point) (s t : State) : Works t (echoOwner q s t) := by
  unfold echoOwner
  split
  · refine onChan_works _ _ _ fun x => ?_
    unfold Chan.echoWritten
    split <;> exact ⟨rfl, rfl⟩
  · exact .refl t

theorem writeRow_eq_ceiling {q : Point} (h : Machine.writeRow (some q) = .ceiling) : q = .ceiling := by
  cases q with
  | ceiling => rfl
  | _ => cases h

/-! ### The mode, the frames, the inputs -/

theorem modeEffect_change (r : Req) (s : State) : Change s (modeEffect r s).state := by
  unfold modeEffect
  split
  · exact .refl s
  · split_ifs
    · exact .refl s
    · exact .refl s
    · exact .mode s _

theorem exec_valveFrame_change (s : State) : ∃ t, exec .valveFrame s = .next t ∧ Change s t :=
  ⟨_, rfl, (Change.frame s).trans (.internal ((Internal.works (Works.foldl State.reportSilent_works Channel.all _)).trans
    (badEchoes_internal _ _)))⟩

theorem exec_deadIntervalExpiry_change (k : Ring) (s : State) :
    ∃ t, exec (.deadIntervalExpiry k) s = .next t ∧ Change s t := by
  show ∃ t, execDeadIntervalExpiry k s = .next t ∧ Change s t
  unfold execDeadIntervalExpiry
  split
  · exact ⟨_, rfl, .refl s⟩
  · next i hi =>
    split
    · next hdue =>
      cases hframes : i.frames with
      | none => simp [Interval.due, hframes] at hdue
      | some n => exact ⟨_, rfl, .expiry s k i n hi hframes⟩
    · exact ⟨_, rfl, .refl s⟩

theorem State.takeEstop_change (s : State) : Change s s.takeEstop :=
  (Change.inputs s true s.release.rotorRunning).trans
    (.internal ((State.raiseCause_internal _ _).trans (.works (.permit _))))

theorem exec_estopInputChange_change (active : Bool) (s : State) :
    ∃ t, exec (.estopInputChange active) s = .next t ∧ Change s t := by
  show ∃ t, execEstopInputChange active s = .next t ∧ Change s t
  have hline : Change s { s with lines := { s.lines with estopActive := active } } := .core (lines_core s _)
  unfold execEstopInputChange
  simp only
  split_ifs
  · exact ⟨_, rfl, .refl s⟩
  · exact ⟨_, rfl, hline.trans (State.takeEstop_change _)⟩
  · exact ⟨_, rfl, hline⟩

theorem exec_estopInactiveTaken_change (s : State) : ∃ t, exec .estopInactiveTaken s = .next t ∧ Change s t := by
  show ∃ t, execEstopInactiveTaken s = .next t ∧ Change s t
  unfold execEstopInactiveTaken
  simp only
  split
  · exact ⟨_, rfl, (Change.inputs s false s.release.rotorRunning).trans (.works (.permit _))⟩
  · exact ⟨_, rfl, .refl s⟩

theorem State.takeRotor_change (s : State) (k : Ring) (running : Bool) : Change s (s.takeRotor k running) := by
  have htaken := Change.inputs s s.release.estopActive (s.release.rotorRunning.modify k fun _ => running)
  unfold State.takeRotor
  simp only
  split
  · exact htaken.trans (.internal (State.raiseCause_internal _ _))
  · exact htaken

theorem exec_rotorLevelTaken_change (k : Ring) (s : State) :
    ∃ t, exec (.rotorLevelTaken k) s = .next t ∧ Change s t := by
  show ∃ t, execRotorLevelTaken k s = .next t ∧ Change s t
  unfold execRotorLevelTaken
  split
  · exact ⟨_, rfl, .refl s⟩
  · exact ⟨_, rfl, s.takeRotor_change _ _⟩

/-! ### Every command -/

/-- Every command answers a next state, and comes to it by a change. -/
theorem exec_change {s : State} (hr : ∀ k, s.ringRight k) (i : Instr) : ∃ t, exec i s = .next t ∧ Change s t := by
  by_cases hordinary : isOrdinary i = true
  · obtain ⟨t, hexec, hchange⟩ := exec_ordinary hr i hordinary
    exact ⟨t, hexec, .ordinary hchange⟩
  have row {row : WriteRow} {owner : Point → State → State → State} (p : Port) (hrow : row ≠ .ceiling)
      (howner : ∀ q (t : State), (∀ k, t.ringRight k) → Works t (owner q s t)) : Change s (s.writeRow p row owner) :=
    State.writeRow_change_of_owner hr p hrow fun q t h => .works (howner q t h)
  cases i with
  | powerOn l => exact execPowerOn_change l s
  | restart p => exact ⟨_, rfl, State.serve_change p _ fun _ _ => s.warmRestart_change⟩
  | telegramReceived p kind payload =>
    show ∃ t, execTelegramReceived p kind payload s = .next t ∧ Change s t
    unfold execTelegramReceived
    split
    · exact ⟨_, rfl, (Change.core (s.receive_core _ _)).trans (State.accept_change _ _ _ _)⟩
    · exact ⟨_, rfl, .refl s⟩
  | byteReceived p b =>
    show ∃ t, execByteReceived p b s = .next t ∧ Change s t
    unfold execByteReceived
    split
    · refine ⟨_, rfl, ?_⟩
      split
      · exact .core (s.receive_core _ _)
      · exact .refl s
    · exact ⟨_, rfl, s.frameByte_change _ _⟩
  | mode p => exact ⟨_, rfl, State.serve_change p _ fun r _ => modeEffect_change r s⟩
  | pointWrite p => exact ⟨_, rfl, row p nofun fun _ t _ => .refl t⟩
  | scaleWrite p =>
    exact ⟨_, rfl, State.writeRow_change_of_owner hr p nofun fun _ _ _ =>
      .core ⟨rfl, rfl, rfl, rfl, rfl, rfl, rfl, rfl, rfl, rfl⟩⟩
  | geometryWrite p => exact ⟨_, rfl, row p nofun fun q _ h => geometryOwner_works h q s⟩
  | windowArmWrite p => exact ⟨_, rfl, row p nofun fun _ _ h => State.afterMove_works h s⟩
  | ceilingWrite p =>
    refine ⟨_, rfl, State.writeRow_change p fun q v hq => ?_⟩
    rw [writeRow_eq_ceiling hq]
    exact (Change.ceiling s v).trans (.works (State.evalBoth_works _))
  | setpointPointWrite p => exact ⟨_, rfl, row p nofun fun q t _ => setpointOwner_works q s t⟩
  | echoEnableWrite p => exact ⟨_, rfl, row p nofun fun q t _ => echoOwner_works q s t⟩
  | stopOnReleaseWrite p => exact ⟨_, rfl, row p nofun fun _ t _ => .permit t⟩
  | markSourceWrite p => exact ⟨_, rfl, row p nofun fun _ t _ => .refl t⟩
  | markGateWrite p => exact ⟨_, rfl, row p nofun fun _ t _ => .permit t⟩
  | thresholdWrite p => exact ⟨_, rfl, row p nofun fun _ t _ => t.advise_works⟩
  | valveFrame => exact exec_valveFrame_change s
  | deadIntervalExpiry k => exact exec_deadIntervalExpiry_change k s
  | estopInputChange active => exact exec_estopInputChange_change active s
  | estopInactiveTaken => exact exec_estopInactiveTaken_change s
  | rotorLevelTaken k => exact exec_rotorLevelTaken_change k s
  | _ => exact absurd rfl hordinary

/-- A step is a command run on the state with the queue's rest, which changes no ring, or it leaves the state as it is. -/
theorem step_cases {s t : State} (h : step s = .next t) :
    t = s ∨ ∃ c rest, exec c { s with pending := rest } = .next t := by
  unfold step at h
  split at h
  · cases h
    exact .inl rfl
  · exact .inr ⟨_, _, h⟩

theorem State.withPending_ringRight {s : State} (hr : ∀ k, s.ringRight k) (rest : List Instr) (k : Ring) :
    ({ s with pending := rest } : State).ringRight k :=
  ⟨(hr k).allowed, (hr k).named⟩

/-- What the queue of commands is no part of, and every change keeps, every step keeps. -/
theorem step_keeps {P : State → Prop} (hpending : ∀ (s : State) rest, P s → P { s with pending := rest })
    (hchange : ∀ {s t : State}, Change s t → (∀ k, s.ringRight k) → P s → P t) {s t : State} (hr : ∀ k, s.ringRight k)
    (hs : P s) (h : step s = .next t) : P t := by
  obtain rfl | ⟨c, rest, hexec⟩ := step_cases h
  · exact hs
  · have hr' := State.withPending_ringRight hr rest
    obtain ⟨u, hu, hc⟩ := exec_change hr' c
    cases hu.symm.trans hexec
    exact hchange hc hr' (hpending s rest hs)

/-- Settles O1: both equations are the two branches of `step`. -/
theorem stepRunsFrontCommand : Obligations.StepRunsFrontCommand :=
  fun _ _ _ => ⟨rfl, rfl⟩

/-- Settles O2: every command is a change, which keeps the queue. -/
theorem everyCommandAnswers : Obligations.EveryCommandAnswers := by
  intro c s hr
  obtain ⟨t, hexec, hchange⟩ := exec_change hr c
  exact ⟨t, hexec, hchange.pending hr⟩

/-- Settles O8: every change keeps the interlock facts, of which the exclusion is one. -/
theorem pressAndLiftNeverBothDriven : Obligations.PressAndLiftNeverBothDriven := by
  intro s t hr hi hstep k
  have hlocked : ∀ k, t.interlocked k :=
    step_keeps (P := fun u => ∀ k, u.interlocked k) (fun _ _ h => h) (fun w hr h => w.interlocked hr h) hr hi hstep
  exact ⟨hlocked k, (hlocked k).exclusive⟩

/-- Settles O9: an intent hands on a target within the ceiling, a frame moves a command no higher than its target, and a
write of the ceiling takes both down to it. -/
theorem commandsStayUnderCeiling : Obligations.CommandsStayUnderCeiling :=
  fun _ _ hr hu hstep => step_keeps (fun _ _ h => h) (fun w hr h => w.underCeiling hr h) hr hu hstep

/-! ### The level of a set of causes (R155) -/

theorem rank_levelMax (x y : Level) : (x.max y).rank = max x.rank y.rank := by
  cases x <;> cases y <;> rfl

theorem Level.max_eq_or (x y : Level) : x.max y = x ∨ x.max y = y := by
  unfold Level.max
  split
  · exact .inr rfl
  · exact .inl rfl

/-- The level of the causes that are no requests, as `Causes.level` has it. -/
def Causes.fixedLevel (c : Causes) : Level :=
  if c.estop then .estop
  else if c.rotor || c.valveFault.aPress || c.valveFault.aLift || c.valveFault.bPress || c.valveFault.bLift
  then .immediate
  else if c.trackLost then .atGap
  else .none

theorem Causes.level_eq (c : Causes) :
    c.level = (c.fixedLevel.max (c.lineReq.getD .none)).max (c.panelReq.getD .none) := rfl

theorem Causes.rank_level (c : Causes) :
    c.level.rank = max (max c.fixedLevel.rank (c.lineReq.getD .none).rank) (c.panelReq.getD .none).rank := by
  rw [Causes.level_eq, rank_levelMax, rank_levelMax]

/-- The levels of the causes that are no requests. -/
def Causes.fixedLevels (c : Causes) : List Level :=
  (if c.estop then [Level.estop] else []) ++ (if c.rotor then [.immediate] else []) ++
    (Channel.all.filter c.valveFault.get).map (fun _ => .immediate) ++ (if c.trackLost then [.atGap] else [])

theorem Channel.mem_all (c : Channel) : c ∈ Channel.all := by cases c <;> decide

theorem Causes.mem_fixedLevels (c : Causes) (l : Level) :
    l ∈ c.fixedLevels ↔ (c.estop = true ∧ l = .estop) ∨
      ((c.rotor = true ∨ ∃ ch, c.valveFault.get ch = true) ∧ l = .immediate) ∨ (c.trackLost = true ∧ l = .atGap) := by
  have hfault : (∃ ch, c.valveFault.get ch = true ∧ Level.immediate = l) ↔
      (∃ ch, c.valveFault.get ch = true) ∧ l = .immediate := by
    rw [exists_and_right, eq_comm]
  simp only [Causes.fixedLevels, List.mem_append, List.mem_ite_nil_right, List.mem_singleton, List.mem_map,
    List.mem_filter, Channel.mem_all, true_and, hfault]
  tauto

theorem Causes.any_valveFault (c : Causes) :
    (c.rotor || c.valveFault.aPress || c.valveFault.aLift || c.valveFault.bPress || c.valveFault.bLift) = true ↔
      c.rotor = true ∨ ∃ ch, c.valveFault.get ch = true := by
  have hfault : (∃ ch, c.valveFault.get ch = true) ↔ c.valveFault.aPress = true ∨ c.valveFault.aLift = true ∨
      c.valveFault.bPress = true ∨ c.valveFault.bLift = true :=
    ⟨fun ⟨ch, h⟩ => by cases ch <;> simp_all [PerChannel.get],
      fun h => h.elim (⟨.aPress, ·⟩) fun h => h.elim (⟨.aLift, ·⟩) fun h => h.elim (⟨.bPress, ·⟩) (⟨.bLift, ·⟩)⟩
  simp only [Bool.or_eq_true, hfault, or_assoc]

/-- The fixed level is the highest among the fixed causes' levels, and one of them or NONE. -/
theorem Causes.fixedLevel_highest (c : Causes) :
    (∀ l ∈ c.fixedLevels, l.rank ≤ c.fixedLevel.rank) ∧ (c.fixedLevel ∈ c.fixedLevels ∨ c.fixedLevel = .none) := by
  simp only [Causes.mem_fixedLevels, ← Causes.any_valveFault]
  unfold Causes.fixedLevel
  split_ifs with hestop hheld hlost
  · exact ⟨fun l _ => by cases l <;> decide, .inl (.inl ⟨hestop, rfl⟩)⟩
  · refine ⟨fun l hl => ?_, .inl (.inr (.inl ⟨hheld, rfl⟩))⟩
    obtain ⟨h, -⟩ | ⟨-, rfl⟩ | ⟨-, rfl⟩ := hl
    exacts [absurd h hestop, le_rfl, by decide]
  · refine ⟨fun l hl => ?_, .inl (.inr (.inr ⟨hlost, rfl⟩))⟩
    obtain ⟨h, -⟩ | ⟨h, -⟩ | ⟨-, rfl⟩ := hl
    exacts [absurd h hestop, absurd h hheld, le_rfl]
  · refine ⟨fun l hl => ?_, .inr rfl⟩
    obtain ⟨h, -⟩ | ⟨h, -⟩ | ⟨h, -⟩ := hl
    exacts [absurd h hestop, absurd h hheld, absurd h hlost]

/-- A request's level, where there is one, is that of its entry. -/
theorem mem_toList_of_rank_pos {o : Option Level} (h : o.getD .none ≠ .none) : o.getD .none ∈ o.toList := by
  cases o with
  | none => exact absurd rfl h
  | some l => exact Option.mem_toList.mpr rfl

theorem rank_of_mem_toList {o : Option Level} {l : Level} (h : l ∈ o.toList) : l = o.getD .none := by
  rw [Option.mem_toList.mp h, Option.getD_some]

/-- Settles O6: a change of the causes has the level worked out, and nothing else moves either; and `Causes.level` is the
maximum of the fixed causes' level and the two requests'. -/
theorem levelIsHighestCause : Obligations.LevelIsHighestCause := by
  refine ⟨fun _ _ hr hl hstep => step_keeps (fun _ _ h => h) (fun w hr h => w.levelRight hr h) hr hl hstep, ?_⟩
  intro c levels
  obtain ⟨hbound, hfixed⟩ := c.fixedLevel_highest
  have hmem (l : Level) : l ∈ levels ↔ l ∈ c.fixedLevels ∨ l ∈ c.lineReq.toList ∨ l ∈ c.panelReq.toList := by
    show l ∈ c.fixedLevels ++ c.lineReq.toList ++ c.panelReq.toList ↔ _
    rw [List.mem_append, List.mem_append, or_assoc]
  have hrank := c.rank_level
  refine ⟨fun l hl => ?_, ?_⟩
  · obtain hl | hl | hl := (hmem l).mp hl
    · have := hbound l hl
      omega
    · rw [rank_of_mem_toList hl]
      omega
    · rw [rank_of_mem_toList hl]
      omega
  · by_cases hnone : c.level = .none
    · exact .inr hnone
    refine .inl ((hmem _).mpr ?_)
    rw [Causes.level_eq] at hnone ⊢
    obtain e | e := Level.max_eq_or (c.fixedLevel.max (c.lineReq.getD .none)) (c.panelReq.getD .none)
    · obtain e' | e' := Level.max_eq_or c.fixedLevel (c.lineReq.getD .none)
      · rw [e, e'] at hnone ⊢
        exact .inl (hfixed.resolve_right hnone)
      · rw [e, e'] at hnone ⊢
        exact .inr (.inl (mem_toList_of_rank_pos hnone))
    · rw [e] at hnone ⊢
      exact .inr (.inr (mem_toList_of_rank_pos hnone))

end Sys2Proof.Machine
end

section
/-! PROOFS. The feed and the queues: a step of P and its front (R4 to R6), the residue (R2), and which commands leave the
feed and the queues as they are. -/

namespace Sys2Proof.Machine

/-! ### Differences of near positions (R4) -/

@[simp] theorem posDiff_self (x : Pos) : posDiff x x = 0 := by simp [posDiff]

theorem posDiff_eq_zero {x y : Pos} : posDiff x y = 0 ↔ x = y := by
  rw [posDiff, ← BitVec.toInt_zero (w := 32), BitVec.toInt_inj]
  constructor <;> intro h <;> bv_omega

theorem posDiff_comm {x y : Pos} (hlow : -100 ≤ posDiff x y) :
    posDiff y x = -posDiff x y := by
  unfold posDiff at *
  simp only [BitVec.toInt_eq_toNat_cond] at *
  split at hlow <;> split <;> bv_omega

theorem posDiff_add_one {x y : Pos} (hlow : -100 ≤ posDiff x y) (hhigh : posDiff x y ≤ 100) :
    posDiff (x + 1) y = posDiff x y + 1 := by
  unfold posDiff at *
  simp only [BitVec.toInt_eq_toNat_cond] at *
  split at hlow <;> split <;> bv_omega

theorem posDiff_sub_one {x y : Pos} (hlow : -100 ≤ posDiff x y) :
    posDiff (x - 1) y = posDiff x y - 1 := by
  unfold posDiff at *
  simp only [BitVec.toInt_eq_toNat_cond] at *
  split at hlow <;> split <;> bv_omega

/-! ### A step of P (R5, R6) -/

section Step

variable {f : Feed}

theorem Feed.frontNear_fwd (hdir : f.dir = .fwd) :
    f.frontNear ↔ 0 ≤ posDiff f.front f.pos ∧ posDiff f.front f.pos ≤ 4 := by
  rw [Feed.frontNear, hdir]

theorem Feed.frontNear_rev (hdir : f.dir = .rev) :
    f.frontNear ↔ 0 ≤ posDiff f.pos f.front ∧ posDiff f.pos f.front ≤ 4 := by
  rw [Feed.frontNear, hdir]

/-- A step of P that neither passes the front nor turns the flag moves P alone. -/
theorem Feed.step_of_between {up : Bool} {p : Pos} (hp : p = if up then f.pos + 1 else f.pos - 1)
    (hfwd : f.dir = .fwd → posDiff p f.front ≤ 0 ∧ posDiff f.front p < 5)
    (hrev : f.dir = .rev → 0 ≤ posDiff p f.front ∧ posDiff p f.front < 5) : f.step up = { f with pos := p } := by
  unfold Feed.step
  rw [← hp]
  cases hdir : f.dir with
  | fwd =>
    obtain ⟨hfront, hturn⟩ := hfwd hdir
    simp only [Feed.moveFront, Feed.turn, if_neg hfront.not_gt, if_neg hturn.not_ge]
  | rev =>
    obtain ⟨hfront, hturn⟩ := hrev hdir
    simp only [Feed.moveFront, Feed.turn, if_neg hfront.not_gt, if_neg hturn.not_ge]

/-- Forward with the flag at FWD: the front goes along where P stood at it. -/
theorem Feed.step_fwd_up (hdir : f.dir = .fwd) (h : f.frontNear) :
    f.step true = { f with pos := f.pos + 1, front := if f.front = f.pos then f.pos + 1 else f.front } := by
  obtain ⟨hlow, hhigh⟩ := (Feed.frontNear_fwd hdir).mp h
  have hcomm := posDiff_comm (x := f.front) (y := f.pos) (by omega)
  have hup := posDiff_add_one (x := f.pos) (y := f.front) (by omega) (by omega)
  by_cases hat : f.front = f.pos
  · rw [if_pos hat]
    have hpast : 0 < posDiff (f.pos + 1) f.front := by rw [hup, hcomm, hat, posDiff_self]; decide
    simp only [Feed.step, Feed.moveFront, Feed.turn, hdir, if_true, if_pos hpast, posDiff_self,
      show ¬(5 : Int) ≤ 0 by decide, if_false]
  · rw [if_neg hat]
    have hne := mt posDiff_eq_zero.mp hat
    have hback := posDiff_comm (x := f.pos + 1) (y := f.front) (by omega)
    exact Feed.step_of_between rfl (fun _ => by omega) fun hrev => absurd (hdir.symm.trans hrev) nofun

/-- Back with the flag at FWD: P alone moves, until it is 5 mm behind the front, and then the flag turns. -/
theorem Feed.step_fwd_down (hdir : f.dir = .fwd) (h : f.frontNear) :
    f.step false = if posDiff f.front f.pos = 4 then { f with pos := f.pos - 1, dir := .rev, front := f.pos - 1 }
      else { f with pos := f.pos - 1 } := by
  obtain ⟨hlow, hhigh⟩ := (Feed.frontNear_fwd hdir).mp h
  have hcomm := posDiff_comm (x := f.front) (y := f.pos) (by omega)
  have hdown := posDiff_sub_one (x := f.pos) (y := f.front) (by omega)
  have hback := posDiff_comm (x := f.pos - 1) (y := f.front) (by omega)
  split
  · next hfour =>
    have hbehind : ¬0 < posDiff (f.pos - 1) f.front := by omega
    have hturn : 5 ≤ posDiff f.front (f.pos - 1) := by omega
    simp only [Feed.step, Feed.moveFront, Feed.turn, hdir, Bool.false_eq_true, if_false, if_neg hbehind, if_pos hturn]
  · exact Feed.step_of_between rfl (fun _ => by omega) fun hrev => absurd (hdir.symm.trans hrev) nofun

theorem Feed.step_rev_down (hdir : f.dir = .rev) (h : f.frontNear) :
    f.step false = { f with pos := f.pos - 1, front := if f.front = f.pos then f.pos - 1 else f.front } := by
  obtain ⟨hlow, hhigh⟩ := (Feed.frontNear_rev hdir).mp h
  have hdown := posDiff_sub_one (x := f.pos) (y := f.front) (by omega)
  by_cases hat : f.front = f.pos
  · rw [if_pos hat]
    have hpast : posDiff (f.pos - 1) f.front < 0 := by rw [hdown, hat, posDiff_self]; decide
    simp only [Feed.step, Feed.moveFront, Feed.turn, hdir, if_pos hpast, posDiff_self,
      show ¬(5 : Int) ≤ 0 by decide, if_false, Bool.false_eq_true]
  · rw [if_neg hat]
    have hne := mt posDiff_eq_zero.mp (Ne.symm hat)
    exact Feed.step_of_between rfl (fun hfwd => absurd (hdir.symm.trans hfwd) nofun) fun _ => by omega

theorem Feed.step_rev_up (hdir : f.dir = .rev) (h : f.frontNear) :
    f.step true = if posDiff f.pos f.front = 4 then { f with pos := f.pos + 1, dir := .fwd, front := f.pos + 1 }
      else { f with pos := f.pos + 1 } := by
  obtain ⟨hlow, hhigh⟩ := (Feed.frontNear_rev hdir).mp h
  have hup := posDiff_add_one (x := f.pos) (y := f.front) (by omega) (by omega)
  split
  · next hfour =>
    have hahead : ¬posDiff (f.pos + 1) f.front < 0 := by omega
    have hturn : 5 ≤ posDiff (f.pos + 1) f.front := by omega
    simp only [Feed.step, Feed.moveFront, Feed.turn, hdir, if_true, if_neg hahead, if_pos hturn]
  · exact Feed.step_of_between rfl (fun hfwd => absurd (hdir.symm.trans hfwd) nofun) fun _ => by omega

/-- A front near P stays near it, as P steps. -/
theorem Feed.step_frontNear (h : f.frontNear) (up : Bool) : (f.step up).frontNear := by
  cases hdir : f.dir with
  | fwd =>
    obtain ⟨hlow, hhigh⟩ := (Feed.frontNear_fwd hdir).mp h
    have hcomm := posDiff_comm (x := f.front) (y := f.pos) (by omega)
    cases up with
    | true =>
      have hstep := Feed.step_fwd_up hdir h
      rw [Feed.frontNear_fwd (by rw [hstep]; exact hdir), hstep]
      have hup := posDiff_add_one (x := f.pos) (y := f.front) (by omega) (by omega)
      have hback := posDiff_comm (x := f.pos + 1) (y := f.front) (by omega)
      dsimp only
      split
      · simp
      · next hat =>
        have hne := mt posDiff_eq_zero.mp hat
        omega
    | false =>
      have hstep := Feed.step_fwd_down hdir h
      have hdown := posDiff_sub_one (x := f.pos) (y := f.front) (by omega)
      have hback := posDiff_comm (x := f.pos - 1) (y := f.front) (by omega)
      split at hstep
      · rw [Feed.frontNear_rev (by rw [hstep]), hstep]
        simp
      · rw [Feed.frontNear_fwd (by rw [hstep]; exact hdir), hstep]
        dsimp only
        omega
  | rev =>
    obtain ⟨hlow, hhigh⟩ := (Feed.frontNear_rev hdir).mp h
    cases up with
    | true =>
      have hstep := Feed.step_rev_up hdir h
      have hup := posDiff_add_one (x := f.pos) (y := f.front) (by omega) (by omega)
      split at hstep
      · rw [Feed.frontNear_fwd (by rw [hstep]), hstep]
        simp
      · rw [Feed.frontNear_rev (by rw [hstep]; exact hdir), hstep]
        dsimp only
        omega
    | false =>
      have hstep := Feed.step_rev_down hdir h
      rw [Feed.frontNear_rev (by rw [hstep]; exact hdir), hstep]
      have hdown := posDiff_sub_one (x := f.pos) (y := f.front) (by omega)
      dsimp only
      split
      · simp
      · next hat =>
        have hne := mt posDiff_eq_zero.mp (Ne.symm hat)
        omega

end Step

/-- What moving the front leaves alone, P included. -/
theorem Feed.moveFront_kept (f : Feed) : f.moveFront.pos = f.pos ∧ f.moveFront.residue = f.residue ∧
    f.moveFront.speed = f.speed ∧ f.moveFront.kept = f.kept ∧ f.moveFront.enc = f.enc := by
  unfold Feed.moveFront
  split <;> split <;> exact ⟨rfl, rfl, rfl, rfl, rfl⟩

theorem Feed.turn_kept (f : Feed) : f.turn.pos = f.pos ∧ f.turn.residue = f.residue ∧
    f.turn.speed = f.speed ∧ f.turn.kept = f.kept ∧ f.turn.enc = f.enc := by
  unfold Feed.turn
  split <;> split <;> exact ⟨rfl, rfl, rfl, rfl, rfl⟩

theorem Feed.step_pos (f : Feed) (up : Bool) : (f.step up).pos = if up then f.pos + 1 else f.pos - 1 :=
  (Feed.turn_kept _).1.trans (Feed.moveFront_kept _).1

/-- What a step of P leaves alone. -/
theorem Feed.step_kept (f : Feed) (up : Bool) : (f.step up).residue = f.residue ∧ (f.step up).speed = f.speed ∧
    (f.step up).kept = f.kept ∧ (f.step up).enc = f.enc := by
  obtain ⟨_, hresidue, hspeed, hkept, henc⟩ :=
    Feed.moveFront_kept { f with pos := if up then f.pos + 1 else f.pos - 1 }
  obtain ⟨_, hresidue', hspeed', hkept', henc'⟩ :=
    Feed.turn_kept ({ f with pos := if up then f.pos + 1 else f.pos - 1 } : Feed).moveFront
  exact ⟨hresidue'.trans hresidue, hspeed'.trans hspeed, hkept'.trans hkept, henc'.trans henc⟩

/-! ### Steps of P and the part (R2) -/

/-- The feed after a step of P is that step of the feed, whatever events it has. -/
theorem State.stepPos_feed {s : State} (h : ∀ k, s.ringRight k) (up : Bool) : (s.stepPos up).feed = s.feed.step up :=
  (State.stepPos_works h up).sameOuter.feed

theorem State.stepsPos_feed (up : Bool) (n : Nat) : ∀ {s : State}, (∀ k, s.ringRight k) →
    (s.stepsPos up n).feed = (fun f : Feed => f.step up)^[n] s.feed := by
  induction n with
  | zero => exact fun _ => rfl
  | succ n ih =>
    intro s h
    rw [State.stepsPos, ih ((State.stepPos_ordinary h up).ringRight h), State.stepPos_feed h, Function.iterate_succ_apply]

theorem Feed.steps_frontNear {f : Feed} (h : f.frontNear) (up : Bool) (n : Nat) :
    ((fun f : Feed => f.step up)^[n] f).frontNear :=
  Function.Iterate.rec Feed.frontNear h (fun _ h => Feed.step_frontNear h up) n

theorem Feed.steps_residue (f : Feed) (up : Bool) (n : Nat) :
    ((fun f : Feed => f.step up)^[n] f).residue = f.residue :=
  Function.Iterate.rec (fun g : Feed => g.residue = f.residue) rfl (fun g h => (g.step_kept up).1.trans h) n

/-! ### Counts (R1, R2) -/

/-- The forward cycle has four states: one next to another does not come before it. -/
theorem nextEnc_ne (x : Bool × Bool) : nextEnc (nextEnc x) ≠ x := by
  revert x
  decide

theorem forwardSteps_eq (scale r : Nat) : r + 1000 = (forwardSteps scale r).1 * scale + (forwardSteps scale r).2 :=
  (Nat.div_add_mod' _ _).symm

theorem forwardSteps_lt {scale : Nat} (h : 0 < scale) (r : Nat) : (forwardSteps scale r).2 < scale := Nat.mod_lt _ h

/-- The quotient of a division rounded up. -/
theorem le_roundUp_mul {scale : Nat} (h : 0 < scale) (x : Nat) :
    x ≤ (x + (scale - 1)) / scale * scale ∧ (x + (scale - 1)) / scale * scale < x + scale := by
  have hdiv := Nat.div_add_mod' (x + (scale - 1)) scale
  have hmod := Nat.mod_lt (x + (scale - 1)) h
  omega

theorem reverseSteps_eq {scale : Nat} (h : 0 < scale) (r : Nat) :
    r + (reverseSteps scale r).1 * scale = (reverseSteps scale r).2 + 1000 := by
  unfold reverseSteps
  split
  · simp only
    omega
  · obtain ⟨hle, _⟩ := le_roundUp_mul h (1000 - r)
    simp only
    omega

theorem reverseSteps_lt {scale r : Nat} (h : 0 < scale) (hr : r < scale) : (reverseSteps scale r).2 < scale := by
  unfold reverseSteps
  split
  · simp only
    omega
  · obtain ⟨_, hlt⟩ := le_roundUp_mul h (1000 - r)
    simp only
    omega

/-- What a change of the encoder lines makes of the residue, how many steps of P it brings and which way: the change forward,
reverse or none. -/
theorem State.acceptEnc_cases (s : State) (now : Bool × Bool) (hscale : 0 < s.points.scale) (hr : s.residueRight) :
    ∃ residue n up, s.acceptEnc now = ({ s with feed := { s.feed with enc := now, residue := residue } }, n, up) ∧
      residue < s.points.scale ∧
      (now = nextEnc s.feed.enc → up = true ∧ s.feed.residue + 1000 = n * s.points.scale + residue) ∧
      (s.feed.enc = nextEnc now → up = false ∧ s.feed.residue + n * s.points.scale = residue + 1000) ∧
      (now ≠ nextEnc s.feed.enc → s.feed.enc ≠ nextEnc now → n = 0 ∧ residue = s.feed.residue) := by
  unfold State.acceptEnc encoderCount
  by_cases hforward : now = nextEnc s.feed.enc
  · have hreverse : s.feed.enc ≠ nextEnc now := fun e => nextEnc_ne s.feed.enc (by rw [← hforward, ← e])
    rw [if_pos hforward]
    exact ⟨_, _, _, rfl, forwardSteps_lt hscale _, fun _ => ⟨rfl, forwardSteps_eq _ _⟩, fun e => absurd e hreverse,
      fun e => absurd hforward e⟩
  · by_cases hreverse : s.feed.enc = nextEnc now
    · rw [if_neg hforward, if_pos hreverse]
      exact ⟨_, _, _, rfl, reverseSteps_lt hscale hr, fun e => absurd e hforward, fun _ => ⟨rfl, reverseSteps_eq hscale _⟩,
        fun _ e => absurd hreverse e⟩
    · rw [if_neg hforward, if_neg hreverse]
      exact ⟨_, _, _, rfl, hr, fun e => absurd e hforward, fun e => absurd e hreverse, fun _ _ => ⟨rfl, rfl⟩⟩

/-- Settles O13: the counts of `State.acceptEnc`, the cycle, the step of P in each direction of the flag, and the feed of
the part's steps. -/
theorem encoderCountsConvertToSteps : Obligations.EncoderCountsConvertToSteps := by
  refine ⟨fun s enc1 enc2 hscale hr => ?_, ⟨rfl, rfl, rfl, rfl⟩, fun f up h => ?_,
    fun s up n hr => ⟨State.stepPos_feed hr up, State.stepsPos_feed up n hr⟩⟩
  · obtain ⟨residue, n, up, haccept, hrest⟩ :=
      State.acceptEnc_cases { s with lines := { s.lines with enc1 := enc1, enc2 := enc2 } } (enc1, enc2) hscale hr
    refine ⟨residue, n, up, ?_, hrest⟩
    show execEncoderChange enc1 enc2 s = _
    simp only [execEncoderChange, haccept]
  · refine ⟨f.step_pos up, fun hdir hup => ?_, fun hdir hup => ?_, fun hdir hup => ?_, fun hdir hup => ?_, f.step_kept up⟩
    · rw [hup, Feed.step_fwd_up hdir h]
      exact ⟨hdir, rfl⟩
    · rw [hup, Feed.step_fwd_down hdir h]
      refine ⟨fun hlt => ?_, fun hfour => ?_⟩
      · rw [if_neg hlt.ne]
        exact ⟨hdir, rfl⟩
      · rw [if_pos hfour]
        exact ⟨rfl, rfl⟩
    · rw [hup, Feed.step_rev_down hdir h]
      exact ⟨hdir, rfl⟩
    · rw [hup, Feed.step_rev_up hdir h]
      refine ⟨fun hlt => ?_, fun hfour => ?_⟩
      · rw [if_neg hlt.ne]
        exact ⟨hdir, rfl⟩
      · rw [if_pos hfour]
        exact ⟨rfl, rfl⟩

/-! ### What leaves the feed, the scale and the queues alone -/

/-- Between two states the feed and the scale are the same, and no queue is longer. -/
structure Steady (s t : State) : Prop where
  feed : t.feed = s.feed
  scale : t.points.scale = s.points.scale
  queues : ∀ p, (t.ports.get p).queue.length ≤ (s.ports.get p).queue.length

theorem Steady.refl (s : State) : Steady s s := ⟨rfl, rfl, fun _ => le_rfl⟩

theorem Steady.trans {s t u : State} (h : Steady s t) (g : Steady t u) : Steady s u :=
  ⟨g.feed.trans h.feed, g.scale.trans h.scale, fun p => (g.queues p).trans (h.queues p)⟩

theorem SameOuter.steady {s t : State} (h : SameOuter s t) : Steady s t :=
  ⟨h.feed, by rw [h.points], fun p => by rw [(h.ports p).queue]⟩

theorem onPort_steady (s : State) (p : Port) {f : PortState → PortState}
    (hf : ∀ q, (f q).queue.length ≤ q.queue.length) : Steady s (s.onPort p f) :=
  ⟨rfl, rfl, fun q => by
    show ((s.ports.modify p f).get q).queue.length ≤ _
    rw [PerPort.get_modify]
    split
    · exact hf _
    · exact le_rfl⟩

theorem length_flushUnknown_le (l : List Req) : ∀ out, (flushUnknown l out).1.length ≤ l.length := by
  induction l with
  | nil => exact fun _ => le_rfl
  | cons r l ih =>
    intro out
    unfold flushUnknown
    split
    · exact (ih _).trans (Nat.le_succ _)
    · exact le_rfl

theorem PortState.length_flush_le (q : PortState) : q.flush.queue.length ≤ q.queue.length :=
  length_flushUnknown_le _ _

theorem State.answer_steady (s : State) (p : Port) (r : Req) (x : Result) (b : List Byte) :
    Steady s (s.answer p r x b) := by
  have hreply : Steady s (s.reply p r x b) := onPort_steady s p fun _ => le_rfl
  refine hreply.trans (onPort_steady _ p fun q => ?_)
  have hflush := PortState.length_flush_le { q with queue := q.queue.tail }
  have htail : q.queue.tail.length ≤ q.queue.length := by simp
  exact hflush.trans htail

theorem State.serve_steady {s : State} (p : Port) (k : Kind) {want : Req → Bool} {effect : Req → State → Effect}
    (heffect : ∀ r, want r = true → Steady s (effect r s).state) : Steady s (s.serve p k want effect) := by
  unfold State.serve
  split
  · exact .refl s
  · next r hrequest =>
    split
    · exact s.answer_steady _ _ _ _
    · exact (heffect r (State.wanted_of_request? hrequest)).trans (State.answer_steady _ _ _ _ _)

theorem profileEffect_sameOuter {s : State} (h : ∀ k, s.ringRight k) (r : Req) :
    SameOuter s (profileEffect r s).state := by
  unfold profileEffect
  simp only
  split
  · exact .refl s
  · split; · exact .refl s
    split; · exact .refl s
    split; · exact .refl s
    split; · exact .refl s
    next hn =>
    have hd : ∀ x ∈ s.track, x.scanId ≠ (readProfile r.payload).scanId := by simpa using hn
    split
    · exact (State.adopt_works h _ _ _ hd).sameOuter
    · split
      · next hl => exact (State.newRecord_works h _ hl rfl hd).sameOuter
      · exact .refl s

theorem speciesSetEffect_sameOuter (s : State) (r : Req) : SameOuter s (speciesSetEffect r s).state := by
  unfold speciesSetEffect
  simp only
  split
  · exact .refl s
  · split; · exact .refl s
    split; · exact .refl s
    exact (State.setSpecies_works _ _ _ _).sameOuter

theorem State.forceFirst_sameOuter (s : State) (code : Nat) : SameOuter s (s.forceFirst code).state := by
  unfold State.forceFirst
  split
  · exact .refl s
  · exact (State.setSpecies_works _ _ _ _).sameOuter

theorem speciesForceEffect_sameOuter {s : State} (h : ∀ k, s.ringRight k) (r : Req) :
    SameOuter s (speciesForceEffect r s).state := by
  unfold speciesForceEffect
  simp only
  split
  · exact .refl s
  · split
    · split
      · split
        · exact (State.rebindRec_works h _ _).sameOuter
        · exact s.forceFirst_sameOuter _
      · exact s.forceFirst_sameOuter _
    · exact s.forceFirst_sameOuter _

theorem releaseEffect_sameOuter (s : State) (p : Port) (r : Req) : SameOuter s (releaseEffect p r s).state := by
  unfold releaseEffect
  split
  · exact .refl s
  · exact (s.enterRequest_internal p _).sameOuter

theorem resumeEffect_sameOuter (s : State) (r : Req) : SameOuter s (resumeEffect r s).state := by
  have h : SameOuter s s.dropEnded.valveResume :=
    s.dropEnded_internal.sameOuter.trans (State.valveResume_works _).sameOuter
  unfold resumeEffect
  simp only
  split <;> exact h

theorem markEffect_sameOuter (s : State) (r : Req) : SameOuter s (markEffect r s).state := by
  unfold markEffect
  simp only
  split
  · exact .refl s
  · split
    · exact .refl s
    · exact (setMarks_works _ _ _).sameOuter

theorem State.setSeason_steady (s : State) (x : Season) : Steady s (s.setSeason x) := by
  unfold State.setSeason
  split
  · exact .refl s
  · exact Steady.trans (t := { s with control := { s.control with season := x } }) ⟨rfl, rfl, fun _ => le_rfl⟩
      (State.advise_works _).sameOuter.steady

theorem recipeWriteEffect_steady (s : State) (r : Req) : Steady s (recipeWriteEffect r s).state := by
  unfold recipeWriteEffect
  simp only
  split
  · exact .refl s
  · split <;> exact ⟨rfl, rfl, fun _ => le_rfl⟩

theorem recipeDeleteEffect_steady (s : State) (r : Req) : Steady s (recipeDeleteEffect r s).state := by
  unfold recipeDeleteEffect
  simp only
  split
  · exact .refl s
  · split <;> exact ⟨rfl, rfl, fun _ => le_rfl⟩

theorem recipeCommitEffect_steady (s : State) (r : Req) : Steady s (recipeCommitEffect r s).state := by
  unfold recipeCommitEffect
  split
  · exact ⟨rfl, rfl, fun _ => le_rfl⟩
  · exact s.swap_works.sameOuter.steady

theorem manualSetEffect_steady (s : State) (r : Req) : Steady s (manualSetEffect r s).state := by
  have hstored : ∀ k x y, Steady s (s.storeManual k x y) := fun _ _ _ => ⟨rfl, rfl, fun _ => le_rfl⟩
  unfold manualSetEffect
  simp only
  split
  · exact .refl s
  · split
    · exact (hstored _ _ _).trans ((State.evalPress_works _ _).trans (State.evalLift_works _ _)).sameOuter.steady
    · exact hstored _ _ _

theorem noticeEnableEffect_steady (s : State) (r : Req) : Steady s (noticeEnableEffect r s).state := by
  unfold noticeEnableEffect
  split
  · exact onPort_steady s _ fun _ => le_rfl
  · exact .refl s

theorem noticeClearEffect_steady (s : State) (p : Port) (r : Req) : Steady s (noticeClearEffect p r s).state := by
  unfold noticeClearEffect
  split
  · exact onPort_steady s _ fun _ => le_rfl
  · exact .refl s

theorem raises_queue (kinds : List NoticeKind) : ∀ q : PortState, (kinds.foldl PortState.raise q).queue = q.queue := by
  induction kinds with
  | nil => exact fun _ => rfl
  | cons k kinds ih => exact fun q => (ih _).trans (q.raise_same k).queue

theorem noticeRaiseEffect_steady (s : State) (r : Req) : Steady s (noticeRaiseEffect r s).state := by
  unfold noticeRaiseEffect
  split
  · exact onPort_steady s _ fun q => (congrArg List.length (raises_queue _ q)).le
  · exact .refl s

theorem modeEffect_steady {s : State} (hr : ∀ k, s.ringRight k) (r : Req) : Steady s (modeEffect r s).state := by
  unfold modeEffect
  split
  · exact .refl s
  · next m _ =>
    split_ifs
    · exact .refl s
    · exact .refl s
    · exact Steady.trans (t := s.moded m) ⟨rfl, rfl, fun _ => le_rfl⟩ (State.changeMode_chain hr m).1.sameOuter.steady

theorem Points.write_scale {q : Point} (hq : q ≠ .scale) (pts : Points) (v : Int) :
    (pts.write q v).scale = pts.scale := by
  cases q with
  | scale => exact absurd rfl hq
  | _ => rfl

/-- The effect of a row's write: refused, with nothing changed, or the owner's at a point of the row. -/
theorem writeEffect_cases {s : State} {row : WriteRow} {owner : Point → State → State → State} {r : Req}
    (hwant : writeOf (fun q => decide (Machine.writeRow q = row)) r = true) {P : State → Prop} (hrefused : P s)
    (howner : ∀ q v held, Machine.writeRow (some q) = row → q.range.take (s32 r.payload 2) = some (v, held) →
      P (owner q s { s with points := s.points.write q v })) : P (writeEffect owner r s).state := by
  simp only [writeOf, Bool.and_eq_true, decide_eq_true_eq] at hwant
  obtain ⟨_, hrow⟩ := hwant
  unfold writeEffect
  simp only
  split
  · exact hrefused
  · next q hq =>
    split
    · exact hrefused
    · next v held htake => exact howner q v held (hq ▸ hrow) htake

theorem State.writeRow_steady {s : State} (hr : ∀ k, s.ringRight k) (p : Port) {row : WriteRow}
    {owner : Point → State → State → State} (hrow : row ≠ .scale)
    (howner : ∀ q (t : State), (∀ k, t.ringRight k) → SameOuter t (owner q s t)) : Steady s (s.writeRow p row owner) := by
  refine State.serve_steady p .point fun r hwant => writeEffect_cases hwant (.refl s) fun q v held hq _ => ?_
  have hstored : Steady s { s with points := s.points.write q v } :=
    ⟨rfl, Points.write_scale (fun e => hrow (by rw [← hq, e]; rfl)) _ _, fun _ => le_rfl⟩
  have hr' : ∀ k, ({ s with points := s.points.write q v } : State).ringRight k :=
    fun k => ⟨(hr k).allowed, (hr k).named⟩
  exact hstored.trans (howner q _ hr').steady

theorem ceilingOwner_sameOuter (q : Point) (s t : State) : SameOuter t (ceilingOwner q s t) :=
  SameOuter.trans (t := t.valveCeiling) ⟨rfl, rfl, rfl, rfl, rfl, rfl, rfl, rfl, fun _ => .refl _⟩
    (State.evalBoth_works _).sameOuter

/-- The commands that may move the feed, change the scale or lengthen a queue. -/
def isUnsteady : Instr → Bool
  | .powerOn _ | .restart _ | .telegramReceived .. | .byteReceived .. | .encoderChange .. | .speedUpdate
  | .scaleWrite _ => true
  | _ => false

theorem State.startCauses_sameOuter (s : State) : SameOuter s s.startCauses := s.startCauses_works.sameOuter

/-- Every other command leaves the feed and the scale alone and lengthens no queue. -/
theorem exec_steady {s : State} (hr : ∀ k, s.ringRight k) (i : Instr) (hi : isUnsteady i = false) :
    ∃ t, exec i s = .next t ∧ Steady s t := by
  have row {row : WriteRow} {owner : Point → State → State → State} (p : Port) (hrow : row ≠ .scale)
      (howner : ∀ q (t : State), (∀ k, t.ringRight k) → SameOuter t (owner q s t)) : Steady s (s.writeRow p row owner) :=
    State.writeRow_steady hr p hrow howner
  have idle {p : Port} {k : Kind} {want : Req → Bool} {effect : Req → State → Effect}
      (h : ∀ r, (effect r s).state = s) : Steady s (s.serve p k want effect) :=
    State.serve_steady p k fun r _ => by rw [h]; exact .refl s
  cases i with
  | interByteTimeout p => exact ⟨_, rfl, onPort_steady s p fun _ => le_rfl⟩
  | telegramSendBegin p =>
    refine ⟨_, rfl, onPort_steady s p fun q => ?_⟩
    unfold PortState.sendBegin
    split <;> exact le_rfl
  | status p => exact ⟨_, rfl, idle fun _ => rfl⟩
  | profile p => exact ⟨_, rfl, State.serve_steady p _ fun r _ => (profileEffect_sameOuter hr r).steady⟩
  | trackRead p => exact ⟨_, rfl, idle fun _ => rfl⟩
  | speciesSet p => exact ⟨_, rfl, State.serve_steady p _ fun r _ => (speciesSetEffect_sameOuter s r).steady⟩
  | speciesForce p => exact ⟨_, rfl, State.serve_steady p _ fun r _ => (speciesForceEffect_sameOuter hr r).steady⟩
  | release p => exact ⟨_, rfl, State.serve_steady p _ fun r _ => (releaseEffect_sameOuter s p r).steady⟩
  | resume p => exact ⟨_, rfl, State.serve_steady p _ fun r _ => (resumeEffect_sameOuter s r).steady⟩
  | mark p => exact ⟨_, rfl, State.serve_steady p _ fun r _ => (markEffect_sameOuter s r).steady⟩
  | mode p => exact ⟨_, rfl, State.serve_steady p _ fun r _ => modeEffect_steady hr r⟩
  | winter p => exact ⟨_, rfl, State.serve_steady p _ fun _ _ => s.setSeason_steady _⟩
  | summer p => exact ⟨_, rfl, State.serve_steady p _ fun _ _ => s.setSeason_steady _⟩
  | recipeWrite p => exact ⟨_, rfl, State.serve_steady p _ fun r _ => recipeWriteEffect_steady s r⟩
  | recipeRead p => exact ⟨_, rfl, idle fun r => recipeReadEffect_state s r⟩
  | recipeDelete p => exact ⟨_, rfl, State.serve_steady p _ fun r _ => recipeDeleteEffect_steady s r⟩
  | recipeCommit p => exact ⟨_, rfl, State.serve_steady p _ fun r _ => recipeCommitEffect_steady s r⟩
  | recipeDiscard p => exact ⟨_, rfl, State.serve_steady p _ fun _ _ => ⟨rfl, rfl, fun _ => le_rfl⟩⟩
  | manualSet p => exact ⟨_, rfl, State.serve_steady p _ fun r _ => manualSetEffect_steady s r⟩
  | pointRead p => exact ⟨_, rfl, idle fun _ => rfl⟩
  | pointWrite p => exact ⟨_, rfl, row p nofun fun _ t _ => .refl t⟩
  | geometryWrite p => exact ⟨_, rfl, row p nofun fun q _ h => (geometryOwner_works h q s).sameOuter⟩
  | windowArmWrite p => exact ⟨_, rfl, row p nofun fun _ _ h => (State.afterMove_works h s).sameOuter⟩
  | ceilingWrite p => exact ⟨_, rfl, row p nofun fun q t _ => ceilingOwner_sameOuter q s t⟩
  | setpointPointWrite p => exact ⟨_, rfl, row p nofun fun q t _ => (setpointOwner_works q s t).sameOuter⟩
  | echoEnableWrite p => exact ⟨_, rfl, row p nofun fun q t _ => (echoOwner_works q s t).sameOuter⟩
  | stopOnReleaseWrite p => exact ⟨_, rfl, row p nofun fun _ t _ => t.recomputePermit_sameOuter⟩
  | markSourceWrite p => exact ⟨_, rfl, row p nofun fun _ t _ => .refl t⟩
  | markGateWrite p => exact ⟨_, rfl, row p nofun fun _ t _ => t.recomputePermit_sameOuter⟩
  | thresholdWrite p => exact ⟨_, rfl, row p nofun fun _ t _ => t.advise_works.sameOuter⟩
  | save p =>
    refine ⟨_, rfl, ?_⟩
    split
    · exact .refl s
    · split
      · exact s.answer_steady _ _ _ _
      · exact ⟨rfl, rfl, fun _ => le_rfl⟩
  | saveComplete =>
    show ∃ t, execSaveComplete s = .next t ∧ Steady s t
    unfold execSaveComplete
    split
    · exact ⟨_, rfl, .refl s⟩
    · next i _ =>
      refine ⟨_, rfl, Steady.trans (t := { s with store := { image := some i, closed := true, snapshot := none } })
        ⟨rfl, rfl, fun _ => le_rfl⟩ ?_⟩
      unfold State.answerSave
      split
      · exact State.answer_steady _ _ _ _ _
      · exact .refl _
  | noticeEnable p => exact ⟨_, rfl, State.serve_steady p _ fun r _ => noticeEnableEffect_steady s r⟩
  | noticeClear p => exact ⟨_, rfl, State.serve_steady p _ fun r _ => noticeClearEffect_steady s p r⟩
  | noticeRaise p => exact ⟨_, rfl, State.serve_steady p _ fun r _ => noticeRaiseEffect_steady s r⟩
  | cellRawChange c b =>
    show ∃ t, execCellRawChange c b s = .next t ∧ Steady s t
    have hline : ∀ x y, Steady s ({ s with lines := x, cells := y } : State) := fun _ _ => ⟨rfl, rfl, fun _ => le_rfl⟩
    unfold execCellRawChange
    split
    · exact ⟨_, rfl, .refl s⟩
    · simp only
      split
      · refine ⟨_, rfl, (hline _ _).trans (State.settleDropped_works (fun k => ?_) c).sameOuter.steady⟩
        exact ⟨(hr k).allowed, (hr k).named⟩
      · exact ⟨_, rfl, hline _ _⟩
  | cellEdge c =>
    show ∃ t, execCellEdge c s = .next t ∧ Steady s t
    unfold execCellEdge
    split
    · exact ⟨_, rfl, .refl s⟩
    · refine ⟨_, rfl, Steady.trans (t := s.onCell c fun q =>
        { q with blocked := !(s.cells.get c).blocked, candidate := none }) ⟨rfl, rfl, fun _ => le_rfl⟩ ?_⟩
      have hr' : ∀ k, (s.onCell c fun q =>
        { q with blocked := !(s.cells.get c).blocked, candidate := none }).ringRight k :=
        fun k => ⟨(hr k).allowed, (hr k).named⟩
      cases c
      · exact (State.entryEdge_internal hr' _ _).sameOuter.steady
      · exact (State.exitEdge_works hr' _ _).sameOuter.steady
  | valveFrame =>
    exact ⟨_, rfl, Steady.trans (t := { s with valve := s.valve.frame s.points s.release.level })
      ⟨rfl, rfl, fun _ => le_rfl⟩ ((Works.foldl State.reportSilent_works Channel.all _).sameOuter.trans
        (badEchoes_internal _ _).sameOuter).steady⟩
  | deadIntervalExpiry k =>
    show ∃ t, execDeadIntervalExpiry k s = .next t ∧ Steady s t
    unfold execDeadIntervalExpiry
    split
    · exact ⟨_, rfl, .refl s⟩
    · split <;> exact ⟨_, rfl, rfl, rfl, fun _ => le_rfl⟩
  | echoReceived c w => exact (s.echo_ordinary c w).imp fun _ ⟨he, hi⟩ => ⟨he, hi.sameOuter.steady⟩
  | deviationTimeout c => exact (s.deviation_ordinary c).imp fun _ ⟨he, hi⟩ => ⟨he, hi.sameOuter.steady⟩
  | estopInputChange active =>
    show ∃ t, execEstopInputChange active s = .next t ∧ Steady s t
    have hline : ∀ x y, Steady s ({ s with lines := x, release := y } : State) := fun _ _ => ⟨rfl, rfl, fun _ => le_rfl⟩
    unfold execEstopInputChange
    simp only
    split_ifs
    · exact ⟨_, rfl, .refl s⟩
    · exact ⟨_, rfl, (hline _ _).trans
        ((State.raiseCause_internal _ _).sameOuter.trans (State.recomputePermit_sameOuter _)).steady⟩
    · exact ⟨_, rfl, hline _ _⟩
  | estopInactiveTaken =>
    show ∃ t, execEstopInactiveTaken s = .next t ∧ Steady s t
    unfold execEstopInactiveTaken
    simp only
    split <;> exact ⟨_, rfl, rfl, rfl, fun _ => le_rfl⟩
  | rotorInputChange k b => exact ⟨_, rfl, rfl, rfl, fun _ => le_rfl⟩
  | rotorLevelTaken k =>
    show ∃ t, execRotorLevelTaken k s = .next t ∧ Steady s t
    unfold execRotorLevelTaken
    split
    · exact ⟨_, rfl, .refl s⟩
    · refine ⟨_, rfl, ?_⟩
      unfold State.takeRotor
      simp only
      split
      · exact Steady.trans (t := { s with release := { s.release with
          rotorRunning := s.release.rotorRunning.modify k fun _ => Lines.rotor s.lines k } })
          ⟨rfl, rfl, fun _ => le_rfl⟩ (State.raiseCause_internal _ _).sameOuter.steady
      · exact ⟨rfl, rfl, fun _ => le_rfl⟩
  | keyInputChange b => exact ⟨_, rfl, rfl, rfl, fun _ => le_rfl⟩
  | keyLevelTaken => exact ⟨_, rfl, rfl, rfl, fun _ => le_rfl⟩
  | _ => cases hi

/-! ### Starts and telegrams received -/

theorem State.warmRestart_feed (s : State) : s.warmRestart.feed = startFeed s.lines := by
  unfold State.warmRestart
  rw [(State.startCauses_sameOuter _).feed, (State.advise_works _).sameOuter.feed]
  rfl

theorem State.warmRestart_points (s : State) : s.warmRestart.points = s.points := by
  unfold State.warmRestart
  rw [(State.startCauses_sameOuter _).points, (State.advise_works _).sameOuter.points]
  rfl

theorem State.warmRestart_queue (s : State) (p : Port) : (s.warmRestart.ports.get p).queue = [] := by
  unfold State.warmRestart
  rw [((State.startCauses_sameOuter _).ports p).queue, ((State.advise_works _).sameOuter.ports p).queue]
  cases p <;> rfl

/-- The points of an image that is valid are sound, and so are the factory's: the scale is not 0. -/
theorem Points.sound_scale {pts : Points} (h : pts.sound = true) : 400 ≤ pts.scale := by
  have hscale := List.all_eq_true.mp h .scale (by decide)
  simp only [Point.range, PointRange.take, Points.read, heldWithin] at hscale
  split_ifs at hscale <;> simp_all

theorem Store.valid?_sound {x : Store} {i : Image} (h : x.valid? = some i) : i.sound = true := by
  unfold Store.valid? at h
  split at h
  · exact (Option.filter_eq_some_iff.mp h).2
  · cases h

theorem State.loaded_scale (s : State) : 0 < (s.store.valid?.getD factoryImage).points.scale := by
  cases h : s.store.valid? with
  | none => decide
  | some i =>
    have hsound := Store.valid?_sound h
    rw [Image.sound, Bool.and_eq_true] at hsound
    exact (Points.sound_scale hsound.1).trans' (by decide)

/-- The state POWER_ON comes to before the causes found at the start. -/
theorem execPowerOn_start (l : Lines) (s : State) : ∃ u, exec (.powerOn l) s = .next (State.startCauses u) ∧
    u.feed = startFeed l ∧ u.points = (s.store.valid?.getD factoryImage).points ∧ ∀ p, (u.ports.get p).queue = [] := by
  refine ⟨_, rfl, ?_⟩
  split
  · refine ⟨rfl, rfl, fun p => ?_⟩
    rw [((State.notice_works _ _).sameOuter.ports p).queue]
    cases p <;> rfl
  · exact ⟨rfl, rfl, fun p => by cases p <;> rfl⟩

theorem startFeed_frontNear (l : Lines) : (startFeed l).frontNear :=
  (Feed.frontNear_fwd rfl).mpr (by simp [startFeed])

/-- What arrives at a port leaves the feed, or starts it anew, and queues no more than 4 requests. -/
theorem State.accept_feed (s : State) (p : Port) (kind : Byte) (payload : List Byte) :
    ((s.accept p kind payload).feed = s.feed ∨ (s.accept p kind payload).feed = startFeed s.lines) ∧
      (s.accept p kind payload).points.scale = s.points.scale ∧
      ∀ q, ((s.accept p kind payload).ports.get q).queue.length ≤ max 4 (s.ports.get q).queue.length := by
  have hreply : ∀ r x b, Steady s (s.reply p r x b) := fun _ _ _ => onPort_steady s p fun _ => le_rfl
  have steady {t : State} (h : Steady s t) : (t.feed = s.feed ∨ t.feed = startFeed s.lines) ∧
      t.points.scale = s.points.scale ∧ ∀ q, (t.ports.get q).queue.length ≤ max 4 (s.ports.get q).queue.length :=
    ⟨.inl h.feed, h.scale, fun q => (h.queues q).trans (Nat.le_max_right _ _)⟩
  unfold State.accept State.restartOnArrival
  simp only
  split_ifs
  · exact steady (.refl s)
  · exact steady (hreply _ _ _)
  · split
    · exact steady (onPort_steady s _ fun _ => le_rfl)
    · have hrestart : Steady s.warmRestart (s.warmRestart.reply .panel ⟨kind, payload, s.feed.pos⟩ .ok []) :=
        onPort_steady _ _ fun _ => le_rfl
      refine ⟨.inr (hrestart.feed.trans s.warmRestart_feed), hrestart.scale.trans (by rw [s.warmRestart_points]), fun q => ?_⟩
      have hempty := hrestart.queues q
      rw [s.warmRestart_queue] at hempty
      exact hempty.trans (Nat.zero_le _)
  · exact steady (hreply _ _ _)
  · next hroom =>
    refine ⟨.inl rfl, rfl, fun q => ?_⟩
    show ((s.ports.modify p _).get q).queue.length ≤ _
    rw [PerPort.get_modify]
    split
    · next hq =>
      refine (PortState.length_flush_le _).trans ?_
      rw [hq, List.length_append, List.length_singleton]
      omega
    · exact Nat.le_max_right _ _

theorem State.receive_steady (s : State) (p : Port) (r : Receiver) : Steady s (s.receive p r) :=
  onPort_steady s p fun _ => le_rfl

/-- What the bytes of a telegram make of the feed, the scale and the queues. -/
structure Arrived (s t : State) : Prop where
  feed : t.feed = s.feed ∨ t.feed = startFeed s.lines
  scale : t.points.scale = s.points.scale
  queues : ∀ q, (t.ports.get q).queue.length ≤ max 4 (s.ports.get q).queue.length

theorem Steady.arrived {s t : State} (h : Steady s t) : Arrived s t :=
  ⟨.inl h.feed, h.scale, fun q => (h.queues q).trans (Nat.le_max_right _ _)⟩

theorem State.accept_arrived {s : State} (p : Port) (r : Receiver) (kind : Byte) (payload : List Byte) :
    Arrived s ((s.receive p r).accept p kind payload) := by
  obtain ⟨hfeed, hscale, hqueues⟩ := (s.receive p r).accept_feed p kind payload
  refine ⟨hfeed, hscale, fun q => ?_⟩
  have hsame := (s.receive_steady p r).queues q
  have hq := hqueues q
  omega

theorem exec_telegramReceived_arrived (p : Port) (kind : Byte) (payload : List Byte) (s : State) :
    ∃ t, exec (.telegramReceived p kind payload) s = .next t ∧ Arrived s t := by
  show ∃ t, execTelegramReceived p kind payload s = .next t ∧ Arrived s t
  unfold execTelegramReceived
  split
  · exact ⟨_, rfl, State.accept_arrived _ _ _ _⟩
  · exact ⟨_, rfl, (Steady.refl s).arrived⟩

theorem exec_byteReceived_arrived (p : Port) (b : Byte) (s : State) :
    ∃ t, exec (.byteReceived p b) s = .next t ∧ Arrived s t := by
  have hreceive : ∀ r, Arrived s (s.receive p r) := fun r => (s.receive_steady p r).arrived
  show ∃ t, execByteReceived p b s = .next t ∧ Arrived s t
  unfold execByteReceived
  split
  · refine ⟨_, rfl, ?_⟩
    split
    · exact hreceive _
    · exact (Steady.refl s).arrived
  · refine ⟨_, rfl, ?_⟩
    unfold State.frameByte
    simp only
    split_ifs
    · exact hreceive _
    · exact hreceive _
    · exact State.accept_arrived _ _ _ _
    · exact hreceive _

/-! ### Every command -/

/-- The front near P and the residue below the scale. -/
def State.feedRight (s : State) : Prop := s.feed.frontNear ∧ s.residueRight

theorem Steady.feedRight {s t : State} (h : Steady s t) (hs : s.feedRight) : t.feedRight := by
  unfold State.feedRight State.residueRight at *
  rwa [h.feed, h.scale]

theorem State.feedRight_of_start {s : State} {l : Lines} (hfeed : s.feed = startFeed l) (hscale : 0 < s.points.scale) :
    s.feedRight := by
  unfold State.feedRight State.residueRight
  rw [hfeed]
  exact ⟨startFeed_frontNear l, hscale⟩

theorem State.feedRight.scale_pos {s : State} (h : s.feedRight) : 0 < s.points.scale :=
  (Nat.zero_le _).trans_lt h.2

theorem Arrived.feedRight {s t : State} (h : Arrived s t) (hs : s.feedRight) : t.feedRight := by
  obtain hfeed | hfeed := h.feed
  · unfold State.feedRight State.residueRight at *
    rwa [hfeed, h.scale]
  · exact State.feedRight_of_start hfeed (h.scale ▸ hs.scale_pos)

/-- Steps of P change no point and no queue. -/
theorem State.stepsPos_points_queue (up : Bool) (n : Nat) : ∀ {s : State}, (∀ k, s.ringRight k) →
    (s.stepsPos up n).points = s.points ∧ ∀ p, ((s.stepsPos up n).ports.get p).queue = (s.ports.get p).queue := by
  induction n with
  | zero => exact fun _ => ⟨rfl, fun _ => rfl⟩
  | succ n ih =>
    intro s hr
    have hstep := (State.stepPos_works hr up).sameOuter
    obtain ⟨hpoints, hqueue⟩ := ih ((State.stepPos_ordinary hr up).ringRight hr)
    exact ⟨hpoints.trans hstep.points, fun p => (hqueue p).trans (hstep.ports p).queue⟩

theorem exec_encoderChange_feedRight {s : State} (hr : ∀ k, s.ringRight k) (h : s.feedRight) (x y : Bool) :
    ∃ t, exec (.encoderChange x y) s = .next t ∧ t.feedRight := by
  obtain ⟨residue, n, up, hexec, hlt, _⟩ := encoderCountsConvertToSteps.1 s x y h.scale_pos h.2
  refine ⟨_, hexec, ?_⟩
  generalize hu : ({ s with
    lines := { s.lines with enc1 := x, enc2 := y }
    feed := { s.feed with enc := (x, y), residue := residue } } : State) = u
  have hur : ∀ k, u.ringRight k := fun k => hu ▸ ⟨(hr k).allowed, (hr k).named⟩
  have hnear : u.feed.frontNear := hu ▸ h.1
  unfold State.feedRight State.residueRight
  rw [State.stepsPos_feed up n hur, Feed.steps_residue]
  refine ⟨Feed.steps_frontNear hnear up n, ?_⟩
  rw [(State.stepsPos_points_queue up n hur).1, ← hu]
  exact hlt

theorem scaleWrite_take {v x : Int} {held : Bool} (h : (Point.range .scale).take x = some (v, held)) : 400 ≤ v := by
  simp only [Point.range, PointRange.take, heldWithin, Option.some.injEq, Prod.mk.injEq] at h
  split_ifs at h <;> omega

/-- Every command keeps the front near P and the residue below the scale. -/
theorem exec_feedRight {s : State} (hr : ∀ k, s.ringRight k) (h : s.feedRight) (i : Instr) :
    ∃ t, exec i s = .next t ∧ t.feedRight := by
  by_cases hi : isUnsteady i = false
  · obtain ⟨t, hexec, hsteady⟩ := exec_steady hr i hi
    exact ⟨t, hexec, hsteady.feedRight h⟩
  cases i with
  | powerOn l =>
    obtain ⟨u, hexec, hfeed, hpoints, _⟩ := execPowerOn_start l s
    refine ⟨_, hexec, (State.startCauses_sameOuter u).steady.feedRight (State.feedRight_of_start hfeed ?_)⟩
    rw [hpoints]
    exact s.loaded_scale
  | restart p =>
    refine ⟨_, rfl, ?_⟩
    rcases s.serve_cases p .restart (ofKind .restart) restartEffect with e | ⟨r, x, e⟩ | ⟨r, e⟩ <;> rw [e]
    · exact h
    · exact (s.answer_steady _ _ _ _).feedRight h
    · refine (State.answer_steady _ _ _ _ _).feedRight ?_
      exact State.feedRight_of_start s.warmRestart_feed
        (show 0 < s.warmRestart.points.scale by rw [s.warmRestart_points]; exact h.scale_pos)
  | telegramReceived p kind payload =>
    obtain ⟨t, hexec, harrived⟩ := exec_telegramReceived_arrived p kind payload s
    exact ⟨t, hexec, harrived.feedRight h⟩
  | byteReceived p b =>
    obtain ⟨t, hexec, harrived⟩ := exec_byteReceived_arrived p b s
    exact ⟨t, hexec, harrived.feedRight h⟩
  | encoderChange x y => exact exec_encoderChange_feedRight hr h x y
  | speedUpdate =>
    refine ⟨_, rfl, ?_⟩
    have hmeasured : ({ s with feed := { s.feed with speed := measuredSpeed s.feed, kept := s.feed.pos } } : State).feedRight :=
      h
    exact ((State.evalPresses_works _).trans (State.advise_works _)).sameOuter.steady.feedRight hmeasured
  | scaleWrite p =>
    refine ⟨_, rfl, ?_⟩
    unfold State.writeRow State.serve
    split
    · exact h
    · next r hrequest =>
      split
      · exact (s.answer_steady _ _ _ _).feedRight h
      · refine (State.answer_steady _ _ _ _ _).feedRight (writeEffect_cases (State.wanted_of_request? hrequest) h ?_)
        intro q v held hq htake
        have hscale : q = .scale := by
          cases q with
          | scale => rfl
          | _ => cases hq
        subst hscale
        have hv := scaleWrite_take htake
        refine ⟨h.1, ?_⟩
        show 0 < v.toNat
        omega
  | _ => exact absurd rfl hi

theorem exec_queues {s : State} (hr : ∀ k, s.ringRight k) (h : ∀ p, (s.ports.get p).queue.length ≤ 4) (i : Instr) :
    ∃ t, exec i s = .next t ∧ ∀ p, (t.ports.get p).queue.length ≤ 4 := by
  have steady {t : State} (w : Steady s t) : ∀ p, (t.ports.get p).queue.length ≤ 4 :=
    fun p => (w.queues p).trans (h p)
  have arrived {t : State} (w : Arrived s t) : ∀ p, (t.ports.get p).queue.length ≤ 4 :=
    fun p => (w.queues p).trans (Nat.max_le.mpr ⟨le_rfl, h p⟩)
  by_cases hi : isUnsteady i = false
  · obtain ⟨t, hexec, hsteady⟩ := exec_steady hr i hi
    exact ⟨t, hexec, steady hsteady⟩
  cases i with
  | powerOn l =>
    obtain ⟨u, hexec, _, _, hempty⟩ := execPowerOn_start l s
    refine ⟨_, hexec, fun p => ?_⟩
    rw [((State.startCauses_sameOuter u).ports p).queue, hempty]
    exact Nat.zero_le _
  | restart p =>
    refine ⟨_, rfl, ?_⟩
    rcases s.serve_cases p .restart (ofKind .restart) restartEffect with e | ⟨r, x, e⟩ | ⟨r, e⟩ <;> rw [e]
    · exact h
    · exact steady (s.answer_steady _ _ _ _)
    · intro q
      refine ((State.answer_steady _ _ _ _ _).queues q).trans ?_
      show (s.warmRestart.ports.get q).queue.length ≤ 4
      rw [s.warmRestart_queue]
      exact Nat.zero_le _
  | telegramReceived p kind payload =>
    obtain ⟨t, hexec, harrived⟩ := exec_telegramReceived_arrived p kind payload s
    exact ⟨t, hexec, arrived harrived⟩
  | byteReceived p b =>
    obtain ⟨t, hexec, harrived⟩ := exec_byteReceived_arrived p b s
    exact ⟨t, hexec, arrived harrived⟩
  | encoderChange x y =>
    refine ⟨_, rfl, fun p => ?_⟩
    rw [(State.stepsPos_points_queue _ _ (((Ordinary.core (State.acceptEnc_core _ _)).ringRight
      ((Ordinary.core (lines_core s _)).ringRight hr)))).2]
    have hports : ∀ (u : State) now, (u.acceptEnc now).1.ports = u.ports := by
      intro u now
      unfold State.acceptEnc
      simp only
      split <;> rfl
    rw [hports]
    exact h p
  | speedUpdate =>
    refine ⟨_, rfl, fun p => ?_⟩
    rw [(((State.evalPresses_works _).trans (State.advise_works _)).sameOuter.ports p).queue]
    exact h p
  | scaleWrite p =>
    refine ⟨_, rfl, ?_⟩
    unfold State.writeRow State.serve
    split
    · exact h
    · next r hrequest =>
      split
      · exact steady (s.answer_steady _ _ _ _)
      · intro q
        refine ((State.answer_steady _ _ _ _ _).queues q).trans ?_
        exact writeEffect_cases (P := fun u => (u.ports.get q).queue.length ≤ 4) (State.wanted_of_request? hrequest) (h q)
          fun _ _ _ _ _ => h q
  | _ => exact absurd rfl hi

/-! ### The invariants of the feed, the track and the queues -/

/-- What every command keeps, and the queue of commands is no part of, every step keeps. -/
theorem step_keeps_of_exec {P : State → Prop} (hpending : ∀ (s : State) rest, P s → P { s with pending := rest })
    (hkeep : ∀ {s : State} (i : Instr), (∀ k, s.ringRight k) → P s → ∃ t, exec i s = .next t ∧ P t) {s t : State}
    (hr : ∀ k, s.ringRight k) (hs : P s) (h : step s = .next t) : P t := by
  obtain rfl | ⟨c, rest, hexec⟩ := step_cases h
  · exact hs
  · obtain ⟨u, hu, hkept⟩ := hkeep c (State.withPending_ringRight hr rest) (hpending s rest hs)
    cases hu.symm.trans hexec
    exact hkept

/-- Settles O12: every command keeps the front near P and the residue below the scale. -/
theorem frontAndResidueStayInRange : Obligations.FrontAndResidueStayInRange :=
  fun _ _ hr hnear hres hstep =>
    step_keeps_of_exec (P := State.feedRight) (fun _ _ h => h) (fun i hr h => exec_feedRight hr h i) hr ⟨hnear, hres⟩ hstep

theorem Rec.key_ne_of_named {s : State} (h : s.named) {i j : Nat} {x y : Rec} (hx : s.track[i]? = some x)
    (hy : s.track[j]? = some y) (hne : i ≠ j) : x.key ≠ y.key := by
  intro hkey
  obtain ⟨hi, rfl⟩ := List.getElem?_eq_some_iff.mp hx
  obtain ⟨hj, rfl⟩ := List.getElem?_eq_some_iff.mp hy
  refine hne ((h.keys.getElem_inj_iff (hi := by simpa using hi) (hj := by simpa using hj)).mp ?_)
  simpa using hkey

theorem Rec.scanId_ne_of_named {s : State} (h : s.named) {i j : Nat} {x y : Rec} (hx : s.track[i]? = some x)
    (hy : s.track[j]? = some y) (hne : i ≠ j) (hnamed : x.scanId ≠ 0) : x.scanId ≠ y.scanId := by
  obtain ⟨hi, rfl⟩ := List.getElem?_eq_some_iff.mp hx
  obtain ⟨hj, rfl⟩ := List.getElem?_eq_some_iff.mp hy
  have hpairs := List.pairwise_iff_getElem.mp h.scanIds
  obtain hlt | hlt := Nat.lt_or_gt_of_ne hne
  · exact hpairs i j hi hj hlt hnamed
  · intro e
    exact hpairs j i hj hi hlt (e ▸ hnamed) e.symm

/-- Settles O10: the bounds and the names are kept by every command, and a soundly named track repeats no key and no
scan_id. -/
theorem trackAndQueuesStayBounded : Obligations.TrackAndQueuesStayBounded := by
  refine ⟨fun s t hr h hstep => ?_, fun s t hr h hstep => ?_, fun s h i j x y hx hy hne =>
    ⟨Rec.key_ne_of_named h hx hy hne, Rec.scanId_ne_of_named h hx hy hne⟩⟩
  · refine ⟨step_keeps (P := fun u => u.track.length ≤ 12) (fun _ _ h => h) (fun w hr h => w.trackBound hr h) hr h.1 hstep,
      step_keeps_of_exec (P := fun u => ∀ p, (u.ports.get p).queue.length ≤ 4) (fun _ _ h => h)
        (fun i hr h => exec_queues hr h i) hr h.2 hstep⟩
  · exact step_keeps (P := State.named) (fun _ _ h => h) (fun w hr h => w.named hr h) hr h hstep

/-! ### The state after reset -/

theorem reset_underCeiling : State.reset.underCeiling := by
  intro c
  cases c <;> decide

theorem reset_bounded : State.reset.bounded := by
  refine ⟨Nat.zero_le _, fun p => ?_⟩
  cases p <;> decide

theorem reset_named : State.reset.named :=
  ⟨List.nodup_nil, fun _ hr => absurd hr List.not_mem_nil, List.Pairwise.nil⟩

theorem reset_ringRight (k : Ring) : State.reset.ringRight k := by
  cases k <;> exact ⟨⟨fun _ => .inl rfl, nofun⟩, ⟨rfl, rfl⟩⟩

theorem reset_interlocked (k : Ring) : State.reset.interlocked k := by
  cases k <;> exact resetInterlock_interlocked

theorem reset_rests (k : Ring) : State.reset.rests k := by
  cases k <;> exact ⟨fun _ => nofun, nofun⟩

/-- Settles O3: the state after reset is at rest, with no record and no request. -/
theorem resetKeepsInvariants : Obligations.ResetKeepsInvariants :=
  ⟨rfl, rfl, reset_underCeiling, reset_bounded, reset_named, ⟨le_rfl, by decide⟩, Nat.zero_lt_succ _, fun k =>
    ⟨reset_ringRight k, reset_interlocked k, reset_rests k⟩⟩

end Sys2Proof.Machine
end

section
/-! PROOFS. Which blocks' parts of the state each operation among the blocks may touch. -/

namespace Sys2Proof.Machine

/-! ### Parts of the state -/

/-- A part of the state that an operation among the blocks may change. -/
inductive Part where
  | track | lastAdvise | cells | openStray | recipes | setpoint | ring | valve | marks | permit | ports | nextKey | freeCount
  deriving DecidableEq

/-- Between two states none of these parts changed but those of a list. -/
structure Touches (parts : List Part) (s t : State) : Prop where
  track : .track ∈ parts ∨ t.track = s.track
  lastAdvise : .lastAdvise ∈ parts ∨ t.lastAdvise = s.lastAdvise
  cells : .cells ∈ parts ∨ t.cells = s.cells
  openStray : .openStray ∈ parts ∨ t.openStray = s.openStray
  recipes : .recipes ∈ parts ∨ t.recipes = s.recipes
  setpoint : .setpoint ∈ parts ∨ t.setpoint = s.setpoint
  ring : .ring ∈ parts ∨ t.ring = s.ring
  valve : .valve ∈ parts ∨ t.valve = s.valve
  marks : .marks ∈ parts ∨ t.marks = s.marks
  permit : .permit ∈ parts ∨ t.permit = s.permit
  ports : .ports ∈ parts ∨ t.ports = s.ports
  nextKey : .nextKey ∈ parts ∨ t.nextKey = s.nextKey
  freeCount : .freeCount ∈ parts ∨ t.freeCount = s.freeCount

theorem Touches.refl (parts : List Part) (s : State) : Touches parts s s := by
  constructor <;> exact .inr rfl

theorem Touches.trans {parts : List Part} {s t u : State} (h : Touches parts s t) (g : Touches parts t u) :
    Touches parts s u := by
  have chain {α : Type} {p : Prop} {x y z : α} (hy : p ∨ y = x) (hz : p ∨ z = y) : p ∨ z = x :=
    hy.elim .inl fun e => hz.imp_right (·.trans e)
  exact ⟨chain h.track g.track, chain h.lastAdvise g.lastAdvise, chain h.cells g.cells, chain h.openStray g.openStray,
    chain h.recipes g.recipes, chain h.setpoint g.setpoint, chain h.ring g.ring, chain h.valve g.valve,
    chain h.marks g.marks, chain h.permit g.permit, chain h.ports g.ports, chain h.nextKey g.nextKey,
    chain h.freeCount g.freeCount⟩

theorem Touches.mono {parts more : List Part} {s t : State} (h : Touches parts s t) (hsub : parts ⊆ more) :
    Touches more s t :=
  ⟨h.track.imp_left (@hsub _), h.lastAdvise.imp_left (@hsub _), h.cells.imp_left (@hsub _),
    h.openStray.imp_left (@hsub _), h.recipes.imp_left (@hsub _), h.setpoint.imp_left (@hsub _),
    h.ring.imp_left (@hsub _), h.valve.imp_left (@hsub _), h.marks.imp_left (@hsub _), h.permit.imp_left (@hsub _),
    h.ports.imp_left (@hsub _), h.nextKey.imp_left (@hsub _), h.freeCount.imp_left (@hsub _)⟩

theorem Touches.foldl {parts : List Part} {β : Type} {f : State → β → State} (h : ∀ s b, Touches parts s (f s b))
    (l : List β) (s : State) : Touches parts s (l.foldl f s) := by
  induction l generalizing s with
  | nil => exact .refl _ s
  | cons b l ih => exact (h s b).trans (ih _)

/-! ### Reports and marks -/

theorem State.onPort_touches (s : State) (p : Port) (f : PortState → PortState) : Touches [.ports] s (s.onPort p f) := by
  constructor <;> simp

theorem State.send_touches (s : State) (p : Port) (kind : Byte) (l : List Byte) : Touches [.ports] s (s.send p kind l) :=
  s.onPort_touches p _

theorem State.notice_touches (s : State) (k : NoticeKind) : Touches [.ports] s (s.notice k) := by
  constructor <;> simp [State.notice]

theorem State.advise_touches (s : State) : Touches [.ports, .lastAdvise] s s.advise := by
  unfold State.advise
  split
  · exact .refl _ s
  · constructor <;> simp

theorem State.setMark_touches (s : State) (v : Bool) (m : Mark) : Touches [.marks, .permit] s (s.setMark v m) := by
  rw [State.setMark_frame]
  constructor <;> simp

theorem State.markSourceAt_touches (s : State) (src : MarkSource) (m : Mark) :
    Touches [.marks, .permit, .ports] s (s.markSourceAt src m) := by
  by_cases hsrc : s.points.markSource.get m = src
  · cases hmark : s.marks.get m
    · rw [State.markSourceAt_of_clear hsrc hmark]
      exact (s.setMark_touches true m).mono (by decide)
    · rw [State.markSourceAt_of_set hsrc hmark]
      exact (s.notice_touches _).mono (by decide)
  · rw [State.markSourceAt_of_ne hsrc]
    exact .refl _ s

theorem State.markEvent_touches (s : State) (src : MarkSource) :
    Touches [.marks, .permit, .ports] s (s.markEvent src) :=
  Touches.foldl (fun s m => s.markSourceAt_touches src m) _ s

/-! ### The Setpoint Unit -/

theorem State.intent_touches (s : State) (k : Ring) (x : Side) (pressure : Nat) :
    Touches [.valve] s (s.intent k x pressure) := by
  constructor <;> simp [State.intent]

theorem State.onRec_touches (s : State) (key : Nat) (f : Rec → Rec) : Touches [.track] s (s.onRec key f) := by
  constructor <;> simp

theorem State.onSeq_touches (s : State) (k : Ring) (f : Sequencer → Sequencer) : Touches [.ring] s (s.onSeq k f) := by
  constructor <;> simp

theorem State.onSetpoint_touches (s : State) (k : Ring) (f : Setpoint → Setpoint) :
    Touches [.setpoint] s (s.onSetpoint k f) := by
  constructor <;> simp

theorem State.evalPress_touches (s : State) (k : Ring) : Touches [.setpoint, .track, .valve] s (s.evalPress k) := by
  unfold State.evalPress
  split
  · exact .refl _ s
  · split
    · exact ((s.onSetpoint_touches k _).mono (by decide)).trans
        (((State.onRec_touches _ _ _).mono (by decide)).trans ((State.intent_touches _ _ _ _).mono (by decide)))
    · exact .refl _ s

theorem State.evalLift_touches (s : State) (k : Ring) : Touches [.setpoint, .valve, .freeCount] s (s.evalLift k) := by
  unfold State.evalLift
  simp only
  split
  · constructor <;> simp
  · exact ((s.onSetpoint_touches k _).mono (by decide)).trans ((State.intent_touches _ _ _ _).mono (by decide))

theorem State.evalLiftIn_touches (s : State) (st : RingState) (k : Ring) :
    Touches [.setpoint, .valve, .freeCount] s (s.evalLiftIn st k) := by
  unfold State.evalLiftIn
  split
  · exact s.evalLift_touches k
  · exact .refl _ s

theorem State.evalPresses_touches (s : State) : Touches [.setpoint, .track, .valve] s s.evalPresses :=
  (s.evalPress_touches .a).trans (State.evalPress_touches _ .b)

theorem State.evalLifts_touches (s : State) : Touches [.setpoint, .valve, .freeCount] s s.evalLifts :=
  (s.evalLift_touches .a).trans (State.evalLift_touches _ .b)

theorem State.evalPressFor_touches (s : State) (key : Nat) : Touches [.setpoint, .track, .valve] s (s.evalPressFor key) := by
  have hring : ∀ (t : State) (k : Ring),
      Touches [.setpoint, .track, .valve] t (if (t.ring.get k).served = some key then t.evalPress k else t) := by
    intro t k
    split
    · exact t.evalPress_touches k
    · exact .refl _ t
  exact (hring s .a).trans (hring _ .b)

theorem State.evalLiftFor_touches (s : State) (key : Nat) :
    Touches [.setpoint, .valve, .freeCount] s (s.evalLiftFor key) := by
  have hring : ∀ (t : State) (k : Ring), Touches [.setpoint, .valve, .freeCount] t
      (if (t.ring.get k).armedFor = some key then t.evalLiftIn .armed k else t) := by
    intro t k
    split
    · exact t.evalLiftIn_touches _ k
    · exact .refl _ t
  exact (hring s .a).trans (hring _ .b)

/-! ### The swap and the passages of a ring -/

theorem State.swap_touches (s : State) :
    Touches [.recipes, .ports, .lastAdvise, .setpoint, .valve, .freeCount] s s.swap := by
  have hcopied : Touches [.recipes, .ports, .lastAdvise, .setpoint, .valve, .freeCount] s
      { s with recipes := { s.recipes with active := s.recipes.shadow, swapPending := false } } := by
    constructor <;> simp
  exact hcopied.trans <| ((State.notice_touches _ _).mono (by decide)).trans <|
    ((State.advise_touches _).mono (by decide)).trans <| ((State.evalLiftIn_touches _ _ _).mono (by decide)).trans <|
    (State.evalLiftIn_touches _ _ _).mono (by decide)

theorem State.gapSignal_touches (s : State) :
    Touches [.recipes, .ports, .lastAdvise, .setpoint, .valve, .freeCount] s s.gapSignal := by
  unfold State.gapSignal
  split
  · exact s.swap_touches
  · exact .refl _ s

theorem State.reportClear_touches (s : State) (k : Ring) :
    Touches [.marks, .permit, .ports, .recipes, .lastAdvise, .setpoint, .valve, .freeCount] s (s.reportClear k) := by
  have hmarked := (s.markEvent_touches (clearSource k)).mono
    (more := [.marks, .permit, .ports, .recipes, .lastAdvise, .setpoint, .valve, .freeCount]) (by decide)
  cases k with
  | a => exact hmarked.trans ((State.gapSignal_touches _).mono (by decide))
  | b => exact hmarked

theorem State.flagStanding_touches (s : State) (k : Ring) : Touches [.track] s (s.flagStanding k) := by
  unfold State.flagStanding
  split
  · exact s.onRec_touches _ _
  · exact .refl _ s

/-- The parts a passage of a ring may touch. -/
def passageParts : List Part :=
  [.track, .lastAdvise, .recipes, .setpoint, .ring, .valve, .marks, .permit, .ports, .freeCount]

/-- Ring k's sequencer in an open state, before the passage is handed on. -/
def State.opened (s : State) (k : Ring) (st : RingState) (armed : Option Nat) : State :=
  s.onSeq k fun q => { q with state := st, served := none, armedFor := armed }

/-- Ring k's press target taken to 0, as it leaves pressing. -/
def State.unpressed (s : State) (k : Ring) : State := s.onSetpoint k fun q => { q with pressTarget := 0 }

/-- A passage from one open state to another evaluates the lift target alone. -/
theorem State.goOpen_of_open {s : State} {k : Ring} (h : (s.ringState k).pressing = false) (st : RingState)
    (armed : Option Nat) : s.goOpen k st armed = (s.opened k st armed).evalLift k := by
  simp only [State.goOpen, State.opened, h, Bool.false_and, Bool.false_eq_true, if_false]

theorem State.goOpen_of_pressing {s : State} {k : Ring} (h : (s.ringState k).pressing = true) {st : RingState}
    (hst : st ≠ .held) (armed : Option Nat) :
    s.goOpen k st armed = (((s.opened k st armed).unpressed k).evalLift k).reportClear k := by
  simp only [State.goOpen, State.opened, State.unpressed, h, hst, decide_false, Bool.and_false, Bool.false_eq_true,
    if_true, if_false]

theorem State.goOpen_held_of_pressing {s : State} {k : Ring} (h : (s.ringState k).pressing = true)
    (armed : Option Nat) :
    s.goOpen k .held armed =
      ((((s.opened k .held armed).unpressed k).evalLift k).flagStanding k).reportClear k := by
  simp only [State.goOpen, State.opened, State.unpressed, h, decide_true, Bool.and_true, if_true]

/-- Ring k's sequencer in a pressing state for a record it takes up, before the passage is handed on. -/
def State.pressed (s : State) (k : Ring) (st : RingState) (key : Nat) : State :=
  s.onSeq k fun _ => { state := st, served := some key, armedFor := none, liftReached := false, settled := false }

theorem State.goPress_of_entry (s : State) (k : Ring) (key : Nat) :
    s.goPress k .entry key = ((s.pressed k .entry key).evalPress k).markEvent (entrySource k) := rfl

theorem State.goPress_of_ne_entry (s : State) (k : Ring) {st : RingState} (hst : st ≠ .entry) (key : Nat) :
    s.goPress k st key = (s.pressed k st key).evalPress k := if_neg hst

theorem State.opened_touches (s : State) (k : Ring) (st : RingState) (armed : Option Nat) :
    Touches [.ring] s (s.opened k st armed) := s.onSeq_touches k _

theorem State.unpressed_touches (s : State) (k : Ring) : Touches [.setpoint] s (s.unpressed k) :=
  s.onSetpoint_touches k _

theorem State.pressed_touches (s : State) (k : Ring) (st : RingState) (key : Nat) :
    Touches [.ring] s (s.pressed k st key) := s.onSeq_touches k _

theorem State.goOpen_touches (s : State) (k : Ring) (st : RingState) (armed : Option Nat) :
    Touches passageParts s (s.goOpen k st armed) := by
  have hopened : Touches passageParts s (s.opened k st armed) := (s.opened_touches k st armed).mono (by decide)
  have hlift : ∀ u : State, Touches passageParts u (u.evalLift k) := fun u => (u.evalLift_touches k).mono (by decide)
  have hleft : ∀ u : State, Touches passageParts u ((u.unpressed k).evalLift k) := fun u =>
    ((u.unpressed_touches k).mono (by decide)).trans (hlift _)
  have hclear : ∀ u : State, Touches passageParts u (u.reportClear k) := fun u => (u.reportClear_touches k).mono (by decide)
  cases hp : (s.ringState k).pressing
  · rw [State.goOpen_of_open hp]
    exact hopened.trans (hlift _)
  · by_cases hst : st = .held
    · subst hst
      rw [State.goOpen_held_of_pressing hp]
      exact hopened.trans ((hleft _).trans (((State.flagStanding_touches _ k).mono (by decide)).trans (hclear _)))
    · rw [State.goOpen_of_pressing hp hst]
      exact hopened.trans ((hleft _).trans (hclear _))

theorem State.goPress_touches (s : State) (k : Ring) (st : RingState) (key : Nat) :
    Touches [.track, .setpoint, .ring, .valve, .marks, .permit, .ports] s (s.goPress k st key) := by
  have heval : Touches [.track, .setpoint, .ring, .valve, .marks, .permit, .ports] s
      ((s.pressed k st key).evalPress k) :=
    ((s.pressed_touches k st key).mono (by decide)).trans ((State.evalPress_touches _ k).mono (by decide))
  by_cases hst : st = .entry
  · subst hst
    exact heval.trans ((State.markEvent_touches _ _).mono (by decide))
  · rw [State.goPress_of_ne_entry s k hst]
    exact heval

theorem State.goPhase_touches (s : State) (k : Ring) (st : RingState) :
    Touches [.track, .setpoint, .ring, .valve] s (s.goPhase k st) :=
  ((s.onSeq_touches k _).mono (by decide)).trans ((State.evalPress_touches _ k).mono (by decide))

theorem State.goWaiting_touches (s : State) (k : Ring) : Touches passageParts s (s.goWaiting k) := by
  unfold State.goWaiting
  split <;> exact s.goOpen_touches k _ _

theorem State.takeGeometry_touches (s : State) (k : Ring) : Touches passageParts s (s.takeGeometry k) := by
  unfold State.takeGeometry
  split
  · exact (s.goPress_touches k _ _).mono (by decide)
  · exact s.goWaiting_touches k

theorem State.leaveByTail_touches (s : State) (k : Ring) : Touches passageParts s (s.leaveByTail k) := by
  unfold State.leaveByTail
  split
  · exact s.goOpen_touches k _ _
  · split
    · exact (s.goPress_touches k _ _).mono (by decide)
    · exact s.goWaiting_touches k

theorem State.leaveByBackOut_touches (s : State) (k : Ring) (key : Nat) :
    Touches passageParts s (s.leaveByBackOut k key) := by
  unfold State.leaveByBackOut
  split <;> exact s.goOpen_touches k _ _

/-! ### Events handed to a ring -/

theorem State.ringEvent_touches (s : State) (key : Nat) (id : EventId) : Touches passageParts s (s.ringEvent key id) := by
  have hpress : ∀ (t : State) k st, Touches passageParts t (t.goPress k st key) := fun t k st =>
    (t.goPress_touches k st key).mono (by decide)
  have hphase : ∀ k st, Touches passageParts s (s.goPhase k st) := fun k st => (s.goPhase_touches k st).mono (by decide)
  have hrec : ∀ f, Touches passageParts s (s.onRec key f) := fun f => (s.onRec_touches key f).mono (by decide)
  unfold State.ringEvent
  split
  · exact .refl _ s
  · cases id with
    | arm k =>
      show Touches _ s (s.ringArm k key)
      unfold State.ringArm
      split
      · exact s.goOpen_touches k _ _
      · exact .refl _ s
    | plane k =>
      show Touches _ s (s.ringPlane k key)
      have hentry : Touches passageParts s
          ((if (s.ring.get k).liftReached then s else s.onRec key (Rec.flag · [.shortGap])).goPress k .entry key) := by
        split
        · exact hpress s k _
        · exact (hrec _).trans (hpress _ k _)
      unfold State.ringPlane
      split
      · exact hentry
      · exact hentry
      · exact hrec _
      all_goals exact .refl _ s
    | entryEnd k =>
      show Touches _ s (s.ringEntryEnd k key)
      unfold State.ringEntryEnd
      split
      · exact hphase k _
      · exact .refl _ s
    | tailAdvance k =>
      show Touches _ s (s.ringTailAdvance k key)
      unfold State.ringTailAdvance
      split
      · exact hphase k _
      · exact .refl _ s
    | tailOut k =>
      show Touches _ s (s.ringTailOut k key)
      unfold State.ringTailOut
      split
      · exact s.leaveByTail_touches k
      · exact .refl _ s
    | backOut k =>
      show Touches _ s (s.ringBackOut k key)
      unfold State.ringBackOut
      split
      · exact s.leaveByBackOut_touches k key
      · exact .refl _ s
    | tailBackIn k =>
      show Touches _ s (s.ringTailBackIn k key)
      unfold State.ringTailBackIn
      split
      · exact hpress s k _
      · exact hpress s k _
      · exact hrec _
      all_goals exact .refl _ s
    | _ => exact .refl _ s

theorem State.ringMoved_touches (s : State) (k : Ring) : Touches passageParts s (s.ringMoved k) := by
  unfold State.ringMoved
  split
  · exact .refl _ s
  · split
    · split
      · exact .refl _ s
      · split
        · exact .refl _ s
        · split
          · exact s.leaveByBackOut_touches k _
          · exact s.leaveByTail_touches k
    · exact .refl _ s

theorem State.ringRemoved_touches (s : State) (k : Ring) (key : Nat) : Touches passageParts s (s.ringRemoved k key) := by
  unfold State.ringRemoved
  split
  · exact .refl _ s
  · split
    · exact s.leaveByTail_touches k
    · split
      · split
        · exact s.goOpen_touches k _ _
        · exact s.goWaiting_touches k
      · exact .refl _ s

theorem State.ringLevel_touches (s : State) (k : Ring) : Touches passageParts s (s.ringLevel k) := by
  unfold State.ringLevel
  split
  · split
    · split
      · exact s.goOpen_touches k _ _
      · exact s.takeGeometry_touches k
    · exact .refl _ s
  all_goals
    split
    · simp only [State.goOpen_touches, Touches.refl]
    · simp only [State.goOpen_touches, Touches.refl]

end Sys2Proof.Machine
end

section
/-! PROOFS. The setpoint arithmetic's rounding (R86) and its last stage (R99, R101), and what the recipe telegrams make of
the tables (R65 to R80). -/

namespace Sys2Proof.Machine

/-! ### Rounding (R86) -/

/-- A rounded quotient times its divisor is nearest to the dividend, and above it at a half. -/
theorem roundDivNat_near (n : Nat) {b : Nat} (hb : 0 < b) :
    2 * n < 2 * (roundDivNat n b * b) + b ∧ 2 * (roundDivNat n b * b) ≤ 2 * n + b := by
  have hdiv := Nat.div_add_mod (2 * n + b) (2 * b)
  have hmod := Nat.mod_lt (2 * n + b) (show 0 < 2 * b by omega)
  have hprod : 2 * b * ((2 * n + b) / (2 * b)) = 2 * (roundDivNat n b * b) := by
    rw [roundDivNat]
    ring
  omega

theorem roundDiv_of_nonneg {a : Int} (h : 0 ≤ a) (b : Nat) : roundDiv a b = roundDivNat a.toNat b := if_pos h

theorem roundDiv_of_neg {a : Int} (h : a < 0) (b : Nat) : roundDiv a b = -(roundDivNat (-a).toNat b : Int) :=
  if_neg h.not_ge

/-- Settles O32: the rounded quotient of the dividend's size, by the dividend's sign. -/
theorem quotientsRoundToTheNearest : Obligations.QuotientsRoundToTheNearest := by
  refine ⟨fun a b hb => ?_, fun a b _ => (roundDiv_of_nonneg a.cast_nonneg b).symm⟩
  obtain hnonneg | hneg := le_or_gt 0 a
  · obtain ⟨hlow, hhigh⟩ := roundDivNat_near a.toNat hb
    rw [roundDiv_of_nonneg hnonneg, Int.natAbs_natCast]
    have hcast : ((roundDivNat a.toNat b : Int)) * b = (roundDivNat a.toNat b * b : Nat) := by push_cast; rfl
    rw [hcast]
    omega
  · obtain ⟨hlow, hhigh⟩ := roundDivNat_near (-a).toNat hb
    rw [roundDiv_of_neg hneg, Int.natAbs_neg, Int.natAbs_natCast, neg_mul]
    have hcast : ((roundDivNat (-a).toNat b : Int)) * b = (roundDivNat (-a).toNat b * b : Nat) := by push_cast; rfl
    rw [hcast]
    omega

/-! ### Flag sets -/

theorem mem_addFlags {f : Flag} {more set : List Flag} : f ∈ addFlags more set ↔ f ∈ set ∨ f ∈ more := by
  have hall : f ∈ Flag.all := by cases f <;> decide
  simp [addFlags, hall]

/-! ### Stage 7 (R99, R101) -/

section StageClamp

variable {lower upper p : Nat}

theorem stageClamp_of_gt (h : upper < p) : stageClamp lower upper p = (upper, [.clampHigh]) := if_pos h

theorem stageClamp_of_lt (hle : lower ≤ upper) (h : p < lower) : stageClamp lower upper p = (lower, [.clampLow]) :=
  (if_neg (by omega)).trans (if_pos h)

theorem stageClamp_of_within (hlow : lower ≤ p) (hhigh : p ≤ upper) : stageClamp lower upper p = (p, []) :=
  (if_neg hhigh.not_gt).trans (if_neg hlow.not_gt)

/-- What R99 says of a value held within a range that is not empty. -/
structure Clamped (lower upper p : Nat) (x : Nat × List Flag) : Prop where
  least : lower ≤ x.1
  greatest : x.1 ≤ upper
  within : lower ≤ p → p ≤ upper → x.1 = p
  high : Flag.clampHigh ∈ x.2 ↔ upper < p
  low : Flag.clampLow ∈ x.2 ↔ p < lower
  above : upper < p → x.1 = upper
  below : p < lower → x.1 = lower
  flags : ∀ f ∈ x.2, f = .clampHigh ∨ f = .clampLow

theorem stageClamp_clamped (hle : lower ≤ upper) (p : Nat) : Clamped lower upper p (stageClamp lower upper p) := by
  obtain hgt | hle' := Nat.lt_or_ge upper p
  · rw [stageClamp_of_gt hgt]
    constructor <;> simp <;> omega
  · obtain hlt | hge := Nat.lt_or_ge p lower
    · rw [stageClamp_of_lt hle hlt]
      constructor <;> simp <;> omega
    · rw [stageClamp_of_within hge hle']
      constructor <;> simp <;> omega

end StageClamp

/-- Stage 6 hands on no flag of stage 7. -/
theorem stageMerge_flags {f : Flag} (hextrap : f ≠ .extrap) (hmerge : f ≠ .uncertainMerge) (b : Bound) (k : Ring)
    (phase : RingState) (d v : Nat) : f ∉ (stageMerge b k phase d v).2.2 := by
  have hpassed : ∀ (x : Nat × Bool) limit {more}, f ∉ more → f ∉ (passedOn x limit more).2.2 := by
    intro x limit more hmore
    cases hx : x.2 <;> simp [passedOn, hx, hmore, hextrap]
  cases hfallback : b.fallback with
  | none =>
    rw [stageMerge_of_no_fallback hfallback]
    exact hpassed _ _ List.not_mem_nil
  | some g =>
    obtain hlt | hle := lt_or_ge (pass g b.frozen k phase d v).1 (pass b.species b.frozen k phase d v).1
    · rw [stageMerge_of_fallback_lower hfallback hlt]
      exact hpassed _ _ (by simpa using hmerge)
    · rw [stageMerge_of_fallback_not_lower hfallback hle]
      exact hpassed _ _ List.not_mem_nil

/-- Settles O35: stage 7's clamp, in RUN on what stage 6 hands on and in MANUAL on the manual value. -/
theorem pressTargetsAreClamped : Obligations.PressTargetsAreClamped := by
  intro pts b k phase d v value m upper t u
  have hrun : Clamped (min pts.floor upper) upper m.1 (stageClamp (min pts.floor upper) upper m.1) :=
    stageClamp_clamped (Nat.min_le_right _ _) m.1
  have hmanual : Clamped (min pts.floor pts.ceiling) pts.ceiling value u := stageClamp_clamped (Nat.min_le_right _ _) value
  have hvalue : t.1 = (stageClamp (min pts.floor upper) upper m.1).1 := rfl
  have hflag : ∀ f, f ≠ .extrap → f ≠ .uncertainMerge →
      (f ∈ t.2 ↔ f ∈ (stageClamp (min pts.floor upper) upper m.1).2) := by
    intro f hextrap hmerge
    have hstage := stageMerge_flags hextrap hmerge b k phase d v
    show f ∈ addFlags (m.2.2 ++ (stageClamp (min pts.floor upper) upper m.1).2) [] ↔ _
    rw [mem_addFlags, List.mem_append]
    simp [m, hstage]
  rw [hvalue, hflag .clampHigh (by decide) (by decide), hflag .clampLow (by decide) (by decide)]
  refine ⟨⟨hrun.least, hrun.greatest⟩, hrun.within, hrun.high, hrun.low, hrun.above, hrun.below,
    ⟨hmanual.least, hmanual.greatest⟩, hmanual.within, hmanual.high, hmanual.low, hmanual.flags,
    fun hfloor hceiling hmost hpress => ?_⟩
  have hleast := hrun.least
  have hgreatest := hrun.greatest
  have hupper : upper = min pts.ceiling m.2.1 := rfl
  omega

/-! ### A species record's figures (R65, R67) -/

theorem heldNat_eq_max_min {lo hi : Nat} (h : lo ≤ hi) (x : Nat) : heldNat lo hi x = max lo (min hi x) := by
  unfold heldNat
  split_ifs <;> omega

theorem heldNat_zero_eq_min (hi x : Nat) : heldNat 0 hi x = min hi x := by
  unfold heldNat
  split_ifs <;> omega

theorem heldNat_eq_self {lo hi x : Nat} : heldNat lo hi x = x ↔ lo ≤ x ∧ x ≤ hi := by
  unfold heldNat
  split_ifs <;> omega

theorem heldNat_heldNat {lo hi : Nat} (h : lo ≤ hi) (x : Nat) : heldNat lo hi (heldNat lo hi x) = heldNat lo hi x :=
  heldNat_eq_self.mpr (by unfold heldNat; split_ifs <;> omega)

theorem clampCurve_eq_self {c : List CurvePoint} : clampCurve c = c ↔ ∀ q ∈ c, q.press ≤ 1000 := by
  have hpoint : ∀ q : CurvePoint, ({ q with press := min q.press 1000 } : CurvePoint) = q ↔ q.press ≤ 1000 := by
    intro q
    exact ⟨fun h => min_eq_left_iff.mp (congrArg CurvePoint.press h), fun h => by rw [min_eq_left h]⟩
  induction c with
  | nil => simp [clampCurve]
  | cons q rest ih =>
    rw [List.forall_mem_cons, ← hpoint]
    exact List.cons_eq_cons.trans (and_congr Iff.rfl ih)

@[simp] theorem clampCurve_clampCurve (c : List CurvePoint) : clampCurve (clampCurve c) = clampCurve c := by
  refine clampCurve_eq_self.mpr fun q hq => ?_
  obtain ⟨p, _, rfl⟩ := List.mem_map.mp hq
  exact Nat.min_le_right _ _

theorem clampFrozen_eq_self {f : Option (List CurvePoint)} :
    f.map clampCurve = f ↔ ∀ c, f = some c → ∀ q ∈ c, q.press ≤ 1000 := by
  cases f with
  | none => simp
  | some c => simp [clampCurve_eq_self]

theorem clampSpecies_clampSpecies (r : Species) : clampSpecies (clampSpecies r) = clampSpecies r := by
  have hfrozen : (r.frozenCurve.map clampCurve).map clampCurve = r.frozenCurve.map clampCurve := by
    cases r.frozenCurve <;> simp
  simp only [clampSpecies, clampCurve_clampCurve, hfrozen, heldNat_heldNat, Nat.reduceLeDiff, Nat.zero_le]

theorem clampSpecies_eq_self (r : Species) : clampSpecies r = r ↔
    (∀ q ∈ r.baseCurve, q.press ≤ 1000) ∧ (∀ c, r.frozenCurve = some c → ∀ q ∈ c, q.press ≤ 1000) ∧
      (100 ≤ r.frostPct ∧ r.frostPct ≤ 250) ∧ r.speedGain ≤ 300 ∧ (20 ≤ r.entryPct ∧ r.entryPct ≤ 100) ∧
      r.entryLen ≤ 1500 ∧ (20 ≤ r.tailPct ∧ r.tailPct ≤ 100) ∧ r.tailAdv ≤ 1000 ∧
      r.shareA ≤ 150 ∧ r.shareB ≤ 150 ∧ (100 ≤ r.maxPress ∧ r.maxPress ≤ 1000) ∧
      r.lift ≤ 600 ∧ (110 ≤ r.flareRatio ∧ r.flareRatio ≤ 200) ∧ r.flareLift ≤ 300 ∧
      (200 ≤ r.maxFeed ∧ r.maxFeed ≤ 2000) ∧ (30 ≤ r.frozenFeedPct ∧ r.frozenFeedPct ≤ 100) := by
  rw [← clampCurve_eq_self, ← clampFrozen_eq_self]
  obtain ⟨code, name, baseCurve, frozenCurve, frostPct, speedGain, entryPct, entryLen, tailPct, tailAdv, shareA, shareB,
    maxPress, lift, flareRatio, flareLift, maxFeed, frozenFeedPct⟩ := r
  simp only [clampSpecies, Species.mk.injEq, true_and, heldNat_eq_self, Nat.zero_le]

/-- Settles O28: the fields of `clampSpecies`, and when it changes none. -/
theorem recipeFiguresAreHeldWithinRange : Obligations.RecipeFiguresAreHeldWithinRange := by
  intro r x
  refine ⟨clampSpecies_clampSpecies r, rfl, rfl, rfl, rfl, ?_⟩
  simp only [← clampSpecies_eq_self r]
  simp only [x, clampSpecies, heldNat_eq_max_min, Nat.reduceLeDiff, Nat.zero_le, Nat.zero_max, and_self]

/-! ### A request of a kind of its own -/

/-- A request that is taken has its effect and is answered as the effect says. -/
theorem exec_serve_of_takes {i : Instr} {s : State} {p : Port} {k : Kind} {r : Req} {rest : List Req}
    {effect : Req → State → Effect} (harm : exec i s = .next (s.serve p k (ofKind k) effect)) (h : s.takes p k r rest) :
    exec i s = .next ((effect r s).state.answer p r (effect r s).result (effect r s).rest) := by
  rw [harm, State.serve_of_takes h (State.ofKind_of_takes h)]

/-! ### RECIPE_WRITE and RECIPE_DELETE (R69 to R71) -/

theorem codeSuits_iff {slot code : Nat} :
    codeSuits slot code = true ↔ (slot = 0 ↔ code = 0) ∧ code ≤ 250 := by
  unfold codeSuits
  split
  · next h =>
    rw [h, beq_iff_eq]
    omega
  · rw [decide_eq_true_iff]
    omega

theorem noOtherHolds_iff {t : Table} {slot code : Nat} :
    noOtherHolds t slot code = true ↔ ∀ i y, i ≠ slot → t[i]? = some (some y) → y.code ≠ code := by
  simp only [noOtherHolds, List.all_eq_true]
  constructor
  · intro h i y hi hy hcode
    obtain ⟨hlt, hget⟩ := List.getElem?_eq_some_iff.mp hy
    have hmem : (i, some y) ∈ (List.range t.length).zip t := by
      rw [List.mem_iff_getElem]
      exact ⟨i, by simpa using hlt, by simp [hget]⟩
    simpa [hi, hcode] using h _ hmem
  · intro h x hx
    obtain ⟨i, hi, rfl⟩ := List.getElem_of_mem hx
    have hlt : i < t.length := by simpa using hi
    simp only [List.getElem_zip, List.getElem_range]
    split
    · next y hy =>
      by_cases hslot : i = slot
      · simp [hslot]
      · have hne := h i y hslot (List.getElem?_eq_some_iff.mpr ⟨hlt, hy⟩)
        simp [hne]
    · rfl

theorem recipeFits_iff {shadow : Table} {slot : Nat} {field : List Byte} {x : Species} :
    recipeFits shadow slot field x = true ↔ slot ≤ 23 ∧ ((slot = 0 ↔ x.code = 0) ∧ x.code ≤ 250) ∧
      nameFits field = true ∧ curvesFit x = true ∧
      ∀ i y, i ≠ slot → shadow[i]? = some (some y) → y.code ≠ x.code := by
  simp only [recipeFits, Bool.and_eq_true, decide_eq_true_eq, codeSuits_iff, noOtherHolds_iff, and_assoc]

theorem recipeWriteEffect_of_pending {s : State} {r : Req} (h : s.recipes.swapPending = true) :
    recipeWriteEffect r s = ⟨s, .swapPending, []⟩ := if_pos h

theorem recipeWriteEffect_of_unfit {s : State} {r : Req} (h : s.recipes.swapPending = false)
    (hfits : recipeFits s.recipes.shadow (u8 r.payload 0) (nameField r.payload 1) (readSpecies r.payload 1) ≠ true) :
    recipeWriteEffect r s = ⟨s, .badValue, []⟩ := by
  simp [recipeWriteEffect, h, hfits]

theorem recipeWriteEffect_of_fit {s : State} {r : Req} (h : s.recipes.swapPending = false)
    (hfits : recipeFits s.recipes.shadow (u8 r.payload 0) (nameField r.payload 1) (readSpecies r.payload 1) = true) :
    recipeWriteEffect r s =
      ⟨{ s with recipes := { s.recipes with
          shadow := s.recipes.shadow.set (u8 r.payload 0) (some (clampSpecies (readSpecies r.payload 1))) } },
        if clampSpecies (readSpecies r.payload 1) = readSpecies r.payload 1 then .ok else .clamped, []⟩ := by
  simp [recipeWriteEffect, h, hfits]

theorem recipeDeleteEffect_of_pending {s : State} {r : Req} (h : s.recipes.swapPending = true) :
    recipeDeleteEffect r s = ⟨s, .swapPending, []⟩ := if_pos h

theorem recipeDeleteEffect_of_no_slot {s : State} {r : Req} (h : s.recipes.swapPending = false)
    (hslot : u8 r.payload 0 = 0 ∨ 23 < u8 r.payload 0) : recipeDeleteEffect r s = ⟨s, .badValue, []⟩ := by
  simp [recipeDeleteEffect, h, hslot]

theorem recipeDeleteEffect_of_slot {s : State} {r : Req} (h : s.recipes.swapPending = false)
    (hlow : 1 ≤ u8 r.payload 0) (hhigh : u8 r.payload 0 ≤ 23) :
    recipeDeleteEffect r s =
      ⟨{ s with recipes := { s.recipes with shadow := s.recipes.shadow.set (u8 r.payload 0) none } }, .ok, []⟩ := by
  have hslot : ¬(u8 r.payload 0 = 0 ∨ 23 < u8 r.payload 0) := by omega
  simp only [recipeDeleteEffect, h, if_neg hslot, Bool.false_eq_true, if_false]

/-- Settles O27: the cases of the two effects, a failed check of R69 being a failure of `recipeFits`. -/
theorem recipeEditsReachTheShadowAlone : Obligations.RecipeEditsReachTheShadowAlone := by
  constructor
  · intro s p r rest htakes slot x
    rw [exec_serve_of_takes (effect := recipeWriteEffect) rfl htakes]
    refine ⟨fun h => by rw [recipeWriteEffect_of_pending h], fun h => ⟨fun hbad => ?_, ?_⟩⟩
    · rw [recipeWriteEffect_of_unfit h]
      intro hfits
      obtain ⟨hslot, ⟨hzero, hcode⟩, hname, hcurves, hother⟩ := recipeFits_iff.mp hfits
      obtain hbad | ⟨hslot0, hbad⟩ | ⟨hslot0, hbad | hbad⟩ | hbad | hbad | ⟨i, y, hi, hy, hsame⟩ := hbad
      · exact absurd hslot hbad.not_ge
      · exact hbad (hzero.mp hslot0)
      · exact hslot0 (hzero.mpr hbad)
      · exact absurd hcode hbad.not_ge
      · exact absurd (hbad.symm.trans hname) (by decide)
      · exact absurd (hbad.symm.trans hcurves) (by decide)
      · exact hother i y hi hy hsame
    · intro hslot hzero hcode hname hcurves hother
      rw [recipeWriteEffect_of_fit h (recipeFits_iff.mpr ⟨hslot, ⟨hzero, hcode⟩, hname, hcurves, hother⟩)]
  · intro s p r rest htakes slot
    rw [exec_serve_of_takes (effect := recipeDeleteEffect) rfl htakes]
    exact ⟨fun h => by rw [recipeDeleteEffect_of_pending h], fun h hslot => by rw [recipeDeleteEffect_of_no_slot h hslot],
      fun h hlow hhigh => by rw [recipeDeleteEffect_of_slot h hlow hhigh]⟩

/-! ### RECIPE_COMMIT and RECIPE_DISCARD (R73 to R80) -/

theorem State.swap_recipes (s : State) :
    s.swap.recipes = { active := s.recipes.shadow, shadow := s.recipes.shadow, swapPending := false } := by
  unfold State.swap
  rw [(State.evalLiftIn_touches _ _ _).recipes.resolve_left (by decide),
    (State.evalLiftIn_touches _ _ _).recipes.resolve_left (by decide),
    (State.advise_touches _).recipes.resolve_left (by decide)]
  rfl

theorem State.swap_done (s : State) (p : Port) : NoticeKind.swapDone ∈ (s.swap.ports.get p).status := by
  unfold State.swap
  exact ((State.advise_works _).trans ((State.evalLiftIn_works _ _ _).trans (State.evalLiftIn_works _ _ _))).status p
    (State.mem_notice_status _ _ p)

/-- Settles O31: the effects of the two requests, and what a swap leaves alone. -/
theorem recipeCommitAndDiscardMoveTheTables : Obligations.RecipeCommitAndDiscardMoveTheTables := by
  refine ⟨fun s p r rest htakes => ?_, fun s p r rest htakes =>
    exec_serve_of_takes (effect := recipeDiscardEffect) rfl htakes⟩
  rw [exec_serve_of_takes (effect := recipeCommitEffect) rfl htakes]
  refine ⟨fun h => by rw [recipeCommitEffect, if_pos h], fun h => ⟨s.swap, ?_, ?_⟩⟩
  · rw [recipeCommitEffect, if_neg (by simp [h])]
  · have htouches := s.swap_touches
    exact ⟨s.swap_recipes, s.swap_done, s.swap_works.sameOuter, htouches.track.resolve_left (by decide),
      htouches.ring.resolve_left (by decide), s.swap_works.release, htouches.marks.resolve_left (by decide),
      htouches.permit.resolve_left (by decide)⟩

end Sys2Proof.Machine
end

section
/-! PROOFS. Fields of a payload read back as they were written, and the species record (11). -/

namespace Sys2Proof.Machine

/-! ### Fields behind other bytes -/

section Append

variable {a b : List Byte} {i j : Nat}

theorem u8_append (h : i = a.length + j) : u8 (a ++ b) i = u8 b j := by
  subst h
  simp [u8, List.getElem?_append_right]

theorem u16_append (h : i = a.length + j) : u16 (a ++ b) i = u16 b j := by
  rw [u16, u16, u8_append h, u8_append (a := a) (j := j + 1) (by omega)]

theorem curveAt_append (m : Nat) : ∀ {i j : Nat}, i = a.length + j → curveAt (a ++ b) i m = curveAt b j m := by
  induction m with
  | zero => exact fun _ => rfl
  | succ m ih =>
    intro i j h
    rw [curveAt, curveAt, u16_append h, u16_append (j := j + 2) (by omega), ih (j := j + 4) (by omega)]

theorem nameField_append (h : i = a.length + j) : nameField (a ++ b) i = nameField b j := by
  subst h
  rw [nameField, nameField, Nat.add_assoc, List.drop_append, List.drop_of_length_le (by omega), List.nil_append,
    Nat.add_sub_cancel_left]

end Append

/-! ### Fields as they are written -/

theorem u8_byte {n : Nat} (h : n < 256) (l : List Byte) : u8 (byte n :: l) 0 = n := by
  simp [u8, byte, Nat.mod_eq_of_lt h]

theorem u16_bytes16 {n : Nat} (h : n < 65536) (l : List Byte) : u16 (bytes16 n ++ l) 0 = n := by
  simp only [u16, u8, bytes16, byte, List.cons_append, List.getD_cons_zero, List.getD_cons_succ, BitVec.toNat_ofNat]
  omega

@[simp] theorem length_bytes16 (n : Nat) : (bytes16 n).length = 2 := rfl

theorem words16At_append {a b : List Byte} (c : Nat) : ∀ {i j : Nat}, i = a.length + j →
    words16At (a ++ b) i c = words16At b j c := by
  induction c with
  | zero => exact fun _ => rfl
  | succ c ih =>
    intro i j h
    rw [words16At, words16At, u16_append h, ih (j := j + 2) (by omega)]

theorem words16At_flatMap_bytes16 (l : List Nat) (after : List Byte) : (∀ n ∈ l, n < 65536) →
    words16At (l.flatMap bytes16 ++ after) 0 l.length = l := by
  induction l with
  | nil => exact fun _ => rfl
  | cons n l ih =>
    intro h
    rw [List.flatMap_cons, List.append_assoc, List.length_cons, words16At, u16_bytes16 (h n List.mem_cons_self),
      words16At_append (i := 0 + 2) (j := 0) l.length rfl, ih fun m hm => h m (List.mem_cons_of_mem _ hm)]

theorem length_flatMap_bytes16 (l : List Nat) : (l.flatMap bytes16).length = 2 * l.length := by
  induction l with
  | nil => rfl
  | cons n l ih => rw [List.flatMap_cons, List.length_append, ih, length_bytes16, List.length_cons]; omega

theorem length_curveBytes (c : List CurvePoint) : (curveBytes c).length = 4 * c.length := by
  induction c with
  | nil => rfl
  | cons q c ih =>
    rw [curveBytes, List.flatMap_cons, ← curveBytes, List.length_append, ih, List.length_append, length_bytes16,
      length_bytes16, List.length_cons]
    omega

theorem curveAt_curveBytes (c : List CurvePoint) (after : List Byte) : (∀ q ∈ c, q.diam < 65536 ∧ q.press < 65536) →
    curveAt (curveBytes c ++ after) 0 c.length = c := by
  induction c with
  | nil => exact fun _ => rfl
  | cons q c ih =>
    intro h
    obtain ⟨hdiam, hpress⟩ := h q List.mem_cons_self
    have hsplit : curveBytes (q :: c) ++ after = bytes16 q.diam ++ (bytes16 q.press ++ (curveBytes c ++ after)) := by
      simp [curveBytes]
    rw [List.length_cons, curveAt, hsplit, u16_bytes16 hdiam, u16_append (i := 0 + 2) (j := 0) rfl, u16_bytes16 hpress,
      curveAt_append c.length (i := 0 + 4) (j := 2) rfl, curveAt_append c.length (i := 2) (j := 0) rfl,
      ih fun q hq => h q (List.mem_cons_of_mem _ hq)]

/-! ### Names (R66) -/

section Name

variable {name : List Byte}

/-- A name as its field carries it. -/
def paddedName (name : List Byte) : List Byte := name ++ List.replicate (12 - name.length) 0

theorem length_paddedName (h : name.length ≤ 12) : (paddedName name).length = 12 := by
  simp [paddedName]
  omega

/-- The characters of a padded name without a 0 are the name. -/
theorem nameChars_paddedName (h : ∀ b ∈ name, b ≠ 0) : nameChars (paddedName name) = name := by
  unfold nameChars paddedName
  rw [List.takeWhile_append_of_pos (by simpa using h)]
  have hzeros : ∀ n, List.takeWhile (fun b => b != 0) (List.replicate n (0 : Byte)) = [] := by
    intro n
    cases n <;> simp [List.replicate_succ]
  rw [hzeros, List.append_nil]

theorem nameChars_eq_self (h : ∀ b ∈ name, b ≠ 0) : nameChars name = name :=
  List.takeWhile_eq_self_iff.mpr (by simpa using h)

theorem nameFits_paddedName (hzero : ∀ b ∈ name, b ≠ 0) (hfits : nameFits name = true) :
    nameFits (paddedName name) = true := by
  unfold nameFits at hfits ⊢
  rw [nameChars_eq_self hzero] at hfits
  rw [nameChars_paddedName hzero]
  simp only [Bool.and_eq_true] at hfits ⊢
  obtain ⟨⟨⟨hlen, _⟩, hprint⟩, hspace⟩ := hfits
  refine ⟨⟨⟨hlen, ?_⟩, hprint⟩, hspace⟩
  simp [paddedName]

end Name

/-! ### The record (11) -/

/-- The figures of a record in the order of its bytes. -/
def Species.figures (r : Species) : List Nat :=
  [r.frostPct, r.speedGain, r.entryPct, r.entryLen, r.tailPct, r.tailAdv, r.shareA, r.shareB, r.maxPress,
    r.lift, r.flareRatio, r.flareLift, r.maxFeed, r.frozenFeedPct]

/-- What a record needs for its bytes to carry it: a code in a byte, a name in its field, curves and figures in two
bytes, and no frozen curve without points. -/
structure Species.Carried (r : Species) : Prop where
  code : r.code < 256
  nameLength : r.name.length ≤ 12
  nameChars : ∀ b ∈ r.name, b ≠ 0
  baseLength : r.baseCurve.length < 256
  base : ∀ q ∈ r.baseCurve, q.diam < 65536 ∧ q.press < 65536
  frozenLength : ∀ c, r.frozenCurve = some c → 0 < c.length ∧ c.length < 256
  frozen : ∀ c, r.frozenCurve = some c → ∀ q ∈ c, q.diam < 65536 ∧ q.press < 65536
  figures : ∀ n ∈ r.figures, n < 65536

theorem curveFits_bounds {c : List CurvePoint} (h : curveFits c = true) :
    0 < c.length ∧ c.length < 256 ∧ ∀ q ∈ c, q.diam < 65536 := by
  simp only [curveFits, Bool.and_eq_true, decide_eq_true_eq, List.all_eq_true] at h
  obtain ⟨⟨hlen, hdiam⟩, _⟩ := h
  refine ⟨by omega, by omega, fun q hq => ?_⟩
  have := hdiam q hq
  omega

theorem slotSound_carried {t : Table} {slot : Nat} {r : Species} (h : slotSound t slot r = true) :
    r.Carried ∧ nameFits r.name = true := by
  simp only [slotSound, storedNameFits, curvesFit, Bool.and_eq_true, decide_eq_true_eq] at h
  obtain ⟨⟨⟨⟨hcode, ⟨hlen, hfits⟩, hchars⟩, hbase, hfrozen⟩, _⟩, hclamp⟩ := h
  obtain ⟨hpress, hpressF, hfigures⟩ := (clampSpecies_eq_self r).mp hclamp
  obtain ⟨_, hbaseLen, hdiam⟩ := curveFits_bounds hbase
  have hfits' : ∀ c, r.frozenCurve = some c → curveFits c = true := by
    intro c hc
    simpa only [hc] using hfrozen
  refine ⟨⟨?_, hlen, by simpa using hchars, hbaseLen, fun q hq => ⟨hdiam q hq, ?_⟩, fun c hc => ?_, fun c hc q hq =>
    ⟨(curveFits_bounds (hfits' c hc)).2.2 q hq, ?_⟩, ?_⟩, hfits⟩
  · have := (codeSuits_iff.mp hcode).2
    omega
  · have := hpress q hq
    omega
  · obtain ⟨hpos, hlt, _⟩ := curveFits_bounds (hfits' c hc)
    exact ⟨hpos, hlt⟩
  · have := hpressF c hc q hq
    omega
  · simp only [Species.figures, List.forall_mem_cons, List.not_mem_nil, false_imp_iff, implies_true, and_true]
    omega

theorem speciesBytes_eq (r : Species) : speciesBytes r =
    (byte r.code :: paddedName r.name) ++ (byte r.baseCurve.length :: (curveBytes r.baseCurve ++
      (byte (r.frozenCurve.getD []).length :: (curveBytes (r.frozenCurve.getD []) ++ r.figures.flatMap bytes16)))) := by
  simp [speciesBytes, paddedName, Species.figures]

theorem length_speciesBytes {r : Species} (h : r.name.length ≤ 12) :
    (speciesBytes r).length = 43 + 4 * (r.baseCurve.length + (r.frozenCurve.getD []).length) := by
  have hfigures : r.figures.length = 14 := rfl
  simp only [speciesBytes_eq, List.length_append, List.length_cons, length_paddedName h, length_curveBytes,
    length_flatMap_bytes16, hfigures]
  omega

theorem nameField_speciesBytes {r : Species} (h : r.name.length ≤ 12) (after : List Byte) :
    nameField (speciesBytes r ++ after) 0 = paddedName r.name := by
  have hlen : (byte r.code :: paddedName r.name).length = 13 := by rw [List.length_cons, length_paddedName h]
  rw [speciesBytes_eq, List.append_assoc, nameField]
  simp only [List.cons_append, List.drop_succ_cons, List.drop_zero]
  exact List.take_left' (length_paddedName h)

theorem readSpecies_append (before p : List Byte) : readSpecies (before ++ p) before.length = readSpecies p 0 := by
  have hu8 : ∀ j, u8 (before ++ p) (before.length + j) = u8 p j := fun j => u8_append rfl
  have hu16 : ∀ j, u16 (before ++ p) (before.length + j) = u16 p j := fun j => u16_append rfl
  have hcurve : ∀ j m, curveAt (before ++ p) (before.length + j) m = curveAt p j m := fun j m => curveAt_append m rfl
  have hname : nameField (before ++ p) before.length = nameField p 0 := nameField_append rfl
  have hcode : u8 (before ++ p) before.length = u8 p 0 := u8_append rfl
  simp only [readSpecies, Nat.add_assoc, hu8, hu16, hcurve, hname, hcode, Nat.zero_add]

theorem readSpecies_speciesBytes {r : Species} (h : r.Carried) (after : List Byte) :
    readSpecies (speciesBytes r ++ after) 0 = r := by
  generalize hf : r.frozenCurve.getD [] = frozen
  have hfrozenLen : frozen.length < 256 := by
    cases hc : r.frozenCurve with
    | none => simp [← hf, hc]
    | some c => simpa [← hf, hc] using (h.frozenLength c hc).2
  have hfrozenPoints : ∀ q ∈ frozen, q.diam < 65536 ∧ q.press < 65536 := by
    cases hc : r.frozenCurve with
    | none => simp [← hf, hc]
    | some c => simpa [← hf, hc] using h.frozen c hc
  generalize htail : r.figures.flatMap bytes16 ++ after = figs
  generalize hback : byte frozen.length :: (curveBytes frozen ++ figs) = back
  generalize hmid : byte r.baseCurve.length :: (curveBytes r.baseCurve ++ back) = mid
  generalize hhead : byte r.code :: paddedName r.name = head
  have hbytes : speciesBytes r ++ after = head ++ mid := by
    rw [speciesBytes_eq, hf, ← hhead, ← hmid, ← hback, ← htail]
    simp
  have hheadLen : head.length = 13 := by rw [← hhead, List.length_cons, length_paddedName h.nameLength]
  have hname : nameField (head ++ mid) 0 = paddedName r.name := by
    rw [← hbytes]
    exact nameField_speciesBytes h.nameLength after
  have hcode : u8 (head ++ mid) 0 = r.code := by
    rw [← hhead]
    exact u8_byte h.code _
  have hm : u8 (head ++ mid) (0 + 13) = r.baseCurve.length := by
    rw [u8_append (j := 0) (by omega), ← hmid]
    exact u8_byte h.baseLength _
  have hbase : curveAt (head ++ mid) (0 + 14) r.baseCurve.length = r.baseCurve := by
    rw [curveAt_append _ (j := 1) (by omega), ← hmid, ← List.singleton_append, curveAt_append _ (i := 1) (j := 0) rfl]
    exact curveAt_curveBytes _ _ h.base
  have hshift : ∀ i j, i = 0 + 14 + 4 * r.baseCurve.length + j →
      i = (head ++ (byte r.baseCurve.length :: curveBytes r.baseCurve)).length + j := by
    intro i j hi
    rw [List.length_append, hheadLen, List.length_cons, length_curveBytes]
    omega
  have hmid' : head ++ mid = (head ++ (byte r.baseCurve.length :: curveBytes r.baseCurve)) ++ back := by
    rw [← hmid]
    simp
  have hn : u8 (head ++ mid) (0 + 14 + 4 * r.baseCurve.length) = frozen.length := by
    rw [hmid', u8_append (hshift (0 + 14 + 4 * r.baseCurve.length) 0 rfl), ← hback]
    exact u8_byte hfrozenLen _
  have hfrozen : curveAt (head ++ mid) (0 + 15 + 4 * r.baseCurve.length) frozen.length = frozen := by
    rw [hmid', curveAt_append _ (hshift _ 1 (by omega)), ← hback, ← List.singleton_append,
      curveAt_append _ (i := 1) (j := 0) rfl]
    exact curveAt_curveBytes _ _ hfrozenPoints
  have hwords : words16At (head ++ mid) (0 + 15 + 4 * (r.baseCurve.length + frozen.length)) 14 = r.figures := by
    rw [hmid', words16At_append _ (hshift _ (1 + 4 * frozen.length) (by omega)), ← hback, ← List.singleton_append,
      words16At_append _ (i := 1 + 4 * frozen.length) (j := 4 * frozen.length) rfl,
      words16At_append _ (i := 4 * frozen.length) (j := 0) (length_curveBytes frozen).symm, ← htail]
    exact words16At_flatMap_bytes16 r.figures after h.figures
  have hnone : (if frozen.length = 0 then none else some frozen) = r.frozenCurve := by
    cases hc : r.frozenCurve with
    | none => simp [← hf, hc]
    | some c => simpa [← hf, hc] using (h.frozenLength c hc).1.ne'
  rw [hbytes]
  simp only [readSpecies, hm, hn, hcode, hname, nameChars_paddedName h.nameChars, hbase, hfrozen, hnone]
  generalize 0 + 15 + 4 * (r.baseCurve.length + frozen.length) = start at hwords ⊢
  simp only [words16At, Species.figures, Nat.add_assoc, Nat.reduceAdd, List.cons.injEq, and_true] at hwords
  simp only [hwords]

/-- Settles O30: the bytes of a record sound in a slot, parted at its curves and its figures, are read back part by part. -/
theorem speciesRecordReadsBackAsSent : Obligations.SpeciesRecordReadsBackAsSent := by
  intro t slot r before after hsound
  obtain ⟨hcarried, hfits⟩ := slotSound_carried hsound
  refine ⟨?_, ?_, length_speciesBytes hcarried.nameLength⟩
  · rw [List.append_assoc, readSpecies_append]
    exact readSpecies_speciesBytes hcarried after
  · rw [List.append_assoc, nameField_append (i := before.length) (j := 0) rfl, nameField_speciesBytes hcarried.nameLength]
    exact nameFits_paddedName hcarried.nameChars hfits

end Sys2Proof.Machine
end

section
/-! PROOFS. The evaluations of the Setpoint Unit (05): what they read, what they leave, and the targets they hand on. -/

namespace Sys2Proof.Machine

/-! ### What an evaluation reads -/

/-- A record without what evaluations put in it: its flags but BUTT_FLARE, and its peaks. -/
def Rec.bare (r : Rec) : Rec :=
  { r with flags := if Flag.buttFlare ∈ r.flags then [.buttFlare] else [], peakA := 0, peakB := 0 }

/-- Between two states what an evaluation reads is the same, the free counter apart. -/
structure SameView (s t : State) : Prop where
  points : t.points = s.points
  feed : t.feed = s.feed
  control : t.control = s.control
  release : t.release = s.release
  recipes : t.recipes = s.recipes
  ring : t.ring = s.ring
  track : t.track.map Rec.bare = s.track.map Rec.bare

theorem SameView.refl (s : State) : SameView s s := ⟨rfl, rfl, rfl, rfl, rfl, rfl, rfl⟩

theorem SameView.trans {s t u : State} (h : SameView s t) (g : SameView t u) : SameView s u :=
  ⟨g.points.trans h.points, g.feed.trans h.feed, g.control.trans h.control, g.release.trans h.release,
    g.recipes.trans h.recipes, g.ring.trans h.ring, g.track.trans h.track⟩

theorem Rec.bare_key (r : Rec) : r.bare.key = r.key := rfl

theorem find?_key_bare (key : Nat) (l : List Rec) :
    (l.find? fun r => r.key == key).map Rec.bare = (l.map Rec.bare).find? fun r => r.key == key := by
  rw [List.find?_map]
  rfl

section View

variable {s t : State} (h : SameView s t)

include h

theorem SameView.rec? (key : Nat) : (t.rec? key).map Rec.bare = (s.rec? key).map Rec.bare := by
  rw [State.rec?, State.rec?, find?_key_bare, find?_key_bare, h.track]

theorem SameView.rec?_of {key : Nat} {r : Rec} (hr : s.rec? key = some r) : ∃ q, t.rec? key = some q ∧ q.bare = r.bare := by
  have hsame := h.rec? key
  rw [hr] at hsame
  exact Option.map_eq_some_iff.mp hsame

theorem SameView.ringState (k : Ring) : t.ringState k = s.ringState k := by rw [State.ringState, State.ringState, h.ring]

theorem SameView.servedRec (k : Ring) : (t.servedRec k).map Rec.bare = (s.servedRec k).map Rec.bare := by
  rw [State.servedRec, State.servedRec, h.ring]
  cases (s.ring.get k).served with
  | none => rfl
  | some key => exact h.rec? key

theorem SameView.servedRec_of {k : Ring} {r : Rec} (hr : s.servedRec k = some r) :
    ∃ q, t.servedRec k = some q ∧ q.bare = r.bare := by
  have hsame := h.servedRec k
  rw [hr] at hsame
  exact Option.map_eq_some_iff.mp hsame

theorem SameView.pressValue_same (k : Ring) (r : Rec) : pressValue t k r = pressValue s k r := by
  simp only [pressValue, State.recipeOf, State.bindingNow, State.frozenNow, diameterAt, sampleIndex, frontDist, speedUsed,
    h.ringState, h.points, h.feed, h.control, h.recipes]

/-- The evaluation of a record reads neither its flags nor its peaks. -/
theorem SameView.pressValue_of_bare (k : Ring) {q r : Rec} (hq : q.bare = r.bare) : pressValue t k q = pressValue s k r := by
  have hbare : ∀ x : Rec, pressValue s k x = pressValue s k x.bare := fun _ => rfl
  rw [h.pressValue_same, hbare q, hq, ← hbare]

theorem SameView.armingLift_of_bare {q r : Rec} (hq : q.bare = r.bare) : armingLift t q = armingLift s r := by
  have hspecies : q.species = r.species := by
    have := congrArg Rec.species hq
    exact this
  have hflare : q.flags.contains .buttFlare = r.flags.contains .buttFlare := by
    have hbare : ∀ x : Rec, x.flags.contains .buttFlare = x.bare.flags.contains .buttFlare := by
      intro x
      by_cases hx : Flag.buttFlare ∈ x.flags <;> simp [Rec.bare, hx]
    rw [hbare q, hq, ← hbare]
  simp only [armingLift, h.points, h.recipes, hspecies, hflare]

/-- The lift value of a ring that is open, or of any ring in MANUAL. -/
theorem SameView.liftValue (k : Ring) (hopen : (s.ringState k).pressing = false ∨ s.control.mode = .manual) :
    liftValue t k = liftValue s k := by
  have harmed : ((s.ring.get k).armedFor.bind t.rec?).map (armingLift t) =
      ((s.ring.get k).armedFor.bind s.rec?).map (armingLift s) := by
    cases (s.ring.get k).armedFor with
    | none => rfl
    | some key =>
      show (t.rec? key).map _ = (s.rec? key).map _
      cases hr : s.rec? key with
      | none =>
        have hnone := h.rec? key
        rw [hr, Option.map_none, Option.map_eq_none_iff] at hnone
        rw [hnone]
        rfl
      | some r =>
        obtain ⟨q, hq, hbare⟩ := h.rec?_of hr
        rw [hq, Option.map_some, Option.map_some, h.armingLift_of_bare hbare]
  unfold Machine.liftValue
  rw [h.ringState, h.points, h.release, h.control, h.ring, h.recipes]
  cases hs : s.ringState k with
  | armed =>
    simp only
    split
    · rfl
    · cases ha : (s.ring.get k).armedFor.bind s.rec? with
      | none =>
        rw [ha, Option.map_none, Option.map_eq_none_iff] at harmed
        simp only [harmed]
      | some r =>
        rw [ha, Option.map_some] at harmed
        obtain ⟨q, hq, heq⟩ := Option.map_eq_some_iff.mp harmed
        simp only [hq, heq]
  | idle | held => rfl
  | entry | body | tail =>
    have hmanual : s.control.mode = .manual := hopen.resolve_left (by simp [hs, RingState.pressing])
    simp only [hmanual, if_true]

end View

/-! ### An intent handed to the Valve Line (R136) -/

theorem State.intent_intent (s : State) (k : Ring) (x : Side) (p : Nat) :
    ((s.intent k x p).valve.rings.get k).intent = x := by
  rw [State.intent_rings, PerRing.get_modify_self, Interlock.take]
  split_ifs with h
  · exact h.symm
  all_goals rfl

theorem State.intent_target_self (s : State) (k : Ring) (x : Side) (p : Nat) :
    ((s.intent k x p).valve.chans.get (channelOf k x)).target = p := by
  simp [State.intent_target]

theorem State.intent_target_partner (s : State) (k : Ring) (x : Side) (p : Nat) :
    ((s.intent k x p).valve.chans.get (channelOf k x.partner)).target = 0 := by
  cases x <;> simp [State.intent_target, Side.partner]

theorem State.intent_target_other (s : State) {k j : Ring} (hj : j ≠ k) (x y : Side) (p : Nat) :
    ((s.intent k x p).valve.chans.get (channelOf j y)).target = (s.valve.chans.get (channelOf j y)).target := by
  simp [State.intent_target, hj]

theorem State.intent_rings_other (s : State) {k j : Ring} (hj : j ≠ k) (x : Side) (p : Nat) :
    (s.intent k x p).valve.rings.get j = s.valve.rings.get j := by
  rw [State.intent_rings, PerRing.get_modify, if_neg hj]

/-! ### The press target (R85, R87) -/

theorem State.evalPress_of_no_record {s : State} {k : Ring} (h : s.servedRec k = none) : s.evalPress k = s := by
  simp only [State.evalPress, h]

theorem State.evalPress_of_open {s : State} {k : Ring} (h : (s.ringState k).pressing = false) : s.evalPress k = s := by
  unfold State.evalPress
  split
  · rfl
  · rw [h]
    exact if_neg (by decide)

/-- The state before the intent of an evaluation: the target and the flags held, the record changed. -/
def State.evaluated (s : State) (k : Ring) (r : Rec) : State :=
  (s.onSetpoint k fun q => { q with pressTarget := (pressValue s k r).1, lastFlags := (pressValue s k r).2 }).onRec r.key
    fun q => q.evaluated k (pressValue s k r).1 (pressValue s k r).2

theorem State.evalPress_of_serving {s : State} {k : Ring} {r : Rec} (hp : (s.ringState k).pressing = true)
    (hr : s.servedRec k = some r) : s.evalPress k = (s.evaluated k r).intent k .press (pressValue s k r).1 := by
  simp only [State.evalPress, hr, hp, if_true, State.evaluated]

theorem State.evalPress_setpoint {s : State} {k : Ring} {r : Rec} (hp : (s.ringState k).pressing = true)
    (hr : s.servedRec k = some r) : (s.evalPress k).setpoint = s.setpoint.modify k fun q =>
      { q with pressTarget := (pressValue s k r).1, lastFlags := (pressValue s k r).2 } := by
  rw [State.evalPress_of_serving hp hr, (State.intent_touches _ _ _ _).setpoint.resolve_left (by decide)]
  rfl

theorem State.evalPress_track {s : State} {k : Ring} {r : Rec} (hp : (s.ringState k).pressing = true)
    (hr : s.servedRec k = some r) : (s.evalPress k).track =
      s.track.map fun q => if q.key = r.key then q.evaluated k (pressValue s k r).1 (pressValue s k r).2 else q := by
  rw [State.evalPress_of_serving hp hr, (State.intent_touches _ _ _ _).track.resolve_left (by decide)]
  simp [State.evaluated]

theorem State.evalPress_target {s : State} {k : Ring} {r : Rec} (hp : (s.ringState k).pressing = true)
    (hr : s.servedRec k = some r) : ((s.evalPress k).setpoint.get k).pressTarget = (pressValue s k r).1 := by
  rw [State.evalPress_setpoint hp hr, PerRing.get_modify_self]

theorem State.evalPress_handed {s : State} {k : Ring} {r : Rec} (hp : (s.ringState k).pressing = true)
    (hr : s.servedRec k = some r) :
    ((s.evalPress k).valve.chans.get (channelOf k .press)).target = (pressValue s k r).1 := by
  rw [State.evalPress_of_serving hp hr, State.intent_target_self]

theorem State.evalPress_liftTarget (s : State) (k j : Ring) :
    ((s.evalPress k).setpoint.get j).liftTarget = (s.setpoint.get j).liftTarget := by
  cases hr : s.servedRec k with
  | none => rw [State.evalPress_of_no_record hr]
  | some r =>
    cases hp : (s.ringState k).pressing
    · rw [State.evalPress_of_open hp]
    · rw [State.evalPress_setpoint hp hr, PerRing.get_modify]
      split <;> rfl

theorem State.evalPress_setpoint_other (s : State) {k j : Ring} (hj : j ≠ k) :
    (s.evalPress k).setpoint.get j = s.setpoint.get j := by
  cases hr : s.servedRec k with
  | none => rw [State.evalPress_of_no_record hr]
  | some r =>
    cases hp : (s.ringState k).pressing
    · rw [State.evalPress_of_open hp]
    · rw [State.evalPress_setpoint hp hr, PerRing.get_modify, if_neg hj]

theorem State.evalPress_target_other (s : State) {k j : Ring} (hj : j ≠ k) (y : Side) :
    ((s.evalPress k).valve.chans.get (channelOf j y)).target = (s.valve.chans.get (channelOf j y)).target := by
  cases hr : s.servedRec k with
  | none => rw [State.evalPress_of_no_record hr]
  | some r =>
    cases hp : (s.ringState k).pressing
    · rw [State.evalPress_of_open hp]
    · rw [State.evalPress_of_serving hp hr, State.intent_target_other _ hj]
      rfl

/-- The flags an evaluation gives do not name a flare. -/
theorem pressValue_flags (s : State) (k : Ring) (r : Rec) : Flag.buttFlare ∉ (pressValue s k r).2 := by
  have hclamp : ∀ lower upper p, lower ≤ upper → Flag.buttFlare ∉ (stageClamp lower upper p).2 := by
    intro lower upper p hle hmem
    obtain h | h := (stageClamp_clamped hle p).flags _ hmem <;> cases h
  unfold pressValue
  split
  · exact hclamp _ _ _ (Nat.min_le_right _ _)
  · intro hmem
    simp only [pressRun, mem_addFlags, List.mem_append, List.not_mem_nil, false_or] at hmem
    obtain hmerge | hclamped := hmem
    · exact stageMerge_flags (by decide) (by decide) _ _ _ _ _ hmerge
    · exact hclamp _ _ _ (Nat.min_le_right _ _) hclamped

/-- A record's flags and peak taken in an evaluation are none of those an evaluation reads. -/
theorem Rec.evaluated_bare (r : Rec) (k : Ring) (target : Nat) {flags : List Flag} (h : Flag.buttFlare ∉ flags) :
    (r.evaluated k target flags).bare = r.bare := by
  have hmem : Flag.buttFlare ∈ addFlags flags r.flags ↔ Flag.buttFlare ∈ r.flags := by
    rw [mem_addFlags, or_iff_left h]
  cases k <;> simp only [Rec.evaluated, Rec.bare, Rec.flag, hmem]

theorem State.evalPress_view (s : State) (k : Ring) : SameView s (s.evalPress k) := by
  have hworks := s.evalPress_works k
  refine ⟨hworks.sameOuter.points, hworks.sameOuter.feed, hworks.sameOuter.control, hworks.release,
    (s.evalPress_touches k).recipes.resolve_left (by decide), s.evalPress_ring k, ?_⟩
  cases hr : s.servedRec k with
  | none => rw [State.evalPress_of_no_record hr]
  | some r =>
    cases hp : (s.ringState k).pressing
    · rw [State.evalPress_of_open hp]
    · rw [State.evalPress_track hp hr, List.map_map]
      refine List.map_congr_left fun q _ => ?_
      simp only [Function.comp_apply]
      split
      · exact q.evaluated_bare k _ (pressValue_flags s k r)
      · rfl

/-! ### The lift target (R85, R105) -/

theorem State.evalLift_of_open {s : State} {k : Ring} (h : (s.ringState k).pressing = false) :
    s.evalLift k = (s.onSetpoint k fun q => { q with liftTarget := min (liftValue s k) s.points.ceiling }).intent k .lift
      (min (liftValue s k) s.points.ceiling) := by
  simp only [State.evalLift, h, Bool.false_eq_true, if_false]

theorem State.evalLift_setpoint (s : State) (k : Ring) : (s.evalLift k).setpoint =
    s.setpoint.modify k fun q => { q with liftTarget := min (liftValue s k) s.points.ceiling } := by
  cases hp : (s.ringState k).pressing
  · rw [State.evalLift_of_open hp, (State.intent_touches _ _ _ _).setpoint.resolve_left (by decide)]
    rfl
  · simp only [State.evalLift, hp, if_true]
    rfl

theorem State.evalLift_target (s : State) (k : Ring) :
    ((s.evalLift k).setpoint.get k).liftTarget = min (liftValue s k) s.points.ceiling := by
  rw [State.evalLift_setpoint, PerRing.get_modify_self]

theorem State.evalLift_handed {s : State} {k : Ring} (h : (s.ringState k).pressing = false) :
    ((s.evalLift k).valve.chans.get (channelOf k .lift)).target = min (liftValue s k) s.points.ceiling := by
  rw [State.evalLift_of_open h, State.intent_target_self]

theorem State.evalLift_pressTarget (s : State) (k j : Ring) :
    ((s.evalLift k).setpoint.get j).pressTarget = (s.setpoint.get j).pressTarget := by
  rw [State.evalLift_setpoint, PerRing.get_modify]
  split <;> rfl

theorem State.evalLift_setpoint_other (s : State) {k j : Ring} (hj : j ≠ k) :
    (s.evalLift k).setpoint.get j = s.setpoint.get j := by
  rw [State.evalLift_setpoint, PerRing.get_modify, if_neg hj]

theorem State.evalLift_target_other (s : State) {k j : Ring} (hj : j ≠ k) (y : Side) :
    ((s.evalLift k).valve.chans.get (channelOf j y)).target = (s.valve.chans.get (channelOf j y)).target := by
  cases hp : (s.ringState k).pressing
  · rw [State.evalLift_of_open hp, State.intent_target_other _ hj]
    rfl
  · simp only [State.evalLift, hp, if_true]
    rfl

/-- The lift target of a ring that presses is not handed on. -/
theorem State.evalLift_valve_of_pressing {s : State} {k : Ring} (h : (s.ringState k).pressing = true) :
    (s.evalLift k).valve = s.valve := by
  simp only [State.evalLift, h, if_true]
  rfl

theorem State.evalLift_view (s : State) (k : Ring) : SameView s (s.evalLift k) := by
  have hworks := s.evalLift_works k
  have htouches := s.evalLift_touches k
  exact ⟨hworks.sameOuter.points, hworks.sameOuter.feed, hworks.sameOuter.control, hworks.release,
    htouches.recipes.resolve_left (by decide), s.evalLift_ring k, by rw [htouches.track.resolve_left (by decide)]⟩

theorem State.evalLiftIn_of_eq {s : State} {st : RingState} {k : Ring} (h : s.ringState k = st) :
    s.evalLiftIn st k = s.evalLift k := if_pos h

theorem State.evalLiftIn_of_ne {s : State} {st : RingState} {k : Ring} (h : s.ringState k ≠ st) :
    s.evalLiftIn st k = s := if_neg h

theorem State.evalLiftIn_view (s : State) (st : RingState) (k : Ring) : SameView s (s.evalLiftIn st k) := by
  unfold State.evalLiftIn
  split
  · exact s.evalLift_view k
  · exact .refl s

theorem State.evalPresses_view (s : State) : SameView s s.evalPresses :=
  (s.evalPress_view .a).trans (State.evalPress_view _ .b)

/-! ### O36 -/

/-- A value held within 0..hi as the statements write it. -/
theorem heldWithin_eq_max_min {lo hi : Int} (h : lo ≤ hi) (x : Int) : heldWithin lo hi x = max lo (min hi x) := by
  unfold heldWithin
  split_ifs <;> omega

theorem speedUsed_eq (s : State) : speedUsed s = (max 0 (min 2000 s.feed.speed)).toNat := by
  rw [speedUsed, heldWithin_eq_max_min (by decide)]

theorem diameterAt_eq (s : State) (k : Ring) (r : Rec) : diameterAt s k r =
    if r.samples = [] then s.points.blindDiameter
    else r.samples.getD (max 0 (min ((r.samples.length : Int) - 1) ((frontDist s r - s.points.planeOf k) / 200))).toNat 0 := by
  unfold diameterAt
  by_cases hnone : r.samples = []
  · simp [hnone]
  · have hpos : 0 < r.samples.length := List.length_pos_iff.mpr hnone
    rw [if_neg (by simpa using hnone), if_neg hnone, sampleIndex, heldWithin_eq_max_min (by omega)]

/-- The lift targets by state, mode and record (R102 to R105). -/
theorem evalLift_facts (s : State) (k : Ring) :
    let t := s.evalLift k
    let x := (t.setpoint.get k).liftTarget
    x ≤ s.points.ceiling ∧
    ((s.ringState k).pressing = false → (t.valve.chans.get (channelOf k .lift)).target = x ∧
      (t.valve.rings.get k).intent = .lift) ∧
    (s.ringState k = .idle → x = min s.points.parkLift s.points.ceiling) ∧
    (s.ringState k = .held → x = if s.release.level = .estop then 0 else min s.points.releaseLift s.points.ceiling) ∧
    (s.ringState k = .armed → s.control.mode = .manual → x = min (s.control.manualLift.get k) s.points.ceiling) ∧
    (∀ key r, s.ringState k = .armed → s.control.mode ≠ .manual → (s.ring.get k).armedFor = some key →
      s.rec? key = some r → let y := s.recipes.active.recipeFor r.species
        x = min (y.lift + if Flag.buttFlare ∈ r.flags then y.flareLift else 0) s.points.ceiling) := by
  intro t x
  have hx : x = min (liftValue s k) s.points.ceiling := s.evalLift_target k
  refine ⟨hx ▸ Nat.min_le_right _ _, fun hopen => ⟨hx ▸ State.evalLift_handed hopen, ?_⟩, fun hs => ?_, fun hs => ?_,
    fun hs hm => ?_, fun key r hs hm ha hr => ?_⟩
  · show ((s.evalLift k).valve.rings.get k).intent = _
    rw [State.evalLift_of_open hopen, State.intent_intent]
  · rw [hx, liftValue, hs]
  · rw [hx, liftValue, hs]
    simp only
    split
    · exact Nat.zero_min _
    · rfl
  · rw [hx, liftValue, hs]
    simp only [hm, if_true]
  · rw [hx, liftValue, hs]
    simp only [hm, if_false, ha, Option.bind_some, hr, armingLift, List.contains_iff_mem, min_assoc, min_self]

theorem evalPress_facts {s : State} {k : Ring} {r : Rec} (hp : (s.ringState k).pressing = true)
    (hr : s.servedRec k = some r) :
    let t := s.evalPress k
    let x := pressValue s k r
    (t.setpoint.get k).pressTarget = x.1 ∧ (t.setpoint.get k).lastFlags = x.2 ∧
    (t.setpoint.get k).liftTarget = (s.setpoint.get k).liftTarget ∧
    (t.valve.chans.get (channelOf k .press)).target = x.1 ∧ (t.valve.chans.get (channelOf k .lift)).target = 0 ∧
    (t.valve.rings.get k).intent = .press ∧
    t.track = s.track.map (fun q => if q.key = r.key then q.evaluated k x.1 x.2 else q) ∧
    SameOuter s t ∧ t.ring = s.ring ∧ t.release = s.release ∧ t.recipes = s.recipes ∧ t.ports = s.ports ∧
    ∀ j, j ≠ k → t.setpoint.get j = s.setpoint.get j ∧ t.valve.rings.get j = s.valve.rings.get j := by
  intro t x
  have hworks := s.evalPress_works k
  have htouches := s.evalPress_touches k
  have hflags : (t.setpoint.get k).lastFlags = x.2 := by
    rw [State.evalPress_setpoint hp hr, PerRing.get_modify_self]
  have hpartner : (t.valve.chans.get (channelOf k .lift)).target = 0 := by
    show ((s.evalPress k).valve.chans.get _).target = 0
    rw [State.evalPress_of_serving hp hr]
    exact State.intent_target_partner _ k .press _
  have hintent : (t.valve.rings.get k).intent = .press := by
    show ((s.evalPress k).valve.rings.get k).intent = _
    rw [State.evalPress_of_serving hp hr, State.intent_intent]
  refine ⟨State.evalPress_target hp hr, hflags, s.evalPress_liftTarget k k, State.evalPress_handed hp hr, hpartner, hintent,
    State.evalPress_track hp hr, hworks.sameOuter, s.evalPress_ring k, hworks.release, htouches.recipes.resolve_left (by decide),
    htouches.ports.resolve_left (by decide), fun j hj => ⟨s.evalPress_setpoint_other hj, ?_⟩⟩
  show (s.evalPress k).valve.rings.get j = _
  rw [State.evalPress_of_serving hp hr, State.intent_rings_other _ hj]
  rfl

/-- A record's evaluation at one ring: where the ring serves it. -/
def State.pressAt (s : State) (key : Nat) (k : Ring) : State :=
  if (s.ring.get k).served = some key then s.evalPress k else s

theorem State.evalPressFor_eq (s : State) (key : Nat) : s.evalPressFor key = (s.pressAt key .a).pressAt key .b := rfl

theorem State.pressAt_view (s : State) (key : Nat) (k : Ring) : SameView s (s.pressAt key k) := by
  unfold State.pressAt
  split
  · exact s.evalPress_view k
  · exact .refl s

theorem State.pressAt_setpoint_other (s : State) (key : Nat) {k j : Ring} (hj : j ≠ k) :
    (s.pressAt key k).setpoint.get j = s.setpoint.get j := by
  unfold State.pressAt
  split
  · exact s.evalPress_setpoint_other hj
  · rfl

theorem State.pressAt_target {s : State} {key : Nat} {k : Ring} {r : Rec} (hs : (s.ring.get k).served = some key)
    (hp : (s.ringState k).pressing = true) (hr : s.rec? key = some r) :
    ((s.pressAt key k).setpoint.get k).pressTarget = (pressValue s k r).1 := by
  have hserved : s.servedRec k = some r := by rw [State.servedRec, hs, Option.bind_some, hr]
  rw [State.pressAt, if_pos hs, State.evalPress_target hp hserved]

theorem State.evalPressFor_target {s : State} {key : Nat} {k : Ring} {r : Rec} (hs : (s.ring.get k).served = some key)
    (hp : (s.ringState k).pressing = true) (hr : s.rec? key = some r) :
    ((s.evalPressFor key).setpoint.get k).pressTarget = (pressValue s k r).1 := by
  rw [State.evalPressFor_eq]
  cases k with
  | a => rw [State.pressAt_setpoint_other _ _ (by decide), State.pressAt_target hs hp hr]
  | b =>
    have hview := s.pressAt_view key .a
    obtain ⟨q, hq, hbare⟩ := hview.rec?_of hr
    rw [State.pressAt_target (by rw [hview.ring]; exact hs) (by rw [hview.ringState]; exact hp) hq,
      hview.pressValue_of_bare .b hbare]

theorem State.pressAt_of_not_served {s : State} {key : Nat} {k : Ring} (h : (s.ring.get k).served ≠ some key) :
    s.pressAt key k = s := if_neg h

theorem State.evalPressFor_setpoint_of_not_served {s : State} {key : Nat} {k : Ring}
    (h : (s.ring.get k).served ≠ some key) : (s.evalPressFor key).setpoint.get k = s.setpoint.get k := by
  rw [State.evalPressFor_eq]
  cases k with
  | a => rw [State.pressAt_setpoint_other _ _ (by decide), State.pressAt_of_not_served h]
  | b =>
    rw [State.pressAt_of_not_served (by rw [(s.pressAt_view key .a).ring]; exact h),
      State.pressAt_setpoint_other _ _ (by decide)]

/-- A record's arming lift evaluated at one ring: where the ring is armed for it. -/
def State.liftAt (s : State) (key : Nat) (k : Ring) : State :=
  if (s.ring.get k).armedFor = some key then s.evalLiftIn .armed k else s

theorem State.evalLiftFor_eq (s : State) (key : Nat) : s.evalLiftFor key = (s.liftAt key .a).liftAt key .b := rfl

theorem State.liftAt_view (s : State) (key : Nat) (k : Ring) : SameView s (s.liftAt key k) := by
  unfold State.liftAt
  split
  · exact s.evalLiftIn_view _ k
  · exact .refl s

theorem State.evalLiftIn_setpoint_other (s : State) (st : RingState) {k j : Ring} (hj : j ≠ k) :
    (s.evalLiftIn st k).setpoint.get j = s.setpoint.get j := by
  unfold State.evalLiftIn
  split
  · exact s.evalLift_setpoint_other hj
  · rfl

theorem State.liftAt_setpoint_other (s : State) (key : Nat) {k j : Ring} (hj : j ≠ k) :
    (s.liftAt key k).setpoint.get j = s.setpoint.get j := by
  unfold State.liftAt
  split
  · exact s.evalLiftIn_setpoint_other _ hj
  · rfl

theorem State.liftAt_of_armed {s : State} {key : Nat} {k : Ring} (hs : s.ringState k = .armed)
    (ha : (s.ring.get k).armedFor = some key) : s.liftAt key k = s.evalLift k := by
  rw [State.liftAt, if_pos ha, State.evalLiftIn_of_eq hs]

theorem State.liftAt_of_not_armed {s : State} {key : Nat} {k : Ring}
    (h : s.ringState k ≠ .armed ∨ (s.ring.get k).armedFor ≠ some key) : s.liftAt key k = s := by
  unfold State.liftAt
  split
  · next ha => exact State.evalLiftIn_of_ne (h.resolve_right (not_not.mpr ha))
  · rfl

theorem State.evalLiftFor_setpoint_of_armed {s : State} {key : Nat} {k : Ring} (hs : s.ringState k = .armed)
    (ha : (s.ring.get k).armedFor = some key) :
    (s.evalLiftFor key).setpoint.get k = (s.evalLift k).setpoint.get k := by
  rw [State.evalLiftFor_eq]
  cases k with
  | a => rw [State.liftAt_setpoint_other _ _ (by decide), State.liftAt_of_armed hs ha]
  | b =>
    have hview := s.liftAt_view key .a
    have hopen : (s.ringState .b).pressing = false := by rw [hs]; rfl
    rw [State.liftAt_of_armed (by rw [hview.ringState]; exact hs) (by rw [hview.ring]; exact ha), State.evalLift_setpoint,
      State.evalLift_setpoint, PerRing.get_modify_self, PerRing.get_modify_self,
      State.liftAt_setpoint_other _ _ (by decide), hview.liftValue .b (.inl hopen), hview.points]

theorem State.evalLiftFor_setpoint_of_not_armed {s : State} {key : Nat} {k : Ring}
    (h : s.ringState k ≠ .armed ∨ (s.ring.get k).armedFor ≠ some key) :
    (s.evalLiftFor key).setpoint.get k = s.setpoint.get k := by
  rw [State.evalLiftFor_eq]
  cases k with
  | a => rw [State.liftAt_setpoint_other _ _ (by decide), State.liftAt_of_not_armed h]
  | b =>
    have hview := s.liftAt_view key .a
    rw [State.liftAt_of_not_armed (by rw [hview.ringState, hview.ring]; exact h), State.liftAt_setpoint_other _ _ (by decide)]

/-- Settles O36: the lift value by the ring's state, the press value of the record served, and the rings in turn for a
record. -/
theorem targetsFollowTheStateAndAreHandedOn : Obligations.TargetsFollowTheStateAndAreHandedOn := by
  refine ⟨evalLift_facts, fun s k => ⟨fun h => h.elim State.evalPress_of_open State.evalPress_of_no_record,
    fun r hp hr => ?_⟩, fun s key => ?_⟩
  · intro t n i d v x
    have hx : x = pressValue s k r := by
      rw [pressValue, diameterAt_eq, speedUsed_eq]
      rfl
    have hfacts := evalPress_facts hp hr
    rw [hx]
    cases k <;> exact hfacts
  · exact ⟨(s.evalPressFor_works key).sameOuter, (s.evalLiftFor_works key).sameOuter,
      (s.evalPressFor_touches key).ring.resolve_left (by decide), (s.evalLiftFor_touches key).ring.resolve_left (by decide),
      (s.evalLiftFor_touches key).track.resolve_left (by decide), fun k =>
      ⟨fun hs hp r hr => State.evalPressFor_target hs hp hr, State.evalPressFor_setpoint_of_not_served,
        State.evalLiftFor_setpoint_of_armed, State.evalLiftFor_setpoint_of_not_armed⟩⟩

end Sys2Proof.Machine
end

section
/-! PROOFS. The output lists, the notices and their requests (R196, R200 to R203), the advised feed limit (R42, R43), the
season and the manual values (R183, R186, R187). -/

namespace Sys2Proof.Machine

/-! ### Output lists (R196) -/

theorem isAdvise_iff {x : OutItem} : x.isAdvise = true ↔ ∃ n, x = .advise n := by
  cases x <;> simp [OutItem.isAdvise]

theorem countP_isAdvise_eq_zero {out : List OutItem} :
    out.countP OutItem.isAdvise = 0 ↔ out.any OutItem.isAdvise = false := by
  simp [List.countP_eq_zero]

theorem placeAdvise_of_none {out : List OutItem} (h : out.countP OutItem.isAdvise = 0) (limit : Nat) :
    placeAdvise limit out = out ++ [.advise limit] := by
  rw [placeAdvise, countP_isAdvise_eq_zero.mp h]
  exact if_neg (by decide)

/-- An item with the value of a waiting ADVISE replaced. -/
def OutItem.withLimit (limit : Nat) (x : OutItem) : OutItem := if x.isAdvise then .advise limit else x

theorem placeAdvise_of_some {out : List OutItem} (h : 0 < out.countP OutItem.isAdvise) (limit : Nat) :
    placeAdvise limit out = out.map (OutItem.withLimit limit) := by
  have hany : out.any OutItem.isAdvise = true := by
    rw [← Bool.not_eq_false, ← countP_isAdvise_eq_zero]
    omega
  exact if_pos hany

theorem OutItem.withLimit_isAdvise (limit : Nat) (x : OutItem) : (x.withLimit limit).isAdvise = x.isAdvise := by
  cases x <;> rfl

theorem OutItem.withLimit_of_not {x : OutItem} (h : x.isAdvise = false) (limit : Nat) : x.withLimit limit = x := by
  rw [OutItem.withLimit, h]
  exact if_neg (by decide)

theorem map_withLimit_of_none {out : List OutItem} (h : out.countP OutItem.isAdvise = 0) (limit : Nat) :
    out.map (OutItem.withLimit limit) = out := by
  rw [List.countP_eq_zero] at h
  exact (List.map_congr_left fun x hx => OutItem.withLimit_of_not (by simpa using h x hx) limit).trans (List.map_id' out)

theorem countP_map_withLimit (limit : Nat) (out : List OutItem) :
    (out.map (OutItem.withLimit limit)).countP OutItem.isAdvise = out.countP OutItem.isAdvise := by
  rw [List.countP_map]
  exact List.countP_congr fun x _ => by rw [Function.comp_apply, OutItem.withLimit_isAdvise]

theorem count_noticeDue_map_withLimit (limit : Nat) (out : List OutItem) :
    (out.map (OutItem.withLimit limit)).count .noticeDue = out.count .noticeDue := by
  rw [List.count, List.countP_map]
  exact List.countP_congr fun x _ => by cases x <;> simp [OutItem.withLimit, OutItem.isAdvise]

theorem filter_map_withLimit (limit : Nat) (out : List OutItem) :
    (out.map (OutItem.withLimit limit)).filter (fun x => !x.isAdvise) = out.filter fun x => !x.isAdvise := by
  induction out with
  | nil => rfl
  | cons x out ih =>
    rw [List.map_cons, List.filter_cons, List.filter_cons, OutItem.withLimit_isAdvise, ih]
    cases h : x.isAdvise
    · rw [OutItem.withLimit_of_not h]
    · rfl

theorem placeDue_of_mem {out : List OutItem} (h : OutItem.noticeDue ∈ out) : placeDue out = out :=
  if_pos (List.contains_iff_mem.mpr h)

theorem placeDue_of_not_mem {out : List OutItem} (h : OutItem.noticeDue ∉ out) : placeDue out = out ++ [.noticeDue] :=
  if_neg (mt List.contains_iff_mem.mp h)

section Placed

variable {out : List OutItem} (limit : Nat)

/-- The one ADVISE of a list with one in it, replaced in its place. -/
theorem placeAdvise_split {a b : List OutItem} {old : Nat} (h : out = a ++ .advise old :: b)
    (hone : out.countP OutItem.isAdvise ≤ 1) : placeAdvise limit out = a ++ .advise limit :: b := by
  subst h
  rw [List.countP_append, List.countP_cons_of_pos rfl] at hone
  rw [placeAdvise_of_some (by rw [List.countP_append, List.countP_cons_of_pos rfl]; omega), List.map_append, List.map_cons,
    map_withLimit_of_none (by omega), map_withLimit_of_none (by omega)]
  rfl

theorem placeAdvise_counts (hone : out.countP OutItem.isAdvise ≤ 1) :
    (placeAdvise limit out).countP OutItem.isAdvise = 1 ∧
      (placeAdvise limit out).count .noticeDue = out.count .noticeDue ∧
      OutItem.advise limit ∈ placeAdvise limit out ∧
      (placeAdvise limit out).filter (fun x => !x.isAdvise) = out.filter fun x => !x.isAdvise := by
  obtain hzero | hpos := Nat.eq_zero_or_pos (out.countP OutItem.isAdvise)
  · rw [placeAdvise_of_none hzero]
    refine ⟨?_, ?_, by simp, ?_⟩
    · rw [List.countP_append, hzero]
      rfl
    · rw [List.count_append]
      rfl
    · rw [List.filter_append]
      exact List.append_nil _
  · rw [placeAdvise_of_some hpos]
    refine ⟨(countP_map_withLimit limit out).trans (by omega), count_noticeDue_map_withLimit limit out, ?_,
      filter_map_withLimit limit out⟩
    obtain ⟨x, hx, hadvise⟩ := List.countP_pos_iff.mp hpos
    exact List.mem_map.mpr ⟨x, hx, if_pos hadvise⟩

theorem placeDue_counts (hone : out.count .noticeDue ≤ 1) :
    (placeDue out).count .noticeDue = 1 ∧ (placeDue out).countP OutItem.isAdvise = out.countP OutItem.isAdvise ∧
      (placeDue out).filter (· ≠ .noticeDue) = out.filter (· ≠ .noticeDue) := by
  by_cases hmem : OutItem.noticeDue ∈ out
  · rw [placeDue_of_mem hmem]
    exact ⟨le_antisymm hone (List.count_pos_iff.mpr hmem), rfl, rfl⟩
  · rw [placeDue_of_not_mem hmem]
    refine ⟨?_, ?_, ?_⟩
    · rw [List.count_append, List.count_eq_zero_of_not_mem hmem]
      rfl
    · rw [List.countP_append]
      rfl
    · rw [List.filter_append]
      exact List.append_nil _

end Placed

/-! ### TELEGRAM_SEND_BEGIN (R196) -/

theorem exec_telegramSendBegin (p : Port) (s : State) :
    exec (.telegramSendBegin p) s = .next (s.onPort p PortState.sendBegin) := rfl

theorem PerPort.modify_congr {α : Type} (x : PerPort α) (p : Port) {f g : α → α} (h : f (x.get p) = g (x.get p)) :
    x.modify p f = x.modify p g := by
  cases p <;> simp only [PerPort.modify, PerPort.get] at h ⊢ <;> rw [h]

theorem State.onPort_congr {s : State} {p : Port} {f g : PortState → PortState} (h : f (s.ports.get p) = g (s.ports.get p)) :
    s.onPort p f = s.onPort p g := by
  rw [State.onPort, State.onPort, PerPort.modify_congr _ p h]

theorem PortState.sendBegin_cons {q : PortState} {x : OutItem} {rest : List OutItem} (h : q.out = x :: rest) :
    q.sendBegin = { q with out := rest, sending := (q.bytesOf x).getD q.sending } := by
  simp only [PortState.sendBegin, h]

theorem PortState.listing_eq (q : PortState) :
    q.listing = NoticeKind.all.filter fun k => decide (k ∈ q.status) && decide (k ∈ q.enable) := by
  simp only [PortState.listing, List.elem_eq_contains.symm, List.elem_eq_mem]

theorem State.onPort_id (s : State) (p : Port) {f : PortState → PortState} (h : f (s.ports.get p) = s.ports.get p) :
    s.onPort p f = s := by
  rw [State.onPort_congr (g := id) h]
  cases p <;> rfl

/-- Settles O54: the entries that may stand first in a list, and the counts of a list an ADVISE or a NOTICE due is placed
in. -/
theorem sendingTakesFirstEntry : Obligations.SendingTakesFirstEntry := by
  refine ⟨fun s p rest => ?_, fun out limit hadvise hdue => ?_⟩
  · rw [exec_telegramSendBegin]
    have first {x : OutItem} {g : PortState → PortState} (h : (s.ports.get p).out = x :: rest)
        (hg : { s.ports.get p with out := rest, sending := ((s.ports.get p).bytesOf x).getD (s.ports.get p).sending } =
          g (s.ports.get p)) :
        Host.Outcome.next (s.onPort p PortState.sendBegin) = (.next (s.onPort p g) : Host.Outcome State Fault Refusal) :=
      congrArg _ (State.onPort_congr ((PortState.sendBegin_cons h).trans hg))
    refine ⟨fun kind payload h => first h rfl, fun limit h => first h rfl, fun h => ?_, fun h => ?_⟩
    · intro listed
      have hlisting : (s.ports.get p).listing = listed := (s.ports.get p).listing_eq
      refine ⟨fun hsome => first h ?_, fun hnone => first h ?_⟩
      · simp only [PortState.bytesOf, hlisting, List.isEmpty_iff, hsome, if_false, Option.getD_some, noticeByte]
      · simp only [PortState.bytesOf, hlisting, hnone, List.isEmpty_nil, if_true, Option.getD_none]
    · rw [s.onPort_id p (by simp only [PortState.sendBegin, h])]
  · obtain ⟨ha, hn, hmem, hothers⟩ := placeAdvise_counts limit hadvise
    obtain ⟨hd, hkept, hrest⟩ := placeDue_counts hdue
    exact ⟨ha, hn.trans_le hdue, hd, hkept.trans_le hadvise, hmem, fun a b old h => placeAdvise_split limit h hadvise,
      fun hnone => placeAdvise_of_none hnone limit, placeDue_of_mem, placeDue_of_not_mem, hothers, hrest⟩

/-! ### Notices (R200) -/

theorem NoticeKind.mem_all (k : NoticeKind) : k ∈ NoticeKind.all := by cases k <;> decide

theorem mem_addKind {x k : NoticeKind} {set : List NoticeKind} : x ∈ addKind k set ↔ x = k ∨ x ∈ set := by
  simp [addKind, NoticeKind.mem_all]

theorem mem_kindSet {k : NoticeKind} {kinds : List NoticeKind} : k ∈ kindSet kinds ↔ k ∈ kinds := by
  simp [kindSet, NoticeKind.mem_all]

theorem PortState.raise_of_mem {q : PortState} {k : NoticeKind} (h : k ∈ q.status) : q.raise k = q :=
  if_pos (List.contains_iff_mem.mpr h)

theorem PortState.raise_of_not_mem {q : PortState} {k : NoticeKind} (h : k ∉ q.status) :
    q.raise k = { q with status := addKind k q.status, out := if k ∈ q.enable then placeDue q.out else q.out } := by
  rw [PortState.raise, if_neg (mt List.contains_iff_mem.mp h)]
  simp only [List.contains_iff_mem]

theorem State.notice_port (s : State) (k : NoticeKind) (p : Port) : (s.notice k).ports.get p = (s.ports.get p).raise k :=
  PerPort.get_map _ _ _

theorem notices_port (kinds : List NoticeKind) (p : Port) : ∀ s : State,
    (kinds.foldl State.notice s).ports.get p = kinds.foldl PortState.raise (s.ports.get p) := by
  induction kinds with
  | nil => exact fun _ => rfl
  | cons k kinds ih =>
    intro s
    rw [List.foldl_cons, List.foldl_cons, ih, State.notice_port]

/-! ### The requests about notices (R201 to R203) -/

theorem noticeEnableEffect_of_some {s : State} {r : Req} {q : Port} {kinds : List NoticeKind}
    (hq : Port.ofCode (u8 r.payload 0) = some q) (hk : kindsOf (codesAt r.payload 2 (u8 r.payload 1)) = some kinds) :
    noticeEnableEffect r s = ⟨s.onPort q fun x => { x with enable := kindSet kinds }, .ok, []⟩ := by
  simp only [noticeEnableEffect, hq, hk]

theorem noticeEnableEffect_of_none {s : State} {r : Req}
    (h : Port.ofCode (u8 r.payload 0) = none ∨ kindsOf (codesAt r.payload 2 (u8 r.payload 1)) = none) :
    noticeEnableEffect r s = ⟨s, .badValue, []⟩ := by
  unfold noticeEnableEffect
  split
  · next hq hk => simp [hq, hk] at h
  · rfl

theorem noticeRaiseEffect_of_some {s : State} {r : Req} {q : Port} {kinds : List NoticeKind}
    (hq : Port.ofCode (u8 r.payload 0) = some q) (hk : kindsOf (codesAt r.payload 2 (u8 r.payload 1)) = some kinds) :
    noticeRaiseEffect r s = ⟨s.onPort q fun x => kinds.foldl PortState.raise x, .ok, []⟩ := by
  simp only [noticeRaiseEffect, hq, hk]

theorem noticeRaiseEffect_of_none {s : State} {r : Req}
    (h : Port.ofCode (u8 r.payload 0) = none ∨ kindsOf (codesAt r.payload 2 (u8 r.payload 1)) = none) :
    noticeRaiseEffect r s = ⟨s, .badValue, []⟩ := by
  unfold noticeRaiseEffect
  split
  · next hq hk => simp [hq, hk] at h
  · rfl

theorem noticeClearEffect_of_some {s : State} {p : Port} {r : Req} {kinds : List NoticeKind}
    (hk : kindsOf (codesAt r.payload 1 (u8 r.payload 0)) = some kinds) :
    noticeClearEffect p r s =
      ⟨s.onPort p fun x => { x with status := x.status.filter fun k => !kinds.contains k }, .ok, []⟩ := by
  simp only [noticeClearEffect, hk]

theorem noticeClearEffect_of_none {s : State} {p : Port} {r : Req}
    (hk : kindsOf (codesAt r.payload 1 (u8 r.payload 0)) = none) : noticeClearEffect p r s = ⟨s, .badValue, []⟩ := by
  simp only [noticeClearEffect, hk]

/-- Settles O59: what a raised kind does at a port, and the effects of the three requests. -/
theorem noticesJoinTheStatusSets : Obligations.NoticesJoinTheStatusSets := by
  refine ⟨fun s k p => ?_, fun s p r rest htakes => ?_, fun s p r rest htakes => ?_, fun s p r rest htakes => ?_⟩
  · intro q q'
    have hq' : q' = q.raise k := s.notice_port k p
    refine ⟨fun h => hq'.trans (PortState.raise_of_mem h), fun h => ?_⟩
    rw [hq', PortState.raise_of_not_mem h]
    exact ⟨fun x => mem_addKind, rfl, rfl, rfl, rfl, rfl⟩
  · rw [exec_serve_of_takes (effect := noticeEnableEffect) rfl htakes]
    refine ⟨fun q kinds hq hk => ⟨kindSet kinds, fun k => mem_kindSet, ?_, ?_⟩, fun h => ?_⟩
    · exact List.Nodup.filter _ (by decide)
    · rw [noticeEnableEffect_of_some hq hk]
    · rw [noticeEnableEffect_of_none h]
  · rw [exec_serve_of_takes (effect := noticeClearEffect p) rfl htakes]
    refine ⟨fun kinds hk => ⟨(s.ports.get p).status.filter fun k => !kinds.contains k, fun k => by simp, ?_⟩, fun h => ?_⟩
    · rw [noticeClearEffect_of_some hk]
      exact congrArg (fun u : State => Host.Outcome.next (u.answer p r .ok [])) (State.onPort_congr rfl)
    · rw [noticeClearEffect_of_none h]
  · rw [exec_serve_of_takes (effect := noticeRaiseEffect) rfl htakes]
    refine ⟨fun q kinds hq hk => ?_, fun h => by rw [noticeRaiseEffect_of_none h]⟩
    rw [noticeRaiseEffect_of_some hq hk]
    refine ⟨_, rfl, ⟨_, State.onPort_congr rfl⟩, ?_⟩
    rw [notices_port]
    exact PerPort.get_modify_self _ _ _

/-! ### The advised feed limit (R42, R43) -/

theorem minFeed_cons_cons (x y : Nat) (rest : List Nat) : minFeed (x :: y :: rest) = min x (minFeed (y :: rest)) := rfl

theorem minFeed_le {l : List Nat} : ∀ {x : Nat}, x ∈ l → minFeed l ≤ x := by
  induction l with
  | nil => exact fun h => absurd h List.not_mem_nil
  | cons y l ih =>
    intro x hx
    cases l with
    | nil =>
      rw [List.mem_singleton.mp hx]
      exact le_rfl
    | cons z l =>
      rw [minFeed_cons_cons]
      obtain rfl | hx := List.mem_cons.mp hx
      · exact Nat.min_le_left _ _
      · exact (Nat.min_le_right _ _).trans (ih hx)

theorem minFeed_mem {l : List Nat} (h : l ≠ []) : minFeed l ∈ l := by
  induction l with
  | nil => exact absurd rfl h
  | cons y l ih =>
    cases l with
    | nil => exact List.mem_singleton.mpr rfl
    | cons z l =>
      rw [minFeed_cons_cons]
      obtain hmin | hmin := min_choice y (minFeed (z :: l)) <;> rw [hmin]
      · exact List.mem_cons_self
      · exact List.mem_cons_of_mem _ (ih (List.cons_ne_nil _ _))

theorem Bound.feed_eq (b : Bound) : b.feed = (match b.fallback with
    | none => if b.frozen then roundDivNat (b.species.maxFeed * b.species.frozenFeedPct) 100 else b.species.maxFeed
    | some f => if b.frozen then
        min (roundDivNat (b.species.maxFeed * b.species.frozenFeedPct) 100) (roundDivNat (f.maxFeed * f.frozenFeedPct) 100)
      else min b.species.maxFeed f.maxFeed) := by
  obtain ⟨species, fallback, frozen⟩ := b
  cases fallback <;> cases frozen <;> rfl

theorem State.advise_of_eq {s : State} (h : s.advisedLimit = s.lastAdvise) : s.advise = s := if_pos h

theorem State.advise_of_ne {s : State} (h : s.advisedLimit ≠ s.lastAdvise) :
    s.advise = ({ s with lastAdvise := s.advisedLimit } : State).onPort .line fun q =>
      { q with out := placeAdvise s.advisedLimit q.out } := if_neg h

/-- Settles O21: the least of a list that is not empty is in it, and the advisory's two cases. -/
theorem advisedLimitIsTheLeastValue : Obligations.AdvisedLimitIsTheLeastValue := by
  refine ⟨fun s => ?_, fun s => ⟨State.advise_of_eq, State.advise_of_ne⟩⟩
  intro group
  have hlimit : s.advisedLimit = minFeed (group.map fun r => (s.recipeOf r).feed) := rfl
  refine ⟨fun h => by rw [hlimit, h]; rfl, fun r hr => ?_, fun h => ?_, Bound.feed_eq⟩
  · rw [hlimit]
    exact minFeed_le (List.mem_map_of_mem hr)
  · obtain ⟨r, hr, heq⟩ := List.mem_map.mp (minFeed_mem (l := group.map fun r => (s.recipeOf r).feed) (by simpa using h))
    exact ⟨r, hr, hlimit.trans heq.symm⟩

/-! ### The season and the manual values (R183, R186, R187) -/

theorem State.setSeason_of_eq {s : State} {x : Season} (h : s.control.season = x) : s.setSeason x = s := if_pos h

theorem State.setSeason_of_ne {s : State} {x : Season} (h : s.control.season ≠ x) :
    s.setSeason x = ({ s with control := { s.control with season := x } } : State).advise := if_neg h

theorem exec_season_of_takes {s : State} {p : Port} {r : Req} {rest : List Req} {x : Season} {c : Instr} {k : Kind}
    (harm : exec c s = .next (s.serve p k (ofKind k) (seasonEffect x))) (h : s.takes p k r rest) :
    exec c s = .next ((s.setSeason x).answer p r .ok []) := exec_serve_of_takes harm h

theorem season_facts {s : State} {p : Port} {r : Req} {x : Season} {c : Instr}
    (h : exec c s = .next ((s.setSeason x).answer p r .ok [])) :
    (s.control.season = x → exec c s = .next (s.answer p r .ok [])) ∧
      (s.control.season ≠ x →
        let u : State := { s with control := { s.control with season := x } }
        (u.advisedLimit = s.lastAdvise → exec c s = .next (u.answer p r .ok [])) ∧
        (u.advisedLimit ≠ s.lastAdvise →
          exec c s = .next ((({ u with lastAdvise := u.advisedLimit } : State).onPort .line fun q =>
            { q with out := placeAdvise u.advisedLimit q.out }).answer p r .ok []))) := by
  rw [h]
  refine ⟨fun hx => by rw [State.setSeason_of_eq hx], fun hx => ?_⟩
  intro u
  rw [State.setSeason_of_ne hx]
  refine ⟨fun heq => ?_, fun hne => ?_⟩
  · rw [State.advise_of_eq (s := u) heq]
  · rw [State.advise_of_ne (s := u) hne]

theorem pressManual_eq (pts : Points) (value : Nat) :
    (pressManual pts value).1 = (heldWithin (min pts.floor pts.ceiling) pts.ceiling value).toNat := by
  unfold pressManual stageClamp heldWithin
  split_ifs <;> simp <;> omega

theorem manualSetEffect_of_none {s : State} {r : Req} (h : Ring.ofCode (u8 r.payload 0) = none) :
    manualSetEffect r s = ⟨s, .badValue, []⟩ := by
  simp only [manualSetEffect, h]

theorem manualSetEffect_of_ne_manual {s : State} {r : Req} {k : Ring} (h : Ring.ofCode (u8 r.payload 0) = some k)
    (hm : s.control.mode ≠ .manual) :
    manualSetEffect r s = ⟨s.storeManual k (u16 r.payload 1) (u16 r.payload 3), .staged, []⟩ := by
  simp only [manualSetEffect, h, if_neg hm]

theorem manualSetEffect_of_manual {s : State} {r : Req} {k : Ring} (h : Ring.ofCode (u8 r.payload 0) = some k)
    (hm : s.control.mode = .manual) :
    manualSetEffect r s = ⟨((s.storeManual k (u16 r.payload 1) (u16 r.payload 3)).evalPress k).evalLift k,
      if s.points.ceiling < u16 r.payload 1 ∨ s.points.ceiling < u16 r.payload 3 then .clamped else .ok, []⟩ := by
  simp only [manualSetEffect, h, if_pos hm]

theorem Ring.ofCode_of_two_le {n : Nat} (h : 2 ≤ n) : Ring.ofCode n = none := by
  match n, h with
  | _ + 2, _ => rfl

/-- The targets of a ring in MANUAL after its values are stored. -/
theorem storeManual_targets {s : State} {k : Ring} (hm : s.control.mode = .manual) (press lift : Nat) :
    let u := s.storeManual k press lift
    let t := (u.evalPress k).evalLift k
    (s.ringState k = .armed → (t.setpoint.get k).liftTarget = min lift s.points.ceiling ∧
      (t.valve.chans.get (channelOf k .lift)).target = min lift s.points.ceiling) ∧
    ∀ x, s.servedRec k = some x → (s.ringState k).pressing = true →
      (t.setpoint.get k).pressTarget =
        (heldWithin (min s.points.floor s.points.ceiling) s.points.ceiling (min press s.points.ceiling : Nat)).toNat := by
  intro u t
  refine ⟨fun hs => ?_, fun x hx hp => ?_⟩
  · have hopen : (u.ringState k).pressing = false := by
      show (s.ringState k).pressing = false
      rw [hs]
      rfl
    have hvalue : liftValue u k = min lift s.points.ceiling := by
      have hstate : u.ringState k = .armed := hs
      have hmode : u.control.mode = .manual := hm
      rw [liftValue, hstate]
      simp only [hmode, if_true]
      exact PerRing.get_modify_self _ _ _
    have ht : t = u.evalLift k := by
      show (u.evalPress k).evalLift k = _
      rw [State.evalPress_of_open hopen]
    rw [ht, State.evalLift_target, State.evalLift_handed hopen, hvalue]
    exact ⟨by rw [show u.points = s.points from rfl, min_assoc, min_self],
      by rw [show u.points = s.points from rfl, min_assoc, min_self]⟩
  · have hserved : u.servedRec k = some x := hx
    have hpress : (u.ringState k).pressing = true := hp
    have hmode : u.control.mode = .manual := hm
    rw [State.evalLift_pressTarget, State.evalPress_target hpress hserved, pressValue, if_pos hmode, pressManual_eq]
    show (heldWithin _ _ ((s.control.manualPress.modify k fun _ => min press s.points.ceiling).get k : Nat)).toNat = _
    rw [PerRing.get_modify_self]
    rfl

/-- Settles O50: the season's two cases, and the manual values stored and, in MANUAL, evaluated. -/
theorem seasonAndManualValuesAreStored : Obligations.SeasonAndManualValuesAreStored := by
  refine ⟨fun s p r rest x => ?_, fun s p r rest htakes => ?_⟩
  · cases x with
    | winter => exact fun htakes => season_facts (exec_season_of_takes (x := .winter) rfl htakes)
    | summer => exact fun htakes => season_facts (exec_season_of_takes (x := .summer) rfl htakes)
  · rw [exec_serve_of_takes (effect := manualSetEffect) rfl htakes]
    refine ⟨fun h => by rw [manualSetEffect_of_none (Ring.ofCode_of_two_le h)], fun k hk => ?_⟩
    intro press lift u
    refine ⟨fun hm => by rw [manualSetEffect_of_ne_manual hk hm]; rfl, fun hm => ?_⟩
    rw [manualSetEffect_of_manual hk hm]
    refine ⟨(u.evalPress k).evalLift k, ?_, ?_⟩
    · have hheld : (s.points.ceiling < u16 r.payload 1 ∨ s.points.ceiling < u16 r.payload 3) ↔
          ¬(press = u16 r.payload 1 ∧ lift = u16 r.payload 3) := by
        simp only [press, lift, min_eq_left_iff]
        omega
      simp only [hheld, ite_not]
      rfl
    · have hworks := (u.evalPress_works k).trans ((u.evalPress k).evalLift_works k)
      have htouches : Touches [.setpoint, .track, .valve, .freeCount] u ((u.evalPress k).evalLift k) :=
        ((u.evalPress_touches k).mono (by decide)).trans ((State.evalLift_touches _ k).mono (by decide))
      obtain ⟨harmed, hpress⟩ := storeManual_targets (k := k) hm (u16 r.payload 1) (u16 r.payload 3)
      exact ⟨hworks.sameOuter, htouches.ring.resolve_left (by decide), hworks.release,
        htouches.recipes.resolve_left (by decide), htouches.marks.resolve_left (by decide), harmed, hpress⟩

end Sys2Proof.Machine
end

section
/-! PROOFS. Both rings evaluated, the speed measured (R7), the order of one cause's crossings (R10), and spans kept apart
(R18, R19). -/

namespace Sys2Proof.Machine

/-! ### Both rings evaluated -/

theorem State.evalPress_command (s : State) (k : Ring) (c : Channel) :
    ((s.evalPress k).valve.chans.get c).command = (s.valve.chans.get c).command := by
  cases hr : s.servedRec k with
  | none => rw [State.evalPress_of_no_record hr]
  | some r =>
    cases hp : (s.ringState k).pressing
    · rw [State.evalPress_of_open hp]
    · rw [State.evalPress_of_serving hp hr, State.intent_command]
      rfl

theorem State.evalLift_command (s : State) (k : Ring) (c : Channel) :
    ((s.evalLift k).valve.chans.get c).command = (s.valve.chans.get c).command := by
  cases hp : (s.ringState k).pressing
  · rw [State.evalLift_of_open hp, State.intent_command]
    rfl
  · rw [State.evalLift_valve_of_pressing hp]

theorem State.evalPresses_command (s : State) (c : Channel) :
    (s.evalPresses.valve.chans.get c).command = (s.valve.chans.get c).command := by
  rw [State.evalPresses, State.evalPress_command, State.evalPress_command]

/-- A pressing ring's target after both rings' evaluations is that of its record as the state stood before. -/
theorem State.evalPresses_target {s : State} {k : Ring} {r : Rec} (hp : (s.ringState k).pressing = true)
    (hr : s.servedRec k = some r) :
    (s.evalPresses.setpoint.get k).pressTarget = (pressValue s k r).1 ∧
      (s.evalPresses.valve.chans.get (channelOf k .press)).target = (pressValue s k r).1 := by
  unfold State.evalPresses
  cases k with
  | a =>
    rw [State.evalPress_setpoint_other _ (by decide), State.evalPress_target_other _ (by decide)]
    exact ⟨State.evalPress_target hp hr, State.evalPress_handed hp hr⟩
  | b =>
    have hview := s.evalPress_view .a
    obtain ⟨q, hq, hbare⟩ := hview.servedRec_of hr
    have hp' : ((s.evalPress .a).ringState .b).pressing = true := by rw [hview.ringState, hp]
    rw [State.evalPress_target hp' hq, State.evalPress_handed hp' hq, hview.pressValue_of_bare .b hbare]
    exact ⟨rfl, rfl⟩

/-- What a SPEED_UPDATE and a placing of records read of a record: all but its flags, its peaks and its binder. -/
theorem map_of_bare {α : Type} {f : Rec → α} (hf : ∀ r, f r = f r.bare) {s t : State} (h : SameView s t) :
    t.track.map f = s.track.map f := by
  have hbare : ∀ l : List Rec, l.map f = (l.map Rec.bare).map f := by
    intro l
    rw [List.map_map]
    exact List.map_congr_left fun r _ => hf r
  rw [hbare t.track, h.track, ← hbare]

theorem State.advise_lastAdvise (s : State) : s.advise.lastAdvise = s.advise.advisedLimit := by
  by_cases h : s.advisedLimit = s.lastAdvise
  · rw [State.advise_of_eq h, h]
  · rw [State.advise_of_ne h]
    rfl

/-- Settles O14: the measurement, both evaluations at it, and the advisory. -/
theorem speedUpdateMeasuresTheFeed : Obligations.SpeedUpdateMeasuresTheFeed := by
  intro s
  generalize hm : ({ s with feed := { s.feed with
    speed := measuredSpeed s.feed, kept := s.feed.pos } } : State) = m
  have hspeed : m = { s with feed := { s.feed with
      speed := heldWithin (-2500) 2500 (posDiff s.feed.pos s.feed.kept * 20), kept := s.feed.pos } } := hm.symm
  have hworks := m.evalPresses_works.trans (State.advise_works _)
  have htouches : Touches [.setpoint, .track, .valve, .ports, .lastAdvise] m m.evalPresses.advise :=
    (m.evalPresses_touches.mono (by decide)).trans ((State.advise_touches _).mono (by decide))
  have htrack : m.evalPresses.advise.track = m.evalPresses.track :=
    (State.advise_touches _).track.resolve_left (by decide)
  have hvalve : m.evalPresses.advise.valve = m.evalPresses.valve :=
    (State.advise_touches _).valve.resolve_left (by decide)
  have hsetpoint : m.evalPresses.advise.setpoint = m.evalPresses.setpoint :=
    (State.advise_touches _).setpoint.resolve_left (by decide)
  refine ⟨m.evalPresses.advise, by rw [← hm]; rfl, hspeed ▸ hworks.sameOuter, ?_, ?_, ?_, ?_, ?_, ?_, ?_, ?_, ?_,
    State.advise_lastAdvise _, ?_⟩
  · rw [htouches.ring.resolve_left (by decide), ← hm]
  · rw [hworks.release, ← hm]
  · rw [htouches.recipes.resolve_left (by decide), ← hm]
  · rw [htouches.marks.resolve_left (by decide), ← hm]
  · rw [htouches.permit.resolve_left (by decide), ← hm]
  · rw [htouches.cells.resolve_left (by decide), ← hm]
  · rw [htouches.openStray.resolve_left (by decide), ← hm]
  · rw [htrack, map_of_bare (fun _ => rfl) m.evalPresses_view, ← hm]
  · intro c
    rw [hvalve, State.evalPresses_command, ← hm]
  · intro u k r hr hp
    have hu : u = m := by
      show ({ s with feed := m.evalPresses.advise.feed } : State) = m
      rw [hworks.sameOuter.feed, ← hm]
    have hr' : m.servedRec k = some r := by rw [← hm]; exact hr
    have hp' : (m.ringState k).pressing = true := by rw [← hm]; exact hp
    rw [hsetpoint, hu, (State.evalPresses_target hp' hr').1]

/-! ### Sorting with equals in their order -/

theorem mem_insertBy {f : Crossing → Int} {x y : Crossing} {l : List Crossing} :
    y ∈ insertBy f x l ↔ y = x ∨ y ∈ l := by
  induction l with
  | nil => simp [insertBy]
  | cons z l ih =>
    unfold insertBy
    split
    · simp
    · simp only [List.mem_cons, ih]
      tauto

theorem mem_sortBy {f : Crossing → Int} {x : Crossing} {l : List Crossing} : x ∈ sortBy f l ↔ x ∈ l := by
  induction l with
  | nil => rfl
  | cons y l ih =>
    show x ∈ insertBy f y (sortBy f l) ↔ _
    rw [mem_insertBy, ih, List.mem_cons]

/-- In order of a key, and where the keys are equal in the order of a relation. -/
def Ordered (f : Crossing → Int) (R : Crossing → Crossing → Prop) (x y : Crossing) : Prop :=
  f x ≤ f y ∧ (f x < f y ∨ R x y)

section Sorting

variable {f : Crossing → Int} {R : Crossing → Crossing → Prop}

theorem insertBy_ordered {x : Crossing} {l : List Crossing} (hx : ∀ y ∈ l, R x y) (hl : l.Pairwise (Ordered f R)) :
    (insertBy f x l).Pairwise (Ordered f R) := by
  induction l with
  | nil => exact List.pairwise_singleton _ _
  | cons y l ih =>
    obtain ⟨hy, hrest⟩ := List.pairwise_cons.mp hl
    unfold insertBy
    split
    · next hle =>
      refine List.pairwise_cons.mpr ⟨fun z hz => ⟨?_, .inr (hx z hz)⟩, hl⟩
      obtain rfl | hz := List.mem_cons.mp hz
      · exact hle
      · exact hle.trans (hy z hz).1
    · next hlt =>
      refine List.pairwise_cons.mpr ⟨fun z hz => ?_, ih (fun z hz => hx z (List.mem_cons_of_mem _ hz)) hrest⟩
      obtain rfl | hz := mem_insertBy.mp hz
      · exact ⟨(not_le.mp hlt).le, .inl (not_le.mp hlt)⟩
      · exact hy z hz

theorem sortBy_ordered {l : List Crossing} (h : l.Pairwise R) : (sortBy f l).Pairwise (Ordered f R) := by
  induction l with
  | nil => exact List.Pairwise.nil
  | cons x l ih =>
    obtain ⟨hx, hl⟩ := List.pairwise_cons.mp h
    exact insertBy_ordered (fun y hy => hx y (mem_sortBy.mp hy)) (ih hl)

end Sorting

/-! ### The crossings of one cause (R8, R10) -/

theorem crossing?_eq_some {before now : State} {r : Rec} {id : EventId} {x : Crossing} :
    crossing? before now r id = some x ↔ x.id = id ∧ x.key = r.key ∧
      ∃ t, threshold now.points r id = some t ∧ x.at_ = t - frontDist now r ∧
        (now.feed.dir = .fwd → id.forward = true ∧ below before (before.rec? r.key) id = true ∧ t ≤ frontDist now r) ∧
        (now.feed.dir = .rev → id.reverse = true ∧ below before (before.rec? r.key) id = false ∧ frontDist now r < t) := by
  unfold crossing?
  cases threshold now.points r id with
  | none => simp
  | some t =>
    obtain ⟨key, eid, at_⟩ := x
    cases now.feed.dir <;>
      simp only [Option.ite_none_right_eq_some, Bool.and_eq_true, Bool.not_eq_true', decide_eq_false_iff_not, not_lt,
        decide_eq_true_eq, Option.some.injEq, Crossing.mk.injEq, reduceCtorEq, false_imp_iff, true_imp_iff, and_true,
        true_and, exists_eq_left'] <;>
      constructor
    · rintro ⟨⟨⟨hf, hb⟩, ht⟩, rfl, rfl, rfl⟩
      exact ⟨rfl, rfl, rfl, hf, hb, ht⟩
    · rintro ⟨rfl, rfl, rfl, hf, hb, ht⟩
      exact ⟨⟨⟨hf, hb⟩, ht⟩, rfl, rfl, rfl⟩
    · rintro ⟨⟨⟨hf, hb⟩, ht⟩, rfl, rfl, rfl⟩
      exact ⟨rfl, rfl, rfl, hf, hb, ht⟩
    · rintro ⟨rfl, rfl, rfl, hf, hb, ht⟩
      exact ⟨⟨⟨hf, hb⟩, ht⟩, rfl, rfl, rfl⟩

/-- The crossings of one cause before they are ordered: record by record, each in the order of R8's table. -/
def crossingList (before now : State) : List Crossing := now.track.flatMap fun r => crossingsOf before now (eventIds r) r

theorem crossings_of_fwd {before now : State} (h : now.feed.dir = .fwd) :
    crossings before now = sortBy Crossing.at_ (crossingList before now) := by
  simp only [crossings, h, crossingList]

theorem crossings_of_rev {before now : State} (h : now.feed.dir = .rev) :
    crossings before now = sortBy (fun c => -c.at_) (crossingList before now).reverse := by
  simp only [crossings, h, crossingList]

theorem mem_crossings {before now : State} {x : Crossing} :
    x ∈ crossings before now ↔ ∃ r ∈ now.track, ∃ id ∈ eventIds r, crossing? before now r id = some x := by
  have hlist : x ∈ crossingList before now ↔ ∃ r ∈ now.track, ∃ id ∈ eventIds r, crossing? before now r id = some x := by
    simp only [crossingList, crossingsOf, List.mem_flatMap, List.mem_filterMap]
  cases h : now.feed.dir
  · rw [crossings_of_fwd h, mem_sortBy, hlist]
  · rw [crossings_of_rev h, mem_sortBy, List.mem_reverse, hlist]

/-- The rows of R8's table rise along a record's events. -/
theorem eventIds_rows (r : Rec) : (eventIds r).Pairwise fun x y => x.row ≤ y.row := by
  have hsample : ∀ k n, ∀ x ∈ sampleIds k n, x.row = 6 := by
    intro k n x hx
    obtain ⟨j, _, rfl⟩ := List.mem_map.mp hx
    rfl
  have hsorted : ∀ k n, (sampleIds k n).Pairwise fun x y => x.row ≤ y.row := fun k n =>
    List.pairwise_of_forall_mem_list fun x hx y hy => by rw [hsample k n x hx, hsample k n y hy]
  simp only [eventIds, List.pairwise_append, hsorted, true_and]
  refine ⟨⟨⟨by decide, fun x hx y hy => ?_⟩, fun x hx y hy => ?_⟩, by decide, fun x hx y hy => ?_⟩
  · rw [hsample _ _ y hy]
    revert x
    decide
  · rw [hsample _ _ y hy]
    obtain hfixed | hs := List.mem_append.mp hx
    · clear hx
      revert x
      decide
    · rw [hsample _ _ x hs]
  · have hy' : 7 ≤ y.row := by
      revert y
      decide
    obtain hfront | hs := List.mem_append.mp hx
    · obtain hfixed | hs := List.mem_append.mp hfront
      · have hx' : x.row ≤ 5 := by
          clear hx hfront
          revert x
          decide
        omega
      · rw [hsample _ _ x hs]
        omega
    · rw [hsample _ _ x hs]
      omega

theorem rank_getElem {l : List Rec} (h : (l.map Rec.key).Nodup) {i : Nat} (hi : i < l.length) :
    l.findIdx (fun r => r.key == l[i].key) = i := by
  rw [List.findIdx_eq hi]
  refine ⟨by simp, fun j hj => ?_⟩
  have hne : l[j].key ≠ l[i].key := by
    intro heq
    have hlen : ∀ n, n < l.length → n < (l.map Rec.key).length := fun n hn => by simpa using hn
    have hsame := (h.getElem_inj_iff (hi := hlen j (by omega)) (hj := hlen i hi)).mp (by simpa using heq)
    omega
  simpa using hne

theorem crossingList_first {before now : State} (h : (now.track.map Rec.key).Nodup) :
    let rank := fun x : Crossing => now.track.findIdx fun r => r.key == x.key
    (crossingList before now).Pairwise fun x y => rank x < rank y ∨ (x.key = y.key ∧ x.id.row ≤ y.id.row) := by
  intro rank
  have hof : ∀ r x, x ∈ crossingsOf before now (eventIds r) r → x.key = r.key := by
    intro r x hx
    obtain ⟨id, _, hid⟩ := List.mem_filterMap.mp hx
    exact (crossing?_eq_some.mp hid).2.1
  refine List.pairwise_flatMap.mpr ⟨fun r _ => ?_, ?_⟩
  · refine List.pairwise_filterMap.mpr ((eventIds_rows r).imp fun {id id'} hrow x hx y hy => .inr ?_)
    obtain ⟨hxid, hxkey, _⟩ := crossing?_eq_some.mp hx
    obtain ⟨hyid, hykey, _⟩ := crossing?_eq_some.mp hy
    exact ⟨hxkey.trans hykey.symm, by rw [hxid, hyid]; exact hrow⟩
  · refine List.pairwise_iff_getElem.mpr fun i j hi hj hij x hx y hy => .inl ?_
    show List.findIdx _ _ < List.findIdx _ _
    rw [hof _ x hx, hof _ y hy, rank_getElem h hi, rank_getElem h hj]
    exact hij

/-- Settles O15: the list of a cause's crossings is ordered by record and row, and the sort keeps that order among
equals. -/
theorem crossingsFallInFeedOrder : Obligations.CrossingsFallInFeedOrder := by
  intro before now
  have hall : ∀ l : List Crossing, l.Pairwise fun _ _ => True := fun _ => List.pairwise_of_forall fun _ _ => trivial
  refine ⟨fun h => ?_, fun h => ?_, fun x => ?_, fun hnodup => ?_⟩
  · rw [crossings_of_fwd h]
    exact (sortBy_ordered (hall _)).imp fun hxy => hxy.1
  · rw [crossings_of_rev h]
    exact (sortBy_ordered (hall _)).imp fun hxy => neg_le_neg_iff.mp hxy.1
  · rw [mem_crossings]
    constructor
    · rintro ⟨r, hr, id, hid, hx⟩
      obtain ⟨rfl, hkey, hrest⟩ := crossing?_eq_some.mp hx
      exact ⟨r, hr, hid, hkey, hrest⟩
    · rintro ⟨r, hr, hid, hkey, hrest⟩
      exact ⟨r, hr, x.id, hid, crossing?_eq_some.mpr ⟨rfl, hkey, hrest⟩⟩
  · intro rank first
    have hfirst := crossingList_first (before := before) hnodup
    refine ⟨fun h => ?_, fun h => ?_⟩
    · rw [crossings_of_fwd h]
      exact (sortBy_ordered hfirst).imp fun hxy => hxy.2
    · rw [crossings_of_rev h]
      exact (sortBy_ordered (List.pairwise_reverse.mpr hfirst)).imp fun hxy => hxy.2.imp_left neg_lt_neg_iff.mp

/-! ### Spans kept apart (R18, R19) -/

/-- A record raised to the end of the span ahead, where it lies before it (R18). -/
def Rec.raised (r : Rec) (endAhead : Pos) : Rec :=
  if posDiff r.b0 endAhead < 0 then { r.flag [.overlapClamped] with b0 := endAhead } else r

theorem clampBehind_cons (pts : Points) (pos endAhead : Pos) (r : Rec) (rest : List Rec) :
    clampBehind pts pos endAhead (r :: rest) =
      r.raised endAhead :: clampBehind pts pos (spanEnd pts pos (r.raised endAhead)) rest := rfl

theorem Rec.raised_not_before (r : Rec) (endAhead : Pos) : 0 ≤ posDiff (r.raised endAhead).b0 endAhead := by
  unfold Rec.raised
  split
  · rw [posDiff_self]
  · next h => exact not_lt.mp h

/-- Behind a record each is the one of the track raised to the end of the span ahead of it. -/
theorem clampBehind_getElem? (pts : Points) (pos : Pos) (rest : List Rec) : ∀ (a0 : Rec) (i : Nat) (a b : Rec),
    (a0 :: clampBehind pts pos (spanEnd pts pos a0) rest)[i]? = some a → rest[i]? = some b →
    (clampBehind pts pos (spanEnd pts pos a0) rest)[i]? = some (b.raised (spanEnd pts pos a)) := by
  induction rest with
  | nil => exact fun _ _ _ _ _ h => by simp at h
  | cons r rest ih =>
    intro a0 i a b ha hb
    rw [clampBehind_cons]
    cases i with
    | zero =>
      obtain rfl : a0 = a := by simpa using ha
      obtain rfl : r = b := by simpa using hb
      rfl
    | succ i => exact ih _ i a b (by simpa [clampBehind_cons] using ha) (by simpa using hb)

theorem clampSpans_getElem? {pts : Points} {pos : Pos} {l : List Rec} {i : Nat} {a b : Rec}
    (ha : (clampSpans pts pos l)[i]? = some a) (hb : l[i + 1]? = some b) :
    (clampSpans pts pos l)[i + 1]? = some (b.raised (spanEnd pts pos a)) := by
  cases l with
  | nil => simp at hb
  | cons r rest => exact clampBehind_getElem? pts pos rest r i a b ha (by simpa using hb)

theorem length_clampSpans (pts : Points) (pos : Pos) (l : List Rec) : (clampSpans pts pos l).length = l.length :=
  length_of_names (clampSpans_names pts pos l)

theorem pushBehindStray_of_closed (pts : Points) (pos : Pos) {l : List Rec} (h : ∀ r ∈ l, r.length ≠ none) :
    pushBehindStray pts pos l = l := by
  induction l with
  | nil => rfl
  | cons r l ih =>
    obtain ⟨hr, hl⟩ := List.forall_mem_cons.mp h
    rw [pushBehindStray, if_neg (by simpa using hr), ih hl]

theorem pushBehindStray_of_open (pts : Points) (pos : Pos) {a b : List Rec} {r : Rec} (ha : ∀ x ∈ a, x.length ≠ none)
    (hr : r.length = none) : pushBehindStray pts pos (a ++ r :: b) = a ++ clampSpans pts pos (r :: b) := by
  induction a with
  | nil => exact if_pos (by simp [hr])
  | cons x a ih =>
    obtain ⟨hx, ha⟩ := List.forall_mem_cons.mp ha
    rw [List.cons_append, pushBehindStray, if_neg (by simpa using hx), ih ha, List.cons_append]

/-- Settles O16: behind the first record each is raised to the end of the span ahead as it then lies. -/
theorem overlapsAreClampedUpstream : Obligations.OverlapsAreClampedUpstream := by
  refine ⟨fun pts pos l => ?_, fun pts pos r => ⟨fun len h => by simp only [spanEnd, h], fun h => ?_⟩,
    fun pts pos l => pushBehindStray_of_closed pts pos, fun pts pos a b r => pushBehindStray_of_open pts pos⟩
  · intro l'
    have hlen : l'.length = l.length := length_clampSpans pts pos l
    refine ⟨hlen, by cases l <;> rfl, fun i a b ha hb => ?_, fun i a b c ha hb hc => ?_⟩
    · have hi : i + 1 < l.length := hlen ▸ (List.getElem?_eq_some_iff.mp hb).1
      have hraised := clampSpans_getElem? ha (List.getElem?_eq_getElem hi)
      obtain rfl : _ = b := Option.some.inj (hraised.symm.trans hb)
      exact Rec.raised_not_before _ _
    · obtain rfl : _ = c := Option.some.inj ((clampSpans_getElem? ha hb).symm.trans hc)
      exact ⟨fun hle => if_neg hle.not_gt, fun hlt => if_pos hlt⟩
  · intro cell
    have hcell : posAdd pos (-pts.entryCell) = cell := rfl
    simp only [spanEnd, h, hcell]
    by_cases hle : 1 ≤ posDiff cell r.b0
    · rw [if_pos hle, if_neg (by omega)]
    · rw [if_neg hle, if_pos (by omega)]

end Sys2Proof.Machine
end

section
/-! PROOFS. The passages of a ring (06): the sequencer they leave, the reports they make, the events that bring them
about. -/

namespace Sys2Proof.Machine

/-! ### The sequencer after a passage -/

theorem State.goOpen_seq (s : State) (k : Ring) (st : RingState) (armed : Option Nat) :
    (s.goOpen k st armed).ring.get k = { s.ring.get k with state := st, served := none, armedFor := armed } := by
  rw [State.goOpen_ring, PerRing.get_modify_self]

theorem State.goOpen_state (s : State) (k : Ring) (st : RingState) (armed : Option Nat) :
    (s.goOpen k st armed).ringState k = st ∧ ((s.goOpen k st armed).ring.get k).armedFor = armed := by
  rw [State.ringState, State.goOpen_seq]
  exact ⟨rfl, rfl⟩

theorem State.goPress_seq (s : State) (k : Ring) (st : RingState) (key : Nat) :
    (s.goPress k st key).ring.get k = ⟨st, some key, none, false, false⟩ := by
  rw [State.goPress_ring, PerRing.get_modify_self]

theorem State.goPhase_seq (s : State) (k : Ring) (st : RingState) :
    (s.goPhase k st).ring.get k = { s.ring.get k with state := st } := by
  rw [State.goPhase, State.evalPress_ring, State.onSeq_ring, PerRing.get_modify_self]

theorem State.goWaiting_of_some {s : State} {k : Ring} {r : Rec} (h : s.firstWaiting k = some r) :
    s.goWaiting k = s.goOpen k .armed (some r.key) := by
  simp only [State.goWaiting, h]

theorem State.goWaiting_of_none {s : State} {k : Ring} (h : s.firstWaiting k = none) :
    s.goWaiting k = s.goOpen k .idle none := by
  simp only [State.goWaiting, h]

theorem State.goWaiting_places {s : State} {k : Ring} :
    (∀ r, s.firstWaiting k = some r → (s.goWaiting k).ringState k = .armed ∧
      ((s.goWaiting k).ring.get k).armedFor = some r.key) ∧
    (s.firstWaiting k = none → (s.goWaiting k).ringState k = .idle) := by
  refine ⟨fun r h => ?_, fun h => ?_⟩
  · rw [State.goWaiting_of_some h]
    exact s.goOpen_state k _ _
  · rw [State.goWaiting_of_none h]
    exact (s.goOpen_state k _ _).1

theorem State.leaveByTail_of_atGap {s : State} (h : s.release.level = .atGap) (k : Ring) :
    s.leaveByTail k = s.goOpen k .held none := if_pos h

theorem State.leaveByTail_of_standing {s : State} {k : Ring} {r : Rec} (h : s.release.level ≠ .atGap)
    (hr : s.standing k = some r) : s.leaveByTail k = s.goPress k .entry r.key := by
  simp only [State.leaveByTail, if_neg h, hr]

theorem State.leaveByTail_of_no_standing {s : State} {k : Ring} (h : s.release.level ≠ .atGap)
    (hr : s.standing k = none) : s.leaveByTail k = s.goWaiting k := by
  simp only [State.leaveByTail, if_neg h, hr]

theorem State.leaveByTail_left (s : State) (k : Ring) : s.leftByTail (s.leaveByTail k) k := by
  refine ⟨fun h => ?_, fun h => ⟨fun r hr => ?_, fun r hr hw => ?_, fun hr hw => ?_⟩⟩
  · rw [State.leaveByTail_of_atGap h]
    exact (s.goOpen_state k _ _).1
  · rw [State.leaveByTail_of_standing h hr, State.goPress_seq]
  · rw [State.leaveByTail_of_no_standing h hr]
    exact State.goWaiting_places.1 r hw
  · rw [State.leaveByTail_of_no_standing h hr]
    exact State.goWaiting_places.2 hw

theorem State.leaveByBackOut_of_atGap {s : State} (h : s.release.level = .atGap) (k : Ring) (key : Nat) :
    s.leaveByBackOut k key = s.goOpen k .held none := if_pos h

theorem State.leaveByBackOut_of_ne {s : State} (h : s.release.level ≠ .atGap) (k : Ring) (key : Nat) :
    s.leaveByBackOut k key = s.goOpen k .armed (some key) := if_neg h

theorem State.leaveByBackOut_places (s : State) (k : Ring) (key : Nat) :
    (s.release.level = .atGap → (s.leaveByBackOut k key).ringState k = .held) ∧
      (s.release.level ≠ .atGap → (s.leaveByBackOut k key).ringState k = .armed ∧
        ((s.leaveByBackOut k key).ring.get k).armedFor = some key) := by
  refine ⟨fun h => ?_, fun h => ?_⟩
  · rw [State.leaveByBackOut_of_atGap h]
    exact (s.goOpen_state k _ _).1
  · rw [State.leaveByBackOut_of_ne h]
    exact s.goOpen_state k _ _

/-! ### The records a ring reads -/

/-- The record in the plane and the first that waits are read from the track, the points and the front. -/
theorem standing_congr {s t : State} (htrack : t.track = s.track) (hpoints : t.points = s.points) (hfeed : t.feed = s.feed)
    (k : Ring) : t.standing k = s.standing k ∧ t.firstWaiting k = s.firstWaiting k := by
  have hstands : standsIn t k = standsIn s k := by
    funext r
    simp only [standsIn, frontDist, hpoints, hfeed]
  have hwaits : waitsAt t k = waitsAt s k := by
    unfold waitsAt frontDist
    rw [hpoints, hfeed]
  rw [State.standing, State.standing, State.firstWaiting, State.firstWaiting, htrack, hstands, hwaits]
  exact ⟨rfl, rfl⟩

/-! ### The reports of a passage (R75, R125, R130, R131) -/

/-- What changes neither a mark nor a table makes no report. -/
theorem marksFor_none {s t : State} (hmarks : t.marks = s.marks) (hrecipes : t.recipes = s.recipes) :
    s.marksFor t none where
  marks m := by rw [hmarks]; simp
  overrun _ h := by cases h
  recipes := hrecipes

theorem State.goPhase_marksFor (s : State) (k : Ring) (st : RingState) : s.marksFor (s.goPhase k st) none :=
  have htouches := s.goPhase_touches k st
  marksFor_none (htouches.marks.resolve_left (by decide)) (htouches.recipes.resolve_left (by decide))

theorem State.goPress_marksFor_none (s : State) (k : Ring) {st : RingState} (hst : st ≠ .entry) (key : Nat) :
    s.marksFor (s.goPress k st key) none := by
  rw [State.goPress_of_ne_entry s k hst]
  have htouches : Touches [.track, .setpoint, .ring, .valve] s ((s.pressed k st key).evalPress k) :=
    ((s.pressed_touches k st key).mono (by decide)).trans ((State.evalPress_touches _ k).mono (by decide))
  exact marksFor_none (htouches.marks.resolve_left (by decide)) (htouches.recipes.resolve_left (by decide))

/-- A source event, after changes that touch no mark, no table and no port. -/
theorem markEvent_marksFor {s u : State} {parts : List Part} (h : Touches parts s u) (hpoints : u.points = s.points)
    (hmarks : .marks ∉ parts) (hrecipes : .recipes ∉ parts) (src : MarkSource) :
    s.marksFor (u.markEvent src) (some src) where
  marks m := by
    rw [State.markEvent_marks_get, h.marks.resolve_left hmarks, hpoints]
    simp only [Option.some.injEq]
  overrun m hsrc hset p :=
    markSources_overrun p Mark.all (Mark.mem_all m) (by rw [hpoints]; exact Option.some.inj hsrc)
      (by rw [h.marks.resolve_left hmarks]; exact hset)
  recipes := ((State.markEvent_touches u src).recipes.resolve_left (by decide)).trans (h.recipes.resolve_left hrecipes)

theorem State.goPress_entry_marksFor (s : State) (k : Ring) (key : Nat) :
    s.marksFor (s.goPress k .entry key) (some (entrySource k)) := by
  rw [State.goPress_of_entry]
  have htouches : Touches [.track, .setpoint, .ring, .valve] s ((s.pressed k .entry key).evalPress k) :=
    ((s.pressed_touches k .entry key).mono (by decide)).trans ((State.evalPress_touches _ k).mono (by decide))
  refine markEvent_marksFor htouches ?_ (by decide) (by decide) _
  exact (State.evalPress_works _ k).sameOuter.points

theorem State.goOpen_marksFor_of_open {s : State} {k : Ring} (h : (s.ringState k).pressing = false) (st : RingState)
    (armed : Option Nat) : s.marksFor (s.goOpen k st armed) none := by
  rw [State.goOpen_of_open h]
  have htouches : Touches [.ring, .setpoint, .valve, .freeCount] s ((s.opened k st armed).evalLift k) :=
    ((s.opened_touches k st armed).mono (by decide)).trans ((State.evalLift_touches _ k).mono (by decide))
  exact marksFor_none (htouches.marks.resolve_left (by decide)) (htouches.recipes.resolve_left (by decide))

/-- What the reports of a departure make of the marks and the tables. -/
theorem State.reportClear_reports (u : State) (k : Ring) :
    (∀ m, (u.reportClear k).marks.get m = (u.marks.get m || decide (u.points.markSource.get m = clearSource k))) ∧
      (k = .a → u.recipes.swapPending = true →
        (u.reportClear k).recipes = ⟨u.recipes.shadow, u.recipes.shadow, false⟩ ∧
          ∀ p, NoticeKind.swapDone ∈ ((u.reportClear k).ports.get p).status) ∧
      (k = .b ∨ u.recipes.swapPending = false → (u.reportClear k).recipes = u.recipes) ∧
      (u.reportClear k).track = u.track := by
  have hmarked := u.markEvent_touches (clearSource k)
  have hrecipes : (u.markEvent (clearSource k)).recipes = u.recipes := hmarked.recipes.resolve_left (by decide)
  refine ⟨fun m => ?_, fun hk hp => ?_, fun hno => ?_, (u.reportClear_touches k).track.resolve_left (by decide)⟩
  · rw [← State.markEvent_marks_get]
    cases k with
    | a =>
      show (State.gapSignal _).marks.get m = _
      rw [(State.gapSignal_touches _).marks.resolve_left (by decide)]
    | b => rfl
  · subst hk
    have hswap : u.reportClear .a = (u.markEvent (clearSource .a)).swap := if_pos (by rw [hrecipes, hp])
    rw [hswap, State.swap_recipes, hrecipes]
    exact ⟨rfl, State.swap_done _⟩
  · cases k with
    | a =>
      have hstay : u.reportClear .a = u.markEvent (clearSource .a) :=
        if_neg (by rw [hrecipes, hno.resolve_left (by decide)]; decide)
      rw [hstay, hrecipes]
    | b => exact hrecipes

/-- A departure from pressing makes its reports, and into HELD flags the record in the plane. -/
theorem State.goOpen_departs {s : State} {k : Ring} (hp : (s.ringState k).pressing = true) {st : RingState}
    (hst : st.pressing = false) (armed : Option Nat) : s.departs (s.goOpen k st armed) k := by
  generalize hu : ((s.opened k st armed).unpressed k).evalLift k = u
  have htouches : Touches [.ring, .setpoint, .valve, .freeCount] s u := by
    rw [← hu]
    exact ((s.opened_touches k st armed).mono (by decide)).trans
      (((State.unpressed_touches _ k).mono (by decide)).trans ((State.evalLift_touches _ k).mono (by decide)))
  have hmarks := htouches.marks.resolve_left (by decide)
  have hrecipes := htouches.recipes.resolve_left (by decide)
  have htrack := htouches.track.resolve_left (by decide)
  have hpoints : u.points = s.points := by
    rw [← hu]
    exact (State.evalLift_works _ k).sameOuter.points
  have hfeed : u.feed = s.feed := by
    rw [← hu]
    exact (State.evalLift_works _ k).sameOuter.feed
  have hstanding : u.standing k = s.standing k := (standing_congr htrack hpoints hfeed k).1
  obtain ⟨v, hv, hvmarks, hvpoints, hvrecipes, hvtrack⟩ : ∃ v : State, s.goOpen k st armed = v.reportClear k ∧
      v.marks = s.marks ∧ v.points = s.points ∧ v.recipes = s.recipes ∧
      (∀ r, st = .held → s.standing k = some r → v.track = s.track.map fun q =>
        if q.key = r.key then { q with flags := addFlags [.releasedDuring] q.flags } else q) ∧
      (st ≠ .held ∨ s.standing k = none → v.track = s.track) := by
    by_cases hheld : st = .held
    · subst hheld
      refine ⟨u.flagStanding k, by rw [State.goOpen_held_of_pressing hp, hu], ?_⟩
      have hflag := u.flagStanding_touches k
      refine ⟨(hflag.marks.resolve_left (by decide)).trans hmarks, (u.flagStanding_works k).sameOuter.points.trans hpoints,
        (hflag.recipes.resolve_left (by decide)).trans hrecipes, fun r _ hr => ?_, fun hno => ?_⟩
      · rw [State.flagStanding, hstanding, hr]
        simp only [State.onRec_track, htrack, beq_iff_eq]
        rfl
      · rw [State.flagStanding, hstanding, hno.resolve_left (not_not.mpr rfl)]
        exact htrack
    · exact ⟨u, by rw [State.goOpen_of_pressing hp hheld, hu], hmarks, hpoints, hrecipes, fun r h => absurd h hheld,
        fun _ => htrack⟩
  obtain ⟨hreport, hswap, hnoSwap, hkept⟩ := v.reportClear_reports k
  have hstate : (s.goOpen k st armed).ringState k = st := (s.goOpen_state k st armed).1
  obtain ⟨hflagged, hunflagged⟩ := hvtrack
  rw [hvmarks, hvpoints] at hreport
  rw [hvrecipes] at hswap hnoSwap
  have hopen : ((s.goOpen k st armed).ringState k).pressing = false := by rw [hstate, hst]
  rw [← hv] at hreport
  refine ⟨hopen, fun m => ?_, hv ▸ hswap, hv ▸ hnoSwap, fun r hheld hr => ?_, fun hno => ?_⟩
  · cases k <;> exact hreport m
  · rw [hv, hkept]
    exact hflagged r (hstate.symm.trans hheld) hr
  · rw [hv, hkept]
    exact hunflagged (hno.imp_left fun h => hstate ▸ h)

theorem State.leaveByBackOut_departs {s : State} {k : Ring} (hp : (s.ringState k).pressing = true) (key : Nat) :
    s.departs (s.leaveByBackOut k key) k := by
  unfold State.leaveByBackOut
  split <;> exact State.goOpen_departs hp rfl _

theorem State.leaveByTail_departs {s : State} {k : Ring} (hp : (s.ringState k).pressing = true)
    (h : s.release.level = .atGap ∨ s.standing k = none) : s.departs (s.leaveByTail k) k := by
  by_cases hgap : s.release.level = .atGap
  · rw [State.leaveByTail_of_atGap hgap]
    exact State.goOpen_departs hp rfl _
  · rw [State.leaveByTail_of_no_standing hgap (h.resolve_left hgap)]
    unfold State.goWaiting
    split <;> exact State.goOpen_departs hp rfl _

/-! ### The events a ring takes (R112 to R120) -/

section Events

variable {s : State} {k : Ring} {key : Nat}

theorem State.ringEvent_of_setup (h : s.control.mode = .setup) (id : EventId) : s.ringEvent key id = s := if_pos h

theorem State.ringEvent_arm (h : s.control.mode ≠ .setup) : s.ringEvent key (.arm k) = s.ringArm k key := if_neg h

theorem State.ringEvent_plane (h : s.control.mode ≠ .setup) : s.ringEvent key (.plane k) = s.ringPlane k key := if_neg h

theorem State.ringEvent_entryEnd (h : s.control.mode ≠ .setup) :
    s.ringEvent key (.entryEnd k) = s.ringEntryEnd k key := if_neg h

theorem State.ringEvent_tailAdvance (h : s.control.mode ≠ .setup) :
    s.ringEvent key (.tailAdvance k) = s.ringTailAdvance k key := if_neg h

theorem State.ringEvent_tailOut (h : s.control.mode ≠ .setup) : s.ringEvent key (.tailOut k) = s.ringTailOut k key :=
  if_neg h

theorem State.ringEvent_backOut (h : s.control.mode ≠ .setup) : s.ringEvent key (.backOut k) = s.ringBackOut k key :=
  if_neg h

theorem State.ringEvent_tailBackIn (h : s.control.mode ≠ .setup) :
    s.ringEvent key (.tailBackIn k) = s.ringTailBackIn k key := if_neg h

theorem State.ringArm_of_idle (h : s.ringState k = .idle) : s.ringArm k key = s.goOpen k .armed (some key) := if_pos h

theorem State.ringArm_of_ne (h : s.ringState k ≠ .idle) : s.ringArm k key = s := if_neg h

/-- The record flagged SHORT_GAP where the lift was not reached (R113). -/
def State.gapTested (s : State) (k : Ring) (key : Nat) : State :=
  if (s.ring.get k).liftReached then s else s.onRec key (Rec.flag · [.shortGap])

theorem State.ringPlane_of_open (h : s.ringState k = .idle ∨ s.ringState k = .armed) :
    s.ringPlane k key = (s.gapTested k key).goPress k .entry key := by
  obtain h | h := h <;> simp only [State.ringPlane, h, State.gapTested]

theorem State.ringPlane_of_pressing (h : (s.ringState k).pressing = true) : s.ringPlane k key = s := by
  unfold State.ringPlane
  cases hs : s.ringState k with
  | idle | armed | held => rw [hs] at h; cases h
  | _ => rfl

theorem State.ringPlane_of_held (h : s.ringState k = .held) :
    s.ringPlane k key = s.onRec key (Rec.flag · [.releasedDuring]) := by
  simp only [State.ringPlane, h]

theorem State.serves_iff : s.serves k key = true ↔ (s.ring.get k).served = some key := decide_eq_true_iff

theorem State.ringEntryEnd_of_entry (h : s.ringState k = .entry) (hs : (s.ring.get k).served = some key) :
    s.ringEntryEnd k key = s.goPhase k .body := by
  simp [State.ringEntryEnd, State.serves, h, hs]

theorem State.ringEntryEnd_of_ne (h : s.ringState k ≠ .entry ∨ (s.ring.get k).served ≠ some key) :
    s.ringEntryEnd k key = s := by
  obtain h | h := h <;> simp [State.ringEntryEnd, State.serves, h]

theorem State.ringTailAdvance_of_entry_body (h : s.ringState k = .entry ∨ s.ringState k = .body)
    (hs : (s.ring.get k).served = some key) : s.ringTailAdvance k key = s.goPhase k .tail := by
  simp [State.ringTailAdvance, State.serves, h, hs]

theorem State.ringTailAdvance_of_ne
    (h : (s.ringState k ≠ .entry ∧ s.ringState k ≠ .body) ∨ (s.ring.get k).served ≠ some key) :
    s.ringTailAdvance k key = s := by
  obtain h | h := h <;> simp [State.ringTailAdvance, State.serves, h]

theorem State.ringTailOut_of_served (h : (s.ringState k).pressing = true) (hs : (s.ring.get k).served = some key) :
    s.ringTailOut k key = s.leaveByTail k := by
  simp [State.ringTailOut, State.serves, h, hs]

theorem State.ringTailOut_of_ne (h : (s.ringState k).pressing = false ∨ (s.ring.get k).served ≠ some key) :
    s.ringTailOut k key = s := by
  obtain h | h := h <;> simp [State.ringTailOut, State.serves, h]

theorem State.ringBackOut_of_served (h : (s.ringState k).pressing = true) (hs : (s.ring.get k).served = some key) :
    s.ringBackOut k key = s.leaveByBackOut k key := by
  simp [State.ringBackOut, State.serves, h, hs]

theorem State.ringBackOut_of_ne (h : (s.ringState k).pressing = false ∨ (s.ring.get k).served ≠ some key) :
    s.ringBackOut k key = s := by
  obtain h | h := h <;> simp [State.ringBackOut, State.serves, h]

theorem State.ringTailBackIn_of_open (h : s.ringState k = .idle ∨ s.ringState k = .armed) :
    s.ringTailBackIn k key = s.goPress k .tail key := by
  obtain h | h := h <;> simp only [State.ringTailBackIn, h]

theorem State.ringTailBackIn_of_pressing (h : (s.ringState k).pressing = true) : s.ringTailBackIn k key = s := by
  unfold State.ringTailBackIn
  cases hs : s.ringState k with
  | idle | armed | held => rw [hs] at h; cases h
  | _ => rfl

theorem State.ringTailBackIn_of_held (h : s.ringState k = .held) :
    s.ringTailBackIn k key = s.onRec key (Rec.flag · [.releasedDuring]) := by
  simp only [State.ringTailBackIn, h]

/-- An evaluation leaves every record's SHORT_GAP. -/
theorem Rec.evaluated_flag (r : Rec) (j : Ring) (target : Nat) {flags : List Flag} {f : Flag} (h : f ∉ flags) :
    f ∈ (r.evaluated j target flags).flags ↔ f ∈ r.flags := by
  cases j <;> simp only [Rec.evaluated, Rec.flag, mem_addFlags, or_iff_left h]

/-- The flags an evaluation gives are those of stages 6 and 7. -/
theorem pressValue_flag {f : Flag} (hextrap : f ≠ .extrap) (hmerge : f ≠ .uncertainMerge) (hhigh : f ≠ .clampHigh)
    (hlow : f ≠ .clampLow) (t : State) (j : Ring) (r : Rec) : f ∉ (pressValue t j r).2 := by
  have hclamp : ∀ lower upper p, lower ≤ upper → f ∉ (stageClamp lower upper p).2 := by
    intro lower upper p hle hmem
    exact ((stageClamp_clamped hle p).flags _ hmem).elim hhigh hlow
  unfold pressValue
  split
  · exact hclamp _ _ _ (Nat.min_le_right _ _)
  · intro hmem
    simp only [pressRun, mem_addFlags, List.mem_append, List.not_mem_nil, false_or] at hmem
    obtain hstage | hclamped := hmem
    · exact stageMerge_flags hextrap hmerge _ _ _ _ _ hstage
    · exact hclamp _ _ _ (Nat.min_le_right _ _) hclamped

/-- An evaluation leaves each record's key and SHORT_GAP. -/
theorem evalPress_gaps (t : State) (j : Ring) :
    (t.evalPress j).track.map (fun r : Rec => (r.key, decide (Flag.shortGap ∈ r.flags))) =
      t.track.map fun r : Rec => (r.key, decide (Flag.shortGap ∈ r.flags)) := by
  cases hr : t.servedRec j with
  | none => rw [State.evalPress_of_no_record hr]
  | some r =>
    cases hp : (t.ringState j).pressing
    · rw [State.evalPress_of_open hp]
    · rw [State.evalPress_track hp hr, List.map_map]
      refine List.map_congr_left fun q _ => ?_
      simp only [Function.comp_apply]
      split
      · simp only [Rec.evaluated_flag q j _ (pressValue_flag (f := .shortGap) (by decide) (by decide) (by decide) (by decide)
          t j r)]
        cases j <;> rfl
      · rfl

theorem goPress_gaps (t : State) (j : Ring) (st : RingState) (key : Nat) :
    (t.goPress j st key).track.map (fun r : Rec => (r.key, decide (Flag.shortGap ∈ r.flags))) =
      t.track.map fun r : Rec => (r.key, decide (Flag.shortGap ∈ r.flags)) := by
  have heval := evalPress_gaps (t.pressed j st key) j
  by_cases hst : st = .entry
  · subst hst
    rw [State.goPress_of_entry, (State.markEvent_touches _ _).track.resolve_left (by decide), heval]
    rfl
  · rw [State.goPress_of_ne_entry t j hst, heval]
    rfl

/-- A leading end that comes to the plane before the lift is reached leaves its record flagged SHORT_GAP. -/
theorem ringPlane_shortGap (h : s.ringState k = .idle ∨ s.ringState k = .armed) (hlift : (s.ring.get k).liftReached = false) :
    ∀ r ∈ (s.ringPlane k key).track, r.key = key → Flag.shortGap ∈ r.flags := by
  intro r hr hkey
  have hmem : (r.key, decide (Flag.shortGap ∈ r.flags)) ∈ ((s.gapTested k key).goPress k .entry key).track.map
      fun r : Rec => (r.key, decide (Flag.shortGap ∈ r.flags)) :=
    List.mem_map_of_mem (State.ringPlane_of_open h ▸ hr)
  rw [goPress_gaps, State.gapTested, hlift] at hmem
  obtain ⟨q, hq, heq⟩ := List.mem_map.mp hmem
  obtain ⟨x, _, rfl⟩ := List.mem_map.mp (show q ∈ s.track.map _ from hq)
  obtain ⟨hqkey, hflag⟩ := Prod.ext_iff.mp heq
  by_cases hx : x.key = key
  · simp only [hx, beq_self_eq_true, if_true, Rec.flag, mem_addFlags] at hflag
    simpa using hflag
  · simp only [beq_iff_eq, hx, if_false] at hqkey
    exact absurd (hqkey.trans hkey) hx

theorem State.takeCrossing_of_gone (h : s.rec? key = none) (id : EventId) (d : Int) : s.takeCrossing ⟨key, id, d⟩ = s := by
  simp only [State.takeCrossing, h]

theorem State.sampleEvent_of_served (h : (s.ring.get k).served = some key) : s.sampleEvent k key = s.evalPress k := by
  simp [State.sampleEvent, State.serves, h]

theorem State.sampleEvent_of_ne (h : (s.ring.get k).served ≠ some key) : s.sampleEvent k key = s := by
  simp [State.sampleEvent, State.serves, h]

/-- Settles O37: each event of each state by its equation. -/
theorem crossingEventsMoveTheRing : Obligations.CrossingEventsMoveTheRing := by
  refine ⟨?forward, ?backward, ?still, ?taken⟩
  case forward =>
    intro s k key hmode st
    refine ⟨?_, ?_, ?_, ?_⟩
    · rw [State.ringEvent_arm hmode]
      refine ⟨fun h => ?_, State.ringArm_of_ne⟩
      rw [State.ringArm_of_idle h]
      exact s.goOpen_state k _ _
    · rw [State.ringEvent_plane hmode]
      refine ⟨fun h => ⟨?_, ringPlane_shortGap h, fun hlift => ?_⟩, State.ringPlane_of_pressing⟩
      · rw [State.ringPlane_of_open h, State.goPress_seq]
      · rw [State.ringPlane_of_open h, State.gapTested, if_pos hlift]
        exact goPress_gaps s k _ _
    · rw [State.ringEvent_entryEnd hmode]
      refine ⟨fun h hs => ?_, State.ringEntryEnd_of_ne⟩
      rw [State.ringEntryEnd_of_entry h hs, State.goPhase_seq]
    · rw [State.ringEvent_tailAdvance hmode]
      refine ⟨fun h hs => ?_, State.ringTailAdvance_of_ne⟩
      rw [State.ringTailAdvance_of_entry_body h hs, State.goPhase_seq]
  case backward =>
    intro s k key hmode
    refine ⟨?_, ?_, ?_⟩
    · rw [State.ringEvent_tailOut hmode]
      refine ⟨fun hp hs => ?_, State.ringTailOut_of_ne⟩
      rw [State.ringTailOut_of_served hp hs]
      exact s.leaveByTail_left k
    · rw [State.ringEvent_backOut hmode]
      refine ⟨fun hp hs => ?_, State.ringBackOut_of_ne⟩
      rw [State.ringBackOut_of_served hp hs]
      exact s.leaveByBackOut_places k key
    · rw [State.ringEvent_tailBackIn hmode]
      refine ⟨fun h => ?_, State.ringTailBackIn_of_pressing⟩
      rw [State.ringTailBackIn_of_open h, State.goPress_seq]
  case still =>
    intro s key id k
    refine ⟨fun h => State.ringEvent_of_setup h id, fun hmode hheld => ⟨fun hid => ?_, fun hid => ?_⟩⟩
    · have hopen : (s.ringState k).pressing = false := by rw [hheld]; rfl
      obtain rfl | rfl | rfl | rfl | rfl := hid
      · rw [State.ringEvent_arm hmode, State.ringArm_of_ne (by rw [hheld]; decide)]
      · rw [State.ringEvent_entryEnd hmode, State.ringEntryEnd_of_ne (.inl (by rw [hheld]; decide))]
      · rw [State.ringEvent_tailAdvance hmode, State.ringTailAdvance_of_ne (.inl (by rw [hheld]; decide))]
      · rw [State.ringEvent_tailOut hmode, State.ringTailOut_of_ne (.inl hopen)]
      · rw [State.ringEvent_backOut hmode, State.ringBackOut_of_ne (.inl hopen)]
    · obtain rfl | rfl := hid
      · rw [State.ringEvent_plane hmode, State.ringPlane_of_held hheld]
        rfl
      · rw [State.ringEvent_tailBackIn hmode, State.ringTailBackIn_of_held hheld]
        rfl
  case taken =>
    intro s key k d
    refine ⟨fun id h => State.takeCrossing_of_gone h id d, fun r hr => ⟨?_, fun j => ?_⟩⟩
    · simp only [List.forall_mem_cons, State.takeCrossing, hr, List.not_mem_nil, false_implies, implies_true, and_self]
    · have htake : s.takeCrossing ⟨key, .sample k j, d⟩ = s.sampleEvent k key := by simp only [State.takeCrossing, hr]
      rw [htake]
      exact ⟨State.sampleEvent_of_served, State.sampleEvent_of_ne⟩

end Events

/-! ### Moves and removals (R121, R122) -/

section Moves

variable {s : State} {k : Ring}

theorem State.ringMoved_of_still (h : s.control.mode = .setup ∨ (s.ringState k).pressing = false) : s.ringMoved k = s := by
  obtain h | h := h <;> simp [State.ringMoved, h]

theorem State.ringMoved_of_standing {r : Rec} (hr : s.servedRec k = some r) (h : standsIn s k r = true) :
    s.ringMoved k = s := by
  simp [State.ringMoved, hr, h]

theorem State.ringMoved_of_upstream {r : Rec} (hmode : s.control.mode ≠ .setup) (hp : (s.ringState k).pressing = true)
    (hr : s.servedRec k = some r) (h : frontDist s r < s.points.planeOf k) : s.ringMoved k = s.leaveByBackOut k r.key := by
  have hstands : standsIn s k r = false := by
    simp [standsIn, reaches, not_le.mpr h]
  simp [State.ringMoved, hmode, hp, hr, hstands, h]

theorem State.ringMoved_of_past {r : Rec} (hmode : s.control.mode ≠ .setup) (hp : (s.ringState k).pressing = true)
    (hr : s.servedRec k = some r) (hstands : standsIn s k r = false) (h : s.points.planeOf k ≤ frontDist s r) :
    s.ringMoved k = s.leaveByTail k := by
  simp [State.ringMoved, hmode, hp, hr, hstands, not_lt.mpr h]

theorem State.ringRemoved_of_still {key : Nat} (h : s.control.mode = .setup ∨
    ((s.ring.get k).served ≠ some key ∧ (s.ring.get k).armedFor ≠ some key)) : s.ringRemoved k key = s := by
  obtain h | h := h <;> simp [State.ringRemoved, State.serves, h]

theorem State.ringRemoved_of_served {key : Nat} (hmode : s.control.mode ≠ .setup)
    (h : (s.ring.get k).served = some key) : s.ringRemoved k key = s.leaveByTail k := by
  simp [State.ringRemoved, State.serves, hmode, h]

theorem State.ringRemoved_of_armed {key : Nat} (hmode : s.control.mode ≠ .setup)
    (hs : (s.ring.get k).served ≠ some key) (ha : (s.ring.get k).armedFor = some key) :
    s.ringRemoved k key = if s.release.level = .atGap then s.goOpen k .held none else s.goWaiting k := by
  simp [State.ringRemoved, State.serves, hmode, hs, ha]

end Moves

/-! ### The events of one cause (R9, R10, R31) -/

theorem insertBy_perm (f : Crossing → Int) (x : Crossing) (l : List Crossing) : (insertBy f x l).Perm (x :: l) := by
  induction l with
  | nil => rfl
  | cons y l ih =>
    rw [insertBy]
    split
    · rfl
    · exact (ih.cons y).trans (.swap x y l)

theorem sortBy_perm (f : Crossing → Int) (l : List Crossing) : (sortBy f l).Perm l := by
  induction l with
  | nil => rfl
  | cons x l ih => exact (insertBy_perm f x (sortBy f l)).trans (ih.cons x)

/-- With no binding on the way the events are taken one after another. -/
theorem runEvents_of_no_plane {l : List Crossing} (h : ∀ c ∈ l, c.id ≠ .plane .a) (s : State) :
    runEvents l [] s = l.foldl State.takeCrossing s := by
  induction l generalizing s with
  | nil => rfl
  | cons c l ih =>
    have htake : s.takeEvent c = (s.takeCrossing c, []) := if_neg (h c List.mem_cons_self)
    have hrun : runEvents (c :: l) [] s = runEvents l [] (s.takeEvent c).1 := by simp [runEvents, htake, sortBy]
    rw [hrun, htake, ih fun e he => h e (List.mem_cons_of_mem c he), List.foldl_cons]

theorem moved_iff {before now : State} : moved before now = true ↔
    ∃ r ∈ now.track, ∃ q, before.rec? r.key = some q ∧ (q.b0 ≠ r.b0 ∨ q.length ≠ r.length) := by
  rw [moved, List.any_eq_true]
  refine exists_congr fun r => and_congr_right fun _ => ?_
  cases before.rec? r.key with
  | none => simp
  | some q => simp

theorem moved_eq_false {before now : State}
    (h : ∀ r ∈ now.track, ∀ q, before.rec? r.key = some q → q.b0 = r.b0 ∧ q.length = r.length) :
    moved before now = false := by
  refine Bool.eq_false_iff.mpr fun hmoved => ?_
  obtain ⟨r, hr, q, hq, hne⟩ := moved_iff.mp hmoved
  exact hne.elim (· (h r hr q hq).1) (· (h r hr q hq).2)

theorem State.afterMove_of_moved {before s : State} (h : moved before s = true) :
    s.afterMove before = (((runEvents (crossings before s) [] s).ringMoved .a).ringMoved .b).advise := by
  simp only [State.afterMove, h, if_true]

theorem State.afterMove_of_still {before s : State} (h : moved before s = false) :
    s.afterMove before = (runEvents (crossings before s) [] s).advise := by
  simp [State.afterMove, h]

/-- Settles O38: a move, a removal and one cause's events, each by its cases. -/
theorem movesAndRemovalsReachTheRing : Obligations.MovesAndRemovalsReachTheRing := by
  refine ⟨?moves, ?events, ?binding, ?removals⟩
  case moves =>
    intro s k
    refine ⟨State.ringMoved_of_still, fun r hmode hp hr => ?_⟩
    intro t d
    have hd : d = frontDist s r - s.points.planeOf k := rfl
    refine ⟨fun h0 hlen => ?_, fun h0 => ?_, fun len hlen h0 h => ?_⟩
    · refine State.ringMoved_of_standing hr ?_
      unfold standsIn reaches
      cases hl : r.length with
      | none => simp; omega
      | some len =>
        have := hlen len hl
        simp; omega
    · rw [show t = _ from State.ringMoved_of_upstream hmode hp hr (by omega)]
      exact s.leaveByBackOut_places k r.key
    · rw [show t = _ from State.ringMoved_of_past hmode hp hr (by simp [standsIn, reaches, hlen]; omega) (by omega)]
      exact s.leaveByTail_left k
  case events =>
    intro before s hplane t
    have hrun : runEvents (crossings before s) [] s = t := runEvents_of_no_plane hplane s
    refine ⟨fun h => ?_, fun h => ?_⟩
    · rw [State.afterMove_of_moved (moved_iff.mpr h), hrun]
    · rw [State.afterMove_of_still (moved_eq_false h), hrun]
  case binding =>
    intro before s c hc hid h
    refine ⟨sortBy Crossing.at_ (s.takeEvent c).2, sortBy_perm _ _, ?_, ?_⟩
    · exact (sortBy_ordered (R := fun _ _ => True) (List.pairwise_of_forall fun _ _ => trivial)).imp fun hxy => hxy.1
    · rw [State.afterMove_of_still (moved_eq_false h), hc]
      rfl
  case removals =>
    intro s k key t
    refine ⟨State.ringRemoved_of_still, fun hmode => ⟨fun hs => ?_, fun hs ha => ?_⟩⟩
    · rw [show t = _ from State.ringRemoved_of_served hmode hs]
      exact s.leaveByTail_left k
    · rw [show t = _ from State.ringRemoved_of_armed hmode hs ha]
      refine ⟨fun h => ?_, fun h => ?_⟩
      · rw [if_pos h]
        exact (s.goOpen_state k _ _).1
      · rw [if_neg h]
        exact State.goWaiting_places

end Sys2Proof.Machine
end

section
/-! PROOFS. A change of the release level (R123, R124, R126, R141, R156): what it does to the rings, their targets and
their channels, and the causes that bring it about. -/

namespace Sys2Proof.Machine

/-! ### What the blocks leave of a ring's hand and of the channels -/

/-- Between two states a ring's targets, its interlock and its channels are the same. -/
structure SameHand (j : Ring) (s t : State) : Prop where
  setpoint : t.setpoint.get j = s.setpoint.get j
  interlock : t.valve.rings.get j = s.valve.rings.get j
  chans : ∀ y, t.valve.chans.get (channelOf j y) = s.valve.chans.get (channelOf j y)

/-- Between two states every channel is the same but for its target. -/
def SameDrive (s t : State) : Prop :=
  ∀ c, { t.valve.chans.get c with target := 0 } = { s.valve.chans.get c with target := 0 }

theorem SameHand.refl (j : Ring) (s : State) : SameHand j s s := ⟨rfl, rfl, fun _ => rfl⟩

theorem SameHand.trans {j : Ring} {s t u : State} (h : SameHand j s t) (g : SameHand j t u) : SameHand j s u :=
  ⟨g.setpoint.trans h.setpoint, g.interlock.trans h.interlock, fun y => (g.chans y).trans (h.chans y)⟩

theorem SameDrive.refl (s : State) : SameDrive s s := fun _ => rfl

theorem SameDrive.trans {s t u : State} (h : SameDrive s t) (g : SameDrive t u) : SameDrive s u :=
  fun c => (g c).trans (h c)

section Hand

variable {s t : State} {j k : Ring} {parts : List Part}

theorem Touches.hand (h : Touches parts s t) (hs : .setpoint ∉ parts) (hv : .valve ∉ parts) : SameHand j s t :=
  ⟨by rw [h.setpoint.resolve_left hs], by rw [h.valve.resolve_left hv], fun _ => by rw [h.valve.resolve_left hv]⟩

theorem Touches.drive (h : Touches parts s t) (hv : .valve ∉ parts) : SameDrive s t :=
  fun _ => by rw [h.valve.resolve_left hv]

theorem State.intent_chans (s : State) (k : Ring) (x : Side) (p : Nat) : (s.intent k x p).valve.chans =
    (s.valve.chans.modify (channelOf k x) fun c => { c with target := p }).modify (channelOf k x.partner)
      fun c => { c with target := 0 } := rfl

theorem State.intent_drive (s : State) (k : Ring) (x : Side) (p : Nat) : SameDrive s (s.intent k x p) := by
  intro c
  rw [State.intent_chans, PerChannel.get_modify, PerChannel.get_modify]
  split <;> split <;> rfl

theorem State.intent_hand (s : State) (hj : j ≠ k) (x : Side) (p : Nat) : SameHand j s (s.intent k x p) := by
  refine ⟨rfl, s.intent_rings_other hj x p, fun y => ?_⟩
  have hne : ∀ z, channelOf j y ≠ channelOf k z := fun z h => hj (channelOf_injective.mp h).1
  rw [State.intent_chans, PerChannel.get_modify, if_neg (hne _), PerChannel.get_modify, if_neg (hne _)]

theorem State.onSetpoint_hand (s : State) (hj : j ≠ k) (f : Setpoint → Setpoint) : SameHand j s (s.onSetpoint k f) :=
  ⟨by rw [State.onSetpoint_setpoint, PerRing.get_modify, if_neg hj], rfl, fun _ => rfl⟩

theorem State.evalPress_hand (s : State) (hj : j ≠ k) : SameHand j s (s.evalPress k) := by
  cases hr : s.servedRec k with
  | none =>
    rw [State.evalPress_of_no_record hr]
    exact .refl j s
  | some r =>
    cases hp : (s.ringState k).pressing
    · rw [State.evalPress_of_open hp]
      exact .refl j s
    · rw [State.evalPress_of_serving hp hr]
      exact (s.onSetpoint_hand hj _).trans
        (((State.onRec_touches _ _ _).hand (by decide) (by decide)).trans (State.intent_hand _ hj _ _))

theorem State.evalPress_drive (s : State) (k : Ring) : SameDrive s (s.evalPress k) := by
  cases hr : s.servedRec k with
  | none =>
    rw [State.evalPress_of_no_record hr]
    exact .refl s
  | some r =>
    cases hp : (s.ringState k).pressing
    · rw [State.evalPress_of_open hp]
      exact .refl s
    · rw [State.evalPress_of_serving hp hr]
      exact State.intent_drive _ _ _ _

theorem State.evalLift_hand (s : State) (hj : j ≠ k) : SameHand j s (s.evalLift k) := by
  cases hp : (s.ringState k).pressing
  · rw [State.evalLift_of_open hp]
    exact (s.onSetpoint_hand hj _).trans (State.intent_hand _ hj _ _)
  · exact ⟨s.evalLift_setpoint_other hj, by rw [State.evalLift_valve_of_pressing hp],
      fun _ => by rw [State.evalLift_valve_of_pressing hp]⟩

theorem State.evalLift_drive (s : State) (k : Ring) : SameDrive s (s.evalLift k) := by
  cases hp : (s.ringState k).pressing
  · rw [State.evalLift_of_open hp]
    exact State.intent_drive _ _ _ _
  · intro c
    rw [State.evalLift_valve_of_pressing hp]

theorem State.evalLiftIn_hand (s : State) (st : RingState) (h : j ≠ k ∨ s.ringState k ≠ st) :
    SameHand j s (s.evalLiftIn st k) := by
  unfold State.evalLiftIn
  split
  · next hst => exact s.evalLift_hand (h.resolve_right (not_not.mpr hst))
  · exact .refl j s

theorem State.evalLiftIn_drive (s : State) (st : RingState) (k : Ring) : SameDrive s (s.evalLiftIn st k) := by
  unfold State.evalLiftIn
  split
  · exact s.evalLift_drive k
  · exact .refl s

/-- The table swapped, SWAP_DONE raised and the advisory recomputed, before the arming lifts are worked out anew. -/
def State.swapped (s : State) : State :=
  (({ s with recipes := { s.recipes with active := s.recipes.shadow, swapPending := false } } : State).notice
    .swapDone).advise

theorem State.swap_eq (s : State) : s.swap = (s.swapped.evalLiftIn .armed .a).evalLiftIn .armed .b := rfl

theorem State.swapped_touches (s : State) : Touches [.recipes, .ports, .lastAdvise] s s.swapped := by
  have hcopied : Touches [.recipes, .ports, .lastAdvise] s
      { s with recipes := { s.recipes with active := s.recipes.shadow, swapPending := false } } := by
    constructor <;> simp
  exact hcopied.trans (((State.notice_touches _ _).mono (by decide)).trans ((State.advise_touches _).mono (by decide)))

/-- A swap evaluates the lift of an armed ring alone. -/
theorem State.swap_hand (s : State) (h : s.ringState j ≠ .armed) : SameHand j s s.swap := by
  have hring : s.swapped.ring = s.ring := s.swapped_touches.ring.resolve_left (by decide)
  have hstate : ∀ t : State, t.ring = s.ring → ∀ i, j ≠ i ∨ t.ringState i ≠ .armed := by
    intro t ht i
    by_cases hi : j = i
    · subst hi
      exact .inr (by rwa [State.ringState, ht])
    · exact .inl hi
  rw [State.swap_eq]
  exact (s.swapped_touches.hand (by decide) (by decide)).trans
    ((State.evalLiftIn_hand _ _ (hstate _ hring _)).trans
      (State.evalLiftIn_hand _ _ (hstate _ ((State.evalLiftIn_ring _ _ _).trans hring) _)))

theorem State.swap_drive (s : State) : SameDrive s s.swap := by
  rw [State.swap_eq]
  exact (s.swapped_touches.drive (by decide)).trans
    ((State.evalLiftIn_drive _ _ _).trans (State.evalLiftIn_drive _ _ _))

theorem State.reportClear_of_b (s : State) : s.reportClear .b = s.markEvent (clearSource .b) := rfl

theorem State.reportClear_of_a (s : State) : s.reportClear .a = (s.markEvent (clearSource .a)).gapSignal := rfl

theorem State.reportClear_hand (s : State) (k : Ring) (h : s.ringState j ≠ .armed) : SameHand j s (s.reportClear k) := by
  have hmark : ∀ src, SameHand j s (s.markEvent src) := fun src => (s.markEvent_touches src).hand (by decide) (by decide)
  cases k with
  | b => exact hmark _
  | a =>
    rw [State.reportClear_of_a, State.gapSignal]
    split
    · exact (hmark _).trans (State.swap_hand _ (by rwa [State.ringState, State.markEvent_ring]))
    · exact hmark _

theorem State.reportClear_drive (s : State) (k : Ring) : SameDrive s (s.reportClear k) := by
  have hmark : ∀ src, SameDrive s (s.markEvent src) := fun src => (s.markEvent_touches src).drive (by decide)
  cases k with
  | b => exact hmark _
  | a =>
    rw [State.reportClear_of_a, State.gapSignal]
    split
    · exact (hmark _).trans (State.swap_drive _)
    · exact hmark _

/-- A passage to an open state leaves the other ring's hand, where that ring is not armed. -/
theorem State.goOpen_hand (s : State) (hj : j ≠ k) (h : s.ringState j ≠ .armed) (st : RingState) (armed : Option Nat) :
    SameHand j s (s.goOpen k st armed) := by
  have hopened : SameHand j s (s.opened k st armed) := (s.opened_touches k st armed).hand (by decide) (by decide)
  have hstate : (s.opened k st armed).ringState j ≠ .armed := by
    rw [State.ringState, State.opened, State.onSeq_ring, PerRing.get_modify, if_neg hj]
    exact h
  cases hp : (s.ringState k).pressing
  · rw [State.goOpen_of_open hp]
    exact hopened.trans (State.evalLift_hand _ hj)
  · have hleft : SameHand j s (((s.opened k st armed).unpressed k).evalLift k) :=
      hopened.trans ((State.onSetpoint_hand _ hj _).trans (State.evalLift_hand _ hj))
    have hleftState : (((s.opened k st armed).unpressed k).evalLift k).ringState j ≠ .armed := by
      rw [State.ringState, State.evalLift_ring]
      exact hstate
    by_cases hst : st = .held
    · subst hst
      rw [State.goOpen_held_of_pressing hp]
      exact hleft.trans (((State.flagStanding_touches _ k).hand (by decide) (by decide)).trans
        (State.reportClear_hand _ k (by rwa [State.ringState, State.flagStanding_ring])))
    · rw [State.goOpen_of_pressing hp hst]
      exact hleft.trans (State.reportClear_hand _ k hleftState)

theorem State.goOpen_drive (s : State) (k : Ring) (st : RingState) (armed : Option Nat) :
    SameDrive s (s.goOpen k st armed) := by
  have hopened : SameDrive s (s.opened k st armed) := (s.opened_touches k st armed).drive (by decide)
  have hleft : SameDrive s (((s.opened k st armed).unpressed k).evalLift k) :=
    hopened.trans (((State.unpressed_touches _ k).drive (by decide)).trans (State.evalLift_drive _ k))
  cases hp : (s.ringState k).pressing
  · rw [State.goOpen_of_open hp]
    exact hopened.trans (State.evalLift_drive _ k)
  · by_cases hst : st = .held
    · subst hst
      rw [State.goOpen_held_of_pressing hp]
      exact hleft.trans (((State.flagStanding_touches _ k).drive (by decide)).trans (State.reportClear_drive _ k))
    · rw [State.goOpen_of_pressing hp hst]
      exact hleft.trans (State.reportClear_drive _ k)

theorem State.goPress_hand (s : State) (hj : j ≠ k) (st : RingState) (key : Nat) : SameHand j s (s.goPress k st key) := by
  have heval : SameHand j s ((s.pressed k st key).evalPress k) :=
    ((s.pressed_touches k st key).hand (by decide) (by decide)).trans (State.evalPress_hand _ hj)
  by_cases hst : st = .entry
  · subst hst
    exact heval.trans ((State.markEvent_touches _ _).hand (by decide) (by decide))
  · rw [State.goPress_of_ne_entry s k hst]
    exact heval

theorem State.goPress_drive (s : State) (k : Ring) (st : RingState) (key : Nat) : SameDrive s (s.goPress k st key) := by
  have heval : SameDrive s ((s.pressed k st key).evalPress k) :=
    ((s.pressed_touches k st key).drive (by decide)).trans (State.evalPress_drive _ k)
  by_cases hst : st = .entry
  · subst hst
    exact heval.trans ((State.markEvent_touches _ _).drive (by decide))
  · rw [State.goPress_of_ne_entry s k hst]
    exact heval

theorem State.takeGeometry_hand (s : State) (hj : j ≠ k) (h : s.ringState j ≠ .armed) :
    SameHand j s (s.takeGeometry k) := by
  unfold State.takeGeometry
  split
  · exact s.goPress_hand hj _ _
  · unfold State.goWaiting
    split <;> exact s.goOpen_hand hj h _ _

theorem State.takeGeometry_drive (s : State) (k : Ring) : SameDrive s (s.takeGeometry k) := by
  unfold State.takeGeometry
  split
  · exact s.goPress_drive k _ _
  · unfold State.goWaiting
    split <;> exact s.goOpen_drive k _ _

end Hand

/-! ### A ring at a change of level (R123, R124, R126) -/

section Level

variable {s : State} {k : Ring}

theorem State.ringLevel_of_held (hheld : s.ringState k = .held) (h : s.release.level ≠ .none) : s.ringLevel k = s := by
  unfold State.ringLevel
  cases hl : s.release.level with
  | none => exact absurd hl h
  | _ => simp [hheld]

theorem State.ringLevel_of_none (h : s.release.level = .none) (hheld : s.ringState k ≠ .held) : s.ringLevel k = s := by
  simp [State.ringLevel, h, hheld]

theorem State.ringLevel_of_none_setup (h : s.release.level = .none) (hheld : s.ringState k = .held)
    (hmode : s.control.mode = .setup) : s.ringLevel k = s.goOpen k .idle none := by
  simp [State.ringLevel, h, hheld, hmode]

theorem State.ringLevel_of_none_held (h : s.release.level = .none) (hheld : s.ringState k = .held)
    (hmode : s.control.mode ≠ .setup) : s.ringLevel k = s.takeGeometry k := by
  simp [State.ringLevel, h, hheld, hmode]

theorem State.ringLevel_of_high (h : s.release.level = .immediate ∨ s.release.level = .estop)
    (hheld : s.ringState k ≠ .held) : s.ringLevel k = s.goOpen k .held none := by
  obtain h | h := h <;> simp [State.ringLevel, h, hheld]

theorem State.ringLevel_held (h : s.release.level = .immediate ∨ s.release.level = .estop) :
    (s.ringLevel k).ringState k = .held := by
  by_cases hheld : s.ringState k = .held
  · rw [State.ringLevel_of_held hheld (by obtain h | h := h <;> rw [h] <;> decide)]
    exact hheld
  · rw [State.ringLevel_of_high h hheld]
    exact (s.goOpen_state k _ _).1

theorem State.ringLevel_other (s : State) {j : Ring} (hj : j ≠ k) : (s.ringLevel k).ring.get j = s.ring.get j := by
  have hopen : ∀ st armed, (s.goOpen k st armed).ring.get j = s.ring.get j := fun st armed => s.goOpen_other k j st armed hj
  have hplaced : (s.takeGeometry k).ring.get j = s.ring.get j := s.takeGeometry_other k j hj
  cases hl : s.release.level with
  | none => simp only [State.ringLevel, hl]; split_ifs <;> simp only [hopen, hplaced]
  | _ => simp only [State.ringLevel, hl]; split_ifs <;> simp only [hopen]

theorem State.ringLevel_drive (s : State) (k : Ring) : SameDrive s (s.ringLevel k) := by
  have hopen : ∀ st armed, SameDrive s (s.goOpen k st armed) := s.goOpen_drive k
  have hplaced := s.takeGeometry_drive k
  cases hl : s.release.level with
  | none => simp only [State.ringLevel, hl]; split_ifs <;> simp only [hopen, hplaced, SameDrive.refl]
  | _ => simp only [State.ringLevel, hl]; split_ifs <;> simp only [hopen, SameDrive.refl]

end Level

/-! ### The whole change (R156) -/

/-- Both rings take the level now held. -/
def State.ringsLevel (s : State) : State := (s.ringLevel .a).ringLevel .b

/-- The held rings' lift targets are worked out where the level was ESTOP or is. -/
def State.relit (s : State) (before : Level) : State :=
  if before = .estop ∨ s.release.level = .estop then (s.evalLiftIn .held .a).evalLiftIn .held .b else s

/-- A rise from NONE is handed to the marks. -/
def State.markRise (s : State) (before : Level) : State := if before = .none then s.markEvent .release else s

theorem State.ringsLevel_works (s : State) : Works s s.ringsLevel := (s.ringLevel_works .a).trans (State.ringLevel_works _ .b)

theorem State.relit_works (s : State) (before : Level) : Works s (s.relit before) := lifts_chain s _

theorem State.relit_touches (s : State) (before : Level) : Touches [.setpoint, .valve, .freeCount] s (s.relit before) := by
  unfold State.relit
  split
  · exact (State.evalLiftIn_touches _ _ _).trans (State.evalLiftIn_touches _ _ _)
  · exact .refl _ s

theorem State.relit_drive (s : State) (before : Level) : SameDrive s (s.relit before) := by
  unfold State.relit
  split
  · exact (State.evalLiftIn_drive _ _ _).trans (State.evalLiftIn_drive _ _ _)
  · exact .refl s

theorem State.markRise_touches (s : State) (before : Level) : Touches [.marks, .permit, .ports] s (s.markRise before) := by
  unfold State.markRise
  split
  · exact s.markEvent_touches _
  · exact .refl _ s

theorem State.valveLevel_touches (s : State) (before : Level) : Touches [.valve] s (s.valveLevel before) := by
  constructor <;> simp [State.valveLevel]

theorem State.recomputePermit_touches (s : State) : Touches [.permit] s s.recomputePermit := by
  constructor <;> simp [State.recomputePermit]

theorem State.relevel_of_eq {s : State} (h : s.release.causes.level = s.release.level) : s.relevel = s := if_pos h

/-- A change of level, owner by owner. -/
theorem State.relevel_of_ne {s : State} (h : s.release.causes.level ≠ s.release.level) : s.relevel =
    ((((s.leveled.ringsLevel.valveLevel s.release.level).relit s.release.level).recomputePermit).markRise
      s.release.level).notice .releaseChanged := by
  have hlevel : (s.leveled.ringsLevel.valveLevel s.release.level).release.level = s.release.causes.level := by
    show s.leveled.ringsLevel.release.level = _
    rw [s.leveled.ringsLevel_works.release]
    rfl
  rw [State.relit, hlevel]
  unfold State.relevel
  exact if_neg h

/-- After the owners of the targets have acted, the permit, the marks and the notice follow. -/
theorem State.relevel_touches {s : State} (h : s.release.causes.level ≠ s.release.level) :
    Touches [.permit, .marks, .ports] ((s.leveled.ringsLevel.valveLevel s.release.level).relit s.release.level)
      s.relevel := by
  rw [State.relevel_of_ne h]
  exact ((State.recomputePermit_touches _).mono (by decide)).trans
    (((State.markRise_touches _ _).mono (by decide)).trans ((State.notice_touches _ _).mono (by decide)))

theorem State.relevel_ring {s : State} (h : s.release.causes.level ≠ s.release.level) :
    s.relevel.ring = s.leveled.ringsLevel.ring := by
  rw [(State.relevel_touches h).ring.resolve_left (by decide), (State.relit_touches _ _).ring.resolve_left (by decide),
    (State.valveLevel_touches _ _).ring.resolve_left (by decide)]

theorem State.relevel_track {s : State} (h : s.release.causes.level ≠ s.release.level) :
    s.relevel.track = s.leveled.ringsLevel.track := by
  rw [(State.relevel_touches h).track.resolve_left (by decide), (State.relit_touches _ _).track.resolve_left (by decide),
    (State.valveLevel_touches _ _).track.resolve_left (by decide)]

theorem State.relevel_noticed {s : State} (h : s.release.causes.level ≠ s.release.level) (p : Port) :
    NoticeKind.releaseChanged ∈ (s.relevel.ports.get p).status := by
  rw [State.relevel_of_ne h]
  exact State.mem_notice_status _ _ p

theorem State.relevel_drive (s : State) : SameDrive s s.relevel := by
  by_cases h : s.release.causes.level = s.release.level
  · rw [State.relevel_of_eq h]
    exact .refl s
  · have hrings : SameDrive s s.leveled.ringsLevel := (s.leveled.ringLevel_drive .a).trans (State.ringLevel_drive _ .b)
    have hvalve : SameDrive s (s.leveled.ringsLevel.valveLevel s.release.level) := fun c => by
      rw [State.valveLevel_chans]
      exact hrings c
    exact hvalve.trans ((State.relit_drive _ _).trans ((State.relevel_touches h).drive (by decide)))

/-- Where the causes' level is IMMEDIATE or above both rings are HELD once it is worked out. -/
theorem State.relevel_held {s : State} (hr : ∀ k, s.ringRight k) (h : 2 ≤ s.release.causes.level.rank) (k : Ring) :
    s.relevel.ringState k = .held := by
  refine (State.relevel_ringRight hr (k := k)).allowed.2 ?_
  rw [s.relevel_release]
  show s.release.causes.level = _ ∨ s.release.causes.level = _
  cases hl : s.release.causes.level <;> simp [hl, Level.rank] at h ⊢

/-! ### A cause raised (R155, R156) -/

theorem State.raiseCause_of_has {s : State} {c : Cause} (h : s.release.causes.has c = true) : s.raiseCause c = s :=
  if_pos h

/-- A cause as it stands entered, before the level is worked out. -/
def State.entered (s : State) (c : Causes) : State := { s with release := { s.release with causes := c } }

theorem State.raiseCause_of_absent {s : State} {c : Cause} (h : s.release.causes.has c = false) :
    s.raiseCause c = (s.entered (s.release.causes.add c)).relevel := by
  simp only [State.raiseCause, h, Bool.false_eq_true, if_false]
  rfl

theorem State.entered_ringRight {s : State} (h : ∀ k, s.ringRight k) (c : Causes) (k : Ring) : (s.entered c).ringRight k :=
  ⟨(h k).allowed, (h k).named⟩

/-! ### The causes that hold the rings (R155) -/

theorem Causes.rank_of_fixed {c : Causes} {l : Level} (h : l ∈ c.fixedLevels) : l.rank ≤ c.level.rank := by
  have hle := c.fixedLevel_highest.1 l h
  rw [Causes.rank_level]
  omega

theorem Causes.rank_of_estop {c : Causes} (h : c.estop = true) : 3 ≤ c.level.rank :=
  Causes.rank_of_fixed (l := .estop) ((c.mem_fixedLevels _).mpr (.inl ⟨h, rfl⟩))

theorem Causes.level_of_estop {c : Causes} (h : c.estop = true) : c.level = .estop := by
  have hrank := Causes.rank_of_estop h
  cases hl : c.level <;> simp [hl, Level.rank] at hrank ⊢

/-- Every cause but TRACK_LOST is one of IMMEDIATE or ESTOP. -/
theorem Causes.rank_of_has {c : Causes} {x : Cause} (h : c.has x = true) (hx : x ≠ .trackLost) : 2 ≤ c.level.rank := by
  cases x with
  | estop => exact (Causes.rank_of_estop h).trans' (by decide)
  | rotor => exact Causes.rank_of_fixed (l := .immediate) ((c.mem_fixedLevels _).mpr (.inr (.inl ⟨.inl h, rfl⟩)))
  | valveFault ch =>
    exact Causes.rank_of_fixed (l := .immediate) ((c.mem_fixedLevels _).mpr (.inr (.inl ⟨.inr ⟨ch, h⟩, rfl⟩)))
  | trackLost => exact absurd rfl hx

theorem Causes.has_add (c : Causes) (x : Cause) : (c.add x).has x = true := by
  cases x <;> simp [Causes.has, Causes.add]

theorem Causes.add_of_has {c : Causes} {x : Cause} (h : c.has x = true) : c.add x = c := by
  cases x with
  | valveFault ch =>
    have hmodify : c.valveFault.modify ch (fun _ => true) = c.valveFault := by
      ext j
      rw [PerChannel.get_modify]
      split
      · next hj => rw [hj]; exact h.symm
      · rfl
    rw [Causes.add, hmodify]
  | _ => cases c; cases h; rfl

theorem State.raiseCause_release {s : State} (hl : s.levelRight) (c : Cause) : (s.raiseCause c).release =
    { s.release with causes := s.release.causes.add c, level := (s.release.causes.add c).level } := by
  cases h : s.release.causes.has c
  · rw [State.raiseCause_of_absent h, State.relevel_release]
    rfl
  · rw [State.raiseCause_of_has h, Causes.add_of_has h, ← show s.release.level = _ from hl]

theorem State.raiseCause_held {s : State} (hr : ∀ k, s.ringRight k) (hl : s.levelRight) {c : Cause} (hc : c ≠ .trackLost) :
    2 ≤ (s.raiseCause c).release.level.rank ∧ ∀ k, (s.raiseCause c).ringState k = .held := by
  have hrank : 2 ≤ (s.raiseCause c).release.level.rank := by
    rw [State.raiseCause_release hl]
    exact Causes.rank_of_has (Causes.has_add _ c) hc
  refine ⟨hrank, fun k => ((s.raiseCause_internal c).ringRight hr k).allowed.2 ?_⟩
  cases hlevel : (s.raiseCause c).release.level <;> simp [hlevel, Level.rank] at hrank ⊢

theorem State.raiseCause_drive (s : State) (c : Cause) : SameDrive s (s.raiseCause c) := by
  cases h : s.release.causes.has c
  · rw [State.raiseCause_of_absent h]
    exact (State.relevel_drive _ : SameDrive (s.entered _) _)
  · rw [State.raiseCause_of_has h]
    exact .refl s

/-! ### A channel's fault (R149) -/

/-- What a channel that enters FAULT or MUTE leaves. -/
theorem State.enterFault_facts {s : State} (hr : ∀ k, s.ringRight k) (hl : s.levelRight) (c : Channel) (st : ChannelState) :
    let t := s.enterFault c st
    (t.valve.chans.get c).state = st ∧ (t.valve.chans.get c).timer = false ∧
      (t.valve.chans.get c).badRun = (s.valve.chans.get c).badRun ∧
      t.release.causes = { s.release.causes with valveFault := s.release.causes.valveFault.modify c fun _ => true } ∧
      2 ≤ t.release.level.rank ∧ (∀ k, t.ringState k = .held) ∧
      (∀ p, NoticeKind.valveFault ∈ (t.ports.get p).status) ∧ SameOuter s t := by
  intro t
  generalize hu : s.onChan c (fun x => { x with state := st, timer := false }) = u
  have ht : t = (u.raiseCause (.valveFault c)).notice .valveFault := by rw [← hu]; rfl
  have hur : ∀ k, u.ringRight k := by
    subst hu
    exact fun k => ⟨(hr k).allowed, (hr k).named⟩
  have hul : u.levelRight := by
    subst hu
    exact hl
  have hrelease : u.release = s.release := by rw [← hu]; rfl
  have houter : SameOuter s u := by
    subst hu
    exact ⟨rfl, rfl, rfl, rfl, rfl, rfl, rfl, rfl, fun _ => .refl _⟩
  have hchan : u.valve.chans.get c = { s.valve.chans.get c with state := st, timer := false } := by
    subst hu
    exact PerChannel.get_modify_self _ _ _
  have hdrive : { t.valve.chans.get c with target := 0 } = { u.valve.chans.get c with target := 0 } := by
    rw [ht]
    exact u.raiseCause_drive (.valveFault c) c
  rw [hchan] at hdrive
  obtain ⟨hrank, hheld⟩ := State.raiseCause_held hur hul (c := .valveFault c) nofun
  refine ⟨?_, ?_, ?_, ?_, ?_, ?_, ?_, ?_⟩
  · exact congrArg Chan.state hdrive
  · exact congrArg Chan.timer hdrive
  · have hrun := congrArg Chan.badRun hdrive
    exact hrun
  · rw [ht]
    show (u.raiseCause _).release.causes = _
    rw [State.raiseCause_release hul, hrelease]
    rfl
  · rw [ht]
    exact hrank
  · rw [ht]
    exact hheld
  · rw [ht]
    exact State.mem_notice_status _ _
  · rw [ht]
    exact houter.trans ((u.raiseCause_internal _).sameOuter.trans (State.notice_works _ _).sameOuter)

/-! ### O44 -/

theorem State.onChan_chan_self (s : State) (c : Channel) (f : Chan → Chan) :
    (s.onChan c f).valve.chans.get c = f (s.valve.chans.get c) := PerChannel.get_modify_self _ _ _

theorem State.badEcho_of_third {s : State} {c : Channel} (hrun : 2 ≤ (s.valve.chans.get c).badRun)
    (hjudged : (s.valve.chans.get c).state.judged = true) :
    s.badEcho c = (s.onChan c fun x => { x with badRun := 3 }).enterFault c .mute := by
  have hmin : min ((s.valve.chans.get c).badRun + 1) 3 = 3 := by omega
  simp only [State.badEcho, hmin, hjudged, and_self, if_true]

theorem ChannelState.judged_iff {st : ChannelState} : st.judged = true ↔ st = .ok ∨ st = .deviating := by
  cases st <;> decide

theorem execEchoReceived_of_bad {s : State} {c : Channel} {w : Word16} (hwait : (s.valve.chans.get c).wait = true)
    (hbad : echoGood w = false) :
    exec (.echoReceived c w) s = .next ((s.onChan c fun x => { x with wait := false }).badEcho c) := by
  show execEchoReceived c w s = _
  simp only [execEchoReceived, hwait, hbad, if_true, Bool.false_eq_true, if_false]

theorem execEchoReceived_of_good {s : State} {c : Channel} {w : Word16} (hwait : (s.valve.chans.get c).wait = true)
    (hgood : echoGood w = true) :
    exec (.echoReceived c w) s = .next ((s.onChan c fun x => { x with wait := false }).goodEcho c w) := by
  show execEchoReceived c w s = _
  simp only [execEchoReceived, hwait, hgood, if_true]

theorem State.goodEcho_of_fault {s : State} {c : Channel} {w : Word16} (hjudged : (s.valve.chans.get c).state.judged = true)
    (hfault : echoFault w = true) : s.goodEcho c w =
      (s.onChan c fun q => ({ q with measured := echoCode w, badRun := 0 } : Chan).compare (echoCode w)).enterFault c
        .fault := by
  simp only [State.goodEcho, hjudged, hfault, Bool.and_self, if_true]

/-- With every echo enabled and one echo missing, the frames go out and that channel counts a bad echo. -/
theorem exec_valveFrame_of_missing {s : State} {c : Channel} (hwait : ∀ d, (s.valve.chans.get d).wait = decide (d = c))
    (hecho : ∀ d, s.points.echoEnable.get d = true) :
    exec .valveFrame s = .next (State.badEcho { s with valve := s.valve.frame s.points s.release.level } c) := by
  have hmissing : Channel.all.filter (fun d => (s.valve.chans.get d).wait) = [c] := by
    simp only [hwait]
    cases c <;> decide
  have hsilent : ∀ t : State, t.points = s.points → ∀ d, t.reportSilent d = t := by
    intro t ht d
    rw [State.reportSilent, ht, if_pos (hecho d)]
  have hreports : ∀ (t : State), t.points = s.points → ∀ l : List Channel, l.foldl State.reportSilent t = t := by
    intro t ht l
    induction l with
    | nil => rfl
    | cons d l ih => rw [List.foldl_cons, hsilent t ht, ih]
  show execValveFrame s = _
  simp only [execValveFrame, hmissing, List.foldl_cons, List.foldl_nil]
  rw [hreports]
  rfl

theorem Valve.frame_badRun (v : Valve) (pts : Points) (level : Level) (c : Channel) :
    ((v.frame pts level).chans.get c).badRun = (v.chans.get c).badRun ∧
      ((v.frame pts level).chans.get c).state = (v.chans.get c).state := by
  cases c <;> exact ⟨rfl, rfl⟩

/-- Settles O44: each of the four ways hands the channel to `enterFault` with its run and its cause. -/
theorem channelFaultHoldsTheRings : Obligations.ChannelFaultHoldsTheRings := by
  refine ⟨?faults, fun s c => ⟨fun h => ?_, fun htimer hstate => ?_⟩⟩
  case faults =>
    intro s c i st hr hl x hx hways
    have hjudged : (s.valve.chans.get c).state.judged = true := ChannelState.judged_iff.mpr hx
    suffices h : ∃ u : State, exec i s = .next (u.enterFault c st) ∧ u.ring = s.ring ∧ u.release = s.release ∧
        u.control = s.control ∧ (st = .mute → (u.valve.chans.get c).badRun = 3) ∧ SameOuter s u by
      obtain ⟨u, hexec, hring, hrelease, hcontrol, hrun, houter⟩ := h
      have hur : ∀ k, u.ringRight k := by
        intro k
        have hstate : u.ringState k = s.ringState k := by rw [State.ringState, State.ringState, hring]
        refine ⟨?_, by rw [hring]; exact (hr k).named⟩
        rw [hstate, State.allows, hcontrol, hrelease]
        exact (hr k).allowed
      have hul : u.levelRight := by
        rw [State.levelRight, hrelease]
        exact hl
      obtain ⟨hst, htimer, hkept, hcauses, hrank, hheld, hnotice, hchain⟩ := State.enterFault_facts hur hul c st
      rw [hrelease] at hcauses
      exact ⟨_, hexec, hst, htimer, fun hm => hkept.trans (hrun hm), hcauses, hrank, hheld, hnotice, houter.trans hchain⟩
    obtain ⟨rfl, hwait, w, rfl, hgood, hfault⟩ | ⟨rfl, hwait, hrun, w, rfl, hbad⟩ | ⟨rfl, hrun, rfl, hwait, hecho⟩ |
      ⟨rfl, hdev, htimer, rfl⟩ := hways
    · have hfaulted := State.goodEcho_of_fault (s := s.onChan c fun q => { q with wait := false }) (c := c) (w := w)
        (by rw [State.onChan_chan_self]; exact hjudged) hfault
      exact ⟨_, (execEchoReceived_of_good hwait hgood).trans (congrArg _ hfaulted), rfl, rfl, rfl, nofun,
        rfl, rfl, rfl, rfl, rfl, rfl, rfl, rfl, fun _ => .refl _⟩
    · have hmuted := State.badEcho_of_third (s := s.onChan c fun q => { q with wait := false }) (c := c)
        (by rw [State.onChan_chan_self]; exact hrun) (by rw [State.onChan_chan_self]; exact hjudged)
      refine ⟨_, (execEchoReceived_of_bad hwait hbad).trans (congrArg _ hmuted), rfl, rfl, rfl, fun _ => ?_,
        rfl, rfl, rfl, rfl, rfl, rfl, rfl, rfl, fun _ => .refl _⟩
      rw [State.onChan_chan_self]
    · obtain ⟨hkeptRun, hkeptState⟩ := s.valve.frame_badRun s.points s.release.level c
      have hmuted := State.badEcho_of_third (s := { s with valve := s.valve.frame s.points s.release.level }) (c := c)
        (hkeptRun.symm ▸ hrun) (hkeptState.symm ▸ hjudged)
      refine ⟨_, (exec_valveFrame_of_missing hwait hecho).trans (congrArg _ hmuted), rfl, rfl, rfl, fun _ => ?_,
        rfl, rfl, rfl, rfl, rfl, rfl, rfl, rfl, fun _ => .refl _⟩
      rw [State.onChan_chan_self]
    · refine ⟨s, ?_, rfl, rfl, rfl, nofun, .refl s⟩
      show execDeviationTimeout c s = _
      simp only [execDeviationTimeout, show (s.valve.chans.get c).timer = true from htimer,
        show (s.valve.chans.get c).state = .deviating from hdev, decide_true, Bool.and_self, if_true]
  · show execDeviationTimeout c s = _
    simp only [execDeviationTimeout, h, Bool.false_and, Bool.false_eq_true, if_false]
  · show execDeviationTimeout c s = _
    simp only [execDeviationTimeout, htimer, hstate, decide_true, Bool.and_self, if_true]
    rfl

/-! ### RELEASE (R160) -/

theorem State.enterRequest_eq (s : State) (p : Port) (l : Level) :
    s.enterRequest p l = (s.entered (s.release.causes.request p l)).relevel := rfl

theorem Causes.request_rank (c : Causes) (p : Port) (l : Level) : l.rank ≤ (c.request p l).level.rank := by
  rw [Causes.rank_level]
  cases p <;> simp only [Causes.request, Option.getD_some] <;> omega

theorem releaseLevelOf_of_ne {n : Nat} (h1 : n ≠ 1) (h2 : n ≠ 2) : releaseLevelOf n = none := by
  unfold releaseLevelOf
  split
  · exact absurd rfl h1
  · exact absurd rfl h2
  · rfl

theorem releaseEffect_of_none {s : State} {p : Port} {r : Req} (h : releaseLevelOf (u8 r.payload 0) = none) :
    releaseEffect p r s = ⟨s, .badValue, []⟩ := by
  simp only [releaseEffect, h]

theorem releaseEffect_of_some {s : State} {p : Port} {r : Req} {l : Level} (h : releaseLevelOf (u8 r.payload 0) = some l) :
    releaseEffect p r s = ⟨s.enterRequest p l, .ok, []⟩ := by
  simp only [releaseEffect, h]

/-- Settles O45: the request is entered and the level worked out once. -/
theorem releaseEntersThePortsRequest : Obligations.ReleaseEntersThePortsRequest := by
  intro s p r rest htakes hr
  have hexec := exec_serve_of_takes (i := .release p) (effect := releaseEffect p) rfl htakes
  refine ⟨fun ⟨h1, h2⟩ => ?_, fun l hl => ?_⟩
  · rw [hexec, releaseEffect_of_none (releaseLevelOf_of_ne h1 h2)]
  · have hof : releaseLevelOf (u8 r.payload 0) = some l := by
      obtain ⟨rfl, h⟩ | ⟨rfl, h⟩ := hl <;> rw [h] <;> rfl
    have hrelease : (s.enterRequest p l).release = { s.release with
        causes := s.release.causes.request p l, level := (s.release.causes.request p l).level } := by
      rw [State.enterRequest_eq, State.relevel_release]
      rfl
    have hcauses : s.release.causes.request p l = if p = .line then { s.release.causes with lineReq := some l }
        else { s.release.causes with panelReq := some l } := by
      cases p <;> rfl
    refine ⟨s.enterRequest p l, by rw [hexec, releaseEffect_of_some hof], ?_, ?_, ?_, ?_,
      (s.enterRequest_internal p l).sameOuter, fun himm k => ?_, fun hne q => ?_, fun heq => ?_⟩
    · rw [hrelease, ← hcauses]
    · rw [hrelease]
    · rw [hrelease]
    · rw [hrelease]
    · refine State.relevel_held (State.entered_ringRight hr _) ?_ k
      exact le_trans (by rw [himm]; decide) (s.release.causes.request_rank p l)
    · refine State.relevel_noticed (s := s.entered _) (fun heq => hne ?_) q
      rw [hrelease]
      exact heq
    · rw [hrelease] at heq
      rw [State.enterRequest_eq, State.relevel_of_eq heq]
      exact ⟨rfl, rfl, rfl⟩

/-! ### The emergency stop (R104, R105, R141, R157) -/

theorem bypassed_estop (x : Side) : bypassed .estop x = true := by cases x <;> rfl

/-- At ESTOP no interval runs. -/
theorem Interlock.relevel_estop (il : Interlock) (before : Level) :
    ((il.relevel before .estop .press).relevel before .estop .lift).interval = none := by
  obtain ⟨intent, released, interval, hold⟩ := il
  cases interval with
  | none => simp [Interlock.relevel, bypassed_estop]
  | some i =>
    obtain ⟨side, frames⟩ := i
    cases side <;> simp [Interlock.relevel, bypassed_estop]

theorem State.valveLevel_ring (s : State) (before : Level) (k : Ring) : (s.valveLevel before).valve.rings.get k =
    ((s.valve.rings.get k).relevel before s.release.level .press).relevel before s.release.level .lift := by
  cases k <;> rfl

/-- A held ring's evaluation at ESTOP: targets 0, and still no interval. -/
theorem State.evalLift_estop {s : State} {k : Ring} (hheld : s.ringState k = .held) (hestop : s.release.level = .estop)
    (hnone : (s.valve.rings.get k).interval = none) : let t := s.evalLift k
    (t.setpoint.get k).liftTarget = 0 ∧ (∀ y, (t.valve.chans.get (channelOf k y)).target = 0) ∧
      (t.valve.rings.get k).interval = none := by
  have hopen : (s.ringState k).pressing = false := by rw [hheld]; rfl
  have hzero : min (liftValue s k) s.points.ceiling = 0 := by simp [liftValue, hheld, hestop]
  refine ⟨by rw [State.evalLift_target, hzero], fun y => ?_, ?_⟩
  · cases y with
    | lift => rw [State.evalLift_handed hopen, hzero]
    | press =>
      rw [State.evalLift_of_open hopen]
      exact State.intent_target_partner _ k .lift _
  · rw [State.evalLift_of_open hopen, State.intent_rings, PerRing.get_modify_self]
    show (Interlock.take (s.valve.rings.get k) .lift _ (bypassed s.release.level .lift)).interval = none
    rw [hestop, bypassed_estop, Interlock.take]
    simp only [↓reduceIte]
    split_ifs
    · exact hnone
    · rfl
    · rfl

theorem State.ringsLevel_held {s : State} (h : s.release.level = .immediate ∨ s.release.level = .estop) (k : Ring) :
    s.ringsLevel.ringState k = .held := by
  cases k with
  | a =>
    rw [State.ringsLevel, State.ringState, State.ringLevel_other _ (by decide)]
    exact State.ringLevel_held h
  | b => exact State.ringLevel_held (by rw [(s.ringLevel_works .a).release]; exact h)

theorem State.relit_of_held {s : State} {before : Level} (hheld : ∀ k, s.ringState k = .held)
    (h : before = .estop ∨ s.release.level = .estop) : s.relit before = (s.evalLift .a).evalLift .b := by
  rw [State.relit, if_pos h, State.evalLiftIn_of_eq (hheld .a), State.evalLiftIn_of_eq]
  rw [State.ringState, State.evalLift_ring]
  exact hheld .b

/-- A rise to ESTOP leaves every target 0 and no interval running. -/
theorem State.relevel_estop {s : State} (hne : s.release.level ≠ .estop) (h : s.release.causes.level = .estop) :
    let t := s.relevel
    (∀ k, (t.setpoint.get k).liftTarget = 0) ∧ (∀ c, (t.valve.chans.get c).target = 0) ∧
      ∀ k, (t.valve.rings.get k).interval = none := by
  intro t
  have hchange : s.release.causes.level ≠ s.release.level := by rw [h]; exact Ne.symm hne
  generalize hv : s.leveled.ringsLevel.valveLevel s.release.level = v
  have hlevel : v.release.level = .estop := by
    rw [← hv]
    show s.leveled.ringsLevel.release.level = _
    rw [s.leveled.ringsLevel_works.release]
    exact h
  have hheld : ∀ k, v.ringState k = .held := by
    intro k
    rw [← hv]
    exact State.ringsLevel_held (s := s.leveled) (.inr h) k
  have hnone : ∀ k, (v.valve.rings.get k).interval = none := by
    intro k
    have hestop : s.leveled.ringsLevel.release.level = .estop := by rw [s.leveled.ringsLevel_works.release]; exact h
    rw [← hv, State.valveLevel_ring, hestop]
    exact Interlock.relevel_estop _ _
  have hafter : Touches [.permit, .marks, .ports] (v.relit s.release.level) t := hv ▸ State.relevel_touches hchange
  rw [State.relit_of_held hheld (.inr hlevel)] at hafter
  have ha := State.evalLift_estop (hheld .a) hlevel (hnone .a)
  have hkeptA : SameHand .a (v.evalLift .a) t := (State.evalLift_hand _ (by decide)).trans (hafter.hand (by decide) (by decide))
  have hkeptB : SameHand .b ((v.evalLift .a).evalLift .b) t := hafter.hand (by decide) (by decide)
  have hb : let w := (v.evalLift .a).evalLift .b
      (w.setpoint.get .b).liftTarget = 0 ∧ (∀ y, (w.valve.chans.get (channelOf .b y)).target = 0) ∧
        (w.valve.rings.get .b).interval = none := by
    refine State.evalLift_estop ?_ ?_ ?_
    · rw [State.ringState, State.evalLift_ring]
      exact hheld .b
    · rw [(v.evalLift_works .a).release]
      exact hlevel
    · rw [(State.evalLift_hand v (j := .b) (k := .a) (by decide)).interlock]
      exact hnone .b
  obtain ⟨hliftA, htargetA, hintervalA⟩ := ha
  obtain ⟨hliftB, htargetB, hintervalB⟩ := hb
  refine ⟨fun k => ?_, fun c => ?_, fun k => ?_⟩
  · cases k with
    | a => rw [hkeptA.setpoint, hliftA]
    | b => rw [hkeptB.setpoint, hliftB]
  · rw [Channel.eq_channelOf c]
    cases c.ring with
    | a => rw [hkeptA.chans, htargetA]
    | b => rw [hkeptB.chans, htargetB]
  · cases k with
    | a => rw [hkeptA.interlock, hintervalA]
    | b => rw [hkeptB.interlock, hintervalB]

/-- The emergency stop taken as ACTIVE. -/
theorem State.takeEstop_facts {s : State} (hr : ∀ k, s.ringRight k) (hl : s.levelRight) : let t := s.takeEstop
    t.release.causes = { s.release.causes with estop := true } ∧ t.release.estopActive = true ∧
      t.release.level = .estop ∧ t.permit = false ∧ (∀ k, t.ringState k = .held) ∧
      (s.release.level ≠ .estop → (∀ k, (t.setpoint.get k).liftTarget = 0) ∧ (∀ c, (t.valve.chans.get c).target = 0) ∧
        ∀ k, (t.valve.rings.get k).interval = none) ∧ SameOuter s t := by
  intro t
  generalize hu : ({ s with release := { s.release with estopActive := true } } : State) = u
  have ht : t = (u.raiseCause .estop).recomputePermit := by rw [← hu]; rfl
  have hur : ∀ k, u.ringRight k := by
    subst hu
    exact fun k => ⟨(hr k).allowed, (hr k).named⟩
  have hul : u.levelRight := by
    subst hu
    exact hl
  have houter : SameOuter s u := by
    subst hu
    exact ⟨rfl, rfl, rfl, rfl, rfl, rfl, rfl, rfl, fun _ => .refl _⟩
  have hrelease : t.release =
      { s.release with estopActive := true, causes := s.release.causes.add .estop, level := .estop } := by
    rw [ht]
    show (u.raiseCause _).release = _
    rw [State.raiseCause_release hul, Causes.level_of_estop rfl, ← hu]
  refine ⟨by rw [hrelease]; rfl, by rw [hrelease], by rw [hrelease], ?_, ?_, fun hne => ?_, ?_⟩
  · have hactive : t.release.estopActive = true := by rw [hrelease]
    rw [ht] at hactive ⊢
    have hactive : (u.raiseCause .estop).release.estopActive = true := hactive
    show (u.raiseCause .estop).permitValue = false
    simp only [State.permitValue, hactive, Bool.true_or, Bool.not_true]
  · rw [ht]
    exact (State.raiseCause_held hur hul (c := .estop) (by decide)).2
  · have hlevel : u.release.level ≠ .estop := by rw [← hu]; exact hne
    have habsent : u.release.causes.has .estop = false := by
      refine Bool.eq_false_iff.mpr fun h => hlevel ?_
      rw [show u.release.level = _ from hul]
      exact Causes.level_of_estop h
    rw [ht, State.raiseCause_of_absent habsent]
    exact State.relevel_estop (s := u.entered _) hlevel (Causes.level_of_estop rfl)
  · rw [ht]
    exact houter.trans ((u.raiseCause_internal _).sameOuter.trans (State.recomputePermit_sameOuter _))

/-- A rotor-run level taken as STOPPED out of SETUP. -/
theorem State.takeRotor_stopped {s : State} {k : Ring} (hr : ∀ k, s.ringRight k) (hl : s.levelRight)
    (hmode : s.control.mode ≠ .setup) : let t := s.takeRotor k false
    t.release.causes = { s.release.causes with rotor := true } ∧ t.release.rotorRunning.get k = false ∧
      2 ≤ t.release.level.rank ∧ (∀ j, t.ringState j = .held) ∧ SameOuter s t := by
  intro t
  generalize hu : ({ s with release := { s.release with
    rotorRunning := s.release.rotorRunning.modify k fun _ => false } } : State) = u
  have ht : t = u.raiseCause .rotor := by
    rw [← hu]
    simp only [t, State.takeRotor, hmode, Bool.not_false, ne_eq, not_false_iff, decide_true, Bool.and_self, if_true]
  have hur : ∀ k, u.ringRight k := by
    subst hu
    exact fun k => ⟨(hr k).allowed, (hr k).named⟩
  have hul : u.levelRight := by
    subst hu
    exact hl
  have houter : SameOuter s u := by
    subst hu
    exact ⟨rfl, rfl, rfl, rfl, rfl, rfl, rfl, rfl, fun _ => .refl _⟩
  obtain ⟨hrank, hheld⟩ := State.raiseCause_held hur hul (c := .rotor) nofun
  refine ⟨?_, ?_, ht ▸ hrank, ht ▸ hheld, ht ▸ houter.trans (u.raiseCause_internal _).sameOuter⟩
  · rw [ht, State.raiseCause_release hul, ← hu]
    rfl
  · rw [ht, State.raiseCause_release hul, ← hu]
    exact PerRing.get_modify_self _ _ _

/-- Settles O48: each input's change and its taking. -/
theorem inputLevelsAreTaken : Obligations.InputLevelsAreTaken := by
  refine ⟨?estop, ?rotor⟩
  case estop =>
    intro s hr hl
    refine ⟨fun hline htaken => ?_, fun hline htaken => ?_, ?_, fun htaken hline => ?_, fun h => ?_⟩
    · generalize hu : ({ s with lines := { s.lines with estopActive := true } } : State) = u
      have hexec : exec (.estopInputChange true) s = .next u.takeEstop := by
        show execEstopInputChange true s = _
        simp [execEstopInputChange, hline, htaken, hu]
      have hur : ∀ k, u.ringRight k := by
        subst hu
        exact fun k => ⟨(hr k).allowed, (hr k).named⟩
      have hul : u.levelRight := by
        subst hu
        exact hl
      have hrelease : u.release = s.release := by rw [← hu]
      obtain ⟨hcauses, hactive, hlevel, hpermit, hheld, hzero, houter⟩ := State.takeEstop_facts hur hul
      rw [hrelease] at hcauses hzero
      exact ⟨_, hexec, hcauses, hactive, hlevel, hpermit, hheld,
        fun hne => ⟨(hzero hne).1, (hzero hne).2.1, fun k _ => (hzero hne).2.2 k⟩, houter⟩
    · show execEstopInputChange true s = _
      simp [execEstopInputChange, hline, htaken]
    · show execEstopInputChange false s = _
      unfold execEstopInputChange
      split
      · next h => rw [← h]
      · rfl
    · show execEstopInactiveTaken s = _
      simp [execEstopInactiveTaken, htaken, hline]
    · show execEstopInactiveTaken s = _
      obtain h | h := h <;> simp [execEstopInactiveTaken, h]
  case rotor =>
    intro s k b hr hl
    refine ⟨by cases k <;> rfl, rfl, rfl, ?_⟩
    intro now
    have hnow : now = Lines.rotor s.lines k := by cases k <;> rfl
    refine ⟨fun h => ?_, fun hne h => ?_, fun hne hstopped hmode => ?_⟩
    · exact if_pos (hnow ▸ h.symm)
    · have hexec : exec (.rotorLevelTaken k) s = .next (s.takeRotor k (Lines.rotor s.lines k)) :=
        if_neg fun heq => hne (hnow.trans heq.symm)
      rw [hexec, ← hnow]
      obtain h | h := h <;> simp [State.takeRotor, h]
    · have hexec : exec (.rotorLevelTaken k) s = .next (s.takeRotor k (Lines.rotor s.lines k)) :=
        if_neg fun heq => hne (hnow.trans heq.symm)
      rw [hexec, ← hnow, hstopped]
      exact ⟨_, rfl, State.takeRotor_stopped hr hl hmode⟩

end Sys2Proof.Machine
end

section
/-! PROOFS. The end of a release (R126, R141, R162): the state by geometry out of HELD, what a ring's hand is then, and
RESUME. -/

namespace Sys2Proof.Machine

/-! ### What the geometry reads -/

/-- Between two states what the geometry reads is the same: the points, the front, and each record but its flags. -/
structure SameGround (s t : State) : Prop where
  points : t.points = s.points
  feed : t.feed = s.feed
  track : t.track.map Rec.bare = s.track.map Rec.bare

theorem SameGround.refl (s : State) : SameGround s s := ⟨rfl, rfl, rfl⟩

theorem SameGround.trans {s t u : State} (h : SameGround s t) (g : SameGround t u) : SameGround s u :=
  ⟨g.points.trans h.points, g.feed.trans h.feed, g.track.trans h.track⟩

theorem SameView.ground {s t : State} (h : SameView s t) : SameGround s t := ⟨h.points, h.feed, h.track⟩

theorem ground_of_track {s t : State} (h : SameOuter s t) (htrack : t.track = s.track) : SameGround s t :=
  ⟨h.points, h.feed, by rw [htrack]⟩

theorem find?_bare {p : Rec → Bool} (hp : ∀ r, p r.bare = p r) {l l' : List Rec} (h : l'.map Rec.bare = l.map Rec.bare) :
    (l'.find? p).map Rec.bare = (l.find? p).map Rec.bare := by
  have hcomp : p ∘ Rec.bare = p := funext hp
  have hmap : ∀ l : List Rec, (l.find? p).map Rec.bare = (l.map Rec.bare).find? p := fun l => by
    rw [List.find?_map, hcomp]
  rw [hmap, hmap, h]

theorem Rec.eq_of_bare {q r : Rec} (h : q.bare = r.bare) :
    q.key = r.key ∧ q.b0 = r.b0 ∧ q.bound = r.bound ∧ q.length = r.length := by
  have hkey : q.bare.key = r.bare.key := by rw [h]
  have hb0 : q.bare.b0 = r.bare.b0 := by rw [h]
  have hbound : q.bare.bound = r.bare.bound := by rw [h]
  have hlength : q.bare.length = r.bare.length := by rw [h]
  exact ⟨hkey, hb0, hbound, hlength⟩

section Ground

variable {s t : State} {k : Ring}

theorem SameGround.standsIn (h : SameGround s t) (k : Ring) : standsIn t k = standsIn s k := by
  unfold Machine.standsIn frontDist
  rw [h.points, h.feed]

theorem SameGround.waitsAt (h : SameGround s t) (k : Ring) : waitsAt t k = waitsAt s k := by
  unfold Machine.waitsAt frontDist
  rw [h.points, h.feed]

theorem SameGround.standing (h : SameGround s t) (k : Ring) :
    (t.standing k).map Rec.bare = (s.standing k).map Rec.bare := by
  rw [State.standing, State.standing, h.standsIn]
  exact find?_bare (fun _ => rfl) h.track

theorem SameGround.firstWaiting (h : SameGround s t) (k : Ring) :
    (t.firstWaiting k).map Rec.bare = (s.firstWaiting k).map Rec.bare := by
  rw [State.firstWaiting, State.firstWaiting, h.waitsAt]
  exact find?_bare (fun _ => rfl) h.track

theorem SameGround.frontDist (h : SameGround s t) {q r : Rec} (hq : q.bare = r.bare) :
    frontDist t q = Machine.frontDist s r := by
  rw [Machine.frontDist, Machine.frontDist, h.feed, (Rec.eq_of_bare hq).2.1]

end Ground

theorem exists_of_map_bare {o o' : Option Rec} {r : Rec} (h : o'.map Rec.bare = o.map Rec.bare) (hr : o = some r) :
    ∃ q, o' = some q ∧ q.bare = r.bare := by
  rw [hr, Option.map_some] at h
  exact Option.map_eq_some_iff.mp h

theorem none_of_map_bare {o o' : Option Rec} (h : o'.map Rec.bare = o.map Rec.bare) (hn : o = none) : o' = none := by
  rw [hn, Option.map_none] at h
  exact Option.map_eq_none_iff.mp h

/-! ### Passages leave the ground -/

theorem onRec_bare (s : State) (key : Nat) {f : Rec → Rec} (hf : ∀ r, (f r).bare = r.bare) :
    (s.onRec key f).track.map Rec.bare = s.track.map Rec.bare := by
  rw [State.onRec_track, List.map_map]
  refine List.map_congr_left fun r _ => ?_
  simp only [Function.comp_apply]
  split
  · exact hf r
  · rfl

theorem Rec.flag_bare (r : Rec) {f : Flag} (h : f ≠ .buttFlare) : (r.flag [f]).bare = r.bare := by
  have hmem : Flag.buttFlare ∈ addFlags [f] r.flags ↔ Flag.buttFlare ∈ r.flags := by
    simp [mem_addFlags, Ne.symm h]
  simp only [Rec.bare, Rec.flag, hmem]

theorem State.flagStanding_ground (s : State) (k : Ring) : SameGround s (s.flagStanding k) := by
  unfold State.flagStanding
  split
  · exact ⟨rfl, rfl, onRec_bare s _ fun r => r.flag_bare (by decide)⟩
  · exact .refl s

theorem State.evalLift_ground (s : State) (k : Ring) : SameGround s (s.evalLift k) := (s.evalLift_view k).ground

theorem State.markEvent_ground (s : State) (src : MarkSource) : SameGround s (s.markEvent src) :=
  ground_of_track (s.markEvent_works src).sameOuter ((s.markEvent_touches src).track.resolve_left (by decide))

theorem State.reportClear_ground (s : State) (k : Ring) : SameGround s (s.reportClear k) :=
  ground_of_track (s.reportClear_works k).sameOuter ((s.reportClear_touches k).track.resolve_left (by decide))

theorem State.goOpen_ground (s : State) (k : Ring) (st : RingState) (armed : Option Nat) :
    SameGround s (s.goOpen k st armed) := by
  have hopened : SameGround s (s.opened k st armed) := ⟨rfl, rfl, rfl⟩
  have hleft : SameGround s (((s.opened k st armed).unpressed k).evalLift k) :=
    hopened.trans (SameGround.trans (t := (s.opened k st armed).unpressed k) ⟨rfl, rfl, rfl⟩ (State.evalLift_ground _ k))
  cases hp : (s.ringState k).pressing
  · rw [State.goOpen_of_open hp]
    exact hopened.trans (State.evalLift_ground _ k)
  · by_cases hst : st = .held
    · subst hst
      rw [State.goOpen_held_of_pressing hp]
      exact hleft.trans ((State.flagStanding_ground _ k).trans (State.reportClear_ground _ k))
    · rw [State.goOpen_of_pressing hp hst]
      exact hleft.trans (State.reportClear_ground _ k)

theorem State.goPress_ground (s : State) (k : Ring) (st : RingState) (key : Nat) : SameGround s (s.goPress k st key) := by
  have heval : SameGround s ((s.pressed k st key).evalPress k) :=
    SameGround.trans (t := s.pressed k st key) ⟨rfl, rfl, rfl⟩ (State.evalPress_view _ k).ground
  by_cases hst : st = .entry
  · subst hst
    exact heval.trans (State.markEvent_ground _ _)
  · rw [State.goPress_of_ne_entry s k hst]
    exact heval

theorem State.takeGeometry_ground (s : State) (k : Ring) : SameGround s (s.takeGeometry k) := by
  unfold State.takeGeometry
  split
  · exact s.goPress_ground k _ _
  · unfold State.goWaiting
    split <;> exact s.goOpen_ground k _ _

/-! ### The state by geometry (R126, R129) -/

theorem State.takeGeometry_of_standing {s : State} {k : Ring} {r : Rec} (h : s.standing k = some r) :
    s.takeGeometry k = s.goPress k (phaseByGeometry s k r) r.key := by
  simp only [State.takeGeometry, h]

theorem State.takeGeometry_of_none {s : State} {k : Ring} (h : s.standing k = none) : s.takeGeometry k = s.goWaiting k := by
  simp only [State.takeGeometry, h]

/-- A record is at or past its tail advance, by the front. -/
def AtTail (s : State) (k : Ring) (r : Rec) : Prop :=
  ∃ x len, r.bound = some x ∧ r.length = some len ∧ s.points.planeOf k + len - x.species.tailAdv ≤ frontDist s r

theorem phaseByGeometry_of_tail {s : State} {k : Ring} {r : Rec} (h : AtTail s k r) : phaseByGeometry s k r = .tail := by
  obtain ⟨x, len, hx, hlen, hle⟩ := h
  simp only [phaseByGeometry, hx, hlen, hle, if_true]

theorem phaseByGeometry_of_not_tail {s : State} {k : Ring} {r : Rec} (h : ¬AtTail s k r) : phaseByGeometry s k r = .body := by
  unfold phaseByGeometry
  split
  · next x len hx hlen => exact if_neg fun hle => h ⟨x, len, hx, hlen, hle⟩
  · rfl

theorem State.takeGeometry_placed (s : State) (k : Ring) : s.placedByGeometry (s.takeGeometry k) k := by
  refine ⟨fun r hr => ⟨fun h => ?_, fun h => ?_⟩, fun r hr hw => ?_, fun hr hw => ?_⟩
  · rw [State.takeGeometry_of_standing hr, State.goPress_seq, phaseByGeometry_of_tail h]
  · rw [State.takeGeometry_of_standing hr, State.goPress_seq, phaseByGeometry_of_not_tail h]
  · rw [State.takeGeometry_of_none hr]
    exact State.goWaiting_places.1 r hw
  · rw [State.takeGeometry_of_none hr]
    exact State.goWaiting_places.2 hw

theorem State.takeGeometry_not_held (s : State) (k : Ring) : (s.takeGeometry k).ringState k ≠ .held := by
  cases hr : s.standing k with
  | some r =>
    rw [State.takeGeometry_of_standing hr, State.ringState, State.goPress_seq]
    intro hheld
    have hpress := phaseByGeometry_pressing s k r
    rw [show phaseByGeometry s k r = .held from hheld] at hpress
    cases hpress
  | none =>
    rw [State.takeGeometry_of_none hr]
    cases hw : s.firstWaiting k with
    | some r =>
      rw [(State.goWaiting_places.1 r hw).1]
      decide
    | none =>
      rw [State.goWaiting_places.2 hw]
      decide

/-- The places by geometry are those of any state of the same ground. -/
theorem State.placedByGeometry.of_ground {s u t : State} {k : Ring} (h : u.placedByGeometry t k) (g : SameGround s u) :
    s.placedByGeometry t k := by
  obtain ⟨hstand, hwait, hidle⟩ := h
  refine ⟨fun r hr => ?_, fun r hr hw => ?_, fun hr hw => ?_⟩
  · obtain ⟨q, hq, hbare⟩ := exists_of_map_bare (g.standing k) hr
    obtain ⟨hkey, -, hbound, hlength⟩ := Rec.eq_of_bare hbare
    have hplaced := hstand q hq
    rw [hkey, hbound, hlength, g.points, g.frontDist hbare] at hplaced
    exact hplaced
  · obtain ⟨q, hq, hbare⟩ := exists_of_map_bare (g.firstWaiting k) hw
    rw [← (Rec.eq_of_bare hbare).1]
    exact hwait q (none_of_map_bare (g.standing k) hr) hq
  · exact hidle (none_of_map_bare (g.standing k) hr) (none_of_map_bare (g.firstWaiting k) hw)

theorem State.placedByGeometry.of_ring {s t u : State} {k : Ring} (h : s.placedByGeometry t k)
    (hring : u.ring.get k = t.ring.get k) : s.placedByGeometry u k := by
  unfold State.placedByGeometry State.ringState at h ⊢
  rw [hring]
  exact h

/-! ### The rings as the level falls to NONE -/

/-- What a fall to NONE makes of ring k. -/
structure FreedAt (s t : State) (k : Ring) : Prop where
  free : t.ringState k ≠ .held
  kept : s.ringState k ≠ .held → t.ring.get k = s.ring.get k
  setup : s.ringState k = .held → s.control.mode = .setup → t.ringState k = .idle
  placed : s.ringState k = .held → s.control.mode ≠ .setup → s.placedByGeometry t k

theorem State.ringLevel_ground (s : State) (k : Ring) : SameGround s (s.ringLevel k) := by
  have hopen : ∀ st armed, SameGround s (s.goOpen k st armed) := s.goOpen_ground k
  have hplaced := s.takeGeometry_ground k
  cases hl : s.release.level with
  | none => simp only [State.ringLevel, hl]; split_ifs <;> simp only [hopen, hplaced, SameGround.refl]
  | _ => simp only [State.ringLevel, hl]; split_ifs <;> simp only [hopen, SameGround.refl]

theorem State.ringLevel_freed {s : State} (h : s.release.level = .none) (k : Ring) : FreedAt s (s.ringLevel k) k := by
  by_cases hheld : s.ringState k = .held
  · by_cases hmode : s.control.mode = .setup
    · have hidle : (s.ringLevel k).ringState k = .idle := by
        rw [State.ringLevel_of_none_setup h hheld hmode]
        exact (s.goOpen_state k _ _).1
      exact ⟨by rw [hidle]; decide, fun hne => absurd hheld hne, fun _ _ => hidle, fun _ hne => absurd hmode hne⟩
    · rw [State.ringLevel_of_none_held h hheld hmode]
      exact ⟨s.takeGeometry_not_held k, fun hne => absurd hheld hne, fun _ hm => absurd hm hmode,
        fun _ _ => s.takeGeometry_placed k⟩
  · rw [State.ringLevel_of_none h hheld]
    exact ⟨hheld, fun _ => rfl, fun he => absurd he hheld, fun he => absurd he hheld⟩

theorem FreedAt.of_ring {s t u : State} {k : Ring} (h : FreedAt s t k) (hring : u.ring.get k = t.ring.get k) :
    FreedAt s u k := by
  have hstate : u.ringState k = t.ringState k := by rw [State.ringState, State.ringState, hring]
  exact ⟨hstate ▸ h.free, fun he => hring.trans (h.kept he), fun he hm => hstate.trans (h.setup he hm),
    fun he hm => (h.placed he hm).of_ring hring⟩

theorem FreedAt.of_ground {s t u : State} {k : Ring} (h : FreedAt u t k) (g : SameGround s u)
    (hring : u.ring.get k = s.ring.get k) (hcontrol : u.control = s.control) : FreedAt s t k := by
  have hstate : u.ringState k = s.ringState k := by rw [State.ringState, State.ringState, hring]
  refine ⟨h.free, fun he => (h.kept (hstate ▸ he)).trans hring, fun he hm => h.setup (hstate.trans he) (hcontrol ▸ hm),
    fun he hm => (h.placed (hstate.trans he) (hcontrol ▸ hm)).of_ground g⟩

theorem State.ringsLevel_freed {s : State} (h : s.release.level = .none) (k : Ring) : FreedAt s s.ringsLevel k := by
  cases k with
  | a => exact (State.ringLevel_freed h .a).of_ring (State.ringLevel_other _ (by decide))
  | b =>
    have hlevel : (s.ringLevel .a).release.level = .none := by
      rw [(s.ringLevel_works .a).release]
      exact h
    exact (State.ringLevel_freed hlevel .b).of_ground (s.ringLevel_ground .a) (State.ringLevel_other _ (by decide))
      (s.ringLevel_works .a).sameOuter.control

/-! ### A held ring's hand as the level falls -/

section Fall

variable {s : State} {j k : Ring}

/-- A passage between open states leaves the other ring's hand. -/
theorem State.goOpen_hand_of_open (hj : j ≠ k) (hopen : (s.ringState k).pressing = false) (st : RingState)
    (armed : Option Nat) : SameHand j s (s.goOpen k st armed) := by
  rw [State.goOpen_of_open hopen]
  exact ((s.opened_touches k st armed).hand (by decide) (by decide)).trans (State.evalLift_hand _ hj)

theorem State.takeGeometry_hand_of_open (hj : j ≠ k) (hopen : (s.ringState k).pressing = false) :
    SameHand j s (s.takeGeometry k) := by
  unfold State.takeGeometry
  split
  · exact s.goPress_hand hj _ _
  · unfold State.goWaiting
    split <;> exact State.goOpen_hand_of_open hj hopen _ _

theorem State.ringLevel_hand_of_held (hj : j ≠ k) (hheld : s.ringState k = .held) : SameHand j s (s.ringLevel k) := by
  have hopen : (s.ringState k).pressing = false := by rw [hheld]; rfl
  by_cases h : s.release.level = .none
  · by_cases hmode : s.control.mode = .setup
    · rw [State.ringLevel_of_none_setup h hheld hmode]
      exact State.goOpen_hand_of_open hj hopen _ _
    · rw [State.ringLevel_of_none_held h hheld hmode]
      exact State.takeGeometry_hand_of_open hj hopen
  · rw [State.ringLevel_of_held hheld h]
    exact .refl j s

/-- An intent for the lift channel leaves an interlock whose intent it is already. -/
theorem State.evalLift_interlock (h : (s.valve.rings.get k).intent = .lift) :
    (s.evalLift k).valve.rings.get k = s.valve.rings.get k := by
  cases hp : (s.ringState k).pressing
  · rw [State.evalLift_of_open hp, State.intent_rings, PerRing.get_modify_self]
    exact if_pos h.symm
  · rw [State.evalLift_valve_of_pressing hp]

theorem State.goOpen_interlock (hopen : (s.ringState k).pressing = false) (h : (s.valve.rings.get k).intent = .lift)
    (st : RingState) (armed : Option Nat) : (s.goOpen k st armed).valve.rings.get k = s.valve.rings.get k := by
  rw [State.goOpen_of_open hopen]
  exact State.evalLift_interlock (s := s.opened k st armed) h

/-- A held ring that the level leaves open keeps its interlock. -/
theorem State.ringLevel_interlock (hheld : s.ringState k = .held) (h : (s.valve.rings.get k).intent = .lift)
    (hafter : ((s.ringLevel k).ringState k).pressing = false) :
    (s.ringLevel k).valve.rings.get k = s.valve.rings.get k := by
  have hopen : (s.ringState k).pressing = false := by rw [hheld]; rfl
  by_cases hnone : s.release.level = .none
  · by_cases hmode : s.control.mode = .setup
    · rw [State.ringLevel_of_none_setup hnone hheld hmode]
      exact State.goOpen_interlock hopen h _ _
    · rw [State.ringLevel_of_none_held hnone hheld hmode] at hafter ⊢
      cases hr : s.standing k with
      | some r =>
        rw [State.takeGeometry_of_standing hr, State.ringState, State.goPress_seq] at hafter
        exact absurd ((phaseByGeometry_pressing s k r).symm.trans hafter) (by decide)
      | none =>
        rw [State.takeGeometry_of_none hr]
        unfold State.goWaiting
        split <;> exact State.goOpen_interlock hopen h _ _
  · rw [State.ringLevel_of_held hheld hnone]

theorem State.ringsLevel_interlock (hheld : ∀ k, s.ringState k = .held) (h : (s.valve.rings.get k).intent = .lift)
    (hafter : (s.ringsLevel.ringState k).pressing = false) : s.ringsLevel.valve.rings.get k = s.valve.rings.get k := by
  have hheldB : (s.ringLevel .a).ringState .b = .held := by
    rw [State.ringState, State.ringLevel_other _ (by decide)]
    exact hheld .b
  cases k with
  | a =>
    rw [State.ringsLevel, State.ringState, State.ringLevel_other _ (by decide)] at hafter
    rw [State.ringsLevel, (State.ringLevel_hand_of_held (by decide) hheldB).interlock]
    exact State.ringLevel_interlock (hheld .a) h hafter
  | b =>
    have hkept := State.ringLevel_hand_of_held (j := .b) (by decide) (hheld .a)
    rw [State.ringsLevel, State.ringLevel_interlock hheldB (by rw [hkept.interlock]; exact h) hafter, hkept.interlock]

theorem State.relit_interlock (h : (s.valve.rings.get k).intent = .lift) (before : Level) :
    (s.relit before).valve.rings.get k = s.valve.rings.get k := by
  have hlift : ∀ (t : State) (i : Ring), (t.valve.rings.get k).intent = .lift →
      (t.evalLiftIn .held i).valve.rings.get k = t.valve.rings.get k := by
    intro t i ht
    unfold State.evalLiftIn
    split
    · by_cases hi : k = i
      · subst hi
        exact State.evalLift_interlock ht
      · exact (t.evalLift_hand hi).interlock
    · rfl
  unfold State.relit
  split
  · rw [hlift _ .b (by rw [hlift s .a h]; exact h), hlift s .a h]
  · rfl

theorem State.ringsLevel_of_held (hheld : ∀ k, s.ringState k = .held) (h : s.release.level ≠ .none) : s.ringsLevel = s := by
  rw [State.ringsLevel, State.ringLevel_of_held (hheld .a) h, State.ringLevel_of_held (hheld .b) h]

end Fall

/-- A lift channel whose bypass ends, and whose release it lost, has an interval started. -/
theorem Interlock.relevel_from_estop {il : Interlock} {now : Level} (hnow : now ≠ .estop) (hintent : il.intent = .lift)
    (hreleased : il.released ≠ some .lift) (hnone : il.interval = none) :
    (il.relevel .estop now .press).relevel .estop now .lift = { il with interval := some ⟨.lift, none⟩ } := by
  have hpress : il.relevel .estop now .press = il := by
    simp [Interlock.relevel, hnone, hintent]
  rw [hpress]
  simp [Interlock.relevel, bypassed, hnow, hintent, hreleased, hnone]

/-- The evaluations of two held rings give both the lift of HELD. -/
theorem State.relit_held {s : State} {before : Level} (hheld : ∀ k, s.ringState k = .held) (h : before = .estop)
    (hlevel : s.release.level ≠ .estop) (k : Ring) :
    ((s.relit before).setpoint.get k).liftTarget = min s.points.releaseLift s.points.ceiling ∧
      ((s.relit before).valve.chans.get (channelOf k .lift)).target = min s.points.releaseLift s.points.ceiling := by
  have hlift : ∀ (t : State) (i : Ring), t.ringState i = .held → t.release.level ≠ .estop → t.points = s.points →
      ((t.evalLift i).setpoint.get i).liftTarget = min s.points.releaseLift s.points.ceiling ∧
        ((t.evalLift i).valve.chans.get (channelOf i .lift)).target = min s.points.releaseLift s.points.ceiling := by
    intro t i hi hl hp
    have hvalue : liftValue t i = s.points.releaseLift := by simp [liftValue, hi, hl, hp]
    rw [State.evalLift_target, State.evalLift_handed (by rw [hi]; rfl), hvalue, hp]
    exact ⟨rfl, rfl⟩
  rw [State.relit_of_held hheld (.inl h)]
  cases k with
  | a =>
    have hkept : SameHand .a (s.evalLift .a) ((s.evalLift .a).evalLift .b) := State.evalLift_hand _ (by decide)
    rw [hkept.setpoint, hkept.chans]
    exact hlift s .a (hheld .a) hlevel rfl
  | b =>
    refine hlift _ .b ?_ ?_ (s.evalLift_works .a).sameOuter.points
    · rw [State.ringState, State.evalLift_ring]
      exact hheld .b
    · rw [(s.evalLift_works .a).release]
      exact hlevel

/-! ### RESUME (R162) -/

theorem Causes.codes_isEmpty_iff (c : Causes) : c.codes.isEmpty = true ↔ c = Causes.empty := by
  have hsnd : ((List.range 9).zip c.members).map Prod.snd = c.members := List.map_snd_zip (by simp [Causes.members])
  have hnone : c.codes = [] ↔ ∀ b ∈ c.members, b = false := by
    rw [← hsnd, List.forall_mem_map, Causes.codes, List.filterMap_eq_nil_iff]
    refine forall₂_congr fun x _ => ?_
    cases x.2 <;> simp
  rw [List.isEmpty_iff, hnone]
  obtain ⟨estop, rotor, ⟨ap, al, bp, bl⟩, lost, line, panel⟩ := c
  simp only [Causes.members, Causes.empty, List.forall_mem_cons, List.not_mem_nil, false_implies, implies_true, and_true,
    Causes.mk.injEq, PerChannel.mk.injEq, Option.isSome_eq_false_iff, Option.isNone_iff_eq_none]
  tauto

theorem resumeEffect_eq (r : Req) (s : State) (left : Causes) (h : s.dropEnded.valveResume.release.causes = left) :
    resumeEffect r s = if left = Causes.empty then ⟨s.dropEnded.valveResume, .ok, []⟩
      else ⟨s.dropEnded.valveResume, .causePresent, byte left.codes.length :: left.codes.map byte⟩ := by
  subst h
  simp only [resumeEffect, Causes.codes_isEmpty_iff]

theorem Chan.resume_state (c : Chan) : c.resume.state = .ok ∧ c.resume.command = c.command ∧ c.resume.target = c.target := by
  unfold Chan.resume
  split
  · next h => exact ⟨h, rfl, rfl⟩
  · exact ⟨rfl, rfl, rfl⟩

theorem State.valveResume_chan (s : State) (c : Channel) :
    s.valveResume.valve.chans.get c = (s.valve.chans.get c).resume := PerChannel.get_map _ _ _

/-- Settles O46: the causes that have ended leave the set, and the level is worked out once. -/
theorem resumeEndsTheCausesThatHaveEnded : Obligations.ResumeEndsTheCausesThatHaveEnded := by
  intro s p r rest htakes hr left
  generalize hu : s.entered left = u
  have hurelease : u.release = { s.release with causes := left } := by rw [← hu]; rfl
  have hur : ∀ k, u.ringRight k := by
    rw [← hu]
    exact State.entered_ringRight hr left
  have hstate : ∀ k, u.ringState k = s.ringState k := by
    rw [← hu]
    exact fun _ => rfl
  have hdrop : s.dropEnded = u.relevel := by rw [← hu]; rfl
  have hrelease : s.dropEnded.valveResume.release = { s.release with causes := left, level := left.level } := by
    show s.dropEnded.release = _
    rw [hdrop, State.relevel_release, hurelease]
  have hring : s.dropEnded.valveResume.ring = u.relevel.ring := by rw [← hdrop]; rfl
  have hafterState : ∀ k, s.dropEnded.valveResume.ringState k = u.relevel.ringState k := fun k => by
    rw [State.ringState, State.ringState, hring]
  refine ⟨s.dropEnded.valveResume, ?_, hrelease,
    s.dropEnded_internal.sameOuter.trans (State.valveResume_works _).sameOuter, fun c => ?_, fun hnone hne k => ?_,
    fun hestop hnot k => ?_⟩
  · rw [exec_serve_of_takes (i := .resume p) (effect := resumeEffect) rfl htakes,
      resumeEffect_eq r s left (by rw [hrelease])]
    split <;> rfl
  · have hdrive : { u.relevel.valve.chans.get c with target := 0 } = { u.valve.chans.get c with target := 0 } :=
      u.relevel_drive c
    have hcommand := congrArg Chan.command hdrive
    rw [State.valveResume_chan, hdrop]
    refine ⟨(Chan.resume_state _).1, (Chan.resume_state _).2.1.trans (hcommand.trans ?_)⟩
    rw [← hu]
    rfl
  · have hchange : u.release.causes.level ≠ u.release.level := by
      rw [hurelease]
      exact fun h => hne (h.symm.trans hnone)
    have hfreed : FreedAt u.leveled u.leveled.ringsLevel k := State.ringsLevel_freed (by
      show u.release.causes.level = .none
      rw [hurelease]
      exact hnone) k
    have hfreed : FreedAt u s.dropEnded.valveResume k :=
      (hfreed.of_ring (by rw [hring, State.relevel_ring hchange])).of_ground ⟨rfl, rfl, rfl⟩ rfl rfl
    have hfreed : FreedAt s s.dropEnded.valveResume k := by
      rw [← hu] at hfreed
      exact hfreed.of_ground ⟨rfl, rfl, rfl⟩ rfl rfl
    exact ⟨hfreed.free, hfreed.kept, fun hh => ⟨hfreed.setup hh, hfreed.placed hh⟩⟩
  · intro il
    have hlevel : u.release.level = .estop := by
      rw [hurelease]
      exact hestop
    have hcauses : u.release.causes = left := by rw [hurelease]
    have hchange : u.release.causes.level ≠ u.release.level := by
      rw [hlevel, hcauses]
      exact hnot
    have hheld : ∀ j, u.leveled.ringState j = .held := fun j => (hur j).allowed.2 (.inr hlevel)
    generalize hv : u.leveled.ringsLevel.valveLevel u.release.level = v
    have hafter : Touches [.permit, .marks, .ports] (v.relit u.release.level) u.relevel :=
      hv ▸ State.relevel_touches hchange
    have hvlevel : v.release.level = left.level := by
      rw [← hv]
      show u.leveled.ringsLevel.release.level = _
      rw [u.leveled.ringsLevel_works.release, ← hcauses]
      rfl
    refine ⟨fun hintent hreleased hnone hopen => ?_, fun hleft => ?_⟩
    · have hil : u.leveled.valve.rings.get k = il := by rw [← hu]; rfl
      have hkept : u.leveled.ringsLevel.valve.rings.get k = il := by
        rw [← hil]
        refine State.ringsLevel_interlock hheld (by rw [hil]; exact hintent) ?_
        rw [hafterState, State.ringState, State.relevel_ring hchange] at hopen
        exact hopen
      have hstarted : v.valve.rings.get k = { il with interval := some ⟨.lift, none⟩ } := by
        rw [← hv, State.valveLevel_ring, hkept, hlevel]
        refine Interlock.relevel_from_estop ?_ hintent hreleased hnone
        rw [← hv] at hvlevel
        rw [show u.leveled.ringsLevel.release.level = left.level from hvlevel]
        exact hnot
      show s.dropEnded.valve.rings.get k = _
      rw [hdrop, (hafter.hand (j := k) (by decide) (by decide)).interlock,
        State.relit_interlock (by rw [hstarted]; exact hintent), hstarted]
    · have hsame : u.leveled.ringsLevel = u.leveled := State.ringsLevel_of_held hheld (by
        show u.release.causes.level ≠ .none
        rw [hcauses]
        exact hleft)
      have hvheld : ∀ j, v.ringState j = .held := by
        intro j
        rw [← hv, hsame]
        exact hheld j
      have hpoints : v.points = s.points := by
        rw [← hv, hsame, ← hu]
        rfl
      obtain ⟨hlift, htarget⟩ := State.relit_held (before := u.release.level) hvheld hlevel (by rw [hvlevel]; exact hnot) k
      have hkept := hafter.hand (j := k) (by decide) (by decide)
      rw [hpoints] at hlift htarget
      refine ⟨?_, ?_, ?_⟩
      · rw [hafterState, State.ringState, State.relevel_ring hchange, hsame]
        exact hheld k
      · show (s.dropEnded.setpoint.get k).liftTarget = _
        rw [hdrop, hkept.setpoint, hlift]
      · rw [State.valveResume_chan, (Chan.resume_state _).2.2, hdrop, hkept.chans, htarget]

end Sys2Proof.Machine
end

section
/-! PROOFS. A change of mode (R128, R129, R177, R178): the rings' places, the targets under the new mode, and the rotor
cause; and the reports a passage makes (R123, R128, R130). -/

namespace Sys2Proof.Machine

/-! ### Both evaluations (R88, R105) -/

theorem State.evalLifts_view (s : State) : SameView s s.evalLifts := (s.evalLift_view .a).trans (State.evalLift_view _ .b)

theorem State.evalBoth_view (s : State) : SameView s s.evalPresses.evalLifts :=
  s.evalPresses_view.trans (State.evalLifts_view _)

/-- The other ring's evaluation leaves a ring's press and lift targets, as held and as handed on. -/
theorem State.evalLifts_hand (s : State) (k : Ring) : ∃ t : State, SameView s t ∧ SameHand k s t ∧
    SameHand k (t.evalLift k) s.evalLifts := by
  cases k with
  | a => exact ⟨s, .refl s, .refl _ s, State.evalLift_hand _ (by decide)⟩
  | b => exact ⟨s.evalLift .a, s.evalLift_view .a, State.evalLift_hand _ (by decide), .refl _ _⟩

theorem State.evalBoth_press {s : State} {k : Ring} {x : Rec} (hp : (s.ringState k).pressing = true)
    (hx : s.servedRec k = some x) : let t := s.evalPresses.evalLifts
    (t.setpoint.get k).pressTarget = (pressValue s k x).1 ∧
      (t.valve.chans.get (channelOf k .press)).target = (pressValue s k x).1 := by
  obtain ⟨htarget, hhanded⟩ := State.evalPresses_target hp hx
  obtain ⟨t, hview, hbefore, hafter⟩ := s.evalPresses.evalLifts_hand k
  have hpress : (t.ringState k).pressing = true := by rw [hview.ringState, s.evalPresses_view.ringState]; exact hp
  refine ⟨?_, ?_⟩
  · rw [hafter.setpoint, State.evalLift_pressTarget, hbefore.setpoint, htarget]
  · rw [hafter.chans, State.evalLift_valve_of_pressing hpress, hbefore.chans, hhanded]

theorem State.evalBoth_lift {s : State} {k : Ring} (hopen : (s.ringState k).pressing = false ∨ s.control.mode = .manual) :
    let t := s.evalPresses.evalLifts
    (t.setpoint.get k).liftTarget = min (liftValue s k) s.points.ceiling ∧
      ((s.ringState k).pressing = false →
        (t.valve.chans.get (channelOf k .lift)).target = min (liftValue s k) s.points.ceiling) := by
  obtain ⟨t, hview, hbefore, hafter⟩ := s.evalPresses.evalLifts_hand k
  have hall := s.evalPresses_view.trans hview
  rw [← hall.points, ← hall.liftValue k hopen]
  refine ⟨?_, fun hp => ?_⟩
  · rw [hafter.setpoint, State.evalLift_target]
  · rw [hafter.chans, State.evalLift_handed (by rw [hall.ringState]; exact hp)]

/-- The lift target of a ring that presses in RUN is some free value (log 8). -/
theorem State.evalBoth_free {s : State} {k : Ring} (hp : (s.ringState k).pressing = true) (hmode : s.control.mode = .run) :
    ∃ n, (s.evalPresses.evalLifts.setpoint.get k).liftTarget = min (Config.freeLift n) s.points.ceiling := by
  obtain ⟨t, hview, hbefore, hafter⟩ := s.evalPresses.evalLifts_hand k
  have hall := s.evalPresses_view.trans hview
  have hfree : liftValue t k = Config.freeLift t.freeCount := by
    unfold liftValue
    rw [hall.ringState, hall.control, hmode]
    cases hs : s.ringState k with
    | idle | armed | held => rw [hs] at hp; cases hp
    | _ => rfl
  exact ⟨t.freeCount, by rw [hafter.setpoint, State.evalLift_target, hfree, hall.points]⟩

theorem State.evalBoth_pressTarget_of_open {s : State} {k : Ring} (hopen : (s.ringState k).pressing = false) :
    (s.evalPresses.evalLifts.setpoint.get k).pressTarget = (s.setpoint.get k).pressTarget := by
  obtain ⟨t, hview, hbefore, hafter⟩ := s.evalPresses.evalLifts_hand k
  rw [hafter.setpoint, State.evalLift_pressTarget, hbefore.setpoint]
  cases k with
  | a => rw [State.evalPresses, State.evalPress_setpoint_other _ (by decide), State.evalPress_of_open hopen]
  | b =>
    have hview := s.evalPress_view .a
    rw [State.evalPresses, State.evalPress_of_open (by rw [hview.ringState]; exact hopen),
      State.evalPress_setpoint_other _ (by decide)]

/-- Ring k's targets are those its state, its mode and its record now read. -/
structure State.targetsFollow (s : State) (k : Ring) : Prop where
  press : ∀ x, (s.ringState k).pressing = true → s.servedRec k = some x →
    (s.setpoint.get k).pressTarget = (pressValue s k x).1 ∧
      (s.valve.chans.get (channelOf k .press)).target = (pressValue s k x).1
  lift : (s.ringState k).pressing = false → (s.setpoint.get k).liftTarget = min (liftValue s k) s.points.ceiling ∧
    (s.valve.chans.get (channelOf k .lift)).target = min (liftValue s k) s.points.ceiling

theorem State.evalBoth_targetsFollow (s : State) (k : Ring) : (s.evalPresses.evalLifts).targetsFollow k := by
  have hview := s.evalBoth_view
  refine ⟨fun x hp hx => ?_, fun hopen => ?_⟩
  · rw [hview.ringState] at hp
    obtain ⟨q, hq, hbare⟩ := exists_of_map_bare (hview.servedRec k).symm hx
    rw [hview.pressValue_of_bare k hbare.symm]
    exact State.evalBoth_press hp hq
  · rw [hview.ringState] at hopen
    rw [hview.liftValue k (.inl hopen), hview.points]
    exact ⟨(State.evalBoth_lift (.inl hopen)).1, (State.evalBoth_lift (.inl hopen)).2 hopen⟩

/-! ### A passage to HELD or IDLE (R85, R103, R104) -/

/-- A passage to an open state other than ARMED: the lift target of that state, and press target 0 out of pressing. -/
theorem State.goOpen_targets (s : State) (k : Ring) {st : RingState} (hst : st.pressing = false) (hna : st ≠ .armed) :
    let t := s.goOpen k st none
    (t.setpoint.get k).liftTarget = min (liftValue (s.opened k st none) k) s.points.ceiling ∧
      (t.valve.chans.get (channelOf k .lift)).target = min (liftValue (s.opened k st none) k) s.points.ceiling ∧
      ((s.ringState k).pressing = true → (t.setpoint.get k).pressTarget = 0) := by
  have hopened : (s.opened k st none).ringState k = st := by
    rw [State.ringState, State.opened, State.onSeq_ring, PerRing.get_modify_self]
  cases hp : (s.ringState k).pressing
  · rw [State.goOpen_of_open hp]
    exact ⟨State.evalLift_target _ k, State.evalLift_handed (by rw [hopened]; exact hst), nofun⟩
  · generalize hu : (s.opened k st none).unpressed k = u
    have hustate : u.ringState k = st := by rw [← hu]; exact hopened
    have hzero : (u.setpoint.get k).pressTarget = 0 := by
      rw [← hu, State.unpressed, State.onSetpoint_setpoint, PerRing.get_modify_self]
    have hvalue : liftValue u k = liftValue (s.opened k st none) k := by rw [← hu]; rfl
    have hpoints : u.points = s.points := by rw [← hu]; rfl
    have hkept : SameHand k (u.evalLift k) (s.goOpen k st none) := by
      have hclear : ∀ t : State, t.ring = u.ring → SameHand k t (t.reportClear k) := fun t ht =>
        t.reportClear_hand k (by rw [State.ringState, ht]; exact fun h => hna (hustate.symm.trans h))
      by_cases hheld : st = .held
      · subst hheld
        rw [State.goOpen_held_of_pressing hp, hu]
        exact ((State.flagStanding_touches _ k).hand (by decide) (by decide)).trans
          (hclear _ ((State.flagStanding_ring _ _).trans (State.evalLift_ring _ _)))
      · rw [State.goOpen_of_pressing hp hheld, hu]
        exact hclear _ (State.evalLift_ring _ _)
    refine ⟨?_, ?_, fun _ => ?_⟩
    · rw [hkept.setpoint, State.evalLift_target, hvalue, hpoints]
    · rw [hkept.chans, State.evalLift_handed (by rw [hustate]; exact hst), hvalue, hpoints]
    · rw [hkept.setpoint, State.evalLift_pressTarget, hzero]

/-! ### The rings at a change of mode (R128, R129) -/

section Mode

variable {s : State} {k : Ring}

theorem State.ringToSetup_of_held (h : s.ringState k = .held) : s.ringToSetup k = s := if_pos h

theorem State.ringToSetup_of_ne (h : s.ringState k ≠ .held) : s.ringToSetup k = s.goOpen k .idle none := if_neg h

theorem State.ringFromSetup_of_idle (h : s.ringState k = .idle) : s.ringFromSetup k = s.takeGeometry k := if_pos h

theorem State.ringFromSetup_of_ne (h : s.ringState k ≠ .idle) : s.ringFromSetup k = s := if_neg h

theorem State.ringToSetup_state : (s.ringToSetup k).ringState k = if s.ringState k = .held then .held else .idle := by
  by_cases h : s.ringState k = .held
  · rw [State.ringToSetup_of_held h, if_pos h, h]
  · rw [State.ringToSetup_of_ne h, if_neg h]
    exact (s.goOpen_state k _ _).1

theorem State.ringFromSetup_other (s : State) (k j : Ring) (h : j ≠ k) :
    (s.ringFromSetup k).ring.get j = s.ring.get j := by
  unfold State.ringFromSetup
  split
  · exact s.takeGeometry_other k j h
  · rfl

theorem State.ringFromSetup_ground (s : State) (k : Ring) : SameGround s (s.ringFromSetup k) := by
  unfold State.ringFromSetup
  split
  · exact s.takeGeometry_ground k
  · exact .refl s

/-- Both rings take the change to SETUP. -/
def State.ringsToSetup (s : State) : State := (s.ringToSetup .a).ringToSetup .b

/-- Both rings take the change out of SETUP. -/
def State.ringsFromSetup (s : State) : State := (s.ringFromSetup .a).ringFromSetup .b

theorem State.ringsToSetup_state (k : Ring) :
    s.ringsToSetup.ringState k = if s.ringState k = .held then .held else .idle := by
  cases k with
  | a =>
    rw [State.ringsToSetup, State.ringState, State.ringToSetup_other _ _ _ (by decide)]
    exact State.ringToSetup_state
  | b =>
    rw [State.ringsToSetup, State.ringToSetup_state, State.ringState, State.ringToSetup_other _ _ _ (by decide)]
    rfl

/-- A ring taken out of pressing to SETUP has press target 0. -/
theorem State.ringsToSetup_pressTarget (hp : (s.ringState k).pressing = true) :
    (s.ringsToSetup.setpoint.get k).pressTarget = 0 := by
  have hne : ∀ {t : State} {j : Ring}, (t.ringState j).pressing = true → t.ringState j ≠ .held := fun h e => by
    rw [e] at h
    cases h
  cases k with
  | a =>
    have hidle : (s.ringToSetup .a).ringState .a = .idle := by
      rw [State.ringToSetup_state, if_neg (hne hp)]
    have hkept : SameHand .a (s.ringToSetup .a) s.ringsToSetup := by
      rw [State.ringsToSetup]
      by_cases hb : (s.ringToSetup .a).ringState .b = .held
      · rw [State.ringToSetup_of_held hb]
        exact .refl _ _
      · rw [State.ringToSetup_of_ne hb]
        exact State.goOpen_hand _ (by decide) (by rw [hidle]; decide) _ _
    rw [hkept.setpoint, State.ringToSetup_of_ne (hne hp)]
    exact (s.goOpen_targets .a rfl (by decide)).2.2 hp
  | b =>
    have hpb : ((s.ringToSetup .a).ringState .b).pressing = true := by
      rw [State.ringState, State.ringToSetup_other _ _ _ (by decide)]
      exact hp
    rw [State.ringsToSetup, State.ringToSetup_of_ne (hne hpb)]
    exact (State.goOpen_targets _ .b rfl (by decide)).2.2 hpb

/-- Where a change out of SETUP leaves ring k. -/
structure PlacedFromSetup (s t : State) (k : Ring) : Prop where
  kept : s.ringState k = .held → t.ring.get k = s.ring.get k
  placed : s.ringState k = .idle → s.placedByGeometry t k

theorem State.ringFromSetup_placed (s : State) (k : Ring) : PlacedFromSetup s (s.ringFromSetup k) k := by
  by_cases h : s.ringState k = .idle
  · rw [State.ringFromSetup_of_idle h]
    exact ⟨fun hh => absurd (h.symm.trans hh) (by decide), fun _ => s.takeGeometry_placed k⟩
  · rw [State.ringFromSetup_of_ne h]
    exact ⟨fun _ => rfl, fun hi => absurd hi h⟩

theorem PlacedFromSetup.of_ring {t u : State} (h : PlacedFromSetup s t k) (hring : u.ring.get k = t.ring.get k) :
    PlacedFromSetup s u k :=
  ⟨fun hh => hring.trans (h.kept hh), fun hi => (h.placed hi).of_ring hring⟩

theorem PlacedFromSetup.of_ground {t u : State} (h : PlacedFromSetup u t k) (g : SameGround s u)
    (hring : u.ring.get k = s.ring.get k) : PlacedFromSetup s t k := by
  have hstate : u.ringState k = s.ringState k := by rw [State.ringState, State.ringState, hring]
  exact ⟨fun hh => (h.kept (hstate.trans hh)).trans hring, fun hi => (h.placed (hstate.trans hi)).of_ground g⟩

theorem State.ringsFromSetup_placed (s : State) (k : Ring) : PlacedFromSetup s s.ringsFromSetup k := by
  cases k with
  | a => exact (s.ringFromSetup_placed .a).of_ring (State.ringFromSetup_other _ _ _ (by decide))
  | b =>
    exact (State.ringFromSetup_placed _ .b).of_ground (s.ringFromSetup_ground .a)
      (State.ringFromSetup_other _ _ _ (by decide))

/-! ### The change itself (R177, R178) -/

theorem State.changeMode_to_setup (h : s.control.mode ≠ .setup) :
    s.changeMode .setup = (s.moded .setup).ringsToSetup.evalPresses.evalLifts := by
  rw [State.changeMode_eq, if_neg fun hc => h hc.1, State.handMode, if_pos rfl]
  rfl

theorem State.changeMode_between {m : Mode} (hm : m ≠ .setup) (h : s.control.mode ≠ .setup) :
    s.changeMode m = (s.moded m).evalPresses.evalLifts := by
  rw [State.changeMode_eq, if_neg fun hc => h hc.1, State.handMode, if_neg hm, if_neg h]

theorem State.changeMode_from_setup (hr : ∀ k, s.ringRight k) {m : Mode} (hm : m ≠ .setup) (h : s.control.mode = .setup) :
    s.changeMode m = if (s.release.rotorRunning.a && s.release.rotorRunning.b) = true then
      (s.moded m).ringsFromSetup.evalPresses.evalLifts
    else (s.moded m).ringsFromSetup.evalPresses.evalLifts.raiseCause .rotor := by
  have hhand : (s.moded m).handMode s.control.mode m = (s.moded m).ringsFromSetup := by
    rw [State.handMode, if_neg hm, if_pos h]
    rfl
  have hrelease : (s.moded m).ringsFromSetup.evalPresses.evalLifts.release = s.release := by
    rw [(State.evalBoth_works _).release, ← hhand, (State.handMode_chain hr m).1.release]
    rfl
  rw [State.changeMode_eq, hhand]
  simp only [h, true_and, State.rotorStopped, hrelease]
  cases s.release.rotorRunning.a && s.release.rotorRunning.b <;> rfl

end Mode

/-! ### ROTOR raised as SETUP is left (R158, R178) -/

theorem Causes.rank_add_rotor (c : Causes) : (c.add .rotor).level.rank = max c.level.rank 2 := by
  have hfixed : (c.add .rotor).fixedLevel.rank = max c.fixedLevel.rank 2 := by
    unfold Causes.fixedLevel Causes.add
    cases c.estop
    · cases c.trackLost <;> simp only [Bool.true_or, Bool.false_eq_true, if_true, if_false] <;> split <;> rfl
    · rfl
  rw [Causes.rank_level, Causes.rank_level, hfixed]
  show max (max (max c.fixedLevel.rank 2) (c.lineReq.getD .none).rank) (c.panelReq.getD .none).rank = _
  omega

theorem Level.eq_of_rank {x y : Level} (h : x.rank = y.rank) : x = y := by
  cases x <;> cases y <;> simp [Level.rank] at h ⊢

/-- Raising ROTOR changes the level, where it does, to IMMEDIATE from NONE or AT_GAP. -/
theorem Causes.level_add_rotor {c : Causes} (h : (c.add .rotor).level ≠ c.level) :
    (c.add .rotor).level = .immediate ∧ c.level ≠ .immediate ∧ c.level ≠ .estop := by
  have hrank := c.rank_add_rotor
  have hlow : c.level.rank < 2 := by
    by_contra hge
    exact h (Level.eq_of_rank (by omega))
  refine ⟨Level.eq_of_rank (by rw [hrank, Level.rank]; omega), fun he => ?_, fun he => ?_⟩
  · rw [he] at hlow
    exact absurd hlow (by decide)
  · rw [he] at hlow
    exact absurd hlow (by decide)

/-- Ring k is HELD with the lift of HELD below ESTOP. -/
structure State.heldLift (s : State) (k : Ring) : Prop where
  held : s.ringState k = .held
  target : (s.setpoint.get k).liftTarget = min s.points.releaseLift s.points.ceiling
  handed : (s.valve.chans.get (channelOf k .lift)).target = min s.points.releaseLift s.points.ceiling

theorem State.ringLevel_heldLift {s : State} {k : Ring} (h : s.release.level = .immediate)
    (hbefore : s.ringState k = .held → s.heldLift k) : (s.ringLevel k).heldLift k := by
  by_cases hheld : s.ringState k = .held
  · rw [State.ringLevel_of_held hheld (by rw [h]; decide)]
    exact hbefore hheld
  · have hpoints : (s.ringLevel k).points = s.points := (s.ringLevel_works k).sameOuter.points
    have hopened : (s.opened k .held none).ringState k = .held := by
      rw [State.ringState, State.opened, State.onSeq_ring, PerRing.get_modify_self]
    have hvalue : liftValue (s.opened k .held none) k = s.points.releaseLift := by
      simp only [liftValue, hopened]
      exact if_neg (by show s.release.level ≠ .estop; rw [h]; decide)
    obtain ⟨htarget, hhanded, -⟩ := s.goOpen_targets k (st := .held) rfl (by decide)
    have hstep := State.ringLevel_of_high (.inl h) hheld
    rw [hvalue, ← hstep, ← hpoints] at htarget hhanded
    exact ⟨State.ringLevel_held (.inl h), htarget, hhanded⟩

theorem State.heldLift.of_hand {s t : State} {k : Ring} (h : s.heldLift k) (hring : t.ring.get k = s.ring.get k)
    (hhand : SameHand k s t) (hpoints : t.points = s.points) : t.heldLift k :=
  ⟨by rw [State.ringState, hring]; exact h.held, by rw [hhand.setpoint, hpoints]; exact h.target,
    by rw [hhand.chans, hpoints]; exact h.handed⟩

theorem State.ringsLevel_heldLift {s : State} (h : s.release.level = .immediate)
    (hbefore : ∀ k, s.ringState k = .held → s.heldLift k) (k : Ring) : s.ringsLevel.heldLift k := by
  have hlevel : (s.ringLevel .a).release.level = .immediate := by
    rw [(s.ringLevel_works .a).release]
    exact h
  cases k with
  | a =>
    have ha := State.ringLevel_heldLift h (hbefore .a)
    have hhand : SameHand .a (s.ringLevel .a) s.ringsLevel := by
      rw [State.ringsLevel]
      by_cases hheld : (s.ringLevel .a).ringState .b = .held
      · rw [State.ringLevel_of_held hheld (by rw [hlevel]; decide)]
        exact .refl _ _
      · rw [State.ringLevel_of_high (.inl hlevel) hheld]
        exact State.goOpen_hand _ (by decide) (by rw [ha.held]; decide) _ _
    exact ha.of_hand (State.ringLevel_other _ (by decide)) hhand (State.ringLevel_works _ .b).sameOuter.points
  | b =>
    refine State.ringLevel_heldLift hlevel fun hheld => ?_
    have hring : (s.ringLevel .a).ring.get .b = s.ring.get .b := State.ringLevel_other _ (by decide)
    have hheldS : s.ringState .b = .held := by rwa [State.ringState, hring] at hheld
    have hhand : SameHand .b s (s.ringLevel .a) := by
      by_cases ha : s.ringState .a = .held
      · rw [State.ringLevel_of_held ha (by rw [h]; decide)]
        exact .refl _ _
      · rw [State.ringLevel_of_high (.inl h) ha]
        exact State.goOpen_hand _ (by decide) (by rw [hheldS]; decide) _ _
    exact (hbefore .b hheldS).of_hand hring hhand (s.ringLevel_works .a).sameOuter.points

/-- Targets that follow the rings' states follow them after ROTOR is raised. -/
theorem State.raiseCause_rotor_targetsFollow {s : State} (hl : s.levelRight)
    (hfollow : ∀ k, s.targetsFollow k) (k : Ring) : (s.raiseCause .rotor).targetsFollow k := by
  cases hhas : s.release.causes.has .rotor
  · rw [State.raiseCause_of_absent hhas]
    generalize hu : s.entered (s.release.causes.add .rotor) = u
    by_cases hsame : u.release.causes.level = u.release.level
    · rw [State.relevel_of_eq hsame, ← hu]
      exact ⟨(hfollow k).press, (hfollow k).lift⟩
    · have hlevel : u.release.causes.level = .immediate ∧ s.release.level ≠ .estop := by
        have hne : (s.release.causes.add .rotor).level ≠ s.release.causes.level := by
          rw [← show s.release.level = _ from hl]
          rw [← hu] at hsame
          exact hsame
        obtain ⟨himm, -, hestop⟩ := Causes.level_add_rotor hne
        rw [← hu, show s.release.level = _ from hl]
        exact ⟨himm, hestop⟩
      obtain ⟨himm, hestop⟩ := hlevel
      have hbefore : ∀ j, u.leveled.ringState j = .held → u.leveled.heldLift j := by
        intro j hheld
        have hheld : s.ringState j = .held := by rw [← hu] at hheld; exact hheld
        obtain ⟨htarget, hhanded⟩ := (hfollow j).lift (by rw [hheld]; rfl)
        have hvalue : liftValue s j = s.points.releaseLift := by
          simp only [liftValue, hheld]
          exact if_neg hestop
        rw [hvalue] at htarget hhanded
        rw [← hu]
        exact ⟨hheld, htarget, hhanded⟩
      have hrings := State.ringsLevel_heldLift (s := u.leveled) himm hbefore k
      have hrelit : (u.leveled.ringsLevel.valveLevel u.release.level).relit u.release.level =
          u.leveled.ringsLevel.valveLevel u.release.level := by
        refine if_neg ?_
        have hafter : u.leveled.ringsLevel.release.level = .immediate := by
          rw [u.leveled.ringsLevel_works.release]
          exact himm
        rintro (he | he)
        · rw [← hu] at he
          exact hestop he
        · have he : u.leveled.ringsLevel.release.level = .estop := he
          rw [hafter] at he
          cases he
      have hafter := State.relevel_touches hsame
      rw [hrelit] at hafter
      have hheldAfter : u.relevel.heldLift k := by
        have hmid : (u.leveled.ringsLevel.valveLevel u.release.level).heldLift k := ⟨hrings.held, hrings.target, hrings.handed⟩
        exact hmid.of_hand (by rw [hafter.ring.resolve_left (by decide)]) (hafter.hand (by decide) (by decide))
          (by rw [u.relevel_sameOuter.points]; exact u.leveled.ringsLevel_works.sameOuter.points.symm)
      have hvalue : liftValue u.relevel k = u.relevel.points.releaseLift := by
        simp only [liftValue, hheldAfter.held]
        refine if_neg ?_
        rw [u.relevel_release]
        show u.release.causes.level ≠ .estop
        rw [himm]
        decide
      refine ⟨fun x hp => ?_, fun _ => ?_⟩
      · rw [hheldAfter.held] at hp
        cases hp
      · rw [hvalue]
        exact ⟨hheldAfter.target, hheldAfter.handed⟩
  · rw [State.raiseCause_of_has hhas]
    exact hfollow k

/-! ### O49 -/

theorem Mode.ofCode_code (m : Mode) : Mode.ofCode m.code = some m := by cases m <;> rfl

theorem Mode.ofCode_of_le {n : Nat} (h : 3 ≤ n) : Mode.ofCode n = none := by
  unfold Mode.ofCode
  split
  · omega
  · omega
  · omega
  · rfl

theorem State.planeCovered_iff (s : State) :
    s.planeCovered = true ↔ ∃ x ∈ s.track, covers s .a x = true ∨ covers s .b x = true := by
  simp only [State.planeCovered, List.any_eq_true, Bool.or_eq_true]

theorem modeEffect_of_none {s : State} {r : Req} (h : Mode.ofCode (u8 r.payload 0) = none) :
    modeEffect r s = ⟨s, .badValue, []⟩ := by
  simp only [modeEffect, h]

theorem modeEffect_of_some {s : State} {r : Req} {m : Mode} (h : u8 r.payload 0 = m.code) : modeEffect r s =
    if m = s.control.mode then ⟨s, .ok, []⟩
    else if (m = .setup ∨ s.control.mode = .setup) ∧ s.planeCovered then ⟨s, .busy, []⟩
    else ⟨s.changeMode m, .ok, []⟩ := by
  simp only [modeEffect, h, Mode.ofCode_code]

theorem State.changeMode_release {s : State} (hr : ∀ k, s.ringRight k) (hmode : s.control.mode ≠ .setup) (m : Mode) :
    (s.changeMode m).release = s.release := by
  rw [State.changeMode_eq, if_neg fun hc => hmode hc.1, (State.evalBoth_works _).release,
    (State.handMode_chain hr m).1.release]
  rfl

/-- MODE's own checks and its answer. -/
theorem exec_mode_facts {s : State} {p : Port} {r : Req} {rest : List Req} (htakes : s.takes p .mode r rest)
    (hr : ∀ k, s.ringRight k) : (3 ≤ u8 r.payload 0 → exec (.mode p) s = .next (s.answer p r .badValue [])) ∧
     ∀ m : Mode, u8 r.payload 0 = m.code →
       (m = s.control.mode → exec (.mode p) s = .next (s.answer p r .ok [])) ∧
       (m ≠ s.control.mode → (m = .setup ∨ s.control.mode = .setup) →
         (∃ x ∈ s.track, covers s .a x = true ∨ covers s .b x = true) →
         exec (.mode p) s = .next (s.answer p r .busy [])) ∧
       (m ≠ s.control.mode → ((m = .setup ∨ s.control.mode = .setup) →
           ∀ x ∈ s.track, covers s .a x = false ∧ covers s .b x = false) →
         exec (.mode p) s = .next ((s.changeMode m).answer p r .ok []) ∧
           SameOuter { s with control := { s.control with mode := m } } (s.changeMode m) ∧
           (s.control.mode ≠ .setup → (s.changeMode m).release = s.release)) := by
  have hexec := exec_serve_of_takes (i := .mode p) (effect := modeEffect) rfl htakes
  refine ⟨fun h => ?_, fun m hm => ⟨fun h => ?_, fun h hsetup hcovered => ?_, fun h hfree => ⟨?_, ?_, ?_⟩⟩⟩
  · rw [hexec, modeEffect_of_none (Mode.ofCode_of_le h)]
  · rw [hexec, modeEffect_of_some hm, if_pos h]
  · rw [hexec, modeEffect_of_some hm, if_neg h, if_pos ⟨hsetup, s.planeCovered_iff.mpr hcovered⟩]
  · have hnot : ¬((m = .setup ∨ s.control.mode = .setup) ∧ s.planeCovered = true) := by
      rintro ⟨hsetup, hcovered⟩
      obtain ⟨x, hx, hc⟩ := s.planeCovered_iff.mp hcovered
      obtain ⟨ha, hb⟩ := hfree hsetup x hx
      rw [ha, hb] at hc
      simp at hc
    rw [hexec, modeEffect_of_some hm, if_neg h, if_neg hnot]
  · exact (State.changeMode_chain hr m).1.sameOuter
  · exact fun hmode => State.changeMode_release hr hmode m

/-- The targets after a change to or from SETUP. -/
theorem changeMode_targets {s : State} (hr : ∀ k, s.ringRight k) (hl : s.levelRight) {m : Mode} (hm : m ≠ s.control.mode)
    (hsetup : m = .setup ∨ s.control.mode = .setup) (k : Ring) : (s.changeMode m).targetsFollow k ∧
      (((s.changeMode m).ringState k).pressing = false → (s.ringState k).pressing = true →
        ((s.changeMode m).setpoint.get k).pressTarget = 0) := by
  by_cases hmode : s.control.mode = .setup
  · have hms : m ≠ .setup := fun h => hm (h.trans hmode.symm)
    refine ⟨?_, fun _ hp => ?_⟩
    · rw [State.changeMode_from_setup hr hms hmode]
      split
      · exact State.evalBoth_targetsFollow _ k
      · obtain ⟨hworks, -⟩ := State.handMode_chain hr m
        have hhand : (s.moded m).handMode s.control.mode m = (s.moded m).ringsFromSetup := by
          rw [State.handMode, if_neg hms, if_pos hmode]
          rfl
        rw [hhand] at hworks
        have hboth := hworks.trans (State.evalBoth_works _)
        refine State.raiseCause_rotor_targetsFollow ?_
          (State.evalBoth_targetsFollow _) k
        rw [State.levelRight, hboth.release]
        exact hl
    · obtain hi | hh := (hr k).allowed.1 hmode
      · rw [hi] at hp
        cases hp
      · rw [hh] at hp
        cases hp
  · obtain rfl : m = .setup := hsetup.resolve_right hmode
    rw [State.changeMode_to_setup hmode]
    refine ⟨State.evalBoth_targetsFollow _ k, fun hopen hp => ?_⟩
    rw [(State.evalBoth_view _).ringState] at hopen
    rw [State.evalBoth_pressTarget_of_open hopen]
    exact State.ringsToSetup_pressTarget (s := s.moded .setup) hp

/-- Settles O49: MODE's checks, then the change, its rings, its targets and its cause. -/
theorem modeChangesOverUncoveredPlanes : Obligations.ModeChangesOverUncoveredPlanes := by
  refine ⟨fun s p r rest htakes hr => exec_mode_facts htakes hr, fun s m hr hl hm => ?_⟩
  intro t
  refine ⟨fun hsetup k => ?_, ?_⟩
  · subst hsetup
    have hstate : t.ringState k = _ := congrArg (State.ringState · k) (State.changeMode_to_setup (Ne.symm hm))
    rw [hstate, (State.evalBoth_view _).ringState, State.ringsToSetup_state]
    rfl
  intro u
  refine ⟨fun hms hmode => ?_, fun hsetup k => ?_, fun hmode hstopped => ?_, fun hmode ha hb => ?_⟩
  · have ht : t = u.evalPresses.evalLifts := State.changeMode_between hms hmode
    rw [ht]
    refine ⟨(State.evalBoth_view u).ring, fun k => ⟨fun x hp hx => State.evalBoth_press hp hx, fun hopen => ?_,
      fun hp hmanual => ?_, fun hp hrun => ?_⟩⟩
    · exact ⟨(State.evalBoth_lift (s := u) (.inl hopen)).1, (State.evalBoth_lift (s := u) (.inl hopen)).2 hopen⟩
    · have hvalue : liftValue u k = s.control.manualLift.get k := by
        unfold liftValue
        rw [show u.ringState k = s.ringState k from rfl, show u.control.mode = .manual from hmanual]
        cases hs : s.ringState k with
        | idle | armed | held => rw [hs] at hp; cases hp
        | _ => rfl
      rw [(State.evalBoth_lift (s := u) (.inr hmanual)).1, hvalue]
    · exact State.evalBoth_free (s := u) hp hrun
  · obtain ⟨hfollow, hzero⟩ := changeMode_targets hr hl hm hsetup k
    have hpoints : t.points = s.points := (State.changeMode_chain hr m).1.sameOuter.points
    refine ⟨hfollow.press, fun hopen => ?_⟩
    obtain ⟨htarget, hhanded⟩ := hfollow.lift hopen
    rw [hpoints] at htarget hhanded
    exact ⟨htarget, hhanded, hzero hopen⟩
  · have hms : m ≠ .setup := fun h => hm (h.trans hmode.symm)
    obtain ⟨hworks, hright⟩ := State.handMode_chain hr m
    have hhand : (s.moded m).handMode s.control.mode m = (s.moded m).ringsFromSetup := by
      rw [State.handMode, if_neg hms, if_pos hmode]
      rfl
    rw [hhand] at hworks hright
    have hboth := hworks.trans (State.evalBoth_works _)
    have hlevel : (s.moded m).ringsFromSetup.evalPresses.evalLifts.levelRight := by
      rw [State.levelRight, hboth.release]
      exact hl
    have ht : t = (s.moded m).ringsFromSetup.evalPresses.evalLifts.raiseCause .rotor := by
      rw [show t = _ from State.changeMode_from_setup hr hms hmode, if_neg (by rw [hstopped]; decide)]
    rw [ht, State.raiseCause_release hlevel]
    exact ⟨rfl, (State.raiseCause_held (fun j => (State.evalBoth_works _).ringRight (hright j)) hlevel (c := .rotor) nofun).2⟩
  · have hms : m ≠ .setup := fun h => hm (h.trans hmode.symm)
    obtain ⟨hworks, -⟩ := State.handMode_chain hr m
    have hhand : (s.moded m).handMode s.control.mode m = (s.moded m).ringsFromSetup := by
      rw [State.handMode, if_neg hms, if_pos hmode]
      rfl
    rw [hhand] at hworks
    have ht : t = (s.moded m).ringsFromSetup.evalPresses.evalLifts := by
      rw [show t = _ from State.changeMode_from_setup hr hms hmode, if_pos (by rw [ha, hb]; rfl)]
    have hring : t.ring = (s.moded m).ringsFromSetup.ring := by
      rw [ht, (State.evalBoth_view _).ring]
    refine ⟨?_, fun k => ?_⟩
    · rw [ht, (hworks.trans (State.evalBoth_works _)).release]
      rfl
    · have hplaced := (State.ringsFromSetup_placed (s.moded m) k).of_ring (u := t) (by rw [hring])
      have hplaced : PlacedFromSetup s t k := hplaced.of_ground ⟨rfl, rfl, rfl⟩ rfl
      exact ⟨hplaced.kept, hplaced.placed⟩

end Sys2Proof.Machine
end

section
/-! PROOFS. The reports of a ring's passages (R75, R123, R125, R128, R130, R131). -/

namespace Sys2Proof.Machine

/-! ### What a chain keeps of the reports -/

theorem State.departs.marked {s t : State} {k : Ring} (h : s.departs t k) (m : Mark) :
    t.marks.get m = (s.marks.get m || decide (s.points.markSource.get m = clearSource k)) := by
  cases k <;> exact h.marks m

/-- Between two states no mark is cleared, no table moves and no record loses a flag. -/
structure KeepsReports (s t : State) : Prop where
  marks : ∀ m, s.marks.get m = true → t.marks.get m = true
  recipes : t.recipes = s.recipes
  flags : ∀ q ∈ t.track, ∃ r ∈ s.track, r.key = q.key ∧ ∀ f ∈ r.flags, f ∈ q.flags

theorem KeepsReports.refl (s : State) : KeepsReports s s := ⟨fun _ h => h, rfl, fun q hq => ⟨q, hq, rfl, fun _ h => h⟩⟩

theorem KeepsReports.trans {s t u : State} (h : KeepsReports s t) (g : KeepsReports t u) : KeepsReports s u := by
  refine ⟨fun m hm => g.marks m (h.marks m hm), g.recipes.trans h.recipes, fun q hq => ?_⟩
  obtain ⟨x, hx, hxkey, hxflags⟩ := g.flags q hq
  obtain ⟨r, hr, hrkey, hrflags⟩ := h.flags x hx
  exact ⟨r, hr, hrkey.trans hxkey, fun f hf => hxflags f (hrflags f hf)⟩

theorem Touches.keepsReports {parts : List Part} {s t : State} (h : Touches parts s t) (hmarks : .marks ∉ parts)
    (hrecipes : .recipes ∉ parts) (htrack : .track ∉ parts) : KeepsReports s t := by
  refine ⟨fun m hm => by rw [h.marks.resolve_left hmarks]; exact hm, h.recipes.resolve_left hrecipes, ?_⟩
  rw [h.track.resolve_left htrack]
  exact (KeepsReports.refl s).flags

theorem State.markEvent_keepsReports (s : State) (src : MarkSource) : KeepsReports s (s.markEvent src) := by
  have h := s.markEvent_touches src
  refine ⟨fun m hm => by rw [State.markEvent_marks_get, hm, Bool.true_or], h.recipes.resolve_left (by decide), ?_⟩
  rw [h.track.resolve_left (by decide)]
  exact (KeepsReports.refl s).flags

/-- A departure clears no mark and drops no flag; ring B's moves no table. -/
theorem State.departs.keepsReports {s t : State} (h : s.departs t .b) : KeepsReports s t := by
  refine ⟨fun m hm => by rw [h.marked, hm, Bool.true_or], h.noSwap (.inl rfl), ?_⟩
  by_cases hflag : t.ringState .b = .held ∧ s.standing .b ≠ none
  · obtain ⟨hheld, hsome⟩ := hflag
    obtain ⟨r, hr⟩ := Option.ne_none_iff_exists'.mp hsome
    rw [h.flagged r hheld hr]
    intro q hq
    obtain ⟨x, hx, rfl⟩ := List.mem_map.mp hq
    refine ⟨x, hx, ?_, fun f hf => ?_⟩
    · split <;> rfl
    · split
      · exact mem_addFlags.mpr (.inl hf)
      · exact hf
  · rw [h.unflagged (by tauto)]
    exact (KeepsReports.refl s).flags

/-- Ring B's passage to an open state keeps what is reported. -/
theorem State.goOpen_keepsReports (s : State) {st : RingState} (hst : st.pressing = false) (armed : Option Nat) :
    KeepsReports s (s.goOpen .b st armed) := by
  cases hp : (s.ringState .b).pressing
  · rw [State.goOpen_of_open hp]
    exact ((s.opened_touches .b st armed).keepsReports (by decide) (by decide) (by decide)).trans
      ((State.evalLift_touches _ .b).keepsReports (by decide) (by decide) (by decide))
  · exact (State.goOpen_departs hp hst armed).keepsReports

/-- Ring k has made its reports of a departure, and at a passage to HELD flagged the record in its plane. -/
structure Reported (s t : State) (k : Ring) (flagged : Bool) : Prop where
  marks : ∀ m, s.points.markSource.get m = clearSource k → t.marks.get m = true
  swap : k = .a → s.recipes.swapPending = true → t.recipes = ⟨s.recipes.shadow, s.recipes.shadow, false⟩ ∧
    ∀ p, NoticeKind.swapDone ∈ (t.ports.get p).status
  flags : flagged = true → ∀ r, s.standing k = some r → ∀ q ∈ t.track, q.key = r.key → Flag.releasedDuring ∈ q.flags

theorem State.departs.reported {s t : State} {k : Ring} (h : s.departs t k) :
    Reported s t k (decide (t.ringState k = .held)) := by
  refine ⟨fun m hm => by rw [h.marked, decide_eq_true hm, Bool.or_true], h.swap, fun hheld r hr q hq hkey => ?_⟩
  rw [h.flagged r (of_decide_eq_true hheld) hr] at hq
  obtain ⟨x, -, rfl⟩ := List.mem_map.mp hq
  by_cases hx : x.key = r.key
  · rw [if_pos hx]
    exact mem_addFlags.mpr (.inr (List.mem_singleton.mpr rfl))
  · rw [if_neg hx] at hkey
    exact absurd hkey hx

/-- Reports made stand while what is reported is kept. -/
theorem Reported.after {s t u : State} {k : Ring} {flagged : Bool} (h : Reported s t k flagged) (g : KeepsReports t u)
    (hstatus : ∀ p n, n ∈ (t.ports.get p).status → n ∈ (u.ports.get p).status) : Reported s u k flagged := by
  refine ⟨fun m hm => g.marks m (h.marks m hm), fun hk hp => ?_, fun hf r hr q hq hkey => ?_⟩
  · obtain ⟨hrecipes, hnotice⟩ := h.swap hk hp
    exact ⟨g.recipes.trans hrecipes, fun p => hstatus p _ (hnotice p)⟩
  · obtain ⟨x, hx, hxkey, hxflags⟩ := g.flags q hq
    exact hxflags _ (h.flags hf r hr x hx (hxkey.trans hkey))

/-- Ring B's reports stand also for the state before ring A acted. -/
theorem Reported.of_ground {s u t : State} {flagged : Bool} (h : Reported u t .b flagged) (g : SameGround s u) :
    Reported s t .b flagged := by
  refine ⟨fun m hm => h.marks m (by rw [g.points]; exact hm), nofun, fun hf r hr q hq hkey => ?_⟩
  obtain ⟨x, hx, hbare⟩ := exists_of_map_bare (g.standing .b) hr
  exact h.flags hf x hx q hq (hkey.trans (Rec.eq_of_bare hbare).1.symm)

/-- Both rings at a level that holds them: a ring that pressed has made its reports. -/
theorem State.ringsLevel_reported {s : State} {k : Ring} (h : s.release.level = .immediate ∨ s.release.level = .estop)
    (hp : (s.ringState k).pressing = true) : Reported s s.ringsLevel k true := by
  have hlevel : (s.ringLevel .a).release.level = .immediate ∨ (s.ringLevel .a).release.level = .estop := by
    rw [(s.ringLevel_works .a).release]
    exact h
  have hreported : ∀ {t : State} {j : Ring}, (t.release.level = .immediate ∨ t.release.level = .estop) →
      (t.ringState j).pressing = true → Reported t (t.ringLevel j) j true := by
    intro t j ht hpress
    have hne : t.ringState j ≠ .held := fun e => by
      rw [e] at hpress
      cases hpress
    have hdep : t.departs (t.ringLevel j) j := by
      rw [State.ringLevel_of_high ht hne]
      exact State.goOpen_departs hpress rfl none
    have hrep := hdep.reported
    rwa [State.ringLevel_held ht] at hrep
  cases k with
  | a =>
    have hkept : KeepsReports (s.ringLevel .a) s.ringsLevel := by
      rw [State.ringsLevel]
      by_cases hheld : (s.ringLevel .a).ringState .b = .held
      · rw [State.ringLevel_of_held hheld (by obtain he | he := hlevel <;> rw [he] <;> decide)]
        exact .refl _
      · rw [State.ringLevel_of_high hlevel hheld]
        exact State.goOpen_keepsReports _ rfl none
    exact (hreported h hp).after hkept fun p n => (State.ringLevel_works _ .b).status p
  | b =>
    have hpress : ((s.ringLevel .a).ringState .b).pressing = true := by
      rw [State.ringState, State.ringLevel_other _ (by decide)]
      exact hp
    exact (hreported hlevel hpress).of_ground (s.ringLevel_ground .a)

theorem State.relevel_reported {s : State} {k : Ring} (hne : s.release.causes.level ≠ s.release.level)
    (h : s.release.causes.level = .immediate ∨ s.release.causes.level = .estop) (hp : (s.ringState k).pressing = true) :
    Reported s s.relevel k true := by
  have hrings : Reported s s.leveled.ringsLevel k true := by
    have hr := State.ringsLevel_reported (s := s.leveled) (k := k) h hp
    exact ⟨hr.marks, hr.swap, hr.flags⟩
  have hchain : KeepsReports s.leveled.ringsLevel s.relevel := by
    rw [State.relevel_of_ne hne]
    refine ((State.valveLevel_touches _ s.release.level).keepsReports (by decide) (by decide) (by decide)).trans ?_
    refine ((State.relit_touches _ s.release.level).keepsReports (by decide) (by decide) (by decide)).trans ?_
    refine ((State.recomputePermit_touches _).keepsReports (by decide) (by decide) (by decide)).trans ?_
    refine KeepsReports.trans ?_ ((State.notice_touches _ _).keepsReports (by decide) (by decide) (by decide))
    unfold State.markRise
    split
    · exact State.markEvent_keepsReports _ _
    · exact .refl _
  have hvalve : ∀ p n, n ∈ (s.leveled.ringsLevel.ports.get p).status →
      n ∈ ((s.leveled.ringsLevel.valveLevel s.release.level).ports.get p).status := fun p n hn => by
    rw [(State.valveLevel_touches _ _).ports.resolve_left (by decide)]
    exact hn
  refine hrings.after hchain fun p n hn => ?_
  rw [State.relevel_of_ne hne]
  have hmark : ∀ (t : State) before, Works t (t.markRise before) := by
    intro t before
    unfold State.markRise
    split
    · exact t.markEvent_works _
    · exact .refl t
  exact (((State.relit_works _ _).trans (.permit _)).trans ((hmark _ _).trans (State.notice_works _ _))).status p
    (hvalve p n hn)

/-- Both rings to SETUP: a ring that pressed has made its reports. -/
theorem State.ringsToSetup_reported {s : State} {k : Ring} (hp : (s.ringState k).pressing = true)
    (hworks : Works (s.ringToSetup .a) s.ringsToSetup) (hground : SameGround s (s.ringToSetup .a)) :
    Reported s s.ringsToSetup k false := by
  have hreported : ∀ {t : State} {j : Ring}, (t.ringState j).pressing = true → Reported t (t.ringToSetup j) j false := by
    intro t j hpress
    have hne : t.ringState j ≠ .held := fun e => by
      rw [e] at hpress
      cases hpress
    rw [State.ringToSetup_of_ne hne]
    have hrep := (State.goOpen_departs hpress (st := .idle) rfl none).reported
    rwa [(t.goOpen_state j .idle none).1] at hrep
  cases k with
  | a =>
    have hkept : KeepsReports (s.ringToSetup .a) s.ringsToSetup := by
      rw [State.ringsToSetup]
      by_cases hheld : (s.ringToSetup .a).ringState .b = .held
      · rw [State.ringToSetup_of_held hheld]
        exact .refl _
      · rw [State.ringToSetup_of_ne hheld]
        exact State.goOpen_keepsReports _ rfl none
    exact (hreported hp).after hkept fun p n => hworks.status p
  | b =>
    have hpress : ((s.ringToSetup .a).ringState .b).pressing = true := by
      rw [State.ringState, State.ringToSetup_other _ _ _ (by decide)]
      exact hp
    exact (hreported hpress).of_ground hground

theorem State.ringToSetup_ground (s : State) (k : Ring) : SameGround s (s.ringToSetup k) := by
  unfold State.ringToSetup
  split
  · exact .refl s
  · exact s.goOpen_ground k _ _

/-! ### O39 -/

theorem marksFor_refl (s : State) : s.marksFor s none := marksFor_none rfl rfl

theorem onRec_marksFor (s : State) (key : Nat) (f : Rec → Rec) : s.marksFor (s.onRec key f) none := marksFor_none rfl rfl

theorem RingState.open_or_held {st : RingState} (hi : st ≠ .idle) (ha : st ≠ .armed) : st.pressing = true ∨ st = .held := by
  cases st <;> simp_all [RingState.pressing]

theorem State.gapTested_touches (s : State) (k : Ring) (key : Nat) : Touches [.track] s (s.gapTested k key) := by
  unfold State.gapTested
  split
  · exact .refl _ s
  · exact s.onRec_touches _ _

/-- An entry reported after a record's flag alone has changed. -/
theorem State.ringPlane_marksFor {s : State} {k : Ring} {key : Nat} (h : s.ringState k = .idle ∨ s.ringState k = .armed) :
    s.marksFor (s.ringPlane k key) (some (entrySource k)) := by
  have hgap := s.gapTested_touches k key
  have hentry := (s.gapTested k key).goPress_entry_marksFor k key
  have hmarks := hgap.marks.resolve_left (by decide)
  have hpoints : (s.gapTested k key).points = s.points := by
    unfold State.gapTested
    split <;> rfl
  rw [State.ringPlane_of_open h]
  exact ⟨by rw [← hmarks, ← hpoints]; exact hentry.marks, by rw [← hmarks, ← hpoints]; exact hentry.overrun,
    hentry.recipes.trans (hgap.recipes.resolve_left (by decide))⟩

theorem State.ringPlane_marksFor_none {s : State} {k : Ring} {key : Nat} (hi : s.ringState k ≠ .idle)
    (ha : s.ringState k ≠ .armed) : s.marksFor (s.ringPlane k key) none := by
  obtain hp | hheld := RingState.open_or_held hi ha
  · rw [State.ringPlane_of_pressing hp]
    exact marksFor_refl s
  · rw [State.ringPlane_of_held hheld]
    exact onRec_marksFor s _ _

theorem State.ringArm_marksFor (s : State) (k : Ring) (key : Nat) : s.marksFor (s.ringArm k key) none := by
  by_cases h : s.ringState k = .idle
  · rw [State.ringArm_of_idle h]
    exact State.goOpen_marksFor_of_open (by rw [h]; rfl) _ _
  · rw [State.ringArm_of_ne h]
    exact marksFor_refl s

theorem State.ringTailBackIn_marksFor (s : State) (k : Ring) (key : Nat) : s.marksFor (s.ringTailBackIn k key) none := by
  by_cases h : s.ringState k = .idle ∨ s.ringState k = .armed
  · rw [State.ringTailBackIn_of_open h]
    exact s.goPress_marksFor_none k (by decide) key
  · obtain ⟨hi, ha⟩ := not_or.mp h
    obtain hp | hheld := RingState.open_or_held hi ha
    · rw [State.ringTailBackIn_of_pressing hp]
      exact marksFor_refl s
    · rw [State.ringTailBackIn_of_held hheld]
      exact onRec_marksFor s _ _

theorem State.ringEntryEnd_marksFor (s : State) (k : Ring) (key : Nat) : s.marksFor (s.ringEntryEnd k key) none := by
  unfold State.ringEntryEnd
  split
  · exact s.goPhase_marksFor k _
  · exact marksFor_refl s

theorem State.ringTailAdvance_marksFor (s : State) (k : Ring) (key : Nat) : s.marksFor (s.ringTailAdvance k key) none := by
  unfold State.ringTailAdvance
  split
  · exact s.goPhase_marksFor k _
  · exact marksFor_refl s

theorem State.goWaiting_marksFor {s : State} {k : Ring} (h : (s.ringState k).pressing = false) :
    s.marksFor (s.goWaiting k) none := by
  unfold State.goWaiting
  split <;> exact State.goOpen_marksFor_of_open h _ _

theorem State.takeGeometry_marksFor {s : State} {k : Ring} (h : (s.ringState k).pressing = false) :
    s.marksFor (s.takeGeometry k) none := by
  unfold State.takeGeometry
  split
  · next r _ =>
    refine s.goPress_marksFor_none k ?_ r.key
    unfold phaseByGeometry
    split
    · split <;> decide
    · decide
  · exact State.goWaiting_marksFor h

/-- Settles O39: each passage by the reports it makes. -/
theorem passagesMakeTheirReports : Obligations.PassagesMakeTheirReports := by
  refine ⟨?events, ?moves, ?freed, ?stops⟩
  case events =>
    intro s k key hmode entry e
    have hentry : entry = entrySource k := by cases k <;> rfl
    have harm : e (.arm k) = _ := State.ringEvent_arm hmode
    have hplane : e (.plane k) = _ := State.ringEvent_plane hmode
    have hentryEnd : e (.entryEnd k) = _ := State.ringEvent_entryEnd hmode
    have htailAdvance : e (.tailAdvance k) = _ := State.ringEvent_tailAdvance hmode
    have htailOut : e (.tailOut k) = _ := State.ringEvent_tailOut hmode
    have hbackOut : e (.backOut k) = _ := State.ringEvent_backOut hmode
    have hbackIn : e (.tailBackIn k) = _ := State.ringEvent_tailBackIn hmode
    rw [harm, hplane, hentryEnd, htailAdvance, htailOut, hbackOut, hbackIn, hentry]
    refine ⟨fun hp hs => ?_, State.ringPlane_marksFor, State.ringPlane_marksFor_none, s.ringArm_marksFor k key,
      s.ringTailBackIn_marksFor k key, s.ringEntryEnd_marksFor k key, s.ringTailAdvance_marksFor k key, fun hopen => ?_⟩
    · rw [State.ringBackOut_of_served hp hs, State.ringTailOut_of_served hp hs]
      refine ⟨State.leaveByBackOut_departs hp key, State.leaveByTail_departs hp, fun hgap hstands => ?_⟩
      obtain ⟨r, hr⟩ := Option.ne_none_iff_exists'.mp hstands
      rw [State.leaveByTail_of_standing hgap hr]
      exact s.goPress_entry_marksFor k r.key
    · rw [State.ringBackOut_of_ne (.inl hopen), State.ringTailOut_of_ne (.inl hopen)]
      exact ⟨marksFor_refl s, marksFor_refl s⟩
  case moves =>
    intro s k hmode hp
    refine ⟨fun r hr hstands hno => ?_, fun key hs hno => ?_, fun hlevel => ?_⟩
    · by_cases hup : frontDist s r < s.points.planeOf k
      · rw [State.ringMoved_of_upstream hmode hp hr hup]
        exact State.leaveByBackOut_departs hp r.key
      · rw [State.ringMoved_of_past hmode hp hr hstands (not_lt.mp hup)]
        exact State.leaveByTail_departs hp hno
    · rw [State.ringRemoved_of_served hmode hs]
      exact State.leaveByTail_departs hp hno
    · have hne : s.ringState k ≠ .held := fun e => by
        rw [e] at hp
        cases hp
      refine ⟨?_, State.ringLevel_held hlevel⟩
      rw [State.ringLevel_of_high hlevel hne]
      exact State.goOpen_departs hp rfl none
  case freed =>
    intro s k hlevel hheld
    have hopen : (s.ringState k).pressing = false := by rw [hheld]; rfl
    by_cases hmode : s.control.mode = .setup
    · rw [State.ringLevel_of_none_setup hlevel hheld hmode]
      exact State.goOpen_marksFor_of_open hopen _ _
    · rw [State.ringLevel_of_none_held hlevel hheld hmode]
      exact State.takeGeometry_marksFor hopen
  case stops =>
    intro s k hr hl hp clear swapped
    have hclear : clear = clearSource k := by cases k <;> rfl
    have hne : s.ringState k ≠ .held := fun e => by
      rw [e] at hp
      cases hp
    refine ⟨fun hline htaken => ?_, fun hmode => ?_⟩
    · generalize hw : ({ s with
          lines := { s.lines with estopActive := true }
          release := { s.release with estopActive := true } } : State) = w
      have hwrelease : w.release = { s.release with estopActive := true } := by rw [← hw]
      have hexec : exec (.estopInputChange true) s = .next (w.raiseCause .estop).recomputePermit := by
        show execEstopInputChange true s = _
        rw [← hw]
        simp only [execEstopInputChange, hline, htaken, Bool.false_eq_true, if_false, Bool.not_false, Bool.and_self, if_true,
          State.takeEstop]
      have hlevel : w.release.level ≠ .estop := by
        rw [hwrelease]
        exact fun he => hne ((hr k).allowed.2 (.inr he))
      have habsent : w.release.causes.has .estop = false := by
        refine Bool.eq_false_iff.mpr fun h => hlevel ?_
        rw [hwrelease] at h ⊢
        exact hl.trans (Causes.level_of_estop h)
      have hcauses : (w.entered (w.release.causes.add .estop)).release.causes.level = .estop := Causes.level_of_estop rfl
      have hpress : ((w.entered (w.release.causes.add .estop)).ringState k).pressing = true := by
        rw [← hw]
        exact hp
      have hreported := State.relevel_reported (k := k) (by rw [hcauses]; exact hlevel.symm) (.inr hcauses) hpress
      rw [← State.raiseCause_of_absent habsent] at hreported
      have hreported := hreported.after ((State.recomputePermit_touches _).keepsReports (by decide) (by decide) (by decide))
        fun p n hn => hn
      rw [← hw] at hreported hexec
      exact ⟨_, hexec, fun m hm => hreported.marks m (hm.trans hclear), hreported.swap, hreported.flags rfl⟩
    · rw [State.changeMode_to_setup hmode]
      have hlow : ∀ j, (s.moded .setup).ringState j ≠ .held → (s.moded .setup).release.level ≠ .immediate ∧
          (s.moded .setup).release.level ≠ .estop := fun j => (hr j).low
      have hworks : Works ((s.moded .setup).ringToSetup .a) (s.moded .setup).ringsToSetup := by
        refine State.ringToSetup_works .b fun hb => ?_
        rw [(State.ringToSetup_works .a (hlow .a)).release]
        refine hlow .b ?_
        rwa [State.ringState, State.ringToSetup_other _ _ _ (by decide)] at hb
      have hreported := State.ringsToSetup_reported (s := s.moded .setup) (k := k) hp hworks (State.ringToSetup_ground _ _)
      generalize (s.moded .setup).ringsToSetup = u at hreported
      have heval := (u.evalPresses_touches.mono (more := [.setpoint, .track, .valve, .freeCount]) (by decide)).trans
        ((State.evalLifts_touches _).mono (by decide))
      have hmarks := heval.marks.resolve_left (by decide)
      have hrecipes := heval.recipes.resolve_left (by decide)
      have hports := heval.ports.resolve_left (by decide)
      refine ⟨fun m hm => ?_, fun hk hpending => ?_⟩
      · rw [hmarks]
        exact hreported.marks m (hm.trans hclear)
      · rw [hrecipes, hports]
        exact hreported.swap hk hpending

end Sys2Proof.Machine
end

section
/-! PROOFS. What the taking of events may do (R8 to R10, R38 to R40, R121): to the rings' states, to the records left, and
to the records that wait at the cells. -/

namespace Sys2Proof.Machine

/-! ### Where the level lets a ring stand (R124, R126) -/

/-- No ring is HELD at NONE. -/
def State.freed (s : State) : Prop := s.release.level = .none → ∀ k, s.ringState k ≠ .held

/-- No ring is IDLE or ARMED at AT_GAP outside SETUP. -/
def State.gapped (s : State) : Prop :=
  s.release.level = .atGap → s.control.mode ≠ .setup → ∀ k, s.ringState k ≠ .idle ∧ s.ringState k ≠ .armed

theorem rests_iff {s : State} : (∀ k, s.rests k) ↔ s.freed ∧ s.gapped :=
  ⟨fun h => ⟨fun hl k => (h k).1 hl, fun hl hm k => (h k).2 hl hm⟩, fun h k => ⟨fun hl => h.1 hl k, fun hl hm => h.2 hl hm k⟩⟩

/-- What holds of where the rings stand in s holds of it in t. -/
structure Rests (s t : State) : Prop where
  freed : s.freed → t.freed
  gapped : s.gapped → t.gapped

theorem Rests.refl (s : State) : Rests s s := ⟨id, id⟩

theorem Rests.trans {s t u : State} (h : Rests s t) (g : Rests t u) : Rests s u :=
  ⟨fun hs => g.freed (h.freed hs), fun hs => g.gapped (h.gapped hs)⟩

/-- A state the level lets a ring stand in. -/
def Restful (s : State) (st : RingState) : Prop :=
  (s.release.level = .none → st ≠ .held) ∧
    (s.release.level = .atGap → s.control.mode ≠ .setup → st ≠ .idle ∧ st ≠ .armed)

/-- Between two states each ring keeps its state, passes to one the level lets it stand in, or is armed out of IDLE. -/
def Passed (s t : State) : Prop := ∀ k, t.ringState k = s.ringState k ∨ Restful s (t.ringState k) ∨
  (s.ringState k = .idle ∧ t.ringState k = .armed)

theorem Passed.refl (s : State) : Passed s s := fun _ => .inl rfl

theorem Passed.of_ring {s t : State} (h : t.ring = s.ring) : Passed s t := fun k => .inl (by
  rw [State.ringState, State.ringState, h])

theorem Passed.rests {s t : State} (h : Passed s t) (hlevel : t.release.level = s.release.level)
    (hmode : t.control.mode = s.control.mode) : Rests s t := by
  refine ⟨fun hs hl k => ?_, fun hs hl hm k => ?_⟩
  · rw [hlevel] at hl
    obtain he | hr | ⟨-, ha⟩ := h k
    · rw [he]
      exact hs hl k
    · exact hr.1 hl
    · rw [ha]
      decide
  · rw [hlevel] at hl
    rw [hmode] at hm
    obtain he | hr | ⟨hi, -⟩ := h k
    · rw [he]
      exact hs hl hm k
    · exact hr.2 hl hm
    · exact absurd hi (hs hl hm k).1

theorem Rests.of_same {s t : State} (hring : t.ring = s.ring) (hlevel : t.release.level = s.release.level)
    (hmode : t.control.mode = s.control.mode) : Rests s t := (Passed.of_ring hring).rests hlevel hmode

theorem Works.rests {s t : State} (w : Works s t) (h : Passed s t) : Rests s t :=
  h.rests (by rw [w.release]) (by rw [w.sameOuter.control])

theorem Restful.of_pressing (s : State) {st : RingState} (h : st.pressing = true) : Restful s st := by
  refine ⟨fun _ he => ?_, fun _ _ => ⟨fun he => ?_, fun he => ?_⟩⟩ <;> rw [he] at h <;> cases h

theorem Restful.held {s : State} (h : s.release.level ≠ .none) : Restful s .held :=
  ⟨fun he => absurd he h, fun _ _ => by decide⟩

theorem Restful.open_state {s : State} (h : s.release.level ≠ .atGap) {st : RingState} (hst : st ≠ .held) : Restful s st :=
  ⟨fun _ => hst, fun he => absurd he h⟩

section Passages

variable {s : State} {k : Ring}

theorem State.ringState_goOpen (s : State) (k j : Ring) (st : RingState) (armed : Option Nat) :
    (s.goOpen k st armed).ringState j = if j = k then st else s.ringState j := by
  unfold State.ringState
  rw [State.goOpen_ring, PerRing.get_modify]
  split <;> rfl

theorem State.ringState_goPress (s : State) (k j : Ring) (st : RingState) (key : Nat) :
    (s.goPress k st key).ringState j = if j = k then st else s.ringState j := by
  unfold State.ringState
  rw [State.goPress_ring, PerRing.get_modify]
  split <;> rfl

theorem State.ringState_goPhase (s : State) (k j : Ring) (st : RingState) :
    (s.goPhase k st).ringState j = if j = k then st else s.ringState j := by
  unfold State.ringState
  rw [State.goPhase, State.evalPress_ring, State.onSeq_ring, PerRing.get_modify]
  split <;> rfl

/-- A passage of one ring. -/
theorem passed_of_one {s t : State} {k : Ring} {st : RingState}
    (ht : ∀ j, t.ringState j = if j = k then st else s.ringState j)
    (h : Restful s st ∨ (s.ringState k = .idle ∧ st = .armed)) : Passed s t := by
  intro j
  rw [ht]
  by_cases hj : j = k
  · subst hj
    rw [if_pos rfl]
    exact .inr h
  · rw [if_neg hj]
    exact .inl rfl

theorem State.goOpen_passed {st : RingState} (armed : Option Nat) (h : Restful s st ∨ (s.ringState k = .idle ∧ st = .armed)) :
    Passed s (s.goOpen k st armed) := passed_of_one (fun j => s.ringState_goOpen k j st armed) h

theorem State.goPress_passed {st : RingState} (h : st.pressing = true) (key : Nat) : Passed s (s.goPress k st key) :=
  passed_of_one (fun j => s.ringState_goPress k j st key) (.inl (.of_pressing s h))

theorem State.goPhase_passed {st : RingState} (h : st.pressing = true) : Passed s (s.goPhase k st) :=
  passed_of_one (fun j => s.ringState_goPhase k j st) (.inl (.of_pressing s h))

theorem State.goWaiting_passed (h : s.release.level ≠ .atGap) : Passed s (s.goWaiting k) := by
  unfold State.goWaiting
  split <;> exact State.goOpen_passed _ (.inl (.open_state h (by decide)))

theorem State.takeGeometry_passed (h : s.release.level ≠ .atGap) : Passed s (s.takeGeometry k) := by
  unfold State.takeGeometry
  split
  · exact State.goPress_passed (phaseByGeometry_pressing s k _) _
  · exact State.goWaiting_passed h

theorem State.leaveByTail_passed : Passed s (s.leaveByTail k) := by
  unfold State.leaveByTail
  split
  · next h => exact State.goOpen_passed _ (.inl (.held (by rw [h]; decide)))
  · next h =>
    split
    · exact State.goPress_passed rfl _
    · exact State.goWaiting_passed h

theorem State.leaveByBackOut_passed (key : Nat) : Passed s (s.leaveByBackOut k key) := by
  unfold State.leaveByBackOut
  split
  · next h => exact State.goOpen_passed _ (.inl (.held (by rw [h]; decide)))
  · next h => exact State.goOpen_passed _ (.inl (.open_state h (by decide)))

theorem Passed.after_same {s t u : State} (h : Passed t u) (hring : t.ring = s.ring) (hrelease : t.release = s.release)
    (hcontrol : t.control = s.control) : Passed s u := by
  intro k
  have hstate : t.ringState k = s.ringState k := by rw [State.ringState, State.ringState, hring]
  have hk := h k
  rwa [hstate, Restful, hrelease, hcontrol] at hk

theorem State.ringEvent_passed (s : State) (key : Nat) (id : EventId) : Passed s (s.ringEvent key id) := by
  have hkept : ∀ f, Passed s (s.onRec key f) := fun _ => .of_ring rfl
  by_cases hmode : s.control.mode = .setup
  · rw [State.ringEvent_of_setup hmode]
    exact .refl s
  cases id with
  | arm k =>
    rw [State.ringEvent_arm hmode]
    by_cases h : s.ringState k = .idle
    · rw [State.ringArm_of_idle h]
      exact State.goOpen_passed _ (.inr ⟨h, rfl⟩)
    · rw [State.ringArm_of_ne h]
      exact .refl s
  | plane k =>
    rw [State.ringEvent_plane hmode]
    by_cases h : s.ringState k = .idle ∨ s.ringState k = .armed
    · rw [State.ringPlane_of_open h]
      have hgap : Passed (s.gapTested k key) ((s.gapTested k key).goPress k .entry key) := State.goPress_passed rfl key
      unfold State.gapTested at hgap ⊢
      split
      · exact State.goPress_passed rfl key
      · exact Passed.after_same (State.goPress_passed rfl key) rfl rfl rfl
    · obtain ⟨hi, ha⟩ := not_or.mp h
      obtain hp | hheld := RingState.open_or_held hi ha
      · rw [State.ringPlane_of_pressing hp]
        exact .refl s
      · rw [State.ringPlane_of_held hheld]
        exact hkept _
  | entryEnd k =>
    rw [State.ringEvent_entryEnd hmode, State.ringEntryEnd]
    split
    · exact State.goPhase_passed rfl
    · exact .refl s
  | tailAdvance k =>
    rw [State.ringEvent_tailAdvance hmode, State.ringTailAdvance]
    split
    · exact State.goPhase_passed rfl
    · exact .refl s
  | tailOut k =>
    rw [State.ringEvent_tailOut hmode, State.ringTailOut]
    split
    · exact State.leaveByTail_passed
    · exact .refl s
  | backOut k =>
    rw [State.ringEvent_backOut hmode, State.ringBackOut]
    split
    · exact State.leaveByBackOut_passed key
    · exact .refl s
  | tailBackIn k =>
    rw [State.ringEvent_tailBackIn hmode]
    by_cases h : s.ringState k = .idle ∨ s.ringState k = .armed
    · rw [State.ringTailBackIn_of_open h]
      exact State.goPress_passed rfl key
    · obtain ⟨hi, ha⟩ := not_or.mp h
      obtain hp | hheld := RingState.open_or_held hi ha
      · rw [State.ringTailBackIn_of_pressing hp]
        exact .refl s
      · rw [State.ringTailBackIn_of_held hheld]
        exact hkept _
  | withdrawal | entryWindow | sample | tailWindow =>
    rw [State.ringEvent, if_neg hmode]
    exact .refl s

theorem State.ringMoved_passed (s : State) (k : Ring) : Passed s (s.ringMoved k) := by
  unfold State.ringMoved
  split
  · exact .refl s
  · split
    · split
      · exact .refl s
      · split
        · exact .refl s
        · split
          · exact State.leaveByBackOut_passed _
          · exact State.leaveByTail_passed
    · exact .refl s

theorem State.ringRemoved_passed (s : State) (k : Ring) (key : Nat) : Passed s (s.ringRemoved k key) := by
  unfold State.ringRemoved
  split
  · exact .refl s
  · split
    · exact State.leaveByTail_passed
    · split
      · split
        · next h => exact State.goOpen_passed _ (.inl (.held (by rw [h]; decide)))
        · next h => exact State.goWaiting_passed h
      · exact .refl s

end Passages

/-! ### The ground under the rings' passages -/

section Ground

variable {s : State} {k : Ring}

theorem State.onRec_flag_ground (s : State) (key : Nat) {f : Flag} (h : f ≠ .buttFlare) :
    SameGround s (s.onRec key (Rec.flag · [f])) := ⟨rfl, rfl, onRec_bare s key fun r => r.flag_bare h⟩

theorem State.goWaiting_ground (s : State) (k : Ring) : SameGround s (s.goWaiting k) := by
  unfold State.goWaiting
  split <;> exact s.goOpen_ground k _ _

theorem State.goPhase_ground (s : State) (k : Ring) (st : RingState) : SameGround s (s.goPhase k st) :=
  SameGround.trans (t := s.onSeq k fun q => { q with state := st }) ⟨rfl, rfl, rfl⟩ (State.evalPress_view _ k).ground

theorem State.leaveByTail_ground (s : State) (k : Ring) : SameGround s (s.leaveByTail k) := by
  unfold State.leaveByTail
  split
  · exact s.goOpen_ground k _ _
  · split
    · exact s.goPress_ground k _ _
    · exact s.goWaiting_ground k

theorem State.leaveByBackOut_ground (s : State) (k : Ring) (key : Nat) : SameGround s (s.leaveByBackOut k key) := by
  unfold State.leaveByBackOut
  split <;> exact s.goOpen_ground k _ _

theorem State.gapTested_ground (s : State) (k : Ring) (key : Nat) : SameGround s (s.gapTested k key) := by
  unfold State.gapTested
  split
  · exact .refl s
  · exact s.onRec_flag_ground key (by decide)

theorem State.ringEvent_ground (s : State) (key : Nat) (id : EventId) : SameGround s (s.ringEvent key id) := by
  have hflag : SameGround s (s.onRec key (Rec.flag · [.releasedDuring])) := s.onRec_flag_ground key (by decide)
  by_cases hmode : s.control.mode = .setup
  · rw [State.ringEvent_of_setup hmode]
    exact .refl s
  cases id with
  | arm k =>
    rw [State.ringEvent_arm hmode, State.ringArm]
    split
    · exact s.goOpen_ground k _ _
    · exact .refl s
  | plane k =>
    rw [State.ringEvent_plane hmode]
    by_cases h : s.ringState k = .idle ∨ s.ringState k = .armed
    · rw [State.ringPlane_of_open h]
      exact (s.gapTested_ground k key).trans (State.goPress_ground _ k _ _)
    · obtain ⟨hi, ha⟩ := not_or.mp h
      obtain hp | hheld := RingState.open_or_held hi ha
      · rw [State.ringPlane_of_pressing hp]
        exact .refl s
      · rw [State.ringPlane_of_held hheld]
        exact hflag
  | entryEnd k =>
    rw [State.ringEvent_entryEnd hmode, State.ringEntryEnd]
    split
    · exact s.goPhase_ground k _
    · exact .refl s
  | tailAdvance k =>
    rw [State.ringEvent_tailAdvance hmode, State.ringTailAdvance]
    split
    · exact s.goPhase_ground k _
    · exact .refl s
  | tailOut k =>
    rw [State.ringEvent_tailOut hmode, State.ringTailOut]
    split
    · exact s.leaveByTail_ground k
    · exact .refl s
  | backOut k =>
    rw [State.ringEvent_backOut hmode, State.ringBackOut]
    split
    · exact s.leaveByBackOut_ground k key
    · exact .refl s
  | tailBackIn k =>
    rw [State.ringEvent_tailBackIn hmode]
    by_cases h : s.ringState k = .idle ∨ s.ringState k = .armed
    · rw [State.ringTailBackIn_of_open h]
      exact s.goPress_ground k _ _
    · obtain ⟨hi, ha⟩ := not_or.mp h
      obtain hp | hheld := RingState.open_or_held hi ha
      · rw [State.ringTailBackIn_of_pressing hp]
        exact .refl s
      · rw [State.ringTailBackIn_of_held hheld]
        exact hflag
  | withdrawal | entryWindow | sample | tailWindow =>
    rw [State.ringEvent, if_neg hmode]
    exact .refl s

theorem State.ringMoved_ground (s : State) (k : Ring) : SameGround s (s.ringMoved k) := by
  unfold State.ringMoved
  split
  · exact .refl s
  · split
    · split
      · exact .refl s
      · split
        · exact .refl s
        · split
          · exact s.leaveByBackOut_ground k _
          · exact s.leaveByTail_ground k
    · exact .refl s

theorem State.ringRemoved_ground (s : State) (k : Ring) (key : Nat) : SameGround s (s.ringRemoved k key) := by
  unfold State.ringRemoved
  split
  · exact .refl s
  · split
    · exact s.leaveByTail_ground k
    · split
      · split
        · exact s.goOpen_ground k _ _
        · exact s.goWaiting_ground k
      · exact .refl s

theorem State.advise_ground (s : State) : SameGround s s.advise :=
  ground_of_track s.advise_works.sameOuter (s.advise_touches.track.resolve_left (by decide))

theorem State.sampleEvent_ground (s : State) (k : Ring) (key : Nat) : SameGround s (s.sampleEvent k key) := by
  unfold State.sampleEvent
  split
  · exact (s.evalPress_view k).ground
  · exact .refl s

end Ground

/-! ### A removal (R39) -/

/-- The record taken off the track, and the cells and the open stray let go of it, before the rings are told. -/
def State.dropped (s : State) (key : Nat) : State :=
  { s with
    track := s.track.filter (fun r => r.key != key)
    cells := ⟨s.cells.entry.forget key, s.cells.exit.forget key⟩
    openStray := s.openStray.filter (fun o => o.key != key) }

theorem State.removeRec_of_gone {s : State} {key : Nat} (h : s.rec? key = none) : s.removeRec key = s :=
  if_pos (by rw [h]; rfl)

theorem State.removeRec_of_present {s : State} {key : Nat} (h : s.rec? key ≠ none) :
    s.removeRec key = (((s.dropped key).ringRemoved .a key).ringRemoved .b key).advise := by
  refine if_neg ?_
  rw [Option.isNone_iff_eq_none]
  exact h

theorem State.rec?_eq_none_iff {s : State} {key : Nat} : s.rec? key = none ↔ ∀ r ∈ s.track, r.key ≠ key := by
  simp [State.rec?, List.find?_eq_none]

theorem State.mem_of_rec? {s : State} {key : Nat} {r : Rec} (h : s.rec? key = some r) : r ∈ s.track ∧ r.key = key :=
  ⟨List.mem_of_find?_eq_some h, by simpa using List.find?_some h⟩

/-- After a removal the records left are those of other keys, all but their flags and peaks. -/
theorem State.removeRec_track (s : State) (key : Nat) :
    (s.removeRec key).track.map Rec.bare = (s.track.filter fun r => r.key != key).map Rec.bare := by
  cases h : s.rec? key with
  | none =>
    rw [State.removeRec_of_gone h]
    congr 1
    exact (List.filter_eq_self.mpr fun r hr => by simpa using State.rec?_eq_none_iff.mp h r hr).symm
  | some r =>
    rw [State.removeRec_of_present (by rw [h]; exact nofun)]
    exact (((State.ringRemoved_ground _ .a key).trans (State.ringRemoved_ground _ .b key)).trans
      (State.advise_ground _)).track

theorem State.removeRec_cells (s : State) (key : Nat) (h : s.rec? key ≠ none) :
    (s.removeRec key).cells = ⟨s.cells.entry.forget key, s.cells.exit.forget key⟩ ∧
      (s.removeRec key).openStray = s.openStray.filter (fun o => o.key != key) := by
  rw [State.removeRec_of_present h]
  have hrings : Touches passageParts (s.dropped key) (((s.dropped key).ringRemoved .a key).ringRemoved .b key) :=
    (State.ringRemoved_touches _ .a key).trans (State.ringRemoved_touches _ .b key)
  have hadvise := (((s.dropped key).ringRemoved .a key).ringRemoved .b key).advise_touches
  refine ⟨?_, ?_⟩
  · rw [hadvise.cells.resolve_left (by decide), hrings.cells.resolve_left (by decide)]
    rfl
  · rw [hadvise.openStray.resolve_left (by decide), hrings.openStray.resolve_left (by decide)]
    rfl

theorem State.removeRec_rests (s : State) (h : ∀ k, s.ringRight k) (key : Nat) : Rests s (s.removeRec key) := by
  cases hr : s.rec? key with
  | none =>
    rw [State.removeRec_of_gone hr]
    exact .refl s
  | some r =>
    rw [State.removeRec_of_present (by rw [hr]; exact nofun)]
    have hd : ∀ k, (s.dropped key).ringRight k := fun k => ⟨(h k).allowed, (h k).named⟩
    have wa := State.ringRemoved_works (hd .a) key
    have ha : ∀ k, ((s.dropped key).ringRemoved .a key).ringRight k := fun k => wa.ringRight (hd k)
    have wb := State.ringRemoved_works (ha .b) key
    have hdropped : Rests s (s.dropped key) := Rests.of_same rfl rfl rfl
    exact hdropped.trans <| (wa.rests (State.ringRemoved_passed _ .a key)).trans <|
      (wb.rests (State.ringRemoved_passed _ .b key)).trans <|
      (State.advise_works _).rests (.of_ring (State.advise_ring _))

/-! ### What the taking of events may do -/

theorem Works.cells {s t : State} (w : Works s t) (c : Cell) :
    (t.cells.get c).blocked = (s.cells.get c).blocked ∧ (t.cells.get c).candidate = (s.cells.get c).candidate := by
  induction w with
  | trans _ _ h g => exact ⟨g.1.trans h.1, g.2.trans h.2⟩
  | track s l cells o n h hc hn => exact hc c
  | mark s v m =>
    rw [State.setMark_frame]
    exact ⟨rfl, rfl⟩
  | _ => exact ⟨rfl, rfl⟩

/-- What names a record and where it lies. -/
def Rec.placed (r : Rec) : Nat × Nat × Origin × Pos × Option Nat × List Nat × Orientation × Nat :=
  (r.key, r.scanId, r.origin, r.b0, r.length, r.samples, r.orientation, r.confidence)

/-- A cell keeps the record that waits, or lets it go, and then the record has left the track. -/
def CellState.settles (c c' : CellState) (track : List Rec) : Prop :=
  c'.waiting = c.waiting ∨ (c'.waiting = none ∧ ∀ key, c.waiting = some key → ∀ r ∈ track, r.key ≠ key)

/-- What the taking of events may do between s and t: no record moves and none comes, a checked one stays checked; with the
entry cell BLOCKED, and with the exit cell CLEAR, no record begins to wait there. -/
structure Events (s t : State) : Prop where
  works : Works s t
  rests : Rests s t
  placed : (t.track.map Rec.placed).Sublist (s.track.map Rec.placed)
  checked : ∀ q ∈ t.track, ∃ r ∈ s.track, r.key = q.key ∧ (r.realign ≠ .notChecked → q.realign ≠ .notChecked)
  entry : s.cells.entry.blocked = true → s.cells.entry.settles t.cells.entry t.track
  exit : s.cells.exit.blocked = false → s.cells.exit.settles t.cells.exit t.track

theorem CellState.settles.refl (c : CellState) (track : List Rec) : c.settles c track := .inl rfl

theorem CellState.settles.trans {c c' c'' : CellState} {track track' : List Rec} (h : c.settles c' track)
    (g : c'.settles c'' track') (hkeys : ∀ q ∈ track', ∃ r ∈ track, r.key = q.key) : c.settles c'' track' := by
  obtain hsame | ⟨hnone, hgone⟩ := h
  · obtain hsame' | ⟨hnone', hgone'⟩ := g
    · exact .inl (hsame'.trans hsame)
    · exact .inr ⟨hnone', fun key hkey => hgone' key (hsame.trans hkey)⟩
  · have hnone' : c''.waiting = none := g.elim (fun h => h.trans hnone) (·.1)
    refine .inr ⟨hnone', fun key hkey q hq he => ?_⟩
    obtain ⟨r, hr, hrkey⟩ := hkeys q hq
    exact hgone key hkey r hr (hrkey.trans he)

theorem Events.refl (s : State) : Events s s :=
  ⟨.refl s, .refl s, .refl _, fun q hq => ⟨q, hq, rfl, id⟩, fun _ => .refl _ _, fun _ => .refl _ _⟩

theorem Events.trans {s t u : State} (h : Events s t) (g : Events t u) : Events s u := by
  have hkeys : ∀ q ∈ u.track, ∃ r ∈ t.track, r.key = q.key := fun q hq => by
    obtain ⟨r, hr, hkey, -⟩ := g.checked q hq
    exact ⟨r, hr, hkey⟩
  refine ⟨h.works.trans g.works, h.rests.trans g.rests, g.placed.trans h.placed, fun q hq => ?_, fun hb => ?_, fun hb => ?_⟩
  · obtain ⟨x, hx, hxkey, hxchecked⟩ := g.checked q hq
    obtain ⟨r, hr, hrkey, hrchecked⟩ := h.checked x hx
    exact ⟨r, hr, hrkey.trans hxkey, fun hne => hxchecked (hrchecked hne)⟩
  · exact (h.entry hb).trans (g.entry ((h.works.cells .entry).1.trans hb)) hkeys
  · exact (h.exit hb).trans (g.exit ((h.works.cells .exit).1.trans hb)) hkeys

theorem Events.ringRight {s t : State} (h : Events s t) (hr : ∀ k, s.ringRight k) (k : Ring) : t.ringRight k :=
  h.works.ringRight (hr k)

theorem Events.andThen {s t u : State} (hr : ∀ k, s.ringRight k) (h : Events s t)
    (g : (∀ k, t.ringRight k) → Events t u) : Events s u := h.trans (g (h.ringRight hr))

theorem exists_bare_of_mem {l l' : List Rec} (h : l'.map Rec.bare = l.map Rec.bare) {q : Rec} (hq : q ∈ l') :
    ∃ r ∈ l, r.bare = q.bare := by
  have hmem : q.bare ∈ l.map Rec.bare := h ▸ List.mem_map_of_mem hq
  exact List.mem_map.mp hmem

theorem placed_of_bare {l l' : List Rec} (h : l'.map Rec.bare = l.map Rec.bare) : l'.map Rec.placed = l.map Rec.placed := by
  have hcomp : ∀ l : List Rec, l.map Rec.placed = (l.map Rec.bare).map Rec.placed := fun l => by
    rw [List.map_map]
    rfl
  rw [hcomp l', h, ← hcomp]

/-- What changes a record's flags and peaks at most, and no cell, is no more than events may do. -/
theorem Events.of_ground {s t : State} (w : Works s t) (hrests : Rests s t) (g : SameGround s t) (hcells : t.cells = s.cells) :
    Events s t := by
  refine ⟨w, hrests, by rw [placed_of_bare g.track], fun q hq => ?_, fun _ => .inl (by rw [hcells]),
    fun _ => .inl (by rw [hcells])⟩
  obtain ⟨r, hr, hbare⟩ := exists_bare_of_mem g.track hq
  have hrealign : r.bare.realign = q.bare.realign := by rw [hbare]
  exact ⟨r, hr, (Rec.eq_of_bare hbare).1, fun hne => by rwa [← show r.realign = q.realign from hrealign]⟩

theorem CellState.settles_forget (c : CellState) {key : Nat} {track : List Rec} (h : ∀ r ∈ track, r.key ≠ key) :
    c.settles (c.forget key) track := by
  by_cases hc : c.waiting = some key
  · refine .inr ⟨?_, fun k hk r hr he => ?_⟩
    · rw [CellState.forget, if_pos hc]
    · rw [hc] at hk
      obtain rfl := Option.some.inj hk
      exact h r hr he
  · rw [CellState.forget, if_neg hc]
    exact .inl rfl

theorem State.removeRec_gone (s : State) (key : Nat) : ∀ r ∈ (s.removeRec key).track, r.key ≠ key := by
  intro r hr he
  obtain ⟨x, hx, hbare⟩ := exists_bare_of_mem (s.removeRec_track key) hr
  have hkey := (Rec.eq_of_bare hbare).1
  have hne : (x.key != key) = true := (List.mem_filter.mp hx).2
  rw [hkey, he] at hne
  simp at hne

theorem State.removeRec_events {s : State} (h : ∀ k, s.ringRight k) (key : Nat) : Events s (s.removeRec key) := by
  have htrack := s.removeRec_track key
  have hcells : ∀ c : Cell, CellState.settles (s.cells.get c) ((s.removeRec key).cells.get c) (s.removeRec key).track := by
    intro c
    cases hr : s.rec? key with
    | none =>
      rw [State.removeRec_of_gone hr]
      exact .refl _ _
    | some r =>
      rw [(s.removeRec_cells key (by rw [hr]; exact nofun)).1]
      cases c <;> exact CellState.settles_forget _ (s.removeRec_gone key)
  refine ⟨State.removeRec_works h key, s.removeRec_rests h key, ?_, fun q hq => ?_, fun _ => hcells .entry,
    fun _ => hcells .exit⟩
  · rw [placed_of_bare htrack]
    exact List.filter_sublist.map _
  · obtain ⟨r, hr, hbare⟩ := exists_bare_of_mem htrack hq
    have hrealign : r.bare.realign = q.bare.realign := by rw [hbare]
    exact ⟨r, (List.mem_filter.mp hr).1, (Rec.eq_of_bare hbare).1,
      fun hne => by rwa [← show r.realign = q.realign from hrealign]⟩

section Taking

variable {s : State}

theorem ground_of_touches {parts : List Part} {s t : State} (w : Works s t) (h : Touches parts s t) (htrack : .track ∉ parts) :
    SameGround s t := ground_of_track w.sameOuter (h.track.resolve_left htrack)

/-- Reports and evaluations are no more than events may do. -/
theorem events_of_touches {parts : List Part} {s t : State} (w : Works s t) (h : Touches parts s t) (hring : .ring ∉ parts)
    (htrack : .track ∉ parts) (hcells : .cells ∉ parts) : Events s t :=
  .of_ground w (w.rests (.of_ring (h.ring.resolve_left hring))) (ground_of_touches w h htrack) (h.cells.resolve_left hcells)

theorem State.notice_events (s : State) (k : NoticeKind) : Events s (s.notice k) :=
  events_of_touches (s.notice_works k) (s.notice_touches k) (by decide) (by decide) (by decide)

theorem State.advise_events (s : State) : Events s s.advise :=
  events_of_touches s.advise_works s.advise_touches (by decide) (by decide) (by decide)

theorem State.markEvent_events (s : State) (src : MarkSource) : Events s (s.markEvent src) :=
  events_of_touches (s.markEvent_works src) (s.markEvent_touches src) (by decide) (by decide) (by decide)

theorem State.send_events (s : State) (p : Port) (kind : Byte) (l : List Byte) : Events s (s.send p kind l) :=
  events_of_touches (s.send_works p kind l) (s.send_touches p kind l) (by decide) (by decide) (by decide)

theorem State.onRec_flag_events (s : State) (key : Nat) {f : Flag} (h : f ≠ .buttFlare) :
    Events s (s.onRec key (Rec.flag · [f])) :=
  .of_ground (s.onRec_works key _ fun _ => by rfl) (.of_same rfl rfl rfl) (s.onRec_flag_ground key h) rfl

theorem State.finish_events (h : ∀ k, s.ringRight k) (key : Nat) : Events s (s.finish key) := by
  unfold State.finish
  split
  · exact .refl s
  · exact Events.andThen h ((s.send_events _ _ _).trans (State.markEvent_events _ _)) fun h => State.removeRec_events h key

theorem State.finishInferred_events (h : ∀ k, s.ringRight k) (key : Nat) : Events s (s.finishInferred key) :=
  Events.andThen h (s.onRec_flag_events key (by decide)) fun h => State.finish_events h key

theorem State.removeMissing_events (h : ∀ k, s.ringRight k) (key : Nat) : Events s (s.removeMissing key) :=
  (State.removeRec_events h key).trans (State.notice_events _ _)

theorem State.withdraw_events (h : ∀ k, s.ringRight k) (key : Nat) : Events s (s.withdraw key) :=
  (State.removeRec_events h key).trans (State.notice_events _ _)

/-- A change of one record that leaves its place and does not uncheck it. -/
theorem State.onRec_events (s : State) (key : Nat) {f : Rec → Rec} (hplaced : ∀ r, (f r).placed = r.placed)
    (hchecked : ∀ r, r.realign ≠ .notChecked → (f r).realign ≠ .notChecked) : Events s (s.onRec key f) := by
  have hname : ∀ r, (f r).name = r.name := fun r => by
    have h := hplaced r
    simp only [Rec.placed, Prod.mk.injEq] at h
    simp only [Rec.name, h.1, h.2.1]
  refine ⟨s.onRec_works key f hname, Rests.of_same rfl rfl rfl, ?_, fun q hq => ?_, fun _ => .inl rfl, fun _ => .inl rfl⟩
  · rw [State.onRec_track, List.map_map]
    have hsame : s.track.map (Rec.placed ∘ fun r => if r.key == key then f r else r) = s.track.map Rec.placed := by
      refine List.map_congr_left fun r _ => ?_
      simp only [Function.comp_apply]
      split
      · exact hplaced r
      · rfl
    rw [hsame]
  · rw [State.onRec_track] at hq
    obtain ⟨r, hr, rfl⟩ := List.mem_map.mp hq
    refine ⟨r, hr, ?_, fun hne => ?_⟩
    · split
      · have h := hplaced r
        simp only [Rec.placed, Prod.mk.injEq] at h
        exact h.1.symm
      · rfl
    · split
      · exact hchecked r hne
      · exact hne

theorem State.entryWindowPassed_events (h : ∀ k, s.ringRight k) (r : Rec) : Events s (s.entryWindowPassed r) := by
  unfold State.entryWindowPassed
  simp only
  split
  · exact .refl s
  · split
    · exact s.onRec_events _ (fun _ => rfl) fun _ _ => by simp
    · next hb =>
      split
      · exact State.removeMissing_events h _
      · exact ⟨s.waiting_works _ _, Rests.of_same rfl rfl rfl, .refl _, fun q hq => ⟨q, hq, rfl, id⟩,
          fun hblocked => absurd hblocked hb, fun _ => .inl rfl⟩

theorem State.tailWindowPassed_events (h : ∀ k, s.ringRight k) (r : Rec) : Events s (s.tailWindowPassed r) := by
  unfold State.tailWindowPassed
  simp only
  split
  · exact .refl s
  · split
    · exact State.finishInferred_events h _
    · next hb =>
      split
      · exact s.onRec_flag_events _ (by decide)
      · refine ⟨s.waiting_works _ _, Rests.of_same rfl rfl rfl, .refl _, fun q hq => ⟨q, hq, rfl, id⟩,
          fun _ => .inl rfl, fun hblocked => ?_⟩
        rw [hblocked] at hb
        exact absurd rfl hb

theorem State.ringEvent_events (h : ∀ k, s.ringRight k) (key : Nat) (id : EventId) : Events s (s.ringEvent key id) :=
  have w := State.ringEvent_works h key id
  .of_ground w (w.rests (s.ringEvent_passed key id)) (s.ringEvent_ground key id)
    ((s.ringEvent_touches key id).cells.resolve_left (by decide))

theorem State.ringMoved_events {k : Ring} (h : ∀ k, s.ringRight k) : Events s (s.ringMoved k) :=
  have w := State.ringMoved_works (h k)
  .of_ground w (w.rests (s.ringMoved_passed k)) (s.ringMoved_ground k)
    ((s.ringMoved_touches k).cells.resolve_left (by decide))

theorem State.sampleEvent_events (s : State) (k : Ring) (key : Nat) : Events s (s.sampleEvent k key) := by
  unfold State.sampleEvent
  split
  · exact .of_ground (s.evalPress_works k) ((s.evalPress_works k).rests (.of_ring (s.evalPress_ring k)))
      (s.evalPress_view k).ground ((s.evalPress_touches k).cells.resolve_left (by decide))
  · exact .refl s

theorem State.takeCrossing_events (h : ∀ k, s.ringRight k) (c : Crossing) : Events s (s.takeCrossing c) := by
  unfold State.takeCrossing
  split
  · exact .refl s
  · split
    · exact State.withdraw_events h _
    · exact State.entryWindowPassed_events h _
    · exact State.tailWindowPassed_events h _
    · exact s.sampleEvent_events _ _
    · exact State.ringEvent_events h _ _

theorem State.evalPressFor_events (s : State) (key : Nat) : Events s (s.evalPressFor key) := by
  have hone : ∀ (t : State) (k : Ring), Events t (t.pressAt key k) := by
    intro t k
    unfold State.pressAt
    split
    · exact .of_ground (t.evalPress_works k) ((t.evalPress_works k).rests (.of_ring (t.evalPress_ring k)))
        (t.evalPress_view k).ground ((t.evalPress_touches k).cells.resolve_left (by decide))
    · exact .refl t
  exact (hone s .a).trans (hone _ .b)

theorem State.evalLiftFor_events (s : State) (key : Nat) : Events s (s.evalLiftFor key) :=
  events_of_touches (s.evalLiftFor_works key) (s.evalLiftFor_touches key) (by decide) (by decide) (by decide)

theorem State.bindRec_events (s : State) (key : Nat) : Events s (s.bindRec key).1 := by
  unfold State.bindRec
  split
  · exact .refl s
  · split
    · exact .refl s
    · refine (s.onRec_events key (f := fun q => q.bind s) (fun _ => rfl) fun _ h => h).trans
        ((State.evalPressFor_events _ key).trans ?_)
      simp only
      split
      · exact State.advise_events _
      · exact (State.evalLiftFor_events _ key).trans (State.advise_events _)

theorem State.takeEvent_events (h : ∀ k, s.ringRight k) (c : Crossing) : Events s (s.takeEvent c).1 := by
  unfold State.takeEvent
  split
  · exact (State.takeCrossing_events h c).trans (State.bindRec_events _ _)
  · exact State.takeCrossing_events h c

theorem takeCrossings_events (l : List Crossing) {s : State} (h : ∀ k, s.ringRight k) :
    Events s (l.foldl State.takeCrossing s) := by
  induction l generalizing s with
  | nil => exact .refl s
  | cons c l ih => exact Events.andThen h (State.takeCrossing_events h c) fun h => ih h

theorem runEvents_events (l : List Crossing) (born : List Crossing) {s : State} (h : ∀ k, s.ringRight k) :
    Events s (runEvents l born s) := by
  induction l generalizing born s with
  | nil => exact takeCrossings_events born h
  | cons e l ih =>
    exact Events.andThen h (takeCrossings_events _ h) fun h => Events.andThen h (State.takeEvent_events h e) fun h => ih _ h

theorem State.afterMove_events (h : ∀ k, s.ringRight k) (before : State) : Events s (s.afterMove before) := by
  unfold State.afterMove
  refine Events.andThen h (runEvents_events (crossings before s) [] h) fun h => ?_
  simp only
  split
  · exact (Events.andThen h (State.ringMoved_events h) fun h => State.ringMoved_events h).trans (State.advise_events _)
  · exact State.advise_events _

end Taking

end Sys2Proof.Machine
end

section
/-! PROOFS. Where every command leaves the rings standing (R124, R126). -/

namespace Sys2Proof.Machine

/-- What a part of the state that no ring's stand depends on was before. -/
theorem Rests.since {s t u : State} (h : Rests u t) (hring : u.ring = s.ring) (hlevel : u.release.level = s.release.level)
    (hmode : u.control.mode = s.control.mode) : Rests s t := (Rests.of_same hring hlevel hmode).trans h

/-! ### A change of level -/

theorem State.ringLevel_atGap {s : State} (h : s.release.level = .atGap) (k : Ring) :
    (s.ringLevel k).ringState k ≠ .idle ∧ (s.ringLevel k).ringState k ≠ .armed := by
  by_cases hopen : s.ringState k = .idle ∨ s.ringState k = .armed
  · have hheld : s.ringLevel k = s.goOpen k .held none := by simp [State.ringLevel, h, hopen]
    rw [hheld, (s.goOpen_state k _ _).1]
    exact ⟨nofun, nofun⟩
  · have hkept : s.ringLevel k = s := by simp [State.ringLevel, h, hopen]
    rw [hkept]
    exact not_or.mp hopen

theorem State.ringsLevel_atGap {s : State} (h : s.release.level = .atGap) (k : Ring) :
    s.ringsLevel.ringState k ≠ .idle ∧ s.ringsLevel.ringState k ≠ .armed := by
  cases k with
  | a =>
    rw [State.ringsLevel, State.ringState, State.ringLevel_other _ (by decide)]
    exact State.ringLevel_atGap h .a
  | b => exact State.ringLevel_atGap (by rw [(s.ringLevel_works .a).release]; exact h) .b

/-- A change of level leaves every ring where the level now held lets it stand. -/
theorem State.relevel_rests (s : State) : Rests s s.relevel := by
  by_cases h : s.release.causes.level = s.release.level
  · rw [State.relevel_of_eq h]
    exact .refl s
  · have hlevel : s.relevel.release.level = s.leveled.release.level := by rw [s.relevel_release]; rfl
    have hstate : ∀ k, s.relevel.ringState k = s.leveled.ringsLevel.ringState k := fun k => by
      rw [State.ringState, State.relevel_ring h]
      rfl
    refine ⟨fun _ hl k => ?_, fun _ hl _ k => ?_⟩
    · rw [hstate]
      exact (State.ringsLevel_freed (hlevel.symm.trans hl) k).free
    · rw [hstate]
      exact State.ringsLevel_atGap (hlevel.symm.trans hl) k

theorem State.entered_rests (s : State) (c : Causes) : Rests s (s.entered c).relevel :=
  (s.entered c).relevel_rests.since rfl rfl rfl

theorem State.raiseCause_rests (s : State) (c : Cause) : Rests s (s.raiseCause c) := by
  cases h : s.release.causes.has c
  · rw [State.raiseCause_of_absent h]
    exact s.entered_rests _
  · rw [State.raiseCause_of_has h]
    exact .refl s

theorem State.startCauses_rests (s : State) : Rests s s.startCauses := by
  have hpermit : Rests s s.recomputePermit := .of_same rfl rfl rfl
  unfold State.startCauses
  simp only
  split
  · exact hpermit.trans (State.raiseCause_rests _ _)
  · exact hpermit

/-! ### The track and the cells -/

section Cells

variable {s : State}

theorem State.makeStray_rests (h : ∀ k, s.ringRight k) (p : Pos) : Rests s (s.makeStray p) := by
  unfold State.makeStray
  split
  · refine (State.afterMove_events ?_ s).rests.since rfl rfl rfl
    exact fun k => ⟨(h k).allowed, (h k).named⟩
  · exact (s.raiseCause_rests _).trans (.of_same rfl rfl rfl)

theorem State.realignRec_rests (h : ∀ k, s.ringRight k) (key : Nat) (p : Pos) : Rests s (s.realignRec key p) := by
  unfold State.realignRec
  refine (State.afterMove_events ?_ s).rests.since rfl rfl rfl
  exact fun k => ⟨(h k).allowed, (h k).named⟩

theorem State.matchEntry_rests (p : Pos) (n : Nat) {s : State} (h : ∀ k, s.ringRight k) : Rests s (s.matchEntry p n) := by
  induction n generalizing s with
  | zero => exact State.makeStray_rests h p
  | succ n ih =>
    unfold State.matchEntry
    split
    · exact State.makeStray_rests h p
    · next r _ =>
      have hgone := State.removeMissing_events h r.key
      split
      · exact State.realignRec_rests h _ p
      · split
        · exact State.makeStray_rests h p
        · exact hgone.rests.trans (ih (hgone.ringRight h))

theorem State.entryRise_rests (h : ∀ k, s.ringRight k) (p : Pos) : Rests s (s.entryRise p) := by
  unfold State.entryRise
  split
  · exact .refl s
  · exact State.matchEntry_rests p _ h

theorem State.strayClose_rests (h : ∀ k, s.ringRight k) (p : Pos) : Rests s (s.strayClose p) := by
  unfold State.strayClose
  split
  · exact .refl s
  · refine (State.afterMove_events ?_ s).rests.since rfl rfl rfl
    exact fun k => ⟨(h k).allowed, (h k).named⟩

theorem State.strayWithdraw_rests (h : ∀ k, s.ringRight k) : Rests s s.strayWithdraw := by
  unfold State.strayWithdraw
  split
  · exact .refl s
  · exact (State.withdraw_events h _).rests

theorem State.settleEntryRise_rests (s : State) : Rests s s.settleEntryRise := by
  unfold State.settleEntryRise
  split
  · exact .refl s
  · exact .of_same rfl rfl rfl

theorem State.settleEntry_rests (h : ∀ k, s.ringRight k) : Rests s s.settleEntry := by
  unfold State.settleEntry
  split
  · exact .refl s
  · next key _ =>
    have hr : ∀ k, (s.onCell .entry fun c => { c with waiting := none }).ringRight k :=
      fun k => ⟨(h k).allowed, (h k).named⟩
    simp only
    split
    · exact .of_same rfl rfl rfl
    · exact (State.removeMissing_events hr key).rests.since rfl rfl rfl

theorem State.finishAll_events (l : List Nat) {s : State} (h : ∀ k, s.ringRight k) : Events s (s.finishAll l) := by
  induction l generalizing s with
  | nil => exact .refl s
  | cons x l ih => exact Events.andThen h (State.finish_events h x) fun h => ih h

theorem State.exitFall_events (h : ∀ k, s.ringRight k) (p : Pos) : Events s (s.exitFall p) := by
  unfold State.exitFall
  split
  · exact Events.andThen h (State.finishAll_events _ h) fun h => State.finish_events h _
  · split
    · exact State.finish_events h _
    · exact s.notice_events _

theorem State.settleExit_rests (h : ∀ k, s.ringRight k) : Rests s s.settleExit := by
  unfold State.settleExit
  split
  · exact .refl s
  · next key _ =>
    have hr : ∀ k, (s.onCell .exit fun c => { c with waiting := none }).ringRight k :=
      fun k => ⟨(h k).allowed, (h k).named⟩
    simp only
    split
    · exact .of_same rfl rfl rfl
    · exact (State.finishInferred_events hr key).rests.since rfl rfl rfl

theorem State.entryEdge_rests (h : ∀ k, s.ringRight k) (rising : Bool) (stamp : Stamp) :
    Rests s (s.entryEdge rising stamp) := by
  unfold State.entryEdge
  split
  · exact (State.entryRise_rests h _).trans (State.settleEntryRise_rests _)
  · exact State.settleEntry_rests h
  · exact State.strayClose_rests h _
  · exact (State.strayWithdraw_rests h).trans
      (State.settleEntry_rests fun k => (State.strayWithdraw_works h).ringRight (h k))

theorem State.exitEdge_rests (h : ∀ k, s.ringRight k) (rising : Bool) (stamp : Stamp) :
    Rests s (s.exitEdge rising stamp) := by
  unfold State.exitEdge
  split
  · exact .refl s
  · have hfall := State.exitFall_events h
    exact (hfall _).rests.trans (State.settleExit_rests ((hfall _).ringRight h))
  · exact State.settleExit_rests h

theorem State.settleDropped_rests (h : ∀ k, s.ringRight k) (c : Cell) : Rests s (s.settleDropped c) := by
  cases c with
  | entry => exact State.settleEntry_rests h
  | exit => exact State.settleExit_rests h

theorem State.adopt_rests (h : ∀ k, s.ringRight k) (r : Rec) (d : ProfileData) (o : Orientation) :
    Rests s (s.adopt r d o) := by
  unfold State.adopt
  simp only
  have hlift : ∀ t : State, t.ring = s.ring → t.release = s.release → t.control = s.control →
      Rests s ((t.evalLiftFor r.key).afterMove s) := by
    intro t hring hrelease hcontrol
    have ht : ∀ k, t.ringRight k := fun k => by
      refine ⟨?_, by rw [hring]; exact (h k).named⟩
      rw [State.ringState, hring, State.allows, hcontrol, hrelease]
      exact (h k).allowed
    have hfirst : Rests s t := .of_same hring (by rw [hrelease]) (by rw [hcontrol])
    have heval := t.evalLiftFor_events r.key
    exact hfirst.trans (heval.rests.trans (State.afterMove_events (heval.ringRight ht) s).rests)
  split
  · exact hlift _ rfl rfl rfl
  · exact hlift _ rfl rfl rfl

theorem State.newRecord_rests (h : ∀ k, s.ringRight k) (x : Rec) : Rests s (s.newRecord x) := by
  unfold State.newRecord
  refine (State.afterMove_events ?_ s).rests.since rfl rfl rfl
  exact fun k => ⟨(h k).allowed, (h k).named⟩

theorem State.setSpecies_rests (s : State) (key code : Nat) (src : SpeciesSource) : Rests s (s.setSpecies key code src) := by
  have hset : Rests s (s.onRec key fun r => { r with species := code, source := src }) := .of_same rfl rfl rfl
  exact hset.trans ((State.evalLiftFor_events _ key).rests.trans (State.advise_events _).rests)

theorem State.rebindRec_rests (h : ∀ k, s.ringRight k) (key code : Nat) : Rests s (s.rebindRec key code) := by
  have hset : Rests s (s.onRec key fun r => r.rebind s code) := .of_same rfl rfl rfl
  have hr : ∀ k, (s.onRec key fun r => r.rebind s code).ringRight k := fun k => ⟨(h k).allowed, (h k).named⟩
  have heval := (State.evalPressFor_events (s.onRec key fun r => r.rebind s code) key).trans (State.evalLiftFor_events _ key)
  exact hset.trans (heval.rests.trans (State.afterMove_events (heval.ringRight hr) s).rests)

theorem State.stepPos_rests (h : ∀ k, s.ringRight k) (up : Bool) : Rests s (s.stepPos up) := by
  unfold State.stepPos
  refine (State.afterMove_events ?_ s).rests.since rfl rfl rfl
  exact fun k => ⟨(h k).allowed, (h k).named⟩

theorem State.stepsPos_rests (n : Nat) (up : Bool) {s : State} (h : ∀ k, s.ringRight k) : Rests s (s.stepsPos up n) := by
  induction n generalizing s with
  | zero => exact .refl s
  | succ n ih => exact (State.stepPos_rests h up).trans (ih ((State.stepPos_ordinary h up).ringRight h))

end Cells

/-! ### The valve line -/

section Valve

variable (s : State)

theorem State.settledReport_rests (k : Ring) : Rests s (s.settledReport k) := by
  unfold State.settledReport
  split
  · refine Rests.trans (t := s.onSeq k fun q => { q with settled := true }) ?_ (State.markEvent_events _ _).rests
    refine Passed.rests (fun j => .inl ?_) rfl rfl
    unfold State.ringState
    rw [State.onSeq_ring, PerRing.get_modify]
    split <;> rfl
  · exact .refl s

theorem State.liftReachedReport_rests (k : Ring) : Rests s (s.liftReachedReport k) := by
  unfold State.liftReachedReport
  split
  · exact .refl s
  · refine Passed.rests (fun j => .inl ?_) rfl rfl
    unfold State.ringState
    rw [State.onSeq_ring, PerRing.get_modify]
    split <;> rfl

theorem State.report_rests (c : Channel) : Rests s (s.report c) := by
  unfold State.report
  simp only
  split
  · split
    · exact s.settledReport_rests _
    · exact s.liftReachedReport_rests _
  · exact .refl s

theorem State.onChan_rests (c : Channel) (f : Chan → Chan) : Rests s (s.onChan c f) := .of_same rfl rfl rfl

theorem State.enterFault_rests (c : Channel) (st : ChannelState) : Rests s (s.enterFault c st) :=
  (s.onChan_rests c _).trans ((State.raiseCause_rests _ _).trans (State.notice_events _ _).rests)

theorem State.badEcho_rests (c : Channel) : Rests s (s.badEcho c) := by
  unfold State.badEcho
  simp only
  split
  · exact (s.onChan_rests c _).trans (State.enterFault_rests _ _ _)
  · exact s.onChan_rests c _

theorem State.goodEcho_rests (c : Channel) (w : Word16) : Rests s (s.goodEcho c w) := by
  unfold State.goodEcho
  simp only
  split
  · exact (s.onChan_rests c _).trans (State.enterFault_rests _ _ _)
  · split
    · exact (s.onChan_rests c _).trans (State.report_rests _ _)
    · exact s.onChan_rests c _

theorem State.reportSilent_rests (c : Channel) : Rests s (s.reportSilent c) := by
  unfold State.reportSilent
  split
  · exact .refl s
  · exact s.report_rests c

theorem Rests.foldl {β : Type} {f : State → β → State} (h : ∀ s b, Rests s (f s b)) (l : List β) (s : State) :
    Rests s (l.foldl f s) := by
  induction l generalizing s with
  | nil => exact .refl s
  | cons b l ih => exact (h s b).trans (ih _)

end Valve

/-! ### Requests -/

section Requests

variable {s : State}

theorem SameCore.rests {s t : State} (c : SameCore s t) : Rests s t := .of_same c.ring (by rw [c.release]) c.mode

theorem State.serve_rests (p : Port) (k : Kind) (want : Req → Bool) {effect : Req → State → Effect}
    (h : ∀ r, Rests s (effect r s).state) : Rests s (s.serve p k want effect) := by
  obtain e | ⟨r, x, e⟩ | ⟨r, e⟩ := s.serve_cases p k want effect
  · rw [e]
    exact .refl s
  · rw [e]
    exact (s.answer_core p r x []).rests
  · rw [e]
    exact (h r).trans (State.answer_core _ p r _ _).rests

theorem profileEffect_rests (h : ∀ k, s.ringRight k) (r : Req) : Rests s (profileEffect r s).state := by
  unfold profileEffect
  simp only
  split
  · exact .refl s
  · split
    · exact .refl s
    split
    · exact .refl s
    split
    · exact .refl s
    split
    · exact .refl s
    split
    · exact State.adopt_rests h _ _ _
    · split
      · exact State.newRecord_rests h _
      · exact .refl s

theorem speciesSetEffect_rests (r : Req) : Rests s (speciesSetEffect r s).state := by
  unfold speciesSetEffect
  simp only
  split
  · exact .refl s
  · split_ifs
    · exact .refl s
    · exact .refl s
    · exact s.setSpecies_rests _ _ _

theorem State.forceFirst_rests (code : Nat) : Rests s (s.forceFirst code).state := by
  unfold State.forceFirst
  split
  · exact .refl s
  · exact s.setSpecies_rests _ _ _

theorem speciesForceEffect_rests (h : ∀ k, s.ringRight k) (r : Req) : Rests s (speciesForceEffect r s).state := by
  unfold speciesForceEffect
  simp only
  split
  · exact .refl s
  · split
    · split
      · split
        · exact State.rebindRec_rests h _ _
        · exact State.forceFirst_rests _
      · exact State.forceFirst_rests _
    · exact State.forceFirst_rests _

theorem releaseEffect_rests (p : Port) (r : Req) : Rests s (releaseEffect p r s).state := by
  unfold releaseEffect
  split
  · exact .refl s
  · exact s.entered_rests _

theorem resumeEffect_rests (r : Req) : Rests s (resumeEffect r s).state := by
  have hresumed : Rests s s.dropEnded.valveResume := Rests.trans (t := s.dropEnded) (s.entered_rests _) (.of_same rfl rfl rfl)
  unfold resumeEffect
  simp only
  split <;> exact hresumed

theorem markEffect_rests (r : Req) : Rests s (markEffect r s).state := by
  unfold markEffect
  simp only
  split
  · exact .refl s
  · split
    · exact .refl s
    · refine Rests.foldl (fun t m => ?_) _ s
      have hset := t.setMark_touches (decide (u8 r.payload 0 = 1)) m
      exact (Works.mark t _ m).rests (.of_ring (hset.ring.resolve_left (by decide)))

theorem State.setSeason_rests (x : Season) : Rests s (s.setSeason x) := by
  unfold State.setSeason
  split
  · exact .refl s
  · exact (State.advise_events { s with control := { s.control with season := x } }).rests.since rfl rfl rfl

theorem evalPress_rests (s : State) (k : Ring) : Rests s (s.evalPress k) :=
  (s.evalPress_works k).rests (.of_ring (s.evalPress_ring k))

theorem evalLift_rests (s : State) (k : Ring) : Rests s (s.evalLift k) :=
  (s.evalLift_works k).rests (.of_ring (s.evalLift_ring k))

theorem evalLiftIn_rests (s : State) (st : RingState) (k : Ring) : Rests s (s.evalLiftIn st k) :=
  (s.evalLiftIn_works st k).rests (.of_ring (s.evalLiftIn_ring st k))

theorem evalBoth_rests (s : State) : Rests s s.evalPresses.evalLifts :=
  (s.evalBoth_works).rests (.of_ring s.evalBoth_view.ring)

theorem manualSetEffect_rests (r : Req) : Rests s (manualSetEffect r s).state := by
  have hstored : ∀ k x y, Rests s (s.storeManual k x y) := fun _ _ _ => .of_same rfl rfl rfl
  unfold manualSetEffect
  simp only
  split
  · exact .refl s
  · split
    · exact (hstored _ _ _).trans ((evalPress_rests _ _).trans (evalLift_rests _ _))
    · exact hstored _ _ _

theorem recipeWriteEffect_rests (r : Req) : Rests s (recipeWriteEffect r s).state := by
  unfold recipeWriteEffect
  simp only
  split
  · exact .refl s
  · split
    · exact .of_same rfl rfl rfl
    · exact .refl s

theorem recipeDeleteEffect_rests (r : Req) : Rests s (recipeDeleteEffect r s).state := by
  unfold recipeDeleteEffect
  simp only
  split
  · exact .refl s
  · split
    · exact .refl s
    · exact .of_same rfl rfl rfl

theorem recipeCommitEffect_rests (r : Req) : Rests s (recipeCommitEffect r s).state := by
  unfold recipeCommitEffect
  split
  · exact .of_same rfl rfl rfl
  · exact s.swap_works.rests (.of_ring s.swap_ring)

theorem noticeEnableEffect_rests (r : Req) : Rests s (noticeEnableEffect r s).state := by
  unfold noticeEnableEffect
  split
  · exact .of_same rfl rfl rfl
  · exact .refl s

theorem noticeClearEffect_rests (p : Port) (r : Req) : Rests s (noticeClearEffect p r s).state := by
  unfold noticeClearEffect
  split
  · exact .of_same rfl rfl rfl
  · exact .refl s

theorem noticeRaiseEffect_rests (r : Req) : Rests s (noticeRaiseEffect r s).state := by
  unfold noticeRaiseEffect
  split
  · exact .of_same rfl rfl rfl
  · exact .refl s

end Requests

/-! ### Starts -/

theorem State.startBlocks_rests (s u : State) (il : Interlock) : Rests s (u.startBlocks il) := by
  refine ⟨fun _ _ k => ?_, fun _ hl => by cases hl⟩
  rw [State.ringState, State.startBlocks_seq]
  decide

theorem State.warmRestart_rests (s : State) : Rests s s.warmRestart := by
  have hports : Rests (s.startBlocks restartInterlock) { s.startBlocks restartInterlock with
      ports := (s.startBlocks restartInterlock).ports.map PortState.restart } := .of_same rfl rfl rfl
  exact (State.startBlocks_rests s s _).trans (hports.trans ((State.advise_events _).rests.trans (State.startCauses_rests _)))

theorem execPowerOn_rests (l : Lines) (s : State) : ∃ t, exec (.powerOn l) s = .next t ∧ Rests s t := by
  refine ⟨_, rfl, Rests.trans (State.startBlocks_rests s (({ s with lines := l } : State).load
    (s.store.valid?.getD factoryImage)) resetInterlock) (Rests.trans ?_ (State.startCauses_rests _))⟩
  split <;> exact .of_same rfl rfl rfl

theorem State.restartOnArrival_rests (s : State) (r : Req) : Rests s (s.restartOnArrival r) := by
  unfold State.restartOnArrival
  split
  · exact (s.reply_core _ _ _ _).rests
  · exact s.warmRestart_rests.trans (State.reply_core _ _ _ _ _).rests

theorem State.accept_rests (s : State) (p : Port) (kind : Byte) (payload : List Byte) :
    Rests s (s.accept p kind payload) := by
  unfold State.accept
  simp only
  split_ifs
  · exact .refl s
  · exact (s.reply_core _ _ _ _).rests
  · exact s.restartOnArrival_rests _
  · exact (s.reply_core _ _ _ _).rests
  · exact .of_same rfl rfl rfl

theorem State.frameByte_rests (s : State) (p : Port) (bytes : List Byte) : Rests s (s.frameByte p bytes) := by
  have hreceive : ∀ r, Rests s (s.receive p r) := fun r => (s.receive_core p r).rests
  unfold State.frameByte
  simp only
  split_ifs
  · exact hreceive _
  · exact hreceive _
  · exact (hreceive _).trans (State.accept_rests _ _ _ _)
  · exact hreceive _

/-! ### Writes of points -/

theorem writeEffect_rests {s : State} {owner : Point → State → State → State}
    (h : ∀ q (t : State), (∀ k, t.ringRight k) → Rests t (owner q s t)) (hr : ∀ k, s.ringRight k) (r : Req) :
    Rests s (writeEffect owner r s).state := by
  unfold writeEffect
  simp only
  split
  · exact .refl s
  · split
    · exact .refl s
    · have howner : ∀ q v, Rests s (owner q s { s with points := s.points.write q v }) := fun q v =>
        (h q { s with points := s.points.write q v } fun k => ⟨(hr k).allowed, (hr k).named⟩).since rfl rfl rfl
      exact howner _ _

theorem State.writeRow_rests {s : State} (hr : ∀ k, s.ringRight k) (p : Port) (row : WriteRow)
    {owner : Point → State → State → State} (h : ∀ q (t : State), (∀ k, t.ringRight k) → Rests t (owner q s t)) :
    Rests s (s.writeRow p row owner) := State.serve_rests p _ _ (writeEffect_rests h hr)

theorem setpointOwner_rests (q : Point) (s t : State) : Rests t (setpointOwner q s t) := by
  have hblind : ∀ (u : State) k, Rests u (u.evalBlind k) := by
    intro u k
    unfold State.evalBlind
    split
    · split
      · exact evalPress_rests u k
      · exact .refl u
    · exact .refl u
  unfold setpointOwner
  split
  · exact (evalPress_rests _ _).trans (evalPress_rests _ _)
  · exact (hblind _ _).trans (hblind _ _)
  · exact (evalLiftIn_rests _ _ _).trans (evalLiftIn_rests _ _ _)
  · exact (evalLiftIn_rests _ _ _).trans (evalLiftIn_rests _ _ _)
  · exact .refl t

theorem echoOwner_rests (q : Point) (s t : State) : Rests t (echoOwner q s t) := by
  unfold echoOwner
  split
  · exact t.onChan_rests _ _
  · exact .refl t

/-! ### The mode (R128, R129) -/

theorem State.ringFromSetup_free {s : State} {k : Ring} (h : s.ringState k ≠ .held) :
    (s.ringFromSetup k).ringState k ≠ .held := by
  by_cases hi : s.ringState k = .idle
  · rw [State.ringFromSetup_of_idle hi]
    exact s.takeGeometry_not_held k
  · rw [State.ringFromSetup_of_ne hi]
    exact h

theorem State.ringsFromSetup_free {s : State} (h : ∀ k, s.ringState k ≠ .held) (k : Ring) :
    s.ringsFromSetup.ringState k ≠ .held := by
  cases k with
  | a =>
    rw [State.ringsFromSetup, State.ringState, State.ringFromSetup_other _ _ _ (by decide)]
    exact State.ringFromSetup_free (h .a)
  | b =>
    refine State.ringFromSetup_free ?_
    rw [State.ringState, State.ringFromSetup_other _ _ _ (by decide)]
    exact h .b

/-- A change of mode keeps the rings out of HELD at NONE. -/
theorem State.changeMode_freed {s : State} (hr : ∀ k, s.ringRight k) {m : Mode} (hm : m ≠ s.control.mode) (h : s.freed) :
    (s.changeMode m).freed := by
  by_cases hmode : s.control.mode = .setup
  · have hms : m ≠ .setup := fun he => hm (he.trans hmode.symm)
    obtain ⟨hworks, -⟩ := State.handMode_chain hr m
    have hhand : (s.moded m).handMode s.control.mode m = (s.moded m).ringsFromSetup := by
      rw [State.handMode, if_neg hms, if_pos hmode]
      rfl
    rw [hhand] at hworks
    have hrings : (s.moded m).ringsFromSetup.evalPresses.evalLifts.freed := by
      refine (evalBoth_rests _).freed fun hl k => State.ringsFromSetup_free (s := s.moded m) (fun j => ?_) k
      rw [hworks.release] at hl
      exact h hl j
    rw [State.changeMode_from_setup hr hms hmode]
    split
    · exact hrings
    · exact (State.raiseCause_rests _ _).freed hrings
  · intro hl k
    rw [State.changeMode_release hr hmode] at hl
    by_cases hms : m = .setup
    · subst hms
      rw [State.changeMode_to_setup hmode, (State.evalBoth_view _).ringState, State.ringsToSetup_state]
      rw [if_neg (show (s.moded .setup).ringState k ≠ .held from h hl k)]
      decide
    · rw [State.changeMode_between hms hmode, (State.evalBoth_view _).ringState]
      exact h hl k

/-- A change of mode that does not leave SETUP keeps the rings out of IDLE and ARMED at AT_GAP. -/
theorem State.changeMode_gapped {s : State} (hr : ∀ k, s.ringRight k) {m : Mode}
    (hmode : s.control.mode ≠ .setup ∨ m = .setup) (h : s.gapped) : (s.changeMode m).gapped := by
  have hcontrol : (s.changeMode m).control.mode = m := by rw [(State.changeMode_chain hr m).1.sameOuter.control]; rfl
  intro hl hm k
  rw [hcontrol] at hm
  have hout := hmode.resolve_right hm
  rw [State.changeMode_release hr hout] at hl
  rw [State.changeMode_between hm hout, (State.evalBoth_view _).ringState]
  exact h hl hout k

/-- Where a command leaves the rings standing, but for AT_GAP as SETUP is left. -/
structure RestsButLeaving (s t : State) : Prop where
  freed : s.freed → t.freed
  gapped : s.control.mode ≠ .setup ∨ t.control.mode = .setup → s.gapped → t.gapped

theorem Rests.butLeaving {s t : State} (h : Rests s t) : RestsButLeaving s t := ⟨h.freed, fun _ => h.gapped⟩

theorem modeEffect_rests {s : State} (hr : ∀ k, s.ringRight k) (r : Req) : RestsButLeaving s (modeEffect r s).state := by
  unfold modeEffect
  split
  · exact (Rests.refl s).butLeaving
  · next m _ =>
    split_ifs with hm hbusy
    · exact (Rests.refl s).butLeaving
    · exact (Rests.refl s).butLeaving
    · refine ⟨State.changeMode_freed hr hm, fun hleave => State.changeMode_gapped hr (hleave.imp_right fun h => ?_)⟩
      have hcontrol : (s.changeMode m).control.mode = m := by rw [(State.changeMode_chain hr m).1.sameOuter.control]; rfl
      exact hcontrol.symm.trans h

theorem exec_mode_rests {s : State} (hr : ∀ k, s.ringRight k) (p : Port) :
    ∃ t, exec (.mode p) s = .next t ∧ RestsButLeaving s t := by
  refine ⟨_, rfl, ?_⟩
  obtain e | ⟨r, x, e⟩ | ⟨r, e⟩ := s.serve_cases p .mode (ofKind .mode) modeEffect
  · rw [e]
    exact (Rests.refl s).butLeaving
  · rw [e]
    exact (s.answer_core p r x []).rests.butLeaving
  · rw [e]
    have hanswer := (State.answer_core (modeEffect r s).state p r (modeEffect r s).result (modeEffect r s).rest).rests
    have heffect := modeEffect_rests hr r
    exact ⟨fun h => hanswer.freed (heffect.freed h), fun hleave h => hanswer.gapped (heffect.gapped hleave h)⟩

/-! ### Every command -/

theorem execSave_rests (s : State) (p : Port) : ∃ t, exec (.save p) s = .next t ∧ Rests s t := by
  show ∃ t, execSave p s = .next t ∧ Rests s t
  unfold execSave
  refine ⟨_, rfl, ?_⟩
  split
  · exact .refl s
  · split
    · exact (s.answer_core _ _ _ _).rests
    · exact .of_same rfl rfl rfl

theorem execSaveComplete_rests (s : State) : ∃ t, exec .saveComplete s = .next t ∧ Rests s t := by
  show ∃ t, execSaveComplete s = .next t ∧ Rests s t
  unfold execSaveComplete
  split
  · exact ⟨_, rfl, .refl s⟩
  · next i _ =>
    have hanswer : ∀ u : State, Rests u u.answerSave := fun u => by
      unfold State.answerSave
      split
      · exact (State.answer_core _ _ _ _ _).rests
      · exact .refl _
    exact ⟨_, rfl, (hanswer _).since rfl rfl rfl⟩

theorem execEncoderChange_rests {s : State} (hr : ∀ k, s.ringRight k) (x y : Bool) :
    ∃ t, exec (.encoderChange x y) s = .next t ∧ Rests s t := by
  have hcore := State.acceptEnc_core { s with lines := { s.lines with enc1 := x, enc2 := y } } (x, y)
  have hr' := hcore.ringRight fun k => ⟨(hr k).allowed, (hr k).named⟩
  exact ⟨_, rfl, (hcore.rests.trans (State.stepsPos_rests _ _ hr')).since rfl rfl rfl⟩

theorem execCellRawChange_rests {s : State} (hr : ∀ k, s.ringRight k) (c : Cell) (b : Bool) :
    ∃ t, exec (.cellRawChange c b) s = .next t ∧ Rests s t := by
  show ∃ t, execCellRawChange c b s = .next t ∧ Rests s t
  unfold execCellRawChange
  split
  · exact ⟨_, rfl, .refl s⟩
  · simp only
    split
    · refine ⟨_, rfl, (State.settleDropped_rests ?_ c).since rfl rfl rfl⟩
      exact fun k => ⟨(hr k).allowed, (hr k).named⟩
    · exact ⟨_, rfl, .of_same rfl rfl rfl⟩

theorem execCellEdge_rests {s : State} (hr : ∀ k, s.ringRight k) (c : Cell) :
    ∃ t, exec (.cellEdge c) s = .next t ∧ Rests s t := by
  show ∃ t, execCellEdge c s = .next t ∧ Rests s t
  unfold execCellEdge
  split
  · exact ⟨_, rfl, .refl s⟩
  · have hr' : ∀ f k, (s.onCell c f).ringRight k := fun f k => ⟨(hr k).allowed, (hr k).named⟩
    cases c with
    | entry => exact ⟨_, rfl, (State.entryEdge_rests (hr' _) _ _).since rfl rfl rfl⟩
    | exit => exact ⟨_, rfl, (State.exitEdge_rests (hr' _) _ _).since rfl rfl rfl⟩

theorem execValveFrame_rests (s : State) : ∃ t, exec .valveFrame s = .next t ∧ Rests s t :=
  ⟨_, rfl, ((Rests.foldl State.reportSilent_rests _ _).trans (Rests.foldl State.badEcho_rests _ _)).since rfl rfl rfl⟩

theorem execEchoReceived_rests (s : State) (c : Channel) (w : Word16) :
    ∃ t, exec (.echoReceived c w) s = .next t ∧ Rests s t := by
  show ∃ t, execEchoReceived c w s = .next t ∧ Rests s t
  unfold execEchoReceived
  split
  · refine ⟨_, rfl, ?_⟩
    split
    · exact (State.goodEcho_rests _ _ _).since rfl rfl rfl
    · exact (State.badEcho_rests _ _).since rfl rfl rfl
  · exact ⟨_, rfl, .refl s⟩

theorem execEstopInputChange_rests (s : State) (active : Bool) :
    ∃ t, exec (.estopInputChange active) s = .next t ∧ Rests s t := by
  have htaken : ∀ u : State, Rests u u.takeEstop := fun u => by
    have hraise := State.raiseCause_rests { u with release := { u.release with estopActive := true } } .estop
    have hpermit : ∀ v : State, Rests v v.recomputePermit := fun v => .of_same rfl rfl rfl
    exact (hraise.trans (hpermit _)).since rfl rfl rfl
  show ∃ t, execEstopInputChange active s = .next t ∧ Rests s t
  unfold execEstopInputChange
  simp only
  split_ifs
  · exact ⟨_, rfl, .refl s⟩
  · exact ⟨_, rfl, (htaken _).since rfl rfl rfl⟩
  · exact ⟨_, rfl, .of_same rfl rfl rfl⟩

theorem execRotorLevelTaken_rests (s : State) (k : Ring) : ∃ t, exec (.rotorLevelTaken k) s = .next t ∧ Rests s t := by
  show ∃ t, execRotorLevelTaken k s = .next t ∧ Rests s t
  unfold execRotorLevelTaken
  split
  · exact ⟨_, rfl, .refl s⟩
  · refine ⟨_, rfl, ?_⟩
    unfold State.takeRotor
    simp only
    split
    · exact (State.raiseCause_rests _ _).since rfl rfl rfl
    · exact .of_same rfl rfl rfl

theorem geometryOwner_rests {s t : State} (h : ∀ k, t.ringRight k) : Rests t (t.pushed.afterMove s) :=
  (State.afterMove_events (s := t.pushed) (fun k => ⟨(h k).allowed, (h k).named⟩) s).rests.since rfl rfl rfl

theorem exec_rests {s : State} (hr : ∀ k, s.ringRight k) (i : Instr) (hi : ∀ p, i ≠ .mode p) :
    ∃ t, exec i s = .next t ∧ Rests s t := by
  have row (p : Port) (row : WriteRow) {owner : Point → State → State → State}
      (h : ∀ q (t : State), (∀ k, t.ringRight k) → Rests t (owner q s t)) :
      ∃ t, .next (s.writeRow p row owner) = (.next t : Host.Outcome State Fault Refusal) ∧ Rests s t :=
    ⟨_, rfl, State.writeRow_rests hr p row h⟩
  have request (p : Port) (k : Kind) (want : Req → Bool) {effect : Req → State → Effect} (h : ∀ r, Rests s (effect r s).state) :
      ∃ t, .next (s.serve p k want effect) = (.next t : Host.Outcome State Fault Refusal) ∧ Rests s t :=
    ⟨_, rfl, State.serve_rests p k want h⟩
  have same {t : State} (h : exec i s = .next t) (hring : t.ring = s.ring) (hlevel : t.release.level = s.release.level)
      (hmode : t.control.mode = s.control.mode) : ∃ t, exec i s = .next t ∧ Rests s t :=
    ⟨t, h, .of_same hring hlevel hmode⟩
  cases i with
  | mode p => exact absurd rfl (hi p)
  | powerOn l => exact execPowerOn_rests l s
  | restart p => exact request p _ _ fun _ => s.warmRestart_rests
  | telegramReceived p kind payload =>
    show ∃ t, execTelegramReceived p kind payload s = .next t ∧ Rests s t
    unfold execTelegramReceived
    split
    · exact ⟨_, rfl, (s.receive_core _ _).rests.trans (State.accept_rests _ _ _ _)⟩
    · exact ⟨_, rfl, .refl s⟩
  | byteReceived p b =>
    show ∃ t, execByteReceived p b s = .next t ∧ Rests s t
    unfold execByteReceived
    split
    · refine ⟨_, rfl, ?_⟩
      split
      · exact (s.receive_core _ _).rests
      · exact .refl s
    · exact ⟨_, rfl, s.frameByte_rests _ _⟩
  | interByteTimeout | telegramSendBegin | keyInputChange | keyLevelTaken => exact same rfl rfl rfl rfl
  | rotorInputChange k b => exact same rfl rfl rfl rfl
  | status p => exact request p _ _ fun _ => .refl s
  | trackRead p => exact request p _ _ fun _ => .refl s
  | pointRead p => exact request p _ _ fun _ => .refl s
  | profile p => exact request p _ _ (profileEffect_rests hr)
  | speciesSet p => exact request p _ _ speciesSetEffect_rests
  | speciesForce p => exact request p _ _ (speciesForceEffect_rests hr)
  | release p => exact request p _ _ (releaseEffect_rests p)
  | resume p => exact request p _ _ resumeEffect_rests
  | mark p => exact request p _ _ markEffect_rests
  | winter p => exact request p _ _ fun _ => State.setSeason_rests _
  | summer p => exact request p _ _ fun _ => State.setSeason_rests _
  | recipeWrite p => exact request p _ _ recipeWriteEffect_rests
  | recipeRead p => exact request p _ _ fun r => by rw [recipeReadEffect_state]; exact .refl s
  | recipeDelete p => exact request p _ _ recipeDeleteEffect_rests
  | recipeCommit p => exact request p _ _ recipeCommitEffect_rests
  | recipeDiscard p => exact request p _ _ fun _ => (recipes_core s _).rests
  | manualSet p => exact request p _ _ manualSetEffect_rests
  | noticeEnable p => exact request p _ _ noticeEnableEffect_rests
  | noticeClear p => exact request p _ _ (noticeClearEffect_rests p)
  | noticeRaise p => exact request p _ _ noticeRaiseEffect_rests
  | pointWrite p => exact row p _ fun _ t _ => .refl t
  | scaleWrite p => exact row p _ fun _ _ _ => .of_same rfl rfl rfl
  | geometryWrite p =>
    exact row p _ fun q t h => geometryOwner_rests h
  | windowArmWrite p => exact row p _ fun q t h => (State.afterMove_events h s).rests
  | ceilingWrite p =>
    exact row p _ fun q t _ => (evalBoth_rests t.valveCeiling).since rfl rfl rfl
  | setpointPointWrite p => exact row p _ fun q t _ => setpointOwner_rests q s t
  | echoEnableWrite p => exact row p _ fun q t _ => echoOwner_rests q s t
  | stopOnReleaseWrite p => exact row p _ fun _ _ _ => .of_same rfl rfl rfl
  | markSourceWrite p => exact row p _ fun _ t _ => .refl t
  | markGateWrite p => exact row p _ fun _ _ _ => .of_same rfl rfl rfl
  | thresholdWrite p => exact row p _ fun _ t _ => t.advise_events.rests
  | save p => exact execSave_rests s p
  | saveComplete => exact execSaveComplete_rests s
  | encoderChange x y => exact execEncoderChange_rests hr x y
  | speedUpdate =>
    have heval : ∀ u : State, Rests u u.evalPresses.advise := fun u =>
      ((evalPress_rests _ _).trans (evalPress_rests _ _)).trans (State.advise_events _).rests
    exact ⟨_, rfl, (heval _).since rfl rfl rfl⟩
  | cellRawChange c b => exact execCellRawChange_rests hr c b
  | cellEdge c => exact execCellEdge_rests hr c
  | valveFrame => exact execValveFrame_rests s
  | deadIntervalExpiry k =>
    show ∃ t, execDeadIntervalExpiry k s = .next t ∧ Rests s t
    unfold execDeadIntervalExpiry
    split
    · exact ⟨_, rfl, .refl s⟩
    · split
      · exact ⟨_, rfl, .of_same rfl rfl rfl⟩
      · exact ⟨_, rfl, .refl s⟩
  | echoReceived c w => exact execEchoReceived_rests s c w
  | deviationTimeout c =>
    show ∃ t, execDeviationTimeout c s = .next t ∧ Rests s t
    unfold execDeviationTimeout
    simp only
    split
    · exact ⟨_, rfl, s.enterFault_rests _ _⟩
    · exact ⟨_, rfl, .refl s⟩
  | estopInputChange active => exact execEstopInputChange_rests s active
  | estopInactiveTaken =>
    show ∃ t, execEstopInactiveTaken s = .next t ∧ Rests s t
    unfold execEstopInactiveTaken
    simp only
    split
    · exact ⟨_, rfl, .of_same rfl rfl rfl⟩
    · exact ⟨_, rfl, .refl s⟩
  | rotorLevelTaken k => exact execRotorLevelTaken_rests s k

/-- Every step leaves the rings where the level lets them stand, but for AT_GAP as SETUP is left. -/
theorem step_rests {s t : State} (hr : ∀ k, s.ringRight k) (h : step s = .next t) : RestsButLeaving s t := by
  obtain rfl | ⟨c, rest, hexec⟩ := step_cases h
  · exact (Rests.refl t).butLeaving
  · have hr' := State.withPending_ringRight hr rest
    have hrun : RestsButLeaving { s with pending := rest } t := by
      by_cases hc : ∃ p, c = .mode p
      · obtain ⟨p, rfl⟩ := hc
        obtain ⟨u, hu, hrests⟩ := exec_mode_rests hr' p
        cases hu.symm.trans hexec
        exact hrests
      · obtain ⟨u, hu, hrests⟩ := exec_rests hr' c fun p hp => hc ⟨p, hp⟩
        cases hu.symm.trans hexec
        exact hrests.butLeaving
    exact ⟨hrun.freed, hrun.gapped⟩

/-- Settles O11: every change keeps the rings right, and every command leaves them where the level lets them stand. -/
theorem ringsKeepAllowedStates : Obligations.RingsKeepAllowedStates := by
  refine ⟨fun s t hr h => step_keeps (P := fun u => ∀ k, u.ringRight k) (fun u rest hu k => ⟨(hu k).allowed, (hu k).named⟩)
    (fun w hr _ => w.ringRight hr) hr hr h, fun s t hr h hfree k hl => ?_, fun s t hr hrests h hleave => ?_⟩
  · exact (step_rests hr h).freed (fun hl k => hfree k hl) hl k
  · obtain ⟨hfreed, hgapped⟩ := rests_iff.mp hrests
    exact rests_iff.mpr ⟨(step_rests hr h).freed hfreed, (step_rests hr h).gapped hleave hgapped⟩

end Sys2Proof.Machine
end

section
/-! PROOFS. Removals and finishes (R38 to R40). -/

namespace Sys2Proof.Machine

/-! ### A ring lets go of a record that has left the track -/

/-- A ring's sequencer names a record neither as served nor as armed for. -/
def Sequencer.forgets (q : Sequencer) (key : Nat) : Prop := q.served ≠ some key ∧ q.armedFor ≠ some key

section Forgets

variable {s : State} {k : Ring} {key : Nat}

theorem State.goOpen_forgets (st : RingState) {armed : Option Nat} (h : armed ≠ some key) :
    ((s.goOpen k st armed).ring.get k).forgets key := by
  rw [State.goOpen_seq]
  exact ⟨nofun, h⟩

theorem State.goWaiting_forgets (h : ∀ r ∈ s.track, r.key ≠ key) : ((s.goWaiting k).ring.get k).forgets key := by
  cases hr : s.firstWaiting k with
  | none =>
    rw [State.goWaiting_of_none hr]
    exact State.goOpen_forgets _ nofun
  | some r =>
    rw [State.goWaiting_of_some hr]
    exact State.goOpen_forgets _ fun he => h r (List.mem_of_find?_eq_some hr) (Option.some.inj he)

theorem State.leaveByTail_forgets (h : ∀ r ∈ s.track, r.key ≠ key) : ((s.leaveByTail k).ring.get k).forgets key := by
  by_cases hgap : s.release.level = .atGap
  · rw [State.leaveByTail_of_atGap hgap]
    exact State.goOpen_forgets _ nofun
  · cases hr : s.standing k with
    | none =>
      rw [State.leaveByTail_of_no_standing hgap hr]
      exact State.goWaiting_forgets h
    | some r =>
      rw [State.leaveByTail_of_standing hgap hr, State.goPress_seq]
      exact ⟨fun he => h r (List.mem_of_find?_eq_some hr) (Option.some.inj he), nofun⟩

theorem State.ringRemoved_forgets (hmode : s.control.mode ≠ .setup) (h : ∀ r ∈ s.track, r.key ≠ key) :
    ((s.ringRemoved k key).ring.get k).forgets key := by
  by_cases hs : (s.ring.get k).served = some key
  · rw [State.ringRemoved_of_served hmode hs]
    exact State.leaveByTail_forgets h
  · by_cases ha : (s.ring.get k).armedFor = some key
    · rw [State.ringRemoved_of_armed hmode hs ha]
      split
      · exact State.goOpen_forgets _ nofun
      · exact State.goWaiting_forgets h
    · rw [State.ringRemoved_of_still (.inr ⟨hs, ha⟩)]
      exact ⟨hs, ha⟩

variable {j : Ring}

theorem State.goWaiting_other (h : j ≠ k) : (s.goWaiting k).ring.get j = s.ring.get j := by
  unfold State.goWaiting
  split <;> exact s.goOpen_other k j _ _ h

theorem State.leaveByTail_other (h : j ≠ k) : (s.leaveByTail k).ring.get j = s.ring.get j := by
  unfold State.leaveByTail
  split
  · exact s.goOpen_other k j _ _ h
  · split
    · rw [State.goPress_ring, PerRing.get_modify, if_neg h]
    · exact State.goWaiting_other h

theorem State.ringRemoved_other (h : j ≠ k) (key : Nat) : (s.ringRemoved k key).ring.get j = s.ring.get j := by
  unfold State.ringRemoved
  split
  · rfl
  · split
    · exact State.leaveByTail_other h
    · split
      · split
        · exact s.goOpen_other k j _ _ h
        · exact State.goWaiting_other h
      · rfl

end Forgets

/-! ### The rings after a removal -/

section Removal

variable {s : State} {key : Nat}

theorem State.removeRec_ring (h : s.rec? key ≠ none) :
    (s.removeRec key).ring = (((s.dropped key).ringRemoved .a key).ringRemoved .b key).ring := by
  rw [State.removeRec_of_present h, State.advise_ring]

theorem State.dropped_gone (s : State) (key : Nat) : ∀ r ∈ (s.dropped key).track, r.key ≠ key := fun r hr => by
  have hne : (r.key != key) = true := (List.mem_filter.mp hr).2
  simpa using hne

theorem State.removeRec_forgets (hr : ∀ k, s.ringRight k) (h : s.rec? key ≠ none) (hmode : s.control.mode ≠ .setup)
    (k : Ring) : ((s.removeRec key).ring.get k).forgets key := by
  have hfirst := State.ringRemoved_works (s := s.dropped key) (k := .a) ⟨(hr .a).allowed, (hr .a).named⟩ key
  rw [State.removeRec_ring h]
  cases k with
  | a =>
    rw [State.ringRemoved_other (by decide)]
    exact State.ringRemoved_forgets hmode (s.dropped_gone key)
  | b =>
    refine State.ringRemoved_forgets ?_ fun r hmem => ?_
    · rw [hfirst.sameOuter.control]
      exact hmode
    · obtain ⟨x, hx, hbare⟩ := exists_bare_of_mem (State.ringRemoved_ground (s.dropped key) .a key).track hmem
      rw [← (Rec.eq_of_bare hbare).1]
      exact s.dropped_gone key x hx

theorem State.removeRec_ring_still (hr : ∀ k, s.ringRight k) (h : s.rec? key ≠ none) {k : Ring}
    (hk : s.control.mode = .setup ∨ (s.ring.get k).forgets key) : (s.removeRec key).ring.get k = s.ring.get k := by
  have hfirst := State.ringRemoved_works (s := s.dropped key) (k := .a) ⟨(hr .a).allowed, (hr .a).named⟩ key
  rw [State.removeRec_ring h]
  cases k with
  | a =>
    rw [State.ringRemoved_other (by decide), State.ringRemoved_of_still (s := s.dropped key) hk]
    rfl
  | b =>
    rw [State.ringRemoved_of_still, State.ringRemoved_other (by decide)]
    · rfl
    · rw [State.ringRemoved_other (by decide), hfirst.sameOuter.control]
      exact hk

theorem bne_eq_decide (a b : Nat) : (a != b) = decide (a ≠ b) := by
  by_cases h : a = b <;> simp [h]

theorem CellState.forget_eq (c : CellState) (key : Nat) :
    c.forget key = { c with waiting := if c.waiting = some key then none else c.waiting } := by
  unfold CellState.forget
  split <;> rfl

end Removal

/-! ### LOG_DONE -/

theorem State.finish_of_gone {s : State} {key : Nat} (h : s.rec? key = none) : s.finish key = s := by
  simp only [State.finish, h]

theorem State.finish_of_present {s : State} {key : Nat} {r : Rec} (h : s.rec? key = some r) :
    s.finish key = ((s.send .line logDoneByte (logDonePayload r)).markEvent .logDone).removeRec key := by
  simp only [State.finish, h]

theorem bitsOf_lt (l : List Bool) : bitsOf l < 2 ^ l.length := by
  induction l with
  | nil => decide
  | cons b l ih =>
    have hb := b.toNat_le
    rw [bitsOf, List.length_cons, pow_succ]
    omega

theorem flagBits_lt (set : List Flag) : flagBits set < 65536 :=
  (bitsOf_lt _).trans_le (by rw [List.length_map]; decide)

theorem SpeciesSource.code_lt (x : SpeciesSource) : x.code < 256 := by cases x <;> decide

/-- Settles O26: the track, the cells and the rings after a removal, and the bytes of LOG_DONE at their offsets. -/
theorem removedRecordsLeaveTheTrack : Obligations.RemovedRecordsLeaveTheTrack := by
  refine ⟨fun s key h => ⟨State.removeRec_of_gone h, State.finish_of_gone h⟩, ?removal, ?done, ?ways⟩
  case removal =>
    intro s key r hr h t held
    have hpresent : s.rec? key ≠ none := by rw [h]; exact nofun
    have hworks := State.removeRec_works hr key
    obtain ⟨hcells, hstray⟩ := s.removeRec_cells key hpresent
    refine ⟨hworks.sameOuter, hworks.release, ?_, ?_, fun c => ?_, ?_, fun k hmode => ?_, fun k hk => ?_⟩
    · have hheld : ∀ l : List Rec, l.map held = (l.map Rec.bare).map held := fun l => by
        rw [List.map_map]
        rfl
      show (s.removeRec key).track.map held = _
      rw [hheld, s.removeRec_track key, ← hheld]
      simp only [bne_eq_decide]
    · show (s.removeRec key).openStray = _
      rw [hstray]
      simp only [bne_eq_decide]
    · show (s.removeRec key).cells.get c = _
      rw [hcells]
      cases c <;> exact CellState.forget_eq _ key
    · show (s.removeRec key).lastAdvise = (s.removeRec key).advisedLimit
      rw [State.removeRec_of_present hpresent]
      exact State.advise_lastAdvise _
    · exact State.removeRec_forgets hr hpresent hmode k
    · exact State.removeRec_ring_still hr hpresent hk
  case done =>
    intro s key r h
    refine ⟨logDonePayload r, State.finish_of_present h, rfl, ?_, ?_, ?_, ?_, ?_, ?_, ?_, ?_⟩
    · simp [logDonePayload, u16, u8, bytes16, byte]
      omega
    · simp [logDonePayload, u8, bytes16, byte]
    · have hcode := r.source.code_lt
      simp [logDonePayload, u8, bytes16, byte]
      omega
    · cases hb : r.bound with
      | none => simp [logDonePayload, u8, bytes16, byte, hb]
      | some b => cases hf : b.frozen <;> simp [logDonePayload, u8, bytes16, byte, hb, hf]
    · simp [logDonePayload, u16, u8, bytes16, byte]
      omega
    · have hbits := flagBits_lt r.flags
      simp [logDonePayload, u16, u8, bytes16, byte]
      omega
    · simp [logDonePayload, u16, u8, bytes16, byte]
      omega
    · simp [logDonePayload, u16, u8, bytes16, byte]
      omega
  case ways =>
    intro s key r d h
    refine ⟨?_, rfl, rfl⟩
    simp only [State.takeCrossing, h]
    rfl

end Sys2Proof.Machine
end

section
/-! PROOFS. The cells' edges, and the windows decided by a cell (R12, R45, R54 to R60). -/

namespace Sys2Proof.Machine

/-! ### A cell's raw level and its edge -/

/-- A cell after its edge: the filtered level is the candidate's, and the candidate is gone. -/
def State.edged (s : State) (c : Cell) : State := s.onCell c fun q => { q with blocked := !q.blocked, candidate := none }

theorem exec_cellEdge_of_none {s : State} {c : Cell} (h : (s.cells.get c).candidate = none) :
    exec (.cellEdge c) s = .next s := by
  show execCellEdge c s = _
  simp only [execCellEdge, h]

theorem exec_entryEdge {s : State} {stamp : Stamp} (h : s.cells.entry.candidate = some stamp) :
    exec (.cellEdge .entry) s = .next ((s.edged .entry).entryEdge (!s.cells.entry.blocked) stamp) := by
  show execCellEdge .entry s = _
  simp only [execCellEdge, PerCell.get, h]
  rfl

theorem exec_exitEdge {s : State} {stamp : Stamp} (h : s.cells.exit.candidate = some stamp) :
    exec (.cellEdge .exit) s = .next ((s.edged .exit).exitEdge (!s.cells.exit.blocked) stamp) := by
  show execCellEdge .exit s = _
  simp only [execCellEdge, PerCell.get, h]
  rfl

section Settled

variable {s : State}

theorem State.settleEntry_of_none (h : s.cells.entry.waiting = none) : s.settleEntry = s := by
  simp only [State.settleEntry, h]

theorem State.settleEntryRise_of_none (h : s.cells.entry.waiting = none) : s.settleEntryRise = s := by
  simp only [State.settleEntryRise, h]

theorem State.settleExit_of_none (h : s.cells.exit.waiting = none) : s.settleExit = s := by
  simp only [State.settleExit, h]

/-- The entry cell lets go of the record that waits. -/
theorem State.settleEntry_of_some {key : Nat} (h : s.cells.entry.waiting = some key) :
    s.settleEntry = if s.cells.entry.blocked
      then (s.onCell .entry fun c => { c with waiting := none }).onRec key fun r => { r with realign := .unconfirmed }
      else (s.onCell .entry fun c => { c with waiting := none }).removeMissing key := by
  simp only [State.settleEntry, h]
  rfl

theorem State.settleExit_of_some {key : Nat} (h : s.cells.exit.waiting = some key) :
    s.settleExit = if s.cells.exit.blocked
      then (s.onCell .exit fun c => { c with waiting := none }).onRec key (Rec.flag · [.long])
      else (s.onCell .exit fun c => { c with waiting := none }).finishInferred key := by
  simp only [State.settleExit, h]
  rfl

theorem State.strayWithdraw_of_none (h : s.openStray = none) : s.strayWithdraw = s := by
  simp only [State.strayWithdraw, h]

theorem State.strayClose_of_none (h : s.openStray = none) (p : Pos) : s.strayClose p = s := by
  simp only [State.strayClose, h]

theorem State.entryRise_of_checked {p : Pos} {r : Rec} (hr : r ∈ s.track) (hc : r.realign ≠ .notChecked)
    (hw : (posDiff p (expectedEntry s r)).natAbs ≤ s.points.realignWindow) : s.entryRise p = s := by
  refine if_pos (List.any_eq_true.mpr ⟨r, hr, ?_⟩)
  simp [withinWindow, hc, hw]

end Settled

/-! ### What keeps a cell's filtered level -/

theorem State.relevel_cells (s : State) : s.relevel.cells = s.cells ∧ s.relevel.openStray = s.openStray := by
  by_cases h : s.release.causes.level = s.release.level
  · rw [State.relevel_of_eq h]
    exact ⟨rfl, rfl⟩
  · have hrings : Touches passageParts s.leveled s.leveled.ringsLevel :=
      (s.leveled.ringLevel_touches .a).trans (State.ringLevel_touches _ .b)
    have hvalve := s.leveled.ringsLevel.valveLevel_touches s.release.level
    have hlit := (s.leveled.ringsLevel.valveLevel s.release.level).relit_touches s.release.level
    have hrest := State.relevel_touches h
    refine ⟨?_, ?_⟩
    · rw [hrest.cells.resolve_left (by decide), hlit.cells.resolve_left (by decide),
        hvalve.cells.resolve_left (by decide), hrings.cells.resolve_left (by decide)]
      rfl
    · rw [hrest.openStray.resolve_left (by decide), hlit.openStray.resolve_left (by decide),
        hvalve.openStray.resolve_left (by decide), hrings.openStray.resolve_left (by decide)]
      rfl

theorem Internal.cells {s t : State} (w : Internal s t) (c : Cell) :
    (t.cells.get c).blocked = (s.cells.get c).blocked ∧ (t.cells.get c).candidate = (s.cells.get c).candidate := by
  induction w with
  | works w => exact w.cells c
  | trans _ _ h g => exact ⟨g.1.trans h.1, g.2.trans h.2⟩
  | causes s x =>
    rw [(State.relevel_cells _).1]
    exact ⟨rfl, rfl⟩

theorem State.cellEdge_internal {s : State} (h : ∀ k, s.ringRight k) {c : Cell} {stamp : Stamp}
    (hc : (s.cells.get c).candidate = some stamp) :
    ∃ t, exec (.cellEdge c) s = .next t ∧ Internal (s.edged c) t := by
  have hr : ∀ k, (s.edged c).ringRight k := fun k => ⟨(h k).allowed, (h k).named⟩
  cases c with
  | entry => exact ⟨_, exec_entryEdge hc, State.entryEdge_internal hr _ _⟩
  | exit => exact ⟨_, exec_exitEdge hc, .works (State.exitEdge_works hr _ _)⟩

/-- An edge that reconciles nothing leaves the cell's level alone changed. -/
theorem edgesOfNoRecord {s : State} {c : Cell} {p : Pos} {d : Dir} (hc : (s.cells.get c).candidate = some ⟨p, d⟩)
    (hw : (s.cells.get c).waiting = none)
    (h : (c = .exit ∧ (s.cells.get c).blocked = false) ∨ (c = .exit ∧ (s.cells.get c).blocked = true ∧ d = .rev) ∨
      (c = .entry ∧ (s.cells.get c).blocked = true ∧ s.openStray = none) ∨
      (c = .entry ∧ (s.cells.get c).blocked = false ∧ d = .rev) ∨
      (c = .entry ∧ (s.cells.get c).blocked = false ∧ d = .fwd ∧ ∃ r ∈ s.track, r.realign ≠ .notChecked ∧
        (posDiff p (posAdd r.b0 (s.points.dA - s.points.cA))).natAbs ≤ s.points.realignWindow)) :
    exec (.cellEdge c) s = .next (s.edged c) := by
  cases c with
  | exit =>
    rw [exec_exitEdge hc]
    have hsettle : (s.edged .exit).settleExit = s.edged .exit := State.settleExit_of_none hw
    obtain ⟨-, hb⟩ | ⟨-, hb, rfl⟩ | ⟨hn, -⟩ | ⟨hn, -⟩ | ⟨hn, -⟩ := h
    · rw [show s.cells.exit.blocked = false from hb]
      rfl
    · rw [show s.cells.exit.blocked = true from hb]
      exact congrArg _ hsettle
    · cases hn
    · cases hn
    · cases hn
  | entry =>
    rw [exec_entryEdge hc]
    have hsettle : (s.edged .entry).settleEntry = s.edged .entry := State.settleEntry_of_none hw
    obtain ⟨hn, -⟩ | ⟨hn, -⟩ | ⟨-, hb, hstray⟩ | ⟨-, hb, rfl⟩ | ⟨-, hb, rfl, r, hr, hchecked, hwindow⟩ := h
    · cases hn
    · cases hn
    · rw [show s.cells.entry.blocked = true from hb]
      cases d with
      | fwd => exact congrArg _ (State.strayClose_of_none (s := s.edged .entry) hstray p)
      | rev =>
        show Host.Outcome.next ((s.edged .entry).strayWithdraw.settleEntry) = _
        rw [State.strayWithdraw_of_none (s := s.edged .entry) hstray, hsettle]
    · rw [show s.cells.entry.blocked = false from hb]
      exact congrArg _ hsettle
    · rw [show s.cells.entry.blocked = false from hb]
      show Host.Outcome.next (((s.edged .entry).entryRise p).settleEntryRise) = _
      rw [State.entryRise_of_checked (s := s.edged .entry) hr hchecked hwindow,
          State.settleEntryRise_of_none (s := s.edged .entry) hw]

/-- Settles O22: the raw changes by cases of the levels, an edge by what its reconciliation may change. -/
theorem cellLevelsAreFilteredToEdges : Obligations.CellLevelsAreFilteredToEdges := by
  refine ⟨fun s c b hne => ⟨fun haway => ?_, fun hback hwait => ?_, if_pos rfl⟩, fun s c hr =>
    ⟨exec_cellEdge_of_none, fun stamp hc => ?_⟩, fun s c p d hc hw h => edgesOfNoRecord hc hw h⟩
  · show execCellRawChange c b s = _
    rw [execCellRawChange, if_neg hne, if_neg haway]
    cases c <;> rfl
  · show execCellRawChange c b s = _
    rw [execCellRawChange, if_neg hne, if_pos hback]
    cases c with
    | entry => exact congrArg _ (State.settleEntry_of_none hwait)
    | exit => exact congrArg _ (State.settleExit_of_none hwait)
  · obtain ⟨t, hexec, w⟩ := State.cellEdge_internal hr hc
    have houter : SameOuter s (s.edged c) := ⟨rfl, rfl, rfl, rfl, rfl, rfl, rfl, rfl, fun _ => .refl _⟩
    refine ⟨t, hexec, houter.trans w.sameOuter, ?_, ?_⟩
    · rw [(w.cells c).1, State.edged, State.onCell, PerCell.get_modify_self]
    · rw [(w.cells c).2, State.edged, State.onCell, PerCell.get_modify_self]

/-! ### The records of a track as an edge leaves them checked -/

/-- Each record left was there before, and checked where it was checked. -/
def KeepsChecked (l l' : List Rec) : Prop :=
  ∀ q ∈ l', ∃ r ∈ l, r.key = q.key ∧ (r.realign ≠ .notChecked → q.realign ≠ .notChecked)

/-- No record of the key stands unchecked. -/
def CheckedFor (l : List Rec) (key : Nat) : Prop := ∀ r ∈ l, r.key = key → r.realign ≠ .notChecked

theorem KeepsChecked.refl (l : List Rec) : KeepsChecked l l := fun q hq => ⟨q, hq, rfl, id⟩

theorem KeepsChecked.checkedFor {l l' : List Rec} {key : Nat} (h : KeepsChecked l l') (g : CheckedFor l key) :
    CheckedFor l' key := fun q hq hkey => by
  obtain ⟨r, hr, he, hchecked⟩ := h q hq
  exact hchecked (g r hr (he.trans hkey))

theorem clampBehind_keepsChecked (pts : Points) (pos : Pos) (l : List Rec) : ∀ e, KeepsChecked l (clampBehind pts pos e l) := by
  induction l with
  | nil => exact fun _ _ h => nomatch h
  | cons r l ih =>
    intro e q hq
    rw [clampBehind_cons] at hq
    obtain rfl | hq := List.mem_cons.mp hq
    · refine ⟨r, List.mem_cons_self, ?_⟩
      unfold Rec.raised
      split <;> exact ⟨rfl, id⟩
    · obtain ⟨x, hx, h⟩ := ih _ q hq
      exact ⟨x, List.mem_cons_of_mem _ hx, h⟩

theorem clampSpans_keepsChecked (pts : Points) (pos : Pos) (l : List Rec) : KeepsChecked l (clampSpans pts pos l) := by
  cases l with
  | nil => exact .refl _
  | cons r l =>
    intro q hq
    obtain rfl | hq := List.mem_cons.mp hq
    · exact ⟨_, List.mem_cons_self, rfl, id⟩
    · obtain ⟨x, hx, h⟩ := clampBehind_keepsChecked pts pos l _ q hq
      exact ⟨x, List.mem_cons_of_mem _ hx, h⟩

theorem mem_insertByB0 {x q : Rec} {l : List Rec} : q ∈ insertByB0 x l ↔ q = x ∨ q ∈ l := by
  induction l with
  | nil => simp [insertByB0]
  | cons r l ih =>
    rw [insertByB0]
    split
    · simp only [List.mem_cons, ih]
      tauto
    · simp only [List.mem_cons]

/-- At the entry cell, BLOCKED, a record waits still, or none waits and the record is checked or gone. -/
structure Awaits (s : State) (key : Nat) : Prop where
  blocked : s.cells.entry.blocked = true
  waits : s.cells.entry.waiting = some key ∨ (s.cells.entry.waiting = none ∧ CheckedFor s.track key)

section Awaits

variable {s t : State} {key : Nat}

theorem Awaits.after (h : Awaits s key) (e : Events s t) : Awaits t key := by
  refine ⟨(e.works.cells .entry).1.trans h.blocked, ?_⟩
  have hchecked : CheckedFor s.track key → CheckedFor t.track key := fun g =>
    KeepsChecked.checkedFor (fun q hq => e.checked q hq) g
  obtain hsame | ⟨hnone, hgone⟩ := e.entry h.blocked
  · rw [hsame]
    exact h.waits.imp_right (And.imp_right hchecked)
  · refine .inr ⟨hnone, ?_⟩
    obtain hkey | ⟨-, hc⟩ := h.waits
    · exact fun r hr he => absurd he (hgone key hkey r hr)
    · exact hchecked hc

theorem Awaits.of_track (h : Awaits s key) (hcells : t.cells = s.cells)
    (htrack : CheckedFor s.track key → CheckedFor t.track key) : Awaits t key :=
  ⟨by rw [hcells]; exact h.blocked, by rw [hcells]; exact h.waits.imp_right (And.imp_right htrack)⟩

theorem State.relevel_checked (s : State) (key : Nat) (h : CheckedFor s.track key) : CheckedFor s.relevel.track key := by
  by_cases hl : s.release.causes.level = s.release.level
  · rw [State.relevel_of_eq hl]
    exact h
  · have hground : SameGround s.leveled s.leveled.ringsLevel :=
      (s.leveled.ringLevel_ground .a).trans (State.ringLevel_ground _ .b)
    rw [State.relevel_track hl]
    intro q hq hkey
    obtain ⟨r, hr, hbare⟩ := exists_bare_of_mem hground.track hq
    have hrealign : r.bare.realign = q.bare.realign := by rw [hbare]
    rw [← show r.realign = q.realign from hrealign]
    exact h r hr ((Rec.eq_of_bare hbare).1.trans hkey)

theorem Awaits.raiseCause (h : Awaits s key) (c : Cause) : Awaits (s.raiseCause c) key := by
  cases hc : s.release.causes.has c
  · rw [State.raiseCause_of_absent hc]
    exact h.of_track (State.relevel_cells _).1 fun g => State.relevel_checked _ key g
  · rw [State.raiseCause_of_has hc]
    exact h

theorem Awaits.makeStray (h : Awaits s key) (hr : ∀ k, s.ringRight k) (p : Pos) : Awaits (s.makeStray p) key := by
  unfold State.makeStray
  split
  · simp only
    refine Awaits.after ?_ (State.afterMove_events ?_ s)
    case refine_2 => exact fun k => ⟨(hr k).allowed, (hr k).named⟩
    refine h.of_track rfl fun g => ?_
    refine (clampSpans_keepsChecked _ _ _).checkedFor fun q hq hkey => ?_
    obtain rfl | hq := mem_insertByB0.mp hq
    · exact nofun
    · exact g q hq hkey
  · exact (h.raiseCause _).after (State.notice_events _ _)

theorem Awaits.realignRec (h : Awaits s key) (hr : ∀ k, s.ringRight k) (x : Nat) (p : Pos) :
    Awaits (s.realignRec x p) key := by
  unfold State.realignRec
  simp only
  refine Awaits.after ?_ (State.afterMove_events ?_ s)
  case refine_2 => exact fun k => ⟨(hr k).allowed, (hr k).named⟩
  refine h.of_track rfl fun g => ?_
  refine (clampSpans_keepsChecked _ _ _).checkedFor fun q hq hkey => ?_
  obtain ⟨r, hmem, rfl⟩ := List.mem_map.mp hq
  split
  · exact nofun
  · next hne =>
    rw [if_neg hne] at hkey
    exact g r hmem hkey

theorem Awaits.matchEntry (p : Pos) (n : Nat) : ∀ {s : State}, Awaits s key → (∀ k, s.ringRight k) →
    Awaits (s.matchEntry p n) key := by
  induction n with
  | zero => exact fun h hr => h.makeStray hr p
  | succ n ih =>
    intro s h hr
    unfold State.matchEntry
    split
    · exact h.makeStray hr p
    · next r _ =>
      have hgone := State.removeMissing_events hr r.key
      split
      · exact h.realignRec hr _ p
      · split
        · exact h.makeStray hr p
        · exact ih (h.after hgone) (hgone.ringRight hr)

theorem Awaits.entryRise (h : Awaits s key) (hr : ∀ k, s.ringRight k) (p : Pos) : Awaits (s.entryRise p) key := by
  unfold State.entryRise
  split
  · exact h
  · exact h.matchEntry p _ hr

/-- Settled after a rising edge, none waits and the record is no more NOT_CHECKED. -/
theorem Awaits.settled (h : Awaits s key) :
    s.settleEntryRise.cells.entry.waiting = none ∧ CheckedFor s.settleEntryRise.track key := by
  obtain hkey | ⟨hnone, hc⟩ := h.waits
  · simp only [State.settleEntryRise, hkey]
    refine ⟨rfl, fun q hq he => ?_⟩
    obtain ⟨r, -, rfl⟩ := List.mem_map.mp hq
    by_cases hr : (r.key == key) = true
    · rw [if_pos hr]
      dsimp only
      split
      · exact nofun
      · next hne => exact hne
    · rw [if_neg hr] at he
      exact absurd (beq_iff_eq.mpr he) hr
  · rw [State.settleEntryRise_of_none hnone]
    exact ⟨hnone, hc⟩

end Awaits

/-! ### A record finished leaves the track -/

section Finished

variable {s : State}

theorem State.finish_gone (s : State) (key : Nat) : ∀ r ∈ (s.finish key).track, r.key ≠ key := by
  cases h : s.rec? key with
  | none =>
    rw [State.finish_of_gone h]
    exact State.rec?_eq_none_iff.mp h
  | some r =>
    rw [State.finish_of_present h]
    exact State.removeRec_gone _ key

/-- After the exit cell has settled, with its level CLEAR, none waits there and the record that waited is gone. -/
theorem State.settleExit_gone (hr : ∀ k, s.ringRight k) {key : Nat} (hb : s.cells.exit.blocked = false)
    (h : s.cells.exit.waiting = some key ∨ (s.cells.exit.waiting = none ∧ ∀ r ∈ s.track, r.key ≠ key)) :
    s.settleExit.cells.exit.waiting = none ∧ ∀ r ∈ s.settleExit.track, r.key ≠ key := by
  obtain hkey | ⟨hnone, hgone⟩ := h
  · rw [State.settleExit_of_some hkey, if_neg (by rw [hb]; decide)]
    have hevents := State.finishInferred_events (s := s.onCell .exit fun c => { c with waiting := none })
      (fun k => ⟨(hr k).allowed, (hr k).named⟩) key
    refine ⟨(hevents.exit hb).elim id (·.1), ?_⟩
    exact State.finish_gone _ key
  · rw [State.settleExit_of_none hnone]
    exact ⟨hnone, hgone⟩

end Finished

/-! ### A window that passes (R54, R59) -/

section Windows

variable {s : State} {r : Rec}

theorem State.entryWindowPassed_of_settled (h : r.realign ≠ .notChecked ∨ s.cells.entry.waiting = some r.key) :
    s.entryWindowPassed r = s := if_pos h

theorem State.entryWindowPassed_of_blocked (hn : r.realign = .notChecked) (hw : s.cells.entry.waiting ≠ some r.key)
    (hb : s.cells.entry.blocked = true) :
    s.entryWindowPassed r = s.onRec r.key fun q => { q with realign := .unconfirmed } := by
  simp [State.entryWindowPassed, hn, hw, hb]

theorem State.entryWindowPassed_of_clear (hn : r.realign = .notChecked) (hw : s.cells.entry.waiting ≠ some r.key)
    (hb : s.cells.entry.blocked = false) (h : s.cells.entry.candidate = none ∨ s.cells.entry.waiting ≠ none) :
    s.entryWindowPassed r = s.removeMissing r.key := by
  have hgone : (s.cells.entry.candidate.isNone || s.cells.entry.waiting.isSome) = true := by
    simpa [Option.isSome_iff_ne_none] using h
  simp [State.entryWindowPassed, hn, hw, hb, hgone]

theorem State.entryWindowPassed_of_candidate (hn : r.realign = .notChecked)
    (hb : s.cells.entry.blocked = false) (hc : s.cells.entry.candidate ≠ none) (hnone : s.cells.entry.waiting = none) :
    s.entryWindowPassed r = s.onCell .entry fun q => { q with waiting := some r.key } := by
  simp [State.entryWindowPassed, hn, hb, hc, hnone]

theorem State.tailWindowPassed_of_waiting (h : s.cells.exit.waiting = some r.key) : s.tailWindowPassed r = s := if_pos h

theorem State.tailWindowPassed_of_clear (hw : s.cells.exit.waiting ≠ some r.key) (hb : s.cells.exit.blocked = false) :
    s.tailWindowPassed r = s.finishInferred r.key := by
  simp [State.tailWindowPassed, hw, hb]

theorem State.tailWindowPassed_of_blocked (hw : s.cells.exit.waiting ≠ some r.key) (hb : s.cells.exit.blocked = true)
    (h : s.cells.exit.candidate = none ∨ s.cells.exit.waiting ≠ none) :
    s.tailWindowPassed r = s.onRec r.key (Rec.flag · [.long]) := by
  have hgone : (s.cells.exit.candidate.isNone || s.cells.exit.waiting.isSome) = true := by
    simpa [Option.isSome_iff_ne_none] using h
  simp [State.tailWindowPassed, hw, hb, hgone]

theorem State.tailWindowPassed_of_candidate (hb : s.cells.exit.blocked = true)
    (hc : s.cells.exit.candidate ≠ none) (hnone : s.cells.exit.waiting = none) :
    s.tailWindowPassed r = s.onCell .exit fun q => { q with waiting := some r.key } := by
  simp [State.tailWindowPassed, hb, hc, hnone]

end Windows

/-- Settles O25: a window's passing and a settling by the cell's level, and a forward edge by what waits through it. -/
theorem passedWindowsAreDecidedByTheCells : Obligations.PassedWindowsAreDecidedByTheCells := by
  refine ⟨?entryWindow, ?tailWindow, ?settle⟩
  case entryWindow =>
    intro s key r d h c t
    obtain ⟨-, rfl⟩ := State.mem_of_rec? h
    have ht : t = s.entryWindowPassed r := by
      show s.takeCrossing _ = _
      simp only [State.takeCrossing, h]
    rw [ht]
    refine ⟨State.entryWindowPassed_of_settled, fun hn hw => ⟨State.entryWindowPassed_of_blocked hn hw,
      State.entryWindowPassed_of_clear hn hw, State.entryWindowPassed_of_candidate hn⟩⟩
  case tailWindow =>
    intro s key r d h c t
    obtain ⟨-, rfl⟩ := State.mem_of_rec? h
    have ht : t = s.tailWindowPassed r := by
      show s.takeCrossing _ = _
      simp only [State.takeCrossing, h]
    rw [ht]
    exact ⟨State.tailWindowPassed_of_waiting, fun hw => ⟨State.tailWindowPassed_of_clear hw,
      State.tailWindowPassed_of_blocked hw, State.tailWindowPassed_of_candidate⟩⟩
  case settle =>
    intro s c key q hq hkey entry exit settle
    subst hq
    refine ⟨fun hline => ?_, fun p hc hstray hexit => ?_, fun p hc hb hr => ?_⟩
    · show execCellRawChange c _ s = _
      rw [execCellRawChange, if_neg hline, if_pos rfl]
      cases c with
      | entry => exact congrArg _ (State.settleEntry_of_some hkey)
      | exit => exact congrArg _ (State.settleExit_of_some hkey)
    · cases c with
      | entry =>
        rw [exec_entryEdge hc]
        have hsettle := State.settleEntry_of_some (s := s.edged .entry) hkey
        have hedge : (s.edged .entry).entryEdge (!s.cells.entry.blocked) ⟨p, .rev⟩ = (s.edged .entry).settleEntry := by
          cases s.cells.entry.blocked
          · rfl
          · show (s.edged .entry).strayWithdraw.settleEntry = _
            rw [State.strayWithdraw_of_none (s := s.edged .entry) (hstray rfl)]
        rw [hedge]
        exact congrArg _ hsettle
      | exit =>
        rw [exec_exitEdge hc]
        have hsettle := State.settleExit_of_some (s := s.edged .exit) hkey
        have hedge : (s.edged .exit).exitEdge (!s.cells.exit.blocked) ⟨p, .rev⟩ = (s.edged .exit).settleExit := by
          rw [show s.cells.exit.blocked = true from hexit rfl]
          rfl
        rw [hedge]
        exact congrArg _ hsettle
    · have hr' : ∀ k, (s.edged c).ringRight k := fun k => ⟨(hr k).allowed, (hr k).named⟩
      cases c with
      | entry =>
        have hb : s.cells.entry.blocked = false := hb
        have hstart : Awaits (s.edged .entry) key := ⟨by show (!s.cells.entry.blocked) = true; rw [hb]; rfl, .inl hkey⟩
        have hdone := (hstart.entryRise hr' p).settled
        refine ⟨_, exec_entryEdge hc, ?_⟩
        rw [hb]
        exact ⟨hdone.1, fun r hmem he => ⟨rfl, hdone.2 r hmem he⟩⟩
      | exit =>
        have hb : s.cells.exit.blocked = true := hb
        have hclear : (s.edged .exit).cells.exit.blocked = false := by show (!s.cells.exit.blocked) = false; rw [hb]; rfl
        have hfall := State.exitFall_events hr' p
        have hdone := State.settleExit_gone (hfall.ringRight hr') (key := key) ((hfall.works.cells .exit).1.trans hclear) <|
          (hfall.exit hclear).imp (·.trans hkey) fun h => ⟨h.1, h.2 key hkey⟩
        refine ⟨_, exec_exitEdge hc, ?_⟩
        rw [hb]
        exact ⟨hdone.1, fun r hmem he => absurd he (hdone.2 r hmem)⟩

end Sys2Proof.Machine
end

section
/-! PROOFS. Edges matched with records, and edges no record accounts for (R45 to R58). -/

namespace Sys2Proof.Machine

/-! ### No record comes to wait at a blocked entry cell -/

/-- With the entry cell BLOCKED and no record waiting there, so it stays. -/
def StaysIdle (s t : State) : Prop :=
  s.cells.entry.blocked = true → s.cells.entry.waiting = none →
    t.cells.entry.blocked = true ∧ t.cells.entry.waiting = none

theorem StaysIdle.of_cells {s t : State} (h : t.cells = s.cells) : StaysIdle s t := fun hb hw => by
  rw [h]
  exact ⟨hb, hw⟩

theorem StaysIdle.refl (s : State) : StaysIdle s s := fun hb hw => ⟨hb, hw⟩

theorem StaysIdle.trans {s t u : State} (h : StaysIdle s t) (g : StaysIdle t u) : StaysIdle s u := fun hb hw =>
  g (h hb hw).1 (h hb hw).2

theorem StaysIdle.since {s t u : State} (h : StaysIdle u t) (hcells : u.cells = s.cells) : StaysIdle s t :=
  (StaysIdle.of_cells hcells).trans h

theorem staysIdle_of_touches {parts : List Part} {s t : State} (h : Touches parts s t) (hp : .cells ∉ parts) : StaysIdle s t :=
  .of_cells (h.cells.resolve_left hp)

/-- A cell at which none waits has none waiting after a removal. -/
theorem CellState.forget_of_none {c : CellState} (h : c.waiting = none) (key : Nat) : c.forget key = c :=
  if_neg (by rw [h]; exact nofun)

theorem State.removeRec_cells_of_none {s : State} (c : Cell) (h : (s.cells.get c).waiting = none) (key : Nat) :
    (s.removeRec key).cells.get c = s.cells.get c := by
  cases hr : s.rec? key with
  | none => rw [State.removeRec_of_gone hr]
  | some r =>
    rw [(s.removeRec_cells key (by rw [hr]; exact nofun)).1]
    cases c <;> exact CellState.forget_of_none h key

theorem State.removeRec_staysIdle (s : State) (key : Nat) : StaysIdle s (s.removeRec key) := fun hb hw => by
  have hcells : (s.removeRec key).cells.entry = s.cells.entry := State.removeRec_cells_of_none .entry hw key
  rw [hcells]
  exact ⟨hb, hw⟩

theorem State.finish_staysIdle (s : State) (key : Nat) : StaysIdle s (s.finish key) := by
  unfold State.finish
  split
  · exact .refl s
  · exact (staysIdle_of_touches (s.send_touches _ _ _) (by decide)).trans <|
      (staysIdle_of_touches (State.markEvent_touches _ _) (by decide)).trans (State.removeRec_staysIdle _ _)

theorem State.removeMissing_staysIdle (s : State) (key : Nat) : StaysIdle s (s.removeMissing key) :=
  (s.removeRec_staysIdle key).trans (staysIdle_of_touches (State.notice_touches _ _) (by decide))

theorem State.withdraw_staysIdle (s : State) (key : Nat) : StaysIdle s (s.withdraw key) :=
  (s.removeRec_staysIdle key).trans (staysIdle_of_touches (State.notice_touches _ _) (by decide))

theorem State.entryWindowPassed_staysIdle (s : State) (r : Rec) : StaysIdle s (s.entryWindowPassed r) := by
  unfold State.entryWindowPassed
  simp only
  split
  · exact .refl s
  · split
    · exact .of_cells rfl
    · next hb =>
      split
      · exact s.removeMissing_staysIdle _
      · exact fun hblocked => absurd hblocked hb

theorem State.tailWindowPassed_staysIdle (s : State) (r : Rec) : StaysIdle s (s.tailWindowPassed r) := by
  unfold State.tailWindowPassed
  simp only
  split
  · exact .refl s
  · split
    · exact StaysIdle.trans (t := s.onRec r.key (Rec.flag · [.exitInferred])) (.of_cells rfl) (State.finish_staysIdle _ _)
    · split
      · exact .of_cells rfl
      · exact fun hb hw => ⟨hb, hw⟩

theorem State.sampleEvent_staysIdle (s : State) (k : Ring) (key : Nat) : StaysIdle s (s.sampleEvent k key) := by
  unfold State.sampleEvent
  split
  · exact staysIdle_of_touches (s.evalPress_touches k) (by decide)
  · exact .refl s

theorem State.takeCrossing_staysIdle (s : State) (c : Crossing) : StaysIdle s (s.takeCrossing c) := by
  unfold State.takeCrossing
  split
  · exact .refl s
  · split
    · exact s.withdraw_staysIdle _
    · exact s.entryWindowPassed_staysIdle _
    · exact s.tailWindowPassed_staysIdle _
    · exact s.sampleEvent_staysIdle _ _
    · exact staysIdle_of_touches (s.ringEvent_touches _ _) (by decide)

theorem State.bindRec_staysIdle (s : State) (key : Nat) : StaysIdle s (s.bindRec key).1 := by
  unfold State.bindRec
  split
  · exact .refl s
  · split
    · exact .refl s
    · have hbound : StaysIdle s (s.onRec key fun q => q.bind s) := .of_cells rfl
      refine hbound.trans ((staysIdle_of_touches (State.evalPressFor_touches _ key) (by decide)).trans ?_)
      simp only
      split
      · exact staysIdle_of_touches (State.advise_touches _) (by decide)
      · exact (staysIdle_of_touches (State.evalLiftFor_touches _ key) (by decide)).trans
          (staysIdle_of_touches (State.advise_touches _) (by decide))

theorem State.takeEvent_staysIdle (s : State) (c : Crossing) : StaysIdle s (s.takeEvent c).1 := by
  unfold State.takeEvent
  split
  · exact (s.takeCrossing_staysIdle c).trans (State.bindRec_staysIdle _ _)
  · exact s.takeCrossing_staysIdle c

theorem takeCrossings_staysIdle (l : List Crossing) (s : State) : StaysIdle s (l.foldl State.takeCrossing s) := by
  induction l generalizing s with
  | nil => exact .refl s
  | cons c l ih => exact (s.takeCrossing_staysIdle c).trans (ih _)

theorem runEvents_staysIdle (l : List Crossing) (born : List Crossing) (s : State) : StaysIdle s (runEvents l born s) := by
  induction l generalizing born s with
  | nil => exact takeCrossings_staysIdle born s
  | cons e l ih => exact (takeCrossings_staysIdle _ s).trans ((State.takeEvent_staysIdle _ e).trans (ih _ _))

theorem State.afterMove_staysIdle (s before : State) : StaysIdle s (s.afterMove before) := by
  have hadvise : ∀ u : State, StaysIdle u u.advise := fun u => staysIdle_of_touches u.advise_touches (by decide)
  have hmoved : ∀ (u : State) k, StaysIdle u (u.ringMoved k) := fun u k =>
    staysIdle_of_touches (u.ringMoved_touches k) (by decide)
  unfold State.afterMove
  simp only
  refine (runEvents_staysIdle (crossings before s) [] s).trans ?_
  split
  · exact (hmoved _ _).trans ((hmoved _ _).trans (hadvise _))
  · exact hadvise _

theorem State.realignRec_staysIdle (s : State) (key : Nat) (p : Pos) : StaysIdle s (s.realignRec key p) := by
  unfold State.realignRec
  exact (State.afterMove_staysIdle _ s).since rfl

theorem State.raiseCause_cells (s : State) (c : Cause) :
    (s.raiseCause c).cells = s.cells ∧ (s.raiseCause c).openStray = s.openStray := by
  cases h : s.release.causes.has c
  · rw [State.raiseCause_of_absent h, (State.relevel_cells _).1, (State.relevel_cells _).2]
    exact ⟨rfl, rfl⟩
  · rw [State.raiseCause_of_has h]
    exact ⟨rfl, rfl⟩

theorem State.makeStray_staysIdle (s : State) (p : Pos) : StaysIdle s (s.makeStray p) := by
  unfold State.makeStray
  split
  · exact (State.afterMove_staysIdle _ s).since rfl
  · exact (StaysIdle.of_cells (s.raiseCause_cells _).1).trans (staysIdle_of_touches (State.notice_touches _ _) (by decide))

/-! ### The matching test (R47) -/

section Matching

variable {s : State} {p : Pos}

theorem State.matchEntry_of_none (h : s.track.find? (fun r => decide (r.realign = .notChecked)) = none) (n : Nat) :
    s.matchEntry p n = s.makeStray p := by
  cases n with
  | zero => rfl
  | succ n => simp only [State.matchEntry, h]

theorem State.matchEntry_of_within {r : Rec} (h : s.track.find? (fun r => decide (r.realign = .notChecked)) = some r)
    (hw : withinWindow s p (expectedEntry s r) = true) {n : Nat} (hn : n ≠ 0) : s.matchEntry p n = s.realignRec r.key p := by
  obtain ⟨m, rfl⟩ := Nat.exists_eq_succ_of_ne_zero hn
  simp only [State.matchEntry, h, hw, if_true]

theorem State.matchEntry_of_upstream {r : Rec} (h : s.track.find? (fun r => decide (r.realign = .notChecked)) = some r)
    (hw : withinWindow s p (expectedEntry s r) = false) (hd : posDiff p (expectedEntry s r) < 0) (n : Nat) :
    s.matchEntry p n = s.makeStray p := by
  cases n with
  | zero => rfl
  | succ n => simp only [State.matchEntry, h, hw, hd, Bool.false_eq_true, if_true, if_false]

theorem State.matchEntry_of_downstream {r : Rec} (h : s.track.find? (fun r => decide (r.realign = .notChecked)) = some r)
    (hw : withinWindow s p (expectedEntry s r) = false) (hd : ¬ posDiff p (expectedEntry s r) < 0) (n : Nat) :
    s.matchEntry p (n + 1) = (s.removeMissing r.key).matchEntry p n := by
  simp only [State.matchEntry, h, hw, hd, Bool.false_eq_true, if_false]

theorem State.removeMissing_length {r : Rec} (h : r ∈ s.track) : (s.removeMissing r.key).track.length < s.track.length := by
  have hlength := congrArg List.length (s.removeRec_track r.key)
  rw [List.length_map, List.length_map] at hlength
  show (s.removeRec r.key).track.length < _
  rw [hlength]
  refine List.length_filter_lt_length_iff_exists.mpr ⟨r, h, ?_⟩
  simp

theorem State.removeRec_points (s : State) (key : Nat) : (s.removeRec key).points = s.points := by
  cases h : s.rec? key with
  | none => rw [State.removeRec_of_gone h]
  | some r =>
    rw [State.removeRec_of_present (by rw [h]; exact nofun)]
    exact (((State.ringRemoved_ground (s.dropped key) .a key).trans (State.ringRemoved_ground _ .b key)).trans
      (State.advise_ground _)).points

/-- The matching test runs as often as there are records; more fuel makes no difference. -/
theorem State.matchEntry_fuel (p : Pos) (n : Nat) : ∀ {s : State} {m : Nat}, s.track.length ≤ n → s.track.length ≤ m →
    s.matchEntry p n = s.matchEntry p m := by
  induction n with
  | zero =>
    intro s m hn _
    have hnil : s.track = [] := List.length_eq_zero_iff.mp (Nat.le_zero.mp hn)
    have hnone : s.track.find? (fun r => decide (r.realign = .notChecked)) = none := by rw [hnil]; rfl
    rw [State.matchEntry_of_none hnone, State.matchEntry_of_none hnone]
  | succ n ih =>
    intro s m hn hm
    cases hfind : s.track.find? (fun r => decide (r.realign = .notChecked)) with
    | none => rw [State.matchEntry_of_none hfind, State.matchEntry_of_none hfind]
    | some r =>
      have hmem := List.mem_of_find?_eq_some hfind
      have hpos := List.length_pos_of_mem hmem
      have hless := State.removeMissing_length hmem
      obtain ⟨m, rfl⟩ := Nat.exists_eq_succ_of_ne_zero (show m ≠ 0 by omega)
      cases hw : withinWindow s p (expectedEntry s r)
      · by_cases hd : posDiff p (expectedEntry s r) < 0
        · rw [State.matchEntry_of_upstream hfind hw hd, State.matchEntry_of_upstream hfind hw hd]
        · rw [State.matchEntry_of_downstream hfind hw hd, State.matchEntry_of_downstream hfind hw hd]
          exact ih (by omega) (by omega)
      · rw [State.matchEntry_of_within hfind hw (by omega), State.matchEntry_of_within hfind hw (by omega)]

/-- Within W of the first unchecked record the edge realigns it. -/
theorem State.matchEntry_near {r : Rec} (h : s.track.find? (fun r => decide (r.realign = .notChecked)) = some r)
    (hw : (posDiff p (expectedEntry s r)).natAbs ≤ s.points.realignWindow) :
    s.matchEntry p s.track.length = s.realignRec r.key p :=
  State.matchEntry_of_within h (decide_eq_true hw) (List.length_pos_of_mem (List.mem_of_find?_eq_some h)).ne'

/-- With no unchecked record near or due before the edge, a stray is made. -/
theorem State.matchEntry_stray (h : ∀ r, s.track.find? (fun r => decide (r.realign = .notChecked)) = some r →
    posDiff p (expectedEntry s r) < -(s.points.realignWindow : Int)) (n : Nat) : s.matchEntry p n = s.makeStray p := by
  cases hr : s.track.find? (fun r => decide (r.realign = .notChecked)) with
  | none => exact State.matchEntry_of_none hr n
  | some r =>
    have hlt := h r hr
    exact State.matchEntry_of_upstream hr (decide_eq_false (by omega)) (by omega) n

/-- Beyond W downstream of the first unchecked record, it is missing and the test is made again. -/
theorem State.matchEntry_missed {r : Rec} (h : s.track.find? (fun r => decide (r.realign = .notChecked)) = some r)
    (hw : (s.points.realignWindow : Int) < posDiff p (expectedEntry s r)) :
    s.matchEntry p s.track.length = (s.removeMissing r.key).matchEntry p (s.removeMissing r.key).track.length := by
  have hmem := List.mem_of_find?_eq_some h
  have hless := State.removeMissing_length hmem
  obtain ⟨n, hn⟩ := Nat.exists_eq_succ_of_ne_zero (List.length_pos_of_mem hmem).ne'
  rw [hn, Nat.succ_eq_add_one, State.matchEntry_of_downstream h (decide_eq_false (by omega)) (by omega)]
  exact State.matchEntry_fuel p n (by omega) le_rfl

theorem State.matchEntry_staysIdle (p : Pos) (n : Nat) : ∀ s : State, StaysIdle s (s.matchEntry p n) := by
  induction n with
  | zero => exact fun s => s.makeStray_staysIdle p
  | succ n ih =>
    intro s
    unfold State.matchEntry
    split
    · exact s.makeStray_staysIdle p
    · split
      · exact s.realignRec_staysIdle _ p
      · split
        · exact s.makeStray_staysIdle p
        · exact (s.removeMissing_staysIdle _).trans (ih _)

/-- No checked record lies near the edge. -/
def State.Unclaimed (s : State) (p : Pos) : Prop :=
  ∀ r ∈ s.track, r.realign ≠ .notChecked → s.points.realignWindow < (posDiff p (expectedEntry s r)).natAbs

theorem State.entryRise_of_unclaimed (h : s.Unclaimed p) : s.entryRise p = s.matchEntry p s.track.length := by
  refine if_neg fun hany => ?_
  obtain ⟨r, hr, hclaim⟩ := List.any_eq_true.mp hany
  simp only [withinWindow, Bool.and_eq_true, decide_eq_true_eq] at hclaim
  exact absurd hclaim.2 (not_le.mpr (h r hr hclaim.1))

theorem State.removeMissing_unclaimed (h : s.Unclaimed p) (key : Nat) : (s.removeMissing key).Unclaimed p := by
  intro q hq hc
  obtain ⟨r, hr, hbare⟩ := exists_bare_of_mem (s.removeRec_track key) hq
  have hrealign : r.bare.realign = q.bare.realign := by rw [hbare]
  have hpoints : (s.removeMissing key).points = s.points := s.removeRec_points key
  have hrb0 : r.b0 = q.b0 := (Rec.eq_of_bare hbare).2.1
  have hr' := h r (List.mem_filter.mp hr).1 (by rwa [show r.realign = q.realign from hrealign])
  rw [expectedEntry, hrb0] at hr'
  rw [expectedEntry, hpoints]
  exact hr'

end Matching

/-! ### The steps of an edge on the state before it -/

theorem State.edged_entry {s : State} {b : Bool} {c : Option Stamp} {w : Option Nat} (h : s.cells.entry = ⟨b, c, w⟩) :
    s.edged .entry = { s with cells := { s.cells with entry := ⟨!b, none, w⟩ } } := by
  simp only [State.edged, State.onCell, PerCell.modify, h]

theorem State.edged_exit {s : State} {b : Bool} {c : Option Stamp} {w : Option Nat} (h : s.cells.exit = ⟨b, c, w⟩) :
    s.edged .exit = { s with cells := { s.cells with exit := ⟨!b, none, w⟩ } } := by
  simp only [State.edged, State.onCell, PerCell.modify, h]

/-- A rising edge stamped FWD at a cell where none waits is the matching test. -/
theorem exec_entryRise {s u : State} {p : Pos} (h : s.cells.entry = ⟨false, some ⟨p, .fwd⟩, none⟩)
    (hu : u = { s with cells := { s.cells with entry := ⟨true, none, none⟩ } }) (hclaim : u.Unclaimed p) :
    exec (.cellEdge .entry) s = .next (u.matchEntry p u.track.length) := by
  have hedged : s.edged .entry = u := (State.edged_entry h).trans hu.symm
  have hidle : u.cells.entry.blocked = true ∧ u.cells.entry.waiting = none := by
    rw [hu]
    exact ⟨rfl, rfl⟩
  rw [exec_entryEdge (stamp := ⟨p, .fwd⟩) (by rw [h]), hedged, h]
  show Host.Outcome.next ((u.entryRise p).settleEntryRise) = _
  rw [State.entryRise_of_unclaimed hclaim,
    State.settleEntryRise_of_none (State.matchEntry_staysIdle p _ u hidle.1 hidle.2).2]

/-- The same edge taken at a cell that has taken it is the matching test. -/
theorem exec_entryRise_again {v : State} {p : Pos} (h : v.cells.entry = ⟨true, none, none⟩) (hclaim : v.Unclaimed p) :
    exec (.cellEdge .entry) { v with cells := { v.cells with entry := ⟨false, some ⟨p, .fwd⟩, none⟩ } } =
      .next (v.matchEntry p v.track.length) := by
  refine exec_entryRise rfl ?_ hclaim
  rw [← h]

theorem map_onRec (l : List Rec) (key : Nat) (f : Rec → Rec) :
    (l.map fun r => if r.key == key then f r else r) = l.map fun r => if r.key = key then f r else r := by
  simp only [beq_iff_eq]

/-- A falling edge at the entry cell, on the state its level leaves. -/
theorem exec_entryFall {s : State} {p : Pos} {d : Dir} {w : Option Nat} (h : s.cells.entry = ⟨true, some ⟨p, d⟩, w⟩) :
    exec (.cellEdge .entry) s =
      .next (State.entryEdge { s with cells := { s.cells with entry := ⟨false, none, w⟩ } } false ⟨p, d⟩) := by
  rw [exec_entryEdge (stamp := ⟨p, d⟩) (by rw [h]), State.edged_entry h, h]
  rfl

theorem entryEdge_close {s : State} {o : OpenStray} (h : s.openStray = some o) {p : Pos} :
    s.entryEdge false ⟨p, .fwd⟩ = ({ s with
      track := clampSpans s.points s.feed.pos (s.track.map fun x =>
        if x.key == o.key then { x with length := some (heldWithin 1000 12000 (posDiff p o.rise)).toNat } else x)
      openStray := none } : State).afterMove s := by
  show s.strayClose p = _
  simp only [State.strayClose, h]
  rfl

theorem entryEdge_withdraw {s : State} {o : OpenStray} (h : s.openStray = some o) (hw : s.cells.entry.waiting = none)
    {p : Pos} : s.entryEdge false ⟨p, .rev⟩ = s.withdraw o.key := by
  show s.strayWithdraw.settleEntry = _
  have hwithdraw : s.strayWithdraw = s.withdraw o.key := by simp only [State.strayWithdraw, h]
  have hidle : (s.withdraw o.key).cells.entry = s.cells.entry := State.removeRec_cells_of_none .entry hw o.key
  rw [hwithdraw, State.settleEntry_of_none (by rw [hidle]; exact hw)]

theorem insertByB0_split (x : Rec) (l : List Rec) : ∃ a b, l = a ++ b ∧ insertByB0 x l = a ++ x :: b ∧
    (∀ r ∈ a, posDiff r.b0 x.b0 ≤ 0) ∧ ∀ r, b.head? = some r → 0 < posDiff r.b0 x.b0 := by
  induction l with
  | nil => exact ⟨[], [], rfl, rfl, fun _ h => (nomatch h), fun _ h => (nomatch h)⟩
  | cons r l ih =>
    by_cases hle : posDiff r.b0 x.b0 ≤ 0
    · obtain ⟨a, b, rfl, hinsert, ha, hb⟩ := ih
      refine ⟨r :: a, b, rfl, ?_, fun q hq => ?_, hb⟩
      · rw [insertByB0, if_pos hle, hinsert]
        rfl
      · obtain rfl | hq := List.mem_cons.mp hq
        · exact hle
        · exact ha q hq
    · refine ⟨[], r :: l, rfl, if_neg hle, fun _ h => (nomatch h), fun q hq => ?_⟩
      obtain rfl := Option.some.inj hq
      exact not_le.mp hle

/-- A cell at which none waits is as it was after a finish. -/
theorem State.finish_cells_of_none {s : State} (c : Cell) (h : (s.cells.get c).waiting = none) (key : Nat) :
    (s.finish key).cells.get c = s.cells.get c := by
  cases hr : s.rec? key with
  | none => rw [State.finish_of_gone hr]
  | some r =>
    have hcells : ((s.send .line logDoneByte (logDonePayload r)).markEvent .logDone).cells = s.cells := by
      rw [(State.markEvent_touches _ _).cells.resolve_left (by decide),
        (State.send_touches _ _ _ _).cells.resolve_left (by decide)]
    rw [State.finish_of_present hr, State.removeRec_cells_of_none c (by rw [hcells]; exact h), hcells]

theorem finishAll_waiting (l : List Rec) : ∀ {s : State}, s.cells.exit.waiting = none →
    (l.foldl (fun t r => t.finish r.key) s).cells.exit.waiting = none := by
  induction l with
  | nil => exact id
  | cons r l ih => exact fun h => ih ((congrArg CellState.waiting (State.finish_cells_of_none .exit h r.key)).trans h)

/-- A falling edge stamped FWD at an exit cell where none waits is the tail's matching. -/
theorem exec_exitFall {s u : State} {p : Pos} (h : s.cells.exit = ⟨true, some ⟨p, .fwd⟩, none⟩)
    (hu : u = { s with cells := { s.cells with exit := ⟨false, none, none⟩ } })
    (hwait : (u.exitFall p).cells.exit.waiting = none) : exec (.cellEdge .exit) s = .next (u.exitFall p) := by
  have hedged : s.edged .exit = u := (State.edged_exit h).trans hu.symm
  rw [exec_exitEdge (stamp := ⟨p, .fwd⟩) (by rw [h]), hedged, h]
  show Host.Outcome.next ((u.exitFall p).settleExit) = _
  rw [State.settleExit_of_none hwait]

theorem tailWithin_iff (s : State) (p : Pos) (r : Rec) : tailWithin s p r = r.length.any fun len : Nat =>
    decide ((posDiff p (posAdd r.b0 ((s.points.dA : Int) + s.points.dAB + s.points.dX + len))).natAbs ≤
      s.points.realignWindow) := by
  unfold tailWithin expectedTail
  cases r.length <;> rfl

theorem State.finishAll_eq (l : List Rec) (s : State) :
    s.finishAll (l.map Rec.key) = l.foldl (fun t r => t.finish r.key) s := by
  rw [State.finishAll, List.foldl_map]

/-- The long flag as a condition of a search. -/
theorem contains_long (r : Rec) : r.flags.contains .long = decide (Flag.long ∈ r.flags) := by
  rw [← List.elem_eq_contains, List.elem_eq_mem]

section ExitFall

variable {s : State} {p : Pos}

theorem State.exitFall_of_candidate {c : Rec} (h : s.track.find? (tailWithin s p) = some c) :
    s.exitFall p = ((((s.track.takeWhile fun r => decide (r.key ≠ c.key)).filter
      fun r => decide (Flag.long ∈ r.flags)).foldl (fun t r => t.finish r.key) s).finish c.key) := by
  simp only [State.exitFall, h, State.finishAll_eq, contains_long, bne_eq_decide]

theorem State.exitFall_of_long {r : Rec} (hc : s.track.find? (tailWithin s p) = none)
    (h : s.track.find? (fun r => decide (Flag.long ∈ r.flags)) = some r) : s.exitFall p = s.finish r.key := by
  simp only [State.exitFall, hc, contains_long, h]

theorem State.exitFall_of_unmatched (hc : s.track.find? (tailWithin s p) = none)
    (h : s.track.find? (fun r => decide (Flag.long ∈ r.flags)) = none) : s.exitFall p = s.notice .exitUnmatched := by
  simp only [State.exitFall, hc, contains_long, h]

end ExitFall

/-- Settles O24: each edge by the branch of its matching, on the state its level leaves. -/
theorem edgesMoveTheRecordsTheyMatch : Obligations.EdgesMoveTheRecordsTheyMatch := by
  refine ⟨?rise, insertByB0_split, ?fall, ?exit, ?events⟩
  case rise =>
    intro s p h place off w unchecked u stray hclaim
    have hu : u.Unclaimed p := fun x hx hc => by
      have hoff := hclaim x hx hc
      exact Int.ofNat_lt.mp hoff
    have hexec : exec (.cellEdge .entry) s = .next (u.matchEntry p u.track.length) := exec_entryRise h rfl hu
    refine ⟨fun r hr hw => ?_, fun hup hroom => ?_, fun r hr hd => ?_⟩
    · have hmatch : u.matchEntry p u.track.length = u.realignRec r.key p :=
        State.matchEntry_near (s := u) hr (Int.ofNat_le.mp hw)
      refine hexec.trans (congrArg _ (hmatch.trans ?_))
      simp only [State.realignRec, State.onRec, map_onRec]
      rfl
    · have hmatch : u.matchEntry p u.track.length = u.makeStray p := State.matchEntry_stray (s := u) hup _
      exact hexec.trans (congrArg _ (hmatch.trans (if_pos hroom)))
    · intro v
      have hmatch : u.matchEntry p u.track.length = v.matchEntry p v.track.length := State.matchEntry_missed (s := u) hr hd
      have hentry : v.cells.entry = ⟨true, none, none⟩ := State.removeRec_cells_of_none (s := u) .entry rfl r.key
      have hagain := exec_entryRise_again hentry (State.removeMissing_unclaimed hu r.key)
      exact (hexec.trans (congrArg _ hmatch)).trans hagain.symm
  case fall =>
    intro s p d w o h hstray u
    have hexec : exec (.cellEdge .entry) s = .next (u.entryEdge false ⟨p, d⟩) := exec_entryFall h
    refine ⟨fun hd => ?_, fun hd hw => ?_⟩
    · subst hd
      refine hexec.trans (congrArg _ ?_)
      rw [entryEdge_close (show u.openStray = some o from hstray), map_onRec]
    · subst hd hw
      exact hexec.trans (congrArg _ (entryEdge_withdraw (s := u) hstray rfl))
  case exit =>
    intro s p c h hc u ahead
    have hfind : u.track.find? (tailWithin u p) = some c := by
      rw [show tailWithin u p = _ from funext (tailWithin_iff u p)]
      exact hc
    have hfall := State.exitFall_of_candidate hfind
    have hwait := finishAll_waiting ahead (s := u) rfl
    have hdone : (u.exitFall p).cells.exit.waiting = none := by
      rw [hfall]
      exact (congrArg CellState.waiting (State.finish_cells_of_none .exit hwait c.key)).trans hwait
    exact (exec_exitFall h rfl hdone).trans (congrArg _ hfall)
  case events =>
    intro s before hr held
    have hevents := State.afterMove_events hr before
    exact ⟨hevents.works.sameOuter, hevents.placed⟩

end Sys2Proof.Machine
end

section
/-! PROOFS. The edges no record accounts for (R47 to R50, R58). -/

namespace Sys2Proof.Machine

/-! ### A cause raised for the track -/

theorem State.relevel_keys (s : State) : s.relevel.track.map Rec.key = s.track.map Rec.key := by
  by_cases h : s.release.causes.level = s.release.level
  · rw [State.relevel_of_eq h]
  · have hground : SameGround s.leveled s.leveled.ringsLevel :=
      (s.leveled.ringLevel_ground .a).trans (State.ringLevel_ground _ .b)
    have hkeys : ∀ l : List Rec, l.map Rec.key = (l.map Rec.bare).map Rec.key := fun l => by
      rw [List.map_map]
      rfl
    rw [State.relevel_track h, hkeys, hground.track, ← hkeys]
    rfl

theorem State.raiseCause_keys (s : State) (c : Cause) : (s.raiseCause c).track.map Rec.key = s.track.map Rec.key := by
  cases h : s.release.causes.has c
  · rw [State.raiseCause_of_absent h, State.relevel_keys]
    rfl
  · rw [State.raiseCause_of_has h]

theorem Causes.rank_of_trackLost {c : Causes} (h : c.trackLost = true) : 1 ≤ c.level.rank :=
  Causes.rank_of_fixed (l := .atGap) ((c.mem_fixedLevels _).mpr (.inr (.inr ⟨h, rfl⟩)))

/-! ### A stray where the track is empty -/

/-- Records that come in reverse bring no crossing. -/
theorem crossings_of_new_in_reverse {before now : State} (hdir : now.feed.dir = .rev)
    (h : ∀ r ∈ now.track, before.rec? r.key = none) : crossings before now = [] := by
  refine List.eq_nil_iff_forall_not_mem.mpr fun x hx => ?_
  obtain ⟨r, hr, id, -, hcross⟩ := mem_crossings.mp hx
  obtain ⟨-, -, t, -, -, -, hrev⟩ := crossing?_eq_some.mp hcross
  have hbelow := (hrev hdir).2.1
  rw [h r hr] at hbelow
  cases hbelow

theorem State.afterMove_of_new_in_reverse {before s : State} (hdir : s.feed.dir = .rev)
    (h : ∀ r ∈ s.track, before.rec? r.key = none) : s.afterMove before = s.advise := by
  rw [State.afterMove_of_still (moved_eq_false fun r hr q hq => by rw [h r hr] at hq; cases hq),
    crossings_of_new_in_reverse hdir h]
  rfl

theorem State.makeStray_of_full {s : State} (h : s.track.length = 12) (p : Pos) :
    s.makeStray p = (s.raiseCause .trackLost).notice .trackLost := if_neg (by omega)

/-- A stray is alone on an empty track, with the flag at REV. -/
theorem State.makeStray_of_empty {s : State} (h : s.track = []) (hdir : s.feed.dir = .rev) (p : Pos) :
    (s.makeStray p).track = [strayRec s.nextKey (posAdd p (-s.points.entryCell))] ∧
      (s.makeStray p).openStray = some ⟨s.nextKey, p⟩ ∧
      ∀ q, NoticeKind.strayLog ∈ ((s.makeStray p).ports.get q).status := by
  generalize hx : strayRec s.nextKey (posAdd p (-s.points.entryCell)) = x
  have htrack : (insertByB0 x s.track) = [x] := by rw [h]; rfl
  generalize hu : (({ s with
    track := insertByB0 x s.track
    nextKey := s.nextKey + 1
    openStray := some ⟨s.nextKey, p⟩ } : State).clamped.notice .strayLog) = u
  have hutrack : u.track = [x] := by
    rw [← hu]
    show clampSpans s.points s.feed.pos (insertByB0 x s.track) = [x]
    rw [htrack]
    rfl
  have hmake : s.makeStray p = u.advise := by
    have hroom : s.track.length < 12 := by rw [h]; decide
    rw [State.makeStray, if_pos hroom]
    simp only [hx, hu]
    refine State.afterMove_of_new_in_reverse ?_ fun r _ => ?_
    · rw [← hu]
      exact hdir
    · simp [State.rec?, h]
  have hadvise := u.advise_touches
  rw [hmake]
  refine ⟨?_, ?_, fun q => u.advise_works.status q ?_⟩
  · rw [hadvise.track.resolve_left (by decide), hutrack]
  · rw [hadvise.openStray.resolve_left (by decide), ← hu]
    rfl
  · rw [← hu]
    exact State.mem_notice_status _ _ q

/-- Settles O23: the matching tests that end in a stray, in TRACK_LOST, in a LONG record's finish or in EXIT_UNMATCHED. -/
theorem edgesNoRecordAccountsFor : Obligations.EdgesNoRecordAccountsFor := by
  refine ⟨fun s p h hr hlevel => ⟨fun hout hfull => ?lost, fun hempty hdir => ?stray⟩, ?exit⟩
  case lost =>
    generalize hu : ({ s with cells := { s.cells with entry := ⟨true, none, none⟩ } } : State) = u
    have htrack : u.track = s.track := by rw [← hu]
    have hclaim : u.Unclaimed p := fun r hmem _ => by
      rw [← hu] at hmem ⊢
      exact (hout r hmem).2
    have hnone : u.track.find? (fun r => decide (r.realign = .notChecked)) = none := by
      refine List.find?_eq_none.mpr fun r hmem => ?_
      rw [htrack] at hmem
      simpa using (hout r hmem).1
    have hul : u.levelRight := by rw [← hu]; exact hlevel
    have hrelease := State.raiseCause_release hul .trackLost
    refine ⟨(u.raiseCause .trackLost).notice .trackLost, ?_, ?_, ?_, ?_, ?_, fun q => State.mem_notice_status _ _ q⟩
    · rw [exec_entryRise h hu.symm hclaim, State.matchEntry_of_none hnone,
        State.makeStray_of_full (by rw [htrack]; exact hfull)]
    · show (u.raiseCause .trackLost).release.causes = _
      rw [hrelease, ← hu]
      rfl
    · show 1 ≤ (u.raiseCause .trackLost).release.level.rank
      rw [hrelease]
      exact Causes.rank_of_trackLost rfl
    · show (u.raiseCause .trackLost).track.map Rec.key = _
      rw [State.raiseCause_keys, htrack]
    · show (u.raiseCause .trackLost).openStray = _
      rw [(State.raiseCause_cells _ _).2, ← hu]
  case stray =>
    generalize hu : ({ s with cells := { s.cells with entry := ⟨true, none, none⟩ } } : State) = u
    have htrack : u.track = [] := by rw [← hu]; exact hempty
    have hclaim : u.Unclaimed p := fun r hmem _ => by
      rw [htrack] at hmem
      cases hmem
    obtain ⟨hstray, hopen, hnotice⟩ := State.makeStray_of_empty htrack (by rw [← hu]; exact hdir) p
    refine ⟨u.makeStray p, strayRec u.nextKey (posAdd p (-u.points.entryCell)), ?_, hstray, rfl, rfl, rfl, rfl, rfl, rfl, rfl,
      rfl, rfl, ?_, hopen, hnotice⟩
    · rw [exec_entryRise h hu.symm hclaim, State.matchEntry_of_none (by rw [htrack]; rfl)]
    · rw [← hu]
      rfl
  case exit =>
    intro s p h hout u
    have hnone : u.track.find? (tailWithin u p) = none := by
      refine List.find?_eq_none.mpr fun r hmem => ?_
      rw [tailWithin_iff]
      cases hl : r.length with
      | none => simp
      | some len =>
        have hlt := hout r hmem len hl
        simpa using hlt
    refine ⟨fun hlong => ?_, fun r hfind => ?_⟩
    · have hfall : u.exitFall p = u.notice .exitUnmatched :=
        State.exitFall_of_unmatched hnone (List.find?_eq_none.mpr fun r hmem => by simpa using hlong r hmem)
      exact (exec_exitFall h rfl (by rw [hfall]; rfl)).trans (congrArg _ hfall)
    · have hfall : u.exitFall p = u.finish r.key := State.exitFall_of_long hnone hfind
      have hwait : (u.exitFall p).cells.exit.waiting = none := by
        rw [hfall]
        exact congrArg CellState.waiting (State.finish_cells_of_none (s := u) .exit rfl r.key)
      exact (exec_exitFall h rfl hwait).trans (congrArg _ hfall)

end Sys2Proof.Machine
end

section
/-! PROOFS. The binding of a record (R28 to R31). -/

namespace Sys2Proof.Machine

/-! ### What a binding places (R29, R30) -/

section Binding

variable {s : State} {r : Rec}

theorem State.bindingNow_of_known {x : Species} (h : s.recipes.active.lookup r.species = some x) :
    (s.bindingNow r).species = x ∧ (s.bindingNow r).fallback =
      if r.confidence < s.points.confidenceThreshold ∧ r.species ≠ 0 then some s.recipes.active.fallback else none := by
  simp [State.bindingNow, Table.recipeFor, h, and_comm]

theorem State.bindingNow_of_unknown (h : s.recipes.active.lookup r.species = none) :
    (s.bindingNow r).species = s.recipes.active.fallback ∧ (s.bindingNow r).fallback = none := by
  simp [State.bindingNow, Table.recipeFor, h]

theorem State.bindingNow_frozen : (s.bindingNow r).frozen = true ↔
    s.control.season = .winter ∧ ∀ t, r.surfaceTemp = some t → t ≤ s.points.frostThreshold := by
  show s.frozenNow r = true ↔ _
  unfold State.frozenNow
  cases r.surfaceTemp <;> simp

theorem Rec.bind_of_known {x : Species} (h : s.recipes.active.lookup r.species = some x) :
    (r.bind s).species = r.species ∧ (r.bind s).source = r.source := by
  simp [Rec.bind, h]

theorem Rec.bind_of_unknown (h : s.recipes.active.lookup r.species = none) :
    (r.bind s).species = 0 ∧ (r.bind s).source = .fallbackUnknown := by
  simp [Rec.bind, h]

end Binding

/-- What a binding reads is the same in two states. -/
structure SameBinding (s t : State) : Prop where
  ground : SameGround s t
  control : t.control = s.control
  recipes : t.recipes = s.recipes

section Same

variable {s t : State} {q r : Rec}

theorem SameBinding.bindingNow (h : SameBinding s t) (hbare : q.bare = r.bare) : t.bindingNow q = s.bindingNow r := by
  have hsame : s.bindingNow q.bare = s.bindingNow r.bare := by rw [hbare]
  have hsame : s.bindingNow q = s.bindingNow r := hsame
  rw [← hsame]
  simp only [State.bindingNow, State.frozenNow, h.ground.points, h.control, h.recipes]

theorem SameBinding.bind (h : SameBinding s t) (hbare : q.bare = r.bare) :
    (q.bind t).species = (r.bind s).species ∧ (q.bind t).source = (r.bind s).source := by
  have hspecies : q.bare.species = r.bare.species := by rw [hbare]
  have hsource : q.bare.source = r.bare.source := by rw [hbare]
  have hspecies : q.species = r.species := hspecies
  have hsource : q.source = r.source := hsource
  simp only [Rec.bind, h.recipes, hspecies, hsource, and_self]

theorem SameGround.rec?_of (h : SameGround s t) {key : Nat} (hr : s.rec? key = some r) :
    ∃ q, t.rec? key = some q ∧ q.bare = r.bare := by
  have hsame : (t.rec? key).map Rec.bare = (s.rec? key).map Rec.bare := by
    rw [State.rec?, State.rec?, find?_key_bare, find?_key_bare, h.track]
  rw [hr] at hsame
  exact Option.map_eq_some_iff.mp hsame

end Same

/-! ### The leading end at ring A's plane -/

section Plane

variable (s : State) (key : Nat)

theorem State.goPress_binding (k : Ring) (st : RingState) : SameBinding s (s.goPress k st key) := by
  refine ⟨s.goPress_ground k st key, ?_, (s.goPress_touches k st key).recipes.resolve_left (by decide)⟩
  have heval : ((s.pressed k st key).evalPress k).control = s.control := by
    rw [(State.evalPress_works _ k).sameOuter.control]
    rfl
  by_cases hst : st = .entry
  · subst hst
    rw [State.goPress_of_entry, (State.markEvent_works _ _).sameOuter.control, heval]
  · rw [State.goPress_of_ne_entry s k hst, heval]

theorem SameBinding.refl : SameBinding s s := ⟨.refl s, rfl, rfl⟩

/-- A leading end at a plane changes nothing a binding reads. -/
theorem State.ringEvent_plane_binding (k : Ring) : SameBinding s (s.ringEvent key (.plane k)) := by
  by_cases hmode : s.control.mode = .setup
  · rw [State.ringEvent_of_setup hmode]
    exact .refl s
  · rw [State.ringEvent_plane hmode]
    by_cases h : s.ringState k = .idle ∨ s.ringState k = .armed
    · rw [State.ringPlane_of_open h]
      have hgap : SameBinding s (s.gapTested k key) := by
        refine ⟨s.gapTested_ground k key, ?_, ?_⟩
        · unfold State.gapTested
          split <;> rfl
        · unfold State.gapTested
          split <;> rfl
      have hpress := State.goPress_binding (s.gapTested k key) key k .entry
      exact ⟨hgap.ground.trans hpress.ground, hpress.control.trans hgap.control, hpress.recipes.trans hgap.recipes⟩
    · obtain ⟨hi, ha⟩ := not_or.mp h
      obtain hp | hheld := RingState.open_or_held hi ha
      · rw [State.ringPlane_of_pressing hp]
        exact .refl s
      · rw [State.ringPlane_of_held hheld]
        exact ⟨s.onRec_flag_ground key (by decide), rfl, rfl⟩

end Plane

/-! ### Binding on the track (R28, R31) -/

section Bound

variable {s : State} {key : Nat} {r : Rec}

theorem State.rec?_onRec (h : s.rec? key = some r) {f : Rec → Rec} (hf : ∀ q, (f q).key = q.key) :
    (s.onRec key f).rec? key = some (f r) := by
  have hkey : (r.key == key) = true := beq_iff_eq.mpr (State.mem_of_rec? h).2
  have hcomp : ((fun q : Rec => q.key == key) ∘ fun q => if (q.key == key) = true then f q else q) =
      fun q => q.key == key := by
    funext q
    simp only [Function.comp_apply]
    split
    · rw [hf]
    · rfl
  rw [State.rec?, State.onRec_track, List.find?_map, hcomp, ← State.rec?, h, Option.map_some, if_pos hkey]

theorem State.evalPressFor_ground (s : State) (key : Nat) : SameGround s (s.evalPressFor key) := by
  have hone : ∀ (t : State) (k : Ring), SameGround t (t.pressAt key k) := by
    intro t k
    unfold State.pressAt
    split
    · exact (t.evalPress_view k).ground
    · exact .refl t
  exact (hone s .a).trans (hone _ .b)

theorem State.bindRec_of_bound (h : s.rec? key = some r) (hb : r.bound ≠ none) : s.bindRec key = (s, []) := by
  simp [State.bindRec, h, Option.isSome_iff_ne_none.mpr hb]

/-- A binding's state: the record bound, then evaluated where it is served or armed for, and the advisory recomputed. -/
theorem State.bindRec_ground (h : s.rec? key = some r) (hb : r.bound = none) :
    SameGround (s.onRec key fun q => q.bind s) (s.bindRec key).1 ∧
      (s.bindRec key).2 = crossingsOf s (s.onRec key fun q => q.bind s) recipeIds (r.bind s) := by
  have hpress := (s.onRec key fun q => q.bind s).evalPressFor_ground key
  simp only [State.bindRec, h, hb, Option.isSome_none, Bool.false_eq_true, if_false, and_true]
  split
  · exact hpress.trans (State.advise_ground _)
  · have hlift := ground_of_track (State.evalLiftFor_works _ key).sameOuter
      ((State.evalLiftFor_touches ((s.onRec key fun q => q.bind s).evalPressFor key) key).track.resolve_left (by decide))
    exact hpress.trans (hlift.trans (State.advise_ground _))

theorem mem_recipeIds {id : EventId} : id ∈ recipeIds ↔
    id = .entryEnd .a ∨ id = .entryEnd .b ∨ id = .tailAdvance .a ∨ id = .tailAdvance .b := by
  simp [recipeIds]

/-- An unbound record has no threshold of a recipe; forward alone crosses one. -/
theorem recipeIds_facts {id : EventId} (h : id ∈ recipeIds) : id.forward = true ∧ id.reverse = false ∧
    (∀ (pts : Points) (q : Rec), q.bound = none → threshold pts q id = none) ∧
    ∀ (pts : Points) (x y : Rec), x.bound = y.bound → x.length = y.length → threshold pts x id = threshold pts y id := by
  obtain rfl | rfl | rfl | rfl := mem_recipeIds.mp h
  · exact ⟨rfl, rfl, fun _ _ hb => by simp [threshold, hb], fun _ _ _ hb _ => by simp [threshold, hb]⟩
  · exact ⟨rfl, rfl, fun _ _ hb => by simp [threshold, hb], fun _ _ _ hb _ => by simp [threshold, hb]⟩
  · exact ⟨rfl, rfl, fun _ _ hb => by simp [threshold, hb], fun _ _ _ hb hl => by simp [threshold, hb, hl]⟩
  · exact ⟨rfl, rfl, fun _ _ hb => by simp [threshold, hb], fun _ _ _ hb hl => by simp [threshold, hb, hl]⟩

/-- The crossings a binding brings are those of the recipe's thresholds at or below the front distance, going forward. -/
theorem mem_born {t : State} {q : Rec} (h : s.rec? q.key = some r) (hb : r.bound = none) {y : Crossing} :
    y ∈ crossingsOf s t recipeIds q ↔ y.key = q.key ∧ t.feed.dir = .fwd ∧ y.id ∈ recipeIds ∧
      ∃ d, threshold t.points q y.id = some d ∧ y.at_ = d - frontDist t q ∧ d ≤ frontDist t q := by
  rw [crossingsOf, List.mem_filterMap]
  constructor
  · rintro ⟨id, hid, hcross⟩
    obtain ⟨rfl, hkey, d, hd, hat, hfwd, hrev⟩ := crossing?_eq_some.mp hcross
    obtain ⟨-, hreverse, -⟩ := recipeIds_facts hid
    cases hdir : t.feed.dir with
    | fwd => exact ⟨hkey, rfl, hid, d, hd, hat, (hfwd hdir).2.2⟩
    | rev =>
      have := (hrev hdir).1
      rw [hreverse] at this
      cases this
  · rintro ⟨hkey, hdir, hid, d, hd, hat, hle⟩
    obtain ⟨hforward, -, hnone, -⟩ := recipeIds_facts hid
    refine ⟨y.id, hid, crossing?_eq_some.mpr ⟨rfl, hkey, d, hd, hat, fun _ => ⟨hforward, ?_, hle⟩, fun hrev => ?_⟩⟩
    · rw [h]
      simp only [below, hnone s.points r hb]
    · rw [hdir] at hrev
      cases hrev

end Bound

/-- Settles O20: the recipe a binding copies, and the leading end at ring A's plane as the one event that binds. -/
theorem bindingCopiesTheRecipe : Obligations.BindingCopiesTheRecipe := by
  refine ⟨fun s r => ⟨s.bindingNow r, rfl, fun x hx => ?_, fun hx => ?_, State.bindingNow_frozen⟩, ?_, fun s c hc => if_neg hc⟩
  · obtain ⟨hspecies, hfallback⟩ := State.bindingNow_of_known hx
    exact ⟨hspecies, (Rec.bind_of_known hx).1, (Rec.bind_of_known hx).2, hfallback⟩
  · obtain ⟨hspecies, hfallback⟩ := State.bindingNow_of_unknown hx
    exact ⟨hspecies, hfallback, (Rec.bind_of_unknown hx).1, (Rec.bind_of_unknown hx).2⟩
  · intro s key r d h x
    obtain ⟨-, hkey⟩ := State.mem_of_rec? h
    generalize hu : s.ringEvent key (.plane .a) = u
    have hsame : SameBinding s u := by
      rw [← hu]
      exact s.ringEvent_plane_binding key .a
    have hcross : s.takeCrossing ⟨key, .plane .a, d⟩ = u := by
      rw [← hu]
      simp only [State.takeCrossing, h]
    have hx : x = u.bindRec key := by
      show s.takeEvent _ = _
      rw [State.takeEvent, if_pos rfl, hcross]
    obtain ⟨r', hr', hbare⟩ := hsame.ground.rec?_of h
    obtain ⟨hkey', hb0, hbound, hlength⟩ := Rec.eq_of_bare hbare
    refine ⟨fun hb => ?_, fun hb => ?_⟩
    · rw [hx, hcross]
      exact State.bindRec_of_bound hr' (by rw [hbound]; exact hb)
    · have hb' : r'.bound = none := hbound.trans hb
      obtain ⟨hground, hborn⟩ := State.bindRec_ground hr' hb'
      have ht : (u.onRec key fun q => q.bind u).rec? key = some (r'.bind u) := State.rec?_onRec hr' fun _ => rfl
      obtain ⟨q, hq, hqbare⟩ := hground.rec?_of ht
      obtain ⟨-, hqb0, hqbound, hqlength⟩ := Rec.eq_of_bare hqbare
      have hqspecies : q.bare.species = (r'.bind u).bare.species := by rw [hqbare]
      have hqsource : q.bare.source = (r'.bind u).bare.source := by rw [hqbare]
      obtain ⟨hspecies, hsource⟩ := hsame.bind hbare
      rw [hx]
      refine ⟨q, hq, ?_, ?_, ?_, hqb0.trans hb0, hqlength.trans hlength, fun y => ?_⟩
      · exact hqbound.trans (congrArg some (hsame.bindingNow hbare))
      · exact (show q.species = (r'.bind u).species from hqspecies).trans hspecies
      · exact (show q.source = (r'.bind u).source from hqsource).trans hsource
      · have hfront : frontDist (u.onRec key fun q => q.bind u) (r'.bind u) = frontDist s r := by
          show posDiff u.feed.front r'.b0 = posDiff s.feed.front r.b0
          rw [hsame.ground.feed, hb0]
        have hkeys : (r'.bind u).key = key := hkey'.trans hkey
        rw [hborn, mem_born (by rw [hkeys]; exact hr') hb', hfront, hkeys]
        refine and_congr_right fun _ => and_congr ?_ ?_
        · show u.feed.dir = _ ↔ _
          rw [hsame.ground.feed]
        · rw [← mem_recipeIds]
          refine and_congr_right fun hid => ?_
          have hthreshold : threshold (u.onRec key fun q => q.bind u).points (r'.bind u) y.id = threshold s.points q y.id := by
            show threshold u.points _ _ = _
            rw [hsame.ground.points]
            exact (recipeIds_facts hid).2.2.2 _ _ _ hqbound.symm hqlength.symm
          rw [hthreshold]

end Sys2Proof.Machine
end

section
/-! PROOFS. The requests that change the species of a record (R33 to R37). -/

namespace Sys2Proof.Machine

/-! ### SPECIES_SET (R33) -/

section Set

variable {s : State} {r : Req}

theorem speciesSetEffect_of_none
    (h : s.track.find? (fun x => decide (u16 r.payload 0 ≠ 0) && (x.scanId == u16 r.payload 0)) = none) :
    speciesSetEffect r s = ⟨s, .unknownLog, []⟩ := by
  simp only [speciesSetEffect, h]

theorem speciesSetEffect_of_some {x : Rec}
    (h : s.track.find? (fun x => decide (u16 r.payload 0 ≠ 0) && (x.scanId == u16 r.payload 0)) = some x) :
    speciesSetEffect r s = if x.bound.isSome then ⟨s, .tooLate, []⟩
      else if (s.recipes.active.lookup (u8 r.payload 2)).isNone then ⟨s, .noRecord, []⟩
      else ⟨s.setSpecies x.key (u8 r.payload 2) .line, .ok, []⟩ := by
  simp only [speciesSetEffect, h]

theorem named_of_ne_zero {id : Nat} (h : id ≠ 0) :
    (fun x : Rec => decide (id ≠ 0) && (x.scanId == id)) = fun x => decide (x.scanId = id) := by
  funext x
  rw [decide_eq_true h, Bool.true_and, beq_eq_decide]

/-- The species of one record changed by name: its arming lift is worked out anew, and the advisory. -/
theorem State.setSpecies_touches (s : State) (key code : Nat) (source : SpeciesSource) :
    Touches [.setpoint, .valve, .freeCount, .ports, .lastAdvise]
      (s.onRec key fun x => { x with species := code, source := source }) (s.setSpecies key code source) :=
  ((State.evalLiftFor_touches _ key).mono (by decide)).trans ((State.advise_touches _).mono (by decide))

/-- What a change of a record's species leaves as it was. -/
structure SpeciesChanged (s t : State) (key code : Nat) (source : SpeciesSource) : Prop where
  track : t.track = s.track.map fun x => if x.key = key then { x with species := code, source := source } else x
  outer : SameOuter s t
  ring : t.ring = s.ring
  release : t.release = s.release
  recipes : t.recipes = s.recipes
  cells : t.cells = s.cells
  openStray : t.openStray = s.openStray
  marks : t.marks = s.marks
  permit : t.permit = s.permit
  advised : t.lastAdvise = t.advisedLimit

theorem State.setSpecies_changed (s : State) (key code : Nat) (source : SpeciesSource) :
    SpeciesChanged s (s.setSpecies key code source) key code source := by
  have htouches := s.setSpecies_touches key code source
  have hworks := s.setSpecies_works key code source
  refine ⟨?_, hworks.sameOuter, htouches.ring.resolve_left (by decide), hworks.release,
    htouches.recipes.resolve_left (by decide), htouches.cells.resolve_left (by decide),
    htouches.openStray.resolve_left (by decide), htouches.marks.resolve_left (by decide),
    htouches.permit.resolve_left (by decide), State.advise_lastAdvise _⟩
  rw [htouches.track.resolve_left (by decide), State.onRec_track, map_onRec]

end Set

/-! ### SPECIES_FORCE (R35, R36) -/

section Force

variable {s : State} {r : Req}

theorem speciesForceEffect_of_unknown (h : s.recipes.active.lookup (u8 r.payload 0) = none) :
    speciesForceEffect r s = ⟨s, .noRecord, []⟩ := by
  simp [speciesForceEffect, h]

theorem speciesForceEffect_of_bound {x : Rec} (h : s.recipes.active.lookup (u8 r.payload 0) ≠ none)
    (hmode : s.control.mode = .manual) (hx : s.track.find? (covers s .a) = some x) (hb : x.bound ≠ none) :
    speciesForceEffect r s = ⟨s.rebindRec x.key (u8 r.payload 0), .ok, []⟩ := by
  simp [speciesForceEffect, h, hmode, hx, Option.isSome_iff_ne_none.mpr hb]

theorem speciesForceEffect_of_unbound (h : s.recipes.active.lookup (u8 r.payload 0) ≠ none)
    (hfree : s.control.mode = .manual → ∀ x, s.track.find? (covers s .a) = some x → x.bound = none) :
    speciesForceEffect r s = s.forceFirst (u8 r.payload 0) := by
  simp only [speciesForceEffect, Option.isNone_iff_eq_none, h, if_false]
  split
  · next hmode =>
    split
    · next x hx => simp [hfree hmode x hx]
    · rfl
  · rfl

theorem State.forceFirst_of_none (h : ∀ x ∈ s.track, x.bound ≠ none) (code : Nat) :
    s.forceFirst code = ⟨s, .unknownLog, []⟩ := by
  have hnone : s.firstUnbound = none := List.find?_eq_none.mpr fun x hx => by simpa using h x hx
  simp only [State.forceFirst, hnone]

theorem State.forceFirst_of_some {x : Rec} (h : s.firstUnbound = some x) (code : Nat) :
    s.forceFirst code = ⟨s.setSpecies x.key code .panelForce, .ok, []⟩ := by
  simp only [State.forceFirst, h]

theorem State.rebindRec_eq (s : State) (key code : Nat) : s.rebindRec key code =
    ((State.evalPressFor { s with track := s.track.map fun y => if y.key = key then y.rebind s code else y } key).evalLiftFor
      key).afterMove s := by
  simp only [State.rebindRec, State.onRec, map_onRec]

theorem State.afterMove_lastAdvise (s before : State) : (s.afterMove before).lastAdvise = (s.afterMove before).advisedLimit :=
  State.advise_lastAdvise _

end Force

/-- Settles O19: each request by the first check it fails, and else by the record it names. -/
theorem speciesRequestsNameARecord : Obligations.SpeciesRequestsNameARecord := by
  refine ⟨?set, ?force⟩
  case set =>
    intro s p r rest htakes id code
    have hexec := exec_serve_of_takes (i := .speciesSet p) (effect := speciesSetEffect) rfl htakes
    refine ⟨fun h => ?_, fun x hid hx => ?_⟩
    · rw [hexec, speciesSetEffect_of_none]
      refine List.find?_eq_none.mpr fun x hx => ?_
      obtain h | h := h
      · simp [show u16 r.payload 0 = 0 from h]
      · simpa using fun _ => h x hx
    · have heffect := speciesSetEffect_of_some (s := s) (r := r) ((congrArg s.track.find? (named_of_ne_zero hid)).trans hx)
      refine ⟨fun hb => ?_, fun hb hl => ?_, fun hb hl => ?_⟩
      · rw [hexec, heffect, if_pos (Option.isSome_iff_ne_none.mpr hb)]
      · rw [hexec, heffect, if_neg (by rw [hb]; decide), if_pos (Option.isNone_iff_eq_none.mpr hl)]
      · have hchanged := s.setSpecies_changed x.key code .line
        refine ⟨s.setSpecies x.key code .line, ?_, hchanged.track, hchanged.outer, hchanged.ring, hchanged.release,
          hchanged.recipes, hchanged.cells, hchanged.openStray, hchanged.marks, hchanged.permit, hchanged.advised⟩
        rw [hexec, heffect, if_neg (by rw [hb]; decide), if_neg (mt Option.isNone_iff_eq_none.mp hl)]
  case force =>
    intro s p r rest htakes code
    have hexec := exec_serve_of_takes (i := .speciesForce p) (effect := speciesForceEffect) rfl htakes
    refine ⟨fun hl => ?_, fun hl => ⟨fun x hmode hx hb => ?_, fun hfree => ⟨fun hall => ?_, fun x hx => ?_⟩⟩⟩
    · rw [hexec, speciesForceEffect_of_unknown hl]
    · intro rebound t
      have ht : t = s.rebindRec x.key code := (State.rebindRec_eq s x.key code).symm
      refine ⟨?_, State.afterMove_lastAdvise _ s, rfl, rfl, rfl, rfl, rfl⟩
      rw [hexec, speciesForceEffect_of_bound hl hmode hx hb, ht]
    · rw [hexec, speciesForceEffect_of_unbound hl hfree, State.forceFirst_of_none hall]
    · have hchanged := s.setSpecies_changed x.key code .panelForce
      refine ⟨s.setSpecies x.key code .panelForce, ?_, hchanged.track, hchanged.outer, hchanged.ring, hchanged.release,
        hchanged.recipes, hchanged.cells, hchanged.marks, hchanged.permit⟩
      rw [hexec, speciesForceEffect_of_unbound hl hfree, State.forceFirst_of_some hx]

end Sys2Proof.Machine
end

section
/-! PROOFS. PROFILE: its checks, the record it makes, and its adoption by a stray (R20 to R27). -/

namespace Sys2Proof.Machine

/-! ### The values a profile has clamped (R22, R23) -/

theorem map_eq_self_iff {α : Type} {f : α → α} {l : List α} : l.map f = l ↔ ∀ x ∈ l, f x = x := by
  constructor
  · intro h x hx
    have hmap : l.map f = l.map id := by rw [h, List.map_id]
    exact List.map_inj_left.mp hmap x hx
  · exact fun h => (List.map_congr_left h).trans (List.map_id' l)

theorem fitSamples_flags (n : Nat) (l : List Nat) (f : Flag) : f ∈ (fitSamples n l).2 ↔
    (f = .samplesHeld ∧ l.length < n) ∨ (f = .samplesExtra ∧ n < l.length) := by
  unfold fitSamples
  split_ifs with h h'
  · simp [h, not_lt.mpr h.le]
  · simp [h, h']
  · simp [h, h']

theorem clampSamples_flags (l : List Nat) (f : Flag) :
    f ∈ (clampSamples l).2 ↔ f = .diamClamped ∧ ∃ v ∈ l, v < 60 ∨ 900 < v := by
  have hself : l.map (heldNat 60 900) = l ↔ ¬ ∃ v ∈ l, v < 60 ∨ 900 < v := by
    simp only [map_eq_self_iff, heldNat_eq_self, not_exists, not_and, not_or, not_lt]
  simp only [clampSamples]
  split_ifs with h
  · simp [hself.mp h]
  · simp [not_not.mp (mt hself.mpr h)]

theorem profileSamples_flags (length : Nat) (l : List Nat) (f : Flag) : f ∈ (profileSamples length l).2 ↔
    (f = .samplesHeld ∧ l.length < sampleCount length) ∨ (f = .samplesExtra ∧ sampleCount length < l.length) ∨
      (f = .diamClamped ∧ ∃ v ∈ (fitSamples (sampleCount length) l).1, v < 60 ∨ 900 < v) := by
  simp only [profileSamples, List.mem_append, fitSamples_flags, clampSamples_flags, or_assoc]

theorem flareFlags_mem (s : State) (o : Orientation) (species : Nat) (l : List Nat) (f : Flag) :
    f ∈ flareFlags s o species l ↔ f = .buttFlare ∧ o = .buttLeading ∧
      (s.recipes.active.recipeFor species).flareRatio * l.getD 2 0 < l.getD 0 0 * 100 := by
  unfold flareFlags
  split_ifs with h
  · simp only [List.mem_singleton, h, and_self, and_true]
  · simp only [List.not_mem_nil, h, and_false]

theorem clampTemp_ne_iff (t : Option Int) : clampTemp t ≠ t ↔ ∃ x, t = some x ∧ (x < -40 ∨ 40 < x) := by
  cases t with
  | none => simp [clampTemp]
  | some x =>
    simp only [clampTemp, heldWithin, Option.map_some, ne_eq, Option.some.injEq, exists_eq_left']
    split_ifs <;> omega

/-- A profile has a value clamped, samples apart. -/
theorem profileClamped_iff (d : ProfileData) : profileClamped d = true ↔
    100 < d.confidence ∨ ∃ t, d.surfaceTemp = some t ∧ (t < -40 ∨ 40 < t) := by
  rw [profileClamped, Bool.or_eq_true, decide_eq_true_iff, decide_eq_true_iff, clampTemp_ne_iff]

theorem contains_flag (l : List Flag) (f : Flag) : l.contains f = true ↔ f ∈ l := List.contains_iff_mem

theorem profileSamples_held (length : Nat) (l : List Nat) :
    (profileSamples length l).2.contains .samplesHeld = true ↔ l.length < sampleCount length := by
  simp [profileSamples_flags]

theorem profileSamples_clamped (length : Nat) (l : List Nat) :
    (profileSamples length l).2.contains .diamClamped = true ↔
      ∃ v ∈ (fitSamples (sampleCount length) l).1, v < 60 ∨ 900 < v := by
  simp [profileSamples_flags]

theorem clampedResult_of_iff {b : Bool} {p : Prop} [Decidable p] (h : b = true ↔ p) :
    clampedResult b = if p then .clamped else .ok := by
  by_cases hp : p
  · rw [h.mpr hp, if_pos hp]
    rfl
  · rw [Bool.eq_false_iff.mpr (mt h.mp hp), if_neg hp]
    rfl

/-! ### The checks (R20) -/

theorem Orientation.ofCode_eq_none {n : Nat} (h : 1 < n) : Orientation.ofCode n = none := by
  match n, h with
  | n + 2, _ => rfl

theorem Orientation.ofCode_of_le {n : Nat} (h : n ≤ 1) : ∃ o, Orientation.ofCode n = some o := by
  obtain rfl | rfl : n = 0 ∨ n = 1 := by omega
  · exact ⟨_, rfl⟩
  · exact ⟨_, rfl⟩

/-- A profile that passes the checks of its values, of an orientation. -/
structure ProfileData.Passes (d : ProfileData) (o : Orientation) : Prop where
  orientation : Orientation.ofCode d.orientation = some o
  named : ¬ (d.scanId = 0 ∨ 250 < d.species)
  length : ¬ (d.length < 1000 ∨ 12000 < d.length)
  samples : d.samples ≠ []

section Checks

variable {s : State} {r : Req} {o : Orientation}

theorem profileEffect_badValue (h : ∀ o, ¬ (readProfile r.payload).Passes o) : profileEffect r s = ⟨s, .badValue, []⟩ := by
  unfold profileEffect
  simp only
  split
  · rfl
  · next o ho =>
    split
    · rfl
    next hnamed =>
    split
    · rfl
    next hlength =>
    split
    · rfl
    next hsamples => exact absurd ⟨ho, hnamed, hlength, mt List.isEmpty_iff.mpr hsamples⟩ (h o)

theorem profileEffect_passed (h : (readProfile r.payload).Passes o) : profileEffect r s =
    if s.track.any (fun x => x.scanId == (readProfile r.payload).scanId) then ⟨s, .duplicateLog, []⟩
    else match s.adopter (readProfile r.payload) r.arrival with
      | some x => ⟨s.adopt x (readProfile r.payload) o, clampedResult (profileClamped (readProfile r.payload) ||
          (profileSamples (x.length.getD (readProfile r.payload).length) (readProfile r.payload).samples).2.contains
            .samplesHeld ||
          (profileSamples (x.length.getD (readProfile r.payload).length) (readProfile r.payload).samples).2.contains
            .diamClamped), []⟩
      | none => if s.track.length < 12 then
          ⟨s.newRecord (profileRec s (readProfile r.payload) o r.arrival), clampedResult (
            profileClamped (readProfile r.payload) ||
            (profileRec s (readProfile r.payload) o r.arrival).flags.contains .samplesHeld ||
            (profileRec s (readProfile r.payload) o r.arrival).flags.contains .diamClamped ||
            s.raisesNew (profileRec s (readProfile r.payload) o r.arrival)), []⟩
        else ⟨s, .trackFull, []⟩ := by
  have hsamples : (readProfile r.payload).samples.isEmpty = false := by simp [h.samples]
  simp only [profileEffect, h.orientation, if_neg h.named, if_neg h.length, hsamples, Bool.false_eq_true,
    if_false] <;> rfl

theorem profileEffect_duplicate (h : (readProfile r.payload).Passes o)
    (htwin : ∃ x ∈ s.track, x.scanId = (readProfile r.payload).scanId) : profileEffect r s = ⟨s, .duplicateLog, []⟩ := by
  rw [profileEffect_passed h, if_pos]
  simpa using htwin

theorem not_twin (h : ∀ x ∈ s.track, x.scanId ≠ (readProfile r.payload).scanId) :
    ¬ (s.track.any (fun x => x.scanId == (readProfile r.payload).scanId)) = true := by
  simpa using h

theorem profileEffect_full (h : (readProfile r.payload).Passes o)
    (htwin : ∀ x ∈ s.track, x.scanId ≠ (readProfile r.payload).scanId) (hfull : 12 ≤ s.track.length)
    (hadopt : s.adopter (readProfile r.payload) r.arrival = none) : profileEffect r s = ⟨s, .trackFull, []⟩ := by
  rw [profileEffect_passed h, if_neg (not_twin htwin), hadopt]
  exact if_neg (not_lt.mpr hfull)

end Checks

/-! ### The record a profile makes (R21 to R25) -/

section Admitted

variable (s : State) (d : ProfileData) (o : Orientation) (arrival : Pos)

theorem profileRec_flags (f : Flag) : f ∈ (profileRec s d o arrival).flags ↔
    f ∈ (profileSamples d.length d.samples).2 ∨ f ∈ flareFlags s o d.species (profileSamples d.length d.samples).1 := by
  rw [show (profileRec s d o arrival).flags = addFlags ((profileSamples d.length d.samples).2 ++
    flareFlags s o d.species (profileSamples d.length d.samples).1) [] from rfl, mem_addFlags, List.mem_append]
  simp

theorem profileRec_buttFlare : Flag.buttFlare ∈ (profileRec s d o arrival).flags ↔ o = .buttLeading ∧
    (s.recipes.active.recipeFor d.species).flareRatio * (profileRec s d o arrival).samples.getD 2 0 <
      (profileRec s d o arrival).samples.getD 0 0 * 100 := by
  rw [profileRec_flags, profileSamples_flags, flareFlags_mem]
  simp only [reduceCtorEq, false_and, false_or, true_and]
  rfl

theorem State.raisesNew_eq (x : Rec) : s.raisesNew x =
    (s.track.getLast?).any fun y => decide (posDiff x.b0 (spanEnd s.points s.feed.pos y) < 0) := by
  unfold State.raisesNew
  cases s.track.getLast? <;> rfl

theorem profileRec_result : (profileClamped d || (profileRec s d o arrival).flags.contains .samplesHeld ||
      (profileRec s d o arrival).flags.contains .diamClamped || s.raisesNew (profileRec s d o arrival)) = true ↔
    100 < d.confidence ∨ (∃ t, d.surfaceTemp = some t ∧ (t < -40 ∨ 40 < t)) ∨ d.samples.length < sampleCount d.length ∨
      (∃ v ∈ (fitSamples (sampleCount d.length) d.samples).1, v < 60 ∨ 900 < v) ∨
      ((s.track.getLast?).any fun y =>
        decide (posDiff (profileRec s d o arrival).b0 (spanEnd s.points s.feed.pos y) < 0)) = true := by
  have hheld : (profileRec s d o arrival).flags.contains .samplesHeld = true ↔ d.samples.length < sampleCount d.length := by
    rw [contains_flag, profileRec_flags, profileSamples_flags, flareFlags_mem]
    simp
  have hclamped : (profileRec s d o arrival).flags.contains .diamClamped = true ↔
      ∃ v ∈ (fitSamples (sampleCount d.length) d.samples).1, v < 60 ∨ 900 < v := by
    rw [contains_flag, profileRec_flags, profileSamples_flags, flareFlags_mem]
    simp
  rw [Bool.or_eq_true, Bool.or_eq_true, Bool.or_eq_true, profileClamped_iff, hheld, hclamped, State.raisesNew_eq]
  simp only [or_assoc]

end Admitted

/-! ### Adoption (R26, R27) -/

theorem adopt_result (d : ProfileData) (length : Nat) :
    (profileClamped d || (profileSamples length d.samples).2.contains .samplesHeld ||
      (profileSamples length d.samples).2.contains .diamClamped) = true ↔
    100 < d.confidence ∨ (∃ t, d.surfaceTemp = some t ∧ (t < -40 ∨ 40 < t)) ∨ d.samples.length < sampleCount length ∨
      ∃ v ∈ (fitSamples (sampleCount length) d.samples).1, v < 60 ∨ 900 < v := by
  rw [Bool.or_eq_true, Bool.or_eq_true, profileClamped_iff, profileSamples_held, profileSamples_clamped]
  simp only [or_assoc]

theorem State.adopt_eq (s : State) (x : Rec) (d : ProfileData) (o : Orientation) : s.adopt x d o =
    (State.evalLiftFor { s with
      track := if x.length = none
        then clampSpans s.points s.feed.pos (s.track.map fun z => if z.key = x.key then z.adopt s d o else z)
        else s.track.map fun z => if z.key = x.key then z.adopt s d o else z
      openStray := s.openStray.filter fun z => decide (z.key ≠ x.key) } x.key).afterMove s := by
  simp only [State.adopt, State.onRec, map_onRec, bne_eq_decide, Option.isNone_iff_eq_none]
  split <;> rfl

/-- Settles O18: the checks in their order, the record a profile makes, and the stray that adopts it. -/
theorem profileIsRefusedAdmittedOrAdopted : Obligations.ProfileIsRefusedAdmittedOrAdopted := by
  refine ⟨?refused, ?entered, ?adopted⟩
  case refused =>
    intro s p r rest htakes d bad short twin
    have hexec := exec_serve_of_takes (i := .profile p) (effect := profileEffect) rfl htakes
    have hbad : (∀ o, ¬ d.Passes o) → exec (.profile p) s = .next (s.answer p r .badValue []) := fun h => by
      rw [hexec, profileEffect_badValue h]
    have hpasses : ¬ bad → ¬ short → d.samples ≠ [] → ∃ o, d.Passes o := fun hb hs hl => by
      obtain ⟨o, ho⟩ := Orientation.ofCode_of_le (n := d.orientation) (by omega)
      exact ⟨o, ho, fun h => hb (h.elim .inl fun h => .inr (.inl h)), hs, hl⟩
    refine ⟨fun h => hbad fun o ho => ?_, fun h => hbad fun o ho => ho.length h, fun h => hbad fun o ho => ho.samples h,
      fun hb hs hl htwin => ?_, fun hb hs hl htwin hfull hadopt => ?_⟩
    · obtain h | h | h := h
      · exact ho.named (.inl h)
      · exact ho.named (.inr h)
      · have hnone := ho.orientation
        rw [Orientation.ofCode_eq_none h] at hnone
        cases hnone
    · obtain ⟨o, ho⟩ := hpasses hb hs hl
      rw [hexec, profileEffect_duplicate ho htwin]
    · obtain ⟨o, ho⟩ := hpasses hb hs hl
      rw [hexec, profileEffect_full ho (fun x hx he => htwin ⟨x, hx, he⟩) hfull hadopt]
  case entered =>
    intro s p r rest o htakes d x placed raised ho hid hspecies hlen hlen' hsamples htwin hroom hadopt
    have hexec := exec_serve_of_takes (i := .profile p) (effect := profileEffect) rfl htakes
    have hpasses : d.Passes o := ⟨ho, by omega, by omega, hsamples⟩
    refine ⟨?_, rfl, rfl, rfl, rfl, rfl, rfl, rfl, rfl, rfl, rfl, rfl, rfl, rfl, rfl, profileRec_buttFlare s d o r.arrival⟩
    rw [hexec, profileEffect_passed hpasses, if_neg (not_twin htwin), hadopt]
    simp only [if_pos hroom]
    rw [clampedResult_of_iff (profileRec_result s d o r.arrival)]
    rfl
  case adopted =>
    intro s x d o y
    refine ⟨rfl, rfl, rfl, rfl, rfl, rfl, rfl, rfl, rfl, rfl, rfl, rfl, fun hb hs => ?_, fun h => ?_, fun f hf => ?_, ?_⟩
    · simp [y, Rec.adopt, hb, hs]
    · have hnamed : (x.bound.isNone && decide (x.source = .fallbackStray)) = false := by
        obtain h | h := h
        · simp [h]
        · simp [h]
      simp [y, Rec.adopt, hnamed, Rec.flag]
    · exact mem_addFlags.mpr (.inl hf)
    · intro p r rest htakes hd ho hid hspecies hlen hlen' hsamples htwin hfind n adopted placed
      subst hd
      have hexec := exec_serve_of_takes (i := .profile p) (effect := profileEffect) rfl htakes
      have hpasses : (readProfile r.payload).Passes o := ⟨ho, by omega, by omega, hsamples⟩
      have hadopter : s.adopter (readProfile r.payload) r.arrival = some x := hfind
      rw [hexec, profileEffect_passed hpasses, if_neg (not_twin htwin), hadopter]
      simp only
      rw [clampedResult_of_iff (adopt_result _ _), State.adopt_eq]

end Sys2Proof.Machine
end

section
/-! PROOFS. The valve word and its check (R143, R144, R211). -/

namespace Sys2Proof.Machine

/-- The sum of a 16-bit value's four 4-bit digits. -/
def digitSum (n : Nat) : Nat := n / 4096 % 16 + n / 256 % 16 + n / 16 % 16 + n % 16

/-- A word's check is right exactly where its digits sum to 15 modulo 16. -/
theorem echoGood_iff (w : Word16) : echoGood w = true ↔ digitSum w.toNat % 16 = 15 := by
  have hlt := w.isLt
  rw [echoGood, decide_eq_true_iff, valveCheck, digitSum, Nat.div_div_eq_div_mul, Nat.div_div_eq_div_mul]
  norm_num
  omega

theorem valveWord_toNat {code : Nat} (h : code ≤ 2047) (bit : Bool) :
    (valveWord code bit).toNat = (2 * code + bit.toNat) * 16 + valveCheck (2 * code + bit.toNat) := by
  have hbit := bit.toNat_le
  rw [valveWord, BitVec.toNat_ofNat]
  refine Nat.mod_eq_of_lt ?_
  unfold valveCheck
  omega

/-- One more or one less of a power of two changes one digit. -/
theorem digitSum_add_pow {n i : Nat} (hi : i < 16) (hbit : n / 2 ^ i % 2 = 0) (hn : n + 2 ^ i < 65536) :
    digitSum (n + 2 ^ i) = digitSum n + 2 ^ (i % 4) := by
  unfold digitSum
  interval_cases i <;> norm_num at hbit hn ⊢ <;> omega

theorem toNat_xor_of_and_eq_zero {w b : Word16} (h : w &&& b = 0) : (w ^^^ b).toNat = w.toNat + b.toNat := by
  have hor : w ^^^ b = w ||| b := by
    ext j hj
    have hj' : (w &&& b)[j] = false := by rw [h]; simp
    simp only [BitVec.getElem_and, BitVec.getElem_xor, BitVec.getElem_or] at hj' ⊢
    cases hw : w[j] <;> cases hb : b[j] <;> simp [hw, hb] at hj' ⊢
  rw [hor, ← BitVec.add_eq_or_of_and_eq_zero _ _ h, BitVec.toNat_add_of_and_eq_zero h]

/-- A bit set in a word whose check is right makes it wrong, and the other way about. -/
theorem echoGood_set_bit {w b : Word16} {i : Nat} (hi : i < 16) (hb : b.toNat = 2 ^ i) (hbit : w.toNat.testBit i = false) :
    ¬ (echoGood w = true ∧ echoGood (w ^^^ b) = true) := by
  have hand : w &&& b = 0 := by
    apply BitVec.eq_of_toNat_eq
    rw [BitVec.toNat_and, hb, Nat.and_two_pow, hbit]
    exact Nat.zero_mul _
  have hadd := toNat_xor_of_and_eq_zero hand
  have hlt := (w ^^^ b).isLt
  rw [hb] at hadd
  rw [hadd] at hlt
  have hclear : w.toNat / 2 ^ i % 2 = 0 := by
    rw [Nat.testBit_eq_decide_div_mod_eq] at hbit
    have hne := of_decide_eq_false hbit
    omega
  have hsum := digitSum_add_pow hi hclear hlt
  rw [echoGood_iff, echoGood_iff, hadd, hsum]
  rintro ⟨h, h'⟩
  have hdigit : 2 ^ (i % 4) = 1 ∨ 2 ^ (i % 4) = 2 ∨ 2 ^ (i % 4) = 4 ∨ 2 ^ (i % 4) = 8 := by
    have hm : i % 4 < 4 := Nat.mod_lt _ (by decide)
    interval_cases i % 4 <;> simp
  omega

/-- Settles O41: the check as a sum of digits, which one wrong bit changes. -/
theorem valveWordChecksItself : Obligations.ValveWordChecksItself := by
  refine ⟨fun code bit h => ?_, fun w i hi hgood => ?_⟩
  · have hword := valveWord_toNat h bit
    have hbit := bit.toNat_le
    have hcheck : valveCheck (2 * code + bit.toNat) < 16 := by unfold valveCheck; omega
    refine ⟨?_, ?_, ?_⟩
    · rw [echoCode, hword]
      omega
    · rw [echoFault, hword, show ((2 * code + bit.toNat) * 16 + valveCheck (2 * code + bit.toNat)) / 16 % 2 = bit.toNat by omega]
      cases bit <;> rfl
    · rw [echoGood, hword, show ((2 * code + bit.toNat) * 16 + valveCheck (2 * code + bit.toNat)) / 16 =
        2 * code + bit.toNat by omega]
      exact decide_eq_true (by omega)
  · refine Bool.eq_false_iff.mpr fun hgood' => ?_
    have hpow : (((1 <<< i : Nat) : Word16)).toNat = 2 ^ i := by
      have hlt : 2 ^ i < 2 ^ 16 := Nat.pow_lt_pow_right (by decide) hi
      rw [Nat.one_shiftLeft]
      exact Nat.mod_eq_of_lt hlt
    generalize ((1 <<< i : Nat) : Word16) = b at hpow hgood'
    cases hbit : w.toNat.testBit i
    · exact echoGood_set_bit hi hpow hbit ⟨hgood, hgood'⟩
    · have hback : (w ^^^ b) ^^^ b = w := by rw [BitVec.xor_assoc, BitVec.xor_self, BitVec.xor_zero]
      refine echoGood_set_bit (w := w ^^^ b) hi hpow ?_ ⟨hgood', by rw [hback]; exact hgood⟩
      rw [BitVec.toNat_xor, hpow, Nat.testBit_xor, hbit, Nat.testBit_two_pow_self]
      rfl

end Sys2Proof.Machine
end

section
/-! PROOFS. The frames of a period and the interlock of a ring (R136 to R143). -/

namespace Sys2Proof.Machine

/-! ### A channel in a frame -/

/-- A channel after a frame: its command worked out by its ring's interlock, and sent. -/
theorem Valve.frame_chans (v : Valve) (pts : Points) (level : Level) (c : Channel) :
    (v.frame pts level).chans.get c = (v.chans.get c).sendFrame
      (frameCommand pts level (((v.rings.get c.ring).bypass level).advance pts) c.side (v.chans.get c))
      (pts.echoEnable.get c) := by
  cases c <;> rfl

section Command

variable {pts : Points} {level : Level} {il : Interlock} {x : Side} {c : Chan}

theorem frameCommand_of_bypassed (h : bypassed level x = true) : frameCommand pts level il x c = 0 := if_pos h

theorem frameCommand_of_unreleased (h : bypassed level x = false) (hr : il.released ≠ some x) :
    frameCommand pts level il x c = c.command - pts.fallStep := by
  simp [frameCommand, h, hr]

theorem frameCommand_of_released (h : bypassed level x = false) (hr : il.released = some x) (hh : il.hold = false) :
    frameCommand pts level il x c = ramp pts c := by
  simp [frameCommand, h, hr, hh]

end Command

/-! ### A ring's interlock in a frame -/

namespace Interlock

variable {il : Interlock} {pts : Points} {level : Level} {x : Side} {n : Nat}

theorem advance_of_none (h : il.interval = none) : il.advance pts = il := by simp only [advance, h]

theorem advance_of_due (h : il.interval = some ⟨x, some n⟩) (hd : deadInterval pts x ≤ (n + 1) * 10) :
    il.advance pts = il.release x := by
  simp [advance, h, Interval.due, hd]

theorem advance_of_counting (h : il.interval = some ⟨x, some n⟩) (hd : (n + 1) * 10 < deadInterval pts x) :
    il.advance pts = { il with interval := some ⟨x, some (n + 1)⟩ } := by
  simp [advance, h, Interval.due, Interval.tick, not_le.mpr hd]

theorem advance_of_waiting (h : il.interval = some ⟨x, none⟩) : il.advance pts = il := by
  simp only [advance, h, Interval.due, Bool.false_eq_true, if_false, Interval.tick, Option.map_none]
  rw [← h]

/-- What a frame may do to an interlock: nothing, a count, or a release as its interval runs out. -/
theorem advance_cases (il : Interlock) (pts : Points) : il.advance pts = il ∨
    (∃ x n, il.interval = some ⟨x, some n⟩ ∧ (n + 1) * 10 < deadInterval pts x ∧
      il.advance pts = { il with interval := some ⟨x, some (n + 1)⟩ }) ∨
    ∃ x n, il.interval = some ⟨x, some n⟩ ∧ deadInterval pts x ≤ (n + 1) * 10 ∧ il.advance pts = il.release x := by
  cases h : il.interval with
  | none => exact .inl (advance_of_none h)
  | some i =>
    obtain ⟨x, _ | n⟩ := i
    · exact .inl (advance_of_waiting h)
    · by_cases hd : deadInterval pts x ≤ (n + 1) * 10
      · exact .inr (.inr ⟨x, n, rfl, hd, advance_of_due h hd⟩)
      · exact .inr (.inl ⟨x, n, rfl, not_le.mp hd, advance_of_counting h (not_le.mp hd)⟩)

theorem bypass_interval {i : Interval} : (il.bypass level).interval = some i ↔
    il.interval = some i ∧ bypassed level i.side = false := by
  simp [bypass, Option.filter_eq_some_iff]

theorem bypass_released : (il.bypass level).released = some x ↔ il.released = some x ∧ bypassed level x = false := by
  simp [bypass, Option.filter_eq_some_iff]

theorem bypass_none (h : il.interval = none) : (il.bypass level).interval = none := by
  simp [bypass, h]

theorem noteZero_waiting (h : il.interval = some ⟨x, none⟩) (press lift : Nat) : (il.noteZero press lift).interval =
    if (match x with
      | .press => lift
      | .lift => press) = 0 then some ⟨x, some 0⟩ else some ⟨x, none⟩ := by
  cases x with
  | press =>
    simp only [noteZero, h]
    split
    · rfl
    · exact h
  | lift =>
    simp only [noteZero, h]
    split
    · rfl
    · exact h

theorem noteZero_of_counted (h : il.interval = none ∨ ∃ x n, il.interval = some ⟨x, some n⟩) (press lift : Nat) :
    (il.noteZero press lift).interval = il.interval := by
  obtain h | ⟨x, n, h⟩ := h
  · simp only [noteZero, h]
  · cases x <;> simp only [noteZero, h]

theorem noteZero_side (il : Interlock) (press lift : Nat) :
    (il.noteZero press lift).interval.map Interval.side = il.interval.map Interval.side := by
  obtain ⟨-, -, h | ⟨hi, -, h⟩ | ⟨hi, -, h⟩⟩ := il.noteZero_same press lift
  · rw [h]
  · rw [h, hi]
    rfl
  · rw [h, hi]
    rfl

theorem advance_intent (il : Interlock) (pts : Points) : (il.advance pts).intent = il.intent := by
  obtain h | ⟨x, n, -, -, h⟩ | ⟨x, n, -, -, h⟩ := il.advance_cases pts
  · rw [h]
  · rw [h]
  · rw [h]
    rfl

/-- Released after the frame is what was released and not bypassed, or what the frame's end of an interval releases. -/
theorem frame_released (h : ((il.bypass level).advance pts).released = some x) : bypassed level x = false ∧
    (il.released = some x ∨ ∃ n, il.interval = some ⟨x, some n⟩ ∧ deadInterval pts x ≤ (n + 1) * 10) := by
  obtain e | ⟨y, n, -, -, e⟩ | ⟨y, n, hi, hd, e⟩ := (il.bypass level).advance_cases pts
  · rw [e] at h
    obtain ⟨hr, hb⟩ := bypass_released.mp h
    exact ⟨hb, .inl hr⟩
  · rw [e] at h
    obtain ⟨hr, hb⟩ := bypass_released.mp h
    exact ⟨hb, .inl hr⟩
  · rw [e] at h
    obtain rfl : y = x := Option.some.inj h
    obtain ⟨hi, hb⟩ := bypass_interval.mp hi
    exact ⟨hb, .inr ⟨n, hi, hd⟩⟩

/-- An interval the frame leaves is for a channel the bypass does not hold. -/
theorem frame_interval (h : ((il.bypass level).advance pts).interval.map Interval.side = some x) : bypassed level x = false := by
  obtain e | ⟨y, n, hi, -, e⟩ | ⟨y, n, -, -, e⟩ := (il.bypass level).advance_cases pts
  · rw [e] at h
    obtain ⟨i, hi, rfl⟩ := Option.map_eq_some_iff.mp h
    exact (bypass_interval.mp hi).2
  · rw [e] at h
    obtain rfl : y = x := Option.some.inj h
    exact (bypass_interval.mp hi).2
  · rw [e] at h
    cases h

end Interlock

theorem ringFrame_interlock (v : Valve) (pts : Points) (level : Level) (k : Ring) :
    (v.frame pts level).rings.get k = { ((((v.rings.get k).bypass level).advance pts).noteZero
      ((v.frame pts level).chans.get (channelOf k .press)).command
      ((v.frame pts level).chans.get (channelOf k .lift)).command) with hold := false } := by
  cases k <;> rfl

/-! ### VALVE_FRAME -/

/-- With every echo answered the frames go out, and the channels with echo off report. -/
theorem exec_valveFrame_answered {s : State} (hwait : ∀ c, (s.valve.chans.get c).wait = false) :
    exec .valveFrame s = .next (Channel.all.foldl State.reportSilent
      { s with valve := s.valve.frame s.points s.release.level }) := by
  have hmissing : Channel.all.filter (fun d => (s.valve.chans.get d).wait) = [] := by simp [hwait]
  show execValveFrame s = _
  simp only [execValveFrame, hmissing, List.foldl_nil]

theorem reportSilent_all {s : State} (hecho : ∀ c, s.points.echoEnable.get c = true) :
    Channel.all.foldl State.reportSilent s = s := by
  have hsilent : ∀ d, s.reportSilent d = s := fun d => if_pos (hecho d)
  simp only [Channel.all, List.foldl_cons, List.foldl_nil, hsilent]

theorem PerChannel.modify_congr {α : Type} (x : PerChannel α) (c : Channel) {f g : α → α} (h : f (x.get c) = g (x.get c)) :
    x.modify c f = x.modify c g := by
  ext j
  rw [PerChannel.get_modify, PerChannel.get_modify]
  split
  · next hj => rw [hj, h]
  · rfl

theorem State.onChan_congr {s : State} {c : Channel} {f g : Chan → Chan}
    (h : f (s.valve.chans.get c) = g (s.valve.chans.get c)) :
    s.onChan c f = s.onChan c g := by
  rw [State.onChan, State.onChan, PerChannel.modify_congr _ c h]

theorem State.badEcho_of_few {s : State} {c : Channel} (h : (s.valve.chans.get c).badRun < 2) :
    s.badEcho c = s.onChan c fun x => { x with badRun := x.badRun + 1 } := by
  have hmin : min ((s.valve.chans.get c).badRun + 1) 3 = (s.valve.chans.get c).badRun + 1 := by omega
  have hne : (s.valve.chans.get c).badRun + 1 ≠ 3 := by omega
  simp only [State.badEcho, hmin, hne, false_and, if_false]
  exact State.onChan_congr rfl

/-- Settles O40: each channel and each interlock in the frame by its cases, and the frame's command. -/
theorem valveFrameMovesAndSendsCommands : Obligations.ValveFrameMovesAndSendsCommands := by
  refine ⟨?channel, ?command, ?interlock⟩
  case channel =>
    intro s c x y il
    have hy : y = x.sendFrame (frameCommand s.points s.release.level il c.side x) (s.points.echoEnable.get c) :=
      s.valve.frame_chans s.points s.release.level c
    have hcommand : y.command = frameCommand s.points s.release.level il c.side x := by rw [hy]; rfl
    refine ⟨fun hb => ?_, fun hb hr => ?_, fun hb hr hh => ?_, ?_⟩
    · rw [hcommand, frameCommand_of_bypassed hb]
    · rw [hcommand, frameCommand_of_unreleased hb hr]
    · rw [hcommand, frameCommand_of_released hb hr hh]
      exact ⟨fun hlt => if_pos hlt, fun hle => if_neg (not_lt.mpr hle)⟩
    · rw [hy]
      exact ⟨rfl, rfl, rfl, rfl, rfl, rfl, rfl, rfl⟩
  case command =>
    intro s hecho
    refine ⟨fun hwait => (exec_valveFrame_answered hwait).trans (congrArg _ (reportSilent_all hecho)), fun c hwait hrun => ?_⟩
    rw [exec_valveFrame_of_missing hwait hecho]
    refine congrArg _ (State.badEcho_of_few ?_)
    show ((s.valve.frame s.points s.release.level).chans.get c).badRun < 2
    rw [(s.valve.frame_badRun s.points s.release.level c).1]
    exact hrun
  case interlock =>
    intro s k x v il il' dead frame
    have hdead : dead = deadInterval s.points x := by cases x <;> rfl
    generalize hm : (il.bypass s.release.level).advance s.points = m
    have hil : il' = { (m.noteZero (v.chans.get (channelOf k .press)).command (v.chans.get (channelOf k .lift)).command) with
        hold := false } := by
      rw [← hm]
      exact ringFrame_interlock s.valve s.points s.release.level k
    generalize hp : (v.chans.get (channelOf k .press)).command = press at hil
    generalize hl : (v.chans.get (channelOf k .lift)).command = lift at hil
    obtain ⟨hintent, hreleased, -⟩ := m.noteZero_same press lift
    have hil_released : il'.released = m.released := by rw [hil]; exact hreleased
    have hil_interval : il'.interval = (m.noteZero press lift).interval := by rw [hil]
    have hkept : ∀ n, bypassed s.release.level x = false → frame n → (il.bypass s.release.level).interval = some ⟨x, n⟩ :=
      fun n hb hf => Interlock.bypass_interval.mpr ⟨hf, hb⟩
    rw [hdead, hil_released, hil_interval]
    refine ⟨?_, fun h => ?_, fun hb => ⟨fun h => ?_, fun n h => ?_⟩, fun hb => ⟨fun hnone hr => ?_, fun n hf hd => ?_,
      fun n hf hd => ?_, fun hf => ?_⟩⟩
    · rw [hil]
      show (m.noteZero press lift).intent = _
      rw [hintent, ← hm, Interlock.advance_intent]
      rfl
    · rw [← hm] at h
      exact (Interlock.frame_released h).2
    · rw [← hm] at h
      exact absurd hb (by rw [(Interlock.frame_released h).1]; decide)
    · have hside : m.interval.map Interval.side = some x := by rw [← m.noteZero_side press lift, h]; rfl
      rw [← hm] at hside
      exact absurd hb (by rw [Interlock.frame_interval hside]; decide)
    · rw [← hm, Interlock.advance_of_none (Interlock.bypass_none hnone)]
      exact Interlock.bypass_released.mpr ⟨hr, hb⟩
    · rw [Interlock.advance_of_due (hkept _ hb hf) hd] at hm
      rw [← hm]
      exact ⟨rfl, Interlock.noteZero_of_counted (.inl rfl) _ _⟩
    · rw [Interlock.advance_of_counting (hkept _ hb hf) hd] at hm
      rw [← hm]
      exact Interlock.noteZero_of_counted (.inr ⟨_, _, rfl⟩) _ _
    · rw [Interlock.advance_of_waiting (hkept _ hb hf)] at hm
      rw [← hm, Interlock.noteZero_waiting (hkept _ hb hf)]
      cases x with
      | press => rw [← hl]; rfl
      | lift => rw [← hp]; rfl

/-! ### A change of level, for one ring (R141) -/

namespace Interlock

variable {il : Interlock} {before now : Level} {y : Side}

/-- A side that is not the intent, with no interval of its own, is left. -/
theorem relevel_of_ne (h : il.intent ≠ y) (hi : il.interval.map Interval.side ≠ some y) : il.relevel before now y = il := by
  simp [relevel, h, hi]

theorem relevel_running {i : Interval} (h : il.interval = some i) : il.relevel before now i.side =
    if bypassed now i.side then { il with interval := none } else il := by
  simp [relevel, h]

theorem relevel_idle (h : il.interval = none) : il.relevel before now il.intent =
    if bypassed before il.intent = true ∧ bypassed now il.intent = false ∧ il.released ≠ some il.intent
      then { il with interval := some ⟨il.intent, none⟩ } else il := by
  cases hn : bypassed now il.intent <;> simp [relevel, h, hn]

theorem relevel_intent (il : Interlock) : (il.relevel before now y).intent = il.intent ∧
    (il.relevel before now y).released = il.released ∧ (il.relevel before now y).hold = il.hold := by
  unfold relevel
  split_ifs <;> exact ⟨rfl, rfl, rfl⟩

theorem relevel_interval (h : il.interval.map Interval.side ≠ some y) (x : Side) (hx : x ≠ y) :
    (il.relevel before now x).interval.map Interval.side ≠ some y := by
  unfold relevel
  split_ifs
  · exact nofun
  · exact h
  · exact fun he => hx (Option.some.inj he)
  · exact h

/-- Where an interval runs at most for the intent channel, the change acts on that channel alone. -/
theorem relevel_both (h : ∀ i, il.interval = some i → i.side = il.intent) :
    (il.relevel before now .press).relevel before now .lift = il.relevel before now il.intent := by
  have hside : ∀ y, y ≠ il.intent → il.interval.map Interval.side ≠ some y := fun y hy he => by
    obtain ⟨i, hi, rfl⟩ := Option.map_eq_some_iff.mp he
    exact hy (h i hi)
  cases hintent : il.intent with
  | press =>
    have hne : il.intent ≠ .lift := by rw [hintent]; decide
    exact relevel_of_ne (by rw [(relevel_intent il).1]; exact hne) (relevel_interval (hside _ hne.symm) _ (by decide))
  | lift =>
    have hne : il.intent ≠ .press := by rw [hintent]; decide
    rw [relevel_of_ne hne (hside _ hne.symm)]

theorem take_of_same (held : Bool) (command : Nat) : il.take il.intent command held = il := if_pos rfl

theorem take_of_falling {command : Nat} (h : il.intent ≠ y) (hc : 0 < command) (held : Bool) :
    il.take y command held = { intent := y, released := some y, interval := none, hold := false } := by
  simp [take, h.symm, hc]

theorem take_of_zero (h : il.intent ≠ y) : il.take y 0 false =
    { intent := y, released := none, interval := some ⟨y, none⟩, hold := false } := by
  simp [take, h.symm]

end Interlock

/-! ### DEAD_INTERVAL_EXPIRY -/

section Expiry

variable {s : State} {k : Ring} {x : Side}

theorem exec_expiry_of_none (h : (s.valve.rings.get k).interval = none) : exec (.deadIntervalExpiry k) s = .next s := by
  show execDeadIntervalExpiry k s = _
  simp only [execDeadIntervalExpiry, h]

theorem exec_expiry_of_some {i : Interval} (h : (s.valve.rings.get k).interval = some i) : exec (.deadIntervalExpiry k) s =
    if i.due s.points && !bypassed s.release.level i.side then .next (s.onInterlock k (Interlock.release i.side))
    else .next s := by
  show execDeadIntervalExpiry k s = _
  simp only [execDeadIntervalExpiry, h]

end Expiry

/-- Settles O42: the interlock at an intent, at its interval's end and at a change of level, each by its cases. -/
theorem interlockTurnsFromChannelToChannel : Obligations.InterlockTurnsFromChannelToChannel := by
  refine ⟨?intent, ?expiry, ?level⟩
  case intent =>
    intro s k x pressure il t il'
    have hil : il' = il.take x (s.valve.chans.get (channelOf k x)).command (bypassed s.release.level x) := by
      show (s.intent k x pressure).valve.rings.get k = _
      rw [State.intent_rings, PerRing.get_modify_self]
    refine ⟨s.intent_target_self k x pressure, s.intent_target_partner k x pressure, s.intent_command k x pressure,
      s.intent_intent k x pressure, fun j hj => s.intent_rings_other hj x pressure, fun h => ?_, fun h hc => ?_,
      fun h hc hb => ?_⟩
    · rw [hil, ← h, Interlock.take_of_same]
    · rw [hil, Interlock.take_of_falling h hc]
      exact ⟨rfl, rfl⟩
    · rw [hil, hc, hb, Interlock.take_of_zero h]
      exact ⟨rfl, rfl⟩
  case expiry =>
    intro s k
    refine ⟨fun x n h hd hb => ?_, exec_expiry_of_none, fun x h => exec_expiry_of_some h, fun x n h hout => ?_⟩
    · have hd : deadInterval s.points x ≤ (n + 1) * 10 := by cases x <;> exact hd
      rw [exec_expiry_of_some h, if_pos (by simp [Interval.due, hd, hb])]
      rfl
    · have hout : (n + 1) * 10 < deadInterval s.points x ∨ bypassed s.release.level x = true := by cases x <;> exact hout
      rw [exec_expiry_of_some h, if_neg]
      obtain hd | hb := hout
      · simp [Interval.due, not_le.mpr hd]
      · simp [hb]
  case level =>
    intro s k before il t il' now
    have hil : il' = (il.relevel before now .press).relevel before now .lift := s.valveLevel_ring before k
    have hpress := Interlock.relevel_intent (before := before) (now := now) (y := .press) il
    have hlift := Interlock.relevel_intent (before := before) (now := now) (y := .lift) (il.relevel before now .press)
    refine ⟨State.valveLevel_chans s before, ?_, ?_, ?_, fun i hi hside => ?_, fun hnone => ?_⟩
    · rw [hil, hlift.1, hpress.1]
    · rw [hil, hlift.2.1, hpress.2.1]
    · rw [hil, hlift.2.2, hpress.2.2]
    · rw [hil, Interlock.relevel_both (fun j hj => by rw [hi] at hj; rw [← Option.some.inj hj, hside]), ← hside,
        Interlock.relevel_running hi]
      refine ⟨fun hb => ?_, fun hb => ?_⟩
      · rw [if_pos hb]
      · rw [if_neg (by rw [hb]; decide)]
    · rw [hil, Interlock.relevel_both (fun j hj => by rw [hnone] at hj; cases hj), Interlock.relevel_idle hnone]
      refine ⟨fun hb hn hr => ?_, fun h => if_neg fun hall => ?_⟩
      · rw [if_pos ⟨hb, hn, hr⟩]
      · obtain ⟨hb, hn, hr⟩ := hall
        obtain h | h | h := h
        · rw [hb] at h
          cases h
        · rw [hn] at h
          cases h
        · exact hr h

end Sys2Proof.Machine
end

section
/-! PROOFS. Echoes and the reports of channels to the rings (R117, R132, R144 to R152). -/

namespace Sys2Proof.Machine

/-! ### A channel's report (R152) -/

section Report

variable {s : State} {c : Channel}

theorem State.report_of_not (h : (s.valve.chans.get c).state ≠ .ok ∨
    (s.valve.chans.get c).command ≠ (s.valve.chans.get c).target ∨
    (s.valve.rings.get c.ring).intent ≠ c.side) : s.report c = s := by
  refine if_neg fun ⟨hintent, hcommand, hstate⟩ => ?_
  obtain h | h | h := h
  · exact h hstate
  · exact h hcommand
  · exact h hintent

variable (hstate : (s.valve.chans.get c).state = .ok) (hcommand : (s.valve.chans.get c).command = (s.valve.chans.get c).target)
  (hintent : (s.valve.rings.get c.ring).intent = c.side)

include hstate hcommand hintent

/-- What a report reaches: an open ring as lift-reached, a pressing ring not yet settled as its settled event. -/
theorem State.report_cases :
    (c.side = .lift → (s.ringState c.ring).pressing = false →
      s.report c = s.onSeq c.ring fun q => { q with liftReached := true }) ∧
    (c.side = .press → (s.ringState c.ring).pressing = true → (s.ring.get c.ring).settled = false →
      s.report c = (s.onSeq c.ring fun q => { q with settled := true }).markEvent (settledSource c.ring)) ∧
    (c.side = .press → (s.ring.get c.ring).settled = true → s.report c = s) ∧
    ((s.ringState c.ring).pressing = decide (c.side = .lift) → s.report c = s) := by
  have hreport : s.report c = match c.side with
    | .press => s.settledReport c.ring
    | .lift => s.liftReachedReport c.ring := if_pos ⟨hintent, hcommand, hstate⟩
  rw [hreport]
  cases hside : c.side with
  | press => simp +contextual [State.settledReport]
  | lift => simp +contextual [State.liftReachedReport]

end Report

/-! ### An echo's judgement (R144 to R146) -/

theorem State.onChan_onChan (s : State) (c : Channel) (f g : Chan → Chan) :
    (s.onChan c f).onChan c g = s.onChan c fun x => g (f x) := by
  have hmodify : (s.valve.chans.modify c f).modify c g = s.valve.chans.modify c fun x => g (f x) := by
    cases c <;> rfl
  show ({ s with valve := { s.valve with chans := (s.valve.chans.modify c f).modify c g } } : State) = _
  rw [hmodify]
  rfl

/-- An echo's measured code lies within the tolerance of its frame's command. -/
theorem withinTolerance_iff (command measured : Nat) : withinTolerance command measured = true ↔
    ((measured : Int) - 2 * command).natAbs ≤ max 50 (roundDivNat (8 * (2 * command)) 100) := by
  rw [withinTolerance, decide_eq_true_iff]

section Echo

variable {s : State} {c : Channel} {w : Word16}

theorem exec_echo_of_closed (h : (s.valve.chans.get c).wait = false) : exec (.echoReceived c w) s = .next s := by
  show execEchoReceived c w s = _
  simp [execEchoReceived, h]

theorem exec_echo_of_bad (hwait : (s.valve.chans.get c).wait = true) (hbad : echoGood w = false)
    (hrun : (s.valve.chans.get c).badRun < 2) :
    exec (.echoReceived c w) s = .next (s.onChan c fun x => { x with wait := false, badRun := x.badRun + 1 }) := by
  rw [execEchoReceived_of_bad hwait hbad, State.badEcho_of_few (by rw [State.onChan_chan_self]; exact hrun), State.onChan_onChan]

/-- The channel as a good echo leaves it. -/
def Chan.echoed (x : Chan) (w : Word16) : Chan :=
  ({ x with wait := false, measured := echoCode w, badRun := 0 } : Chan).compare (echoCode w)

/-- A good echo with the driver-fault bit clear, or of a channel in FAULT or MUTE: the channel compared, and its report
made where the echo is within tolerance. -/
theorem exec_echo_of_good (hwait : (s.valve.chans.get c).wait = true) (hgood : echoGood w = true)
    (h : (s.valve.chans.get c).state.judged = false ∨ echoFault w = false) : exec (.echoReceived c w) s =
      .next (if withinTolerance (s.valve.chans.get c).sent (echoCode w)
        then (s.onChan c fun x => x.echoed w).report c else s.onChan c fun x => x.echoed w) := by
  have hfault : ((s.valve.chans.get c).state.judged && echoFault w) = false := by
    obtain h | h := h
    · rw [h, Bool.false_and]
    · rw [h, Bool.and_false]
  rw [execEchoReceived_of_good hwait hgood]
  simp only [State.goodEcho, State.onChan_chan_self, hfault, Bool.false_eq_true, if_false, State.onChan_onChan]
  rfl

theorem Chan.echoed_of_within {x : Chan} (hx : x.state.judged = true) (h : withinTolerance x.sent (echoCode w) = true) :
    x.echoed w = { x with wait := false, measured := echoCode w, badRun := 0, state := .ok, timer := false } := by
  simp [Chan.echoed, Chan.compare, hx, h]

theorem Chan.echoed_of_beyond {x : Chan} (hx : x.state.judged = true) (h : withinTolerance x.sent (echoCode w) = false) :
    x.echoed w = { x with wait := false, measured := echoCode w, badRun := 0, state := .deviating, timer := true } := by
  simp [Chan.echoed, Chan.compare, hx, h]

theorem Chan.echoed_of_unjudged {x : Chan} (hx : x.state.judged = false) :
    x.echoed w = { x with wait := false, measured := echoCode w, badRun := 0 } := by
  simp [Chan.echoed, Chan.compare, hx]

theorem unjudged_of (h : (s.valve.chans.get c).state = .fault ∨ (s.valve.chans.get c).state = .mute) :
    (s.valve.chans.get c).state.judged = false := by
  obtain h | h := h <;> rw [h] <;> rfl

theorem exec_echo_of_unjudged (hwait : (s.valve.chans.get c).wait = true) (hgood : echoGood w = true)
    (h : (s.valve.chans.get c).state = .fault ∨ (s.valve.chans.get c).state = .mute) : exec (.echoReceived c w) s =
      .next (s.onChan c fun x => { x with wait := false, measured := echoCode w, badRun := 0 }) := by
  have hj := unjudged_of h
  have hsame : s.onChan c (fun x => x.echoed w) =
      s.onChan c fun x => { x with wait := false, measured := echoCode w, badRun := 0 } :=
    State.onChan_congr (Chan.echoed_of_unjudged hj)
  rw [exec_echo_of_good hwait hgood (.inl hj), hsame]
  refine congrArg _ ?_
  split
  · refine State.report_of_not (.inl ?_)
    rw [State.onChan_chan_self]
    obtain h | h := h
    · exact fun he => nomatch h.symm.trans he
    · exact fun he => nomatch h.symm.trans he
  · rfl

theorem exec_echo_of_beyond (hwait : (s.valve.chans.get c).wait = true) (hgood : echoGood w = true)
    (hfault : echoFault w = false) (hj : (s.valve.chans.get c).state.judged = true)
    (h : withinTolerance (s.valve.chans.get c).sent (echoCode w) = false) : exec (.echoReceived c w) s =
      .next (s.onChan c fun x =>
        { x with wait := false, measured := echoCode w, badRun := 0, state := .deviating, timer := true }) := by
  have hsame : s.onChan c (fun x => x.echoed w) = s.onChan c fun x =>
      { x with wait := false, measured := echoCode w, badRun := 0, state := .deviating, timer := true } :=
    State.onChan_congr (Chan.echoed_of_beyond hj h)
  rw [exec_echo_of_good hwait hgood (.inr hfault), if_neg (by rw [h]; decide), hsame]

theorem exec_echo_of_within (hwait : (s.valve.chans.get c).wait = true) (hgood : echoGood w = true)
    (hfault : echoFault w = false) (hj : (s.valve.chans.get c).state.judged = true)
    (h : withinTolerance (s.valve.chans.get c).sent (echoCode w) = true) : exec (.echoReceived c w) s =
      .next ((s.onChan c fun x =>
        { x with wait := false, measured := echoCode w, badRun := 0, state := .ok, timer := false }).report c) := by
  have hsame : s.onChan c (fun x => x.echoed w) = s.onChan c fun x =>
      { x with wait := false, measured := echoCode w, badRun := 0, state := .ok, timer := false } :=
    State.onChan_congr (Chan.echoed_of_within hj h)
  rw [exec_echo_of_good hwait hgood (.inr hfault), if_pos h, hsame]

end Echo

/-! ### The report of a frame with echo off (R152) -/

theorem State.report_points (s : State) (c : Channel) : (s.report c).points = s.points := by
  unfold State.report
  simp only
  split
  · split
    · unfold State.settledReport
      split
      · rw [(State.markEvent_works _ _).sameOuter.points]
        rfl
      · rfl
    · unfold State.liftReachedReport
      split <;> rfl
  · rfl

theorem reportSilent_one {s : State} {c : Channel} (hecho : ∀ d, s.points.echoEnable.get d = decide (d ≠ c)) :
    Channel.all.foldl State.reportSilent s = s.report c := by
  have hother : ∀ u : State, u.points = s.points → ∀ d, d ≠ c → u.reportSilent d = u := fun u hu d hd =>
    if_pos (by rw [hu, hecho d]; exact decide_eq_true hd)
  have hself : s.reportSilent c = s.report c := if_neg (by rw [hecho c]; simp)
  have hpoints := s.report_points c
  cases c <;> simp [Channel.all, hself, hother s rfl, hother _ hpoints]

/-- Settles O43: an echo by its judgement, and the report it or its silent frame makes. -/
theorem echoIsJudgedAndReported : Obligations.EchoIsJudgedAndReported := by
  refine ⟨?echo, ?silent⟩
  case echo =>
    intro s c w x tolerance off
    refine ⟨exec_echo_of_closed, exec_echo_of_bad, fun hwait hgood hfault hout hst => ?_, exec_echo_of_unjudged,
      fun hwait hgood hfault hin hst => ?_⟩
    · have hbeyond : withinTolerance x.sent (echoCode w) = false :=
        Bool.eq_false_iff.mpr fun h => absurd ((withinTolerance_iff _ _).mp h) (not_le.mpr hout)
      exact exec_echo_of_beyond hwait hgood hfault (ChannelState.judged_iff.mpr hst) hbeyond
    · intro u
      have hexec : exec (.echoReceived c w) s = .next (u.report c) := exec_echo_of_within hwait hgood hfault
        (ChannelState.judged_iff.mpr hst) ((withinTolerance_iff _ _).mpr hin)
      have hchan : u.valve.chans.get c =
          { x with wait := false, measured := echoCode w, badRun := 0, state := .ok, timer := false } := s.onChan_chan_self c _
      refine ⟨fun h => ?_, fun hcommand hintent => ?_⟩
      · refine hexec.trans (congrArg _ (State.report_of_not (.inr ?_)))
        rw [hchan]
        exact h
      · obtain ⟨hlift, hpress, hsettled, hwrong⟩ := State.report_cases (s := u) (c := c) (by rw [hchan])
          (by rw [hchan]; exact hcommand)
          hintent
        exact ⟨fun h h' => hexec.trans (congrArg _ (hlift h h')), fun h h' h'' => hexec.trans (congrArg _ (hpress h h' h'')),
          fun h h' => hexec.trans (congrArg _ (hsettled h h')), fun h => hexec.trans (congrArg _ (hwrong h))⟩
  case silent =>
    intro s c hwait hecho u y
    have hexec : exec .valveFrame s = .next (u.report c) :=
      (exec_valveFrame_answered hwait).trans (congrArg _ (reportSilent_one hecho))
    have hintent : (u.valve.rings.get c.ring).intent = (s.valve.rings.get c.ring).intent :=
      (valveFrameMovesAndSendsCommands.2.2 s c.ring .press).1
    refine ⟨fun h => hexec.trans (congrArg _ (State.report_of_not ?_)), fun hst hcommand hin => ?_⟩
    · rw [hintent]
      exact h
    · obtain ⟨hlift, hpress, hsettled, hwrong⟩ := State.report_cases (s := u) (c := c) hst hcommand (hintent.trans hin)
      exact ⟨fun h h' => hexec.trans (congrArg _ (hlift h h')), fun h h' h'' => hexec.trans (congrArg _ (hpress h h' h'')),
        fun h h' => hexec.trans (congrArg _ (hsettled h h')), fun h => hexec.trans (congrArg _ (hwrong h))⟩

end Sys2Proof.Machine
end

section
/-! PROOFS. What a start leaves of every block (R11, R14, R107, R133, R153, R172, R173, R207 to R209), with an emergency
stop found ACTIVE and without, and the Settings Store between a SAVE and the next power-on (R205 to R207). -/

namespace Sys2Proof.Machine

/-! ### What a change of level leaves of a ring that intends LIFT -/

/-- Between two states ring k keeps its press target and its flags, and its interlock the intent and the released channel
where the intent is LIFT. -/
structure SameLift (k : Ring) (s t : State) : Prop where
  pressTarget : (t.setpoint.get k).pressTarget = (s.setpoint.get k).pressTarget
  intent : (s.valve.rings.get k).intent = .lift → (t.valve.rings.get k).intent = .lift
  released : (s.valve.rings.get k).intent = .lift → (t.valve.rings.get k).released = (s.valve.rings.get k).released
  liftReached : (t.ring.get k).liftReached = (s.ring.get k).liftReached
  settled : (t.ring.get k).settled = (s.ring.get k).settled

section SameLift

variable {s t u : State} {k : Ring} {parts : List Part}

theorem SameLift.trans (h : SameLift k s t) (g : SameLift k t u) : SameLift k s u :=
  ⟨g.pressTarget.trans h.pressTarget, fun hi => g.intent (h.intent hi),
    fun hi => (g.released (h.intent hi)).trans (h.released hi), g.liftReached.trans h.liftReached,
    g.settled.trans h.settled⟩

theorem SameHand.lift (h : SameHand k s t) (hring : t.ring = s.ring) : SameLift k s t :=
  ⟨by rw [h.setpoint], fun hi => by rw [h.interlock, hi], fun _ => by rw [h.interlock], by rw [hring], by rw [hring]⟩

theorem Touches.lift (h : Touches parts s t) (hs : .setpoint ∉ parts) (hv : .valve ∉ parts) (hr : .ring ∉ parts) :
    SameLift k s t :=
  (h.hand hs hv).lift (h.ring.resolve_left hr)

/-- An intent for the channel intended already leaves the interlock. -/
theorem Interlock.take_same (il : Interlock) (command : Nat) (held : Bool) : il.take il.intent command held = il := if_pos rfl

theorem State.evalLift_rings_of_lift (h : (s.valve.rings.get k).intent = .lift) :
    (s.evalLift k).valve.rings.get k = s.valve.rings.get k := by
  cases hp : (s.ringState k).pressing
  · rw [State.evalLift_of_open hp, State.intent_rings, PerRing.get_modify_self]
    exact (congrArg (Interlock.take _ · _ _) h.symm).trans (Interlock.take_same _ _ _)
  · rw [State.evalLift_valve_of_pressing hp]

theorem State.evalLift_lift (s : State) (j k : Ring) : SameLift k s (s.evalLift j) := by
  by_cases hk : k = j
  · subst hk
    exact ⟨s.evalLift_pressTarget _ _, fun h => by rw [State.evalLift_rings_of_lift h, h],
      fun h => by rw [State.evalLift_rings_of_lift h], by rw [State.evalLift_ring], by rw [State.evalLift_ring]⟩
  · exact (s.evalLift_hand hk).lift (s.evalLift_ring j)

theorem State.opened_lift (s : State) (j k : Ring) (st : RingState) (armed : Option Nat) :
    SameLift k s (s.opened j st armed) := by
  have hring : (s.opened j st armed).ring = s.ring.modify j fun q => { q with state := st, served := none, armedFor := armed } :=
    rfl
  refine ⟨rfl, id, fun _ => rfl, ?_, ?_⟩ <;> rw [hring, PerRing.get_modify] <;> split <;> rfl

theorem State.valveLevel_lift (s : State) (before : Level) (k : Ring) : SameLift k s (s.valveLevel before) := by
  have hkept : ((s.valveLevel before).valve.rings.get k).intent = (s.valve.rings.get k).intent ∧
      ((s.valveLevel before).valve.rings.get k).released = (s.valve.rings.get k).released := by
    rw [State.valveLevel_ring]
    obtain ⟨hintent, hreleased, -⟩ := Interlock.relevel_intent (before := before) (now := s.release.level) (y := .press)
      (s.valve.rings.get k)
    obtain ⟨hintent', hreleased', -⟩ := Interlock.relevel_intent (before := before) (now := s.release.level) (y := .lift)
      ((s.valve.rings.get k).relevel before s.release.level .press)
    exact ⟨hintent'.trans hintent, hreleased'.trans hreleased⟩
  exact ⟨rfl, fun h => hkept.1.trans h, fun _ => hkept.2, rfl, rfl⟩

/-! ### The rings of a start go HELD -/

/-- What a change of level to ESTOP touches where no ring presses. -/
theorem State.ringLevel_of_open (hopen : (s.ringState k).pressing = false)
    (h : s.release.level = .immediate ∨ s.release.level = .estop) (hheld : s.ringState k ≠ .held) :
    s.ringLevel k = (s.opened k .held none).evalLift k := by
  rw [State.ringLevel_of_high h hheld, State.goOpen_of_open hopen]

theorem State.ringLevel_open_touches (hopen : (s.ringState k).pressing = false)
    (h : s.release.level = .immediate ∨ s.release.level = .estop) (hheld : s.ringState k ≠ .held) :
    Touches [.ring, .setpoint, .valve, .freeCount] s (s.ringLevel k) := by
  rw [State.ringLevel_of_open hopen h hheld]
  exact ((s.opened_touches k _ _).mono (by decide)).trans ((State.evalLift_touches _ k).mono (by decide))

theorem State.ringLevel_open_lift (hopen : (s.ringState k).pressing = false)
    (h : s.release.level = .immediate ∨ s.release.level = .estop) (hheld : s.ringState k ≠ .held) (j : Ring) :
    SameLift j s (s.ringLevel k) := by
  rw [State.ringLevel_of_open hopen h hheld]
  exact (s.opened_lift k j _ _).trans (State.evalLift_lift _ k j)

/-- At ESTOP two IDLE rings go HELD, and no owner but the Setpoint Unit and the Valve Line hears of it. -/
theorem State.ringsLevel_of_idle (hidle : ∀ j, s.ringState j = .idle) (h : s.release.level = .estop) :
    Touches [.ring, .setpoint, .valve, .freeCount] s s.ringsLevel ∧ ∀ j, SameLift j s s.ringsLevel := by
  have hb : (s.ringLevel .a).ringState .b = .idle := by
    rw [State.ringState, State.ringLevel_other _ (by decide)]
    exact hidle .b
  have hlevel : (s.ringLevel .a).release.level = .estop := by rw [(s.ringLevel_works .a).release, h]
  have hopenA : (s.ringState .a).pressing = false := by rw [hidle]; rfl
  have hopenB : ((s.ringLevel .a).ringState .b).pressing = false := by rw [hb]; rfl
  have hneA : s.ringState .a ≠ .held := by rw [hidle]; decide
  have hneB : (s.ringLevel .a).ringState .b ≠ .held := by rw [hb]; decide
  exact ⟨(State.ringLevel_open_touches hopenA (.inr h) hneA).trans (State.ringLevel_open_touches hopenB (.inr hlevel) hneB),
    fun j => (State.ringLevel_open_lift hopenA (.inr h) hneA j).trans
      (State.ringLevel_open_lift hopenB (.inr hlevel) hneB j)⟩

theorem State.relit_lift (s : State) (before : Level) (j : Ring) : SameLift j s (s.relit before) := by
  have hin : ∀ (u : State) (i : Ring), SameLift j u (u.evalLiftIn .held i) := fun u i => by
    unfold State.evalLiftIn
    split
    · exact u.evalLift_lift i j
    · exact (SameHand.refl j u).lift rfl
  unfold State.relit
  split
  · exact (hin _ _).trans (hin _ _)
  · exact (SameHand.refl j s).lift rfl

end SameLift

/-! ### Marks that are CLEAR take a source event in silence -/

theorem markSources_of_clear {src : MarkSource} : ∀ (l : List Mark) (s : State), l.Nodup →
    (∀ m ∈ l, s.marks.get m = false) → Touches [.marks, .permit] s (l.foldl (fun t m => t.markSourceAt src m) s) := by
  intro l
  induction l with
  | nil => exact fun s _ _ => .refl _ s
  | cons m l ih =>
    intro s hl hclear
    obtain ⟨hm, hl⟩ := List.nodup_cons.mp hl
    have hfirst : Touches [.marks, .permit] s (s.markSourceAt src m) := by
      by_cases hsrc : s.points.markSource.get m = src
      · rw [State.markSourceAt_of_clear hsrc (hclear m List.mem_cons_self)]
        exact s.setMark_touches true m
      · rw [State.markSourceAt_of_ne hsrc]
        exact .refl _ s
    refine hfirst.trans (ih _ hl fun j hj => ?_)
    have hne : j ≠ m := fun h => hm (h ▸ hj)
    rw [State.markSourceAt_marks_get, hclear j (List.mem_cons_of_mem m hj)]
    simp [hne]

theorem State.markEvent_of_clear {s : State} (h : ∀ m, s.marks.get m = false) (src : MarkSource) :
    Touches [.marks, .permit] s (s.markEvent src) :=
  markSources_of_clear Mark.all s (by decide) fun m _ => h m

/-! ### A start's causes (R172, R173) -/

/-- A level that rises to ESTOP over two IDLE rings and CLEAR marks. -/
theorem State.relevel_of_idle {s : State} (hidle : ∀ k, s.ringState k = .idle) (hnone : s.release.level = .none)
    (hestop : s.release.causes.level = .estop) (hclear : ∀ m, s.marks.get m = false) :
    Touches [.ring, .setpoint, .valve, .freeCount, .permit, .marks, .ports] s s.relevel ∧ (∀ k, SameLift k s s.relevel) ∧
      (∀ m, s.relevel.marks.get m = decide (s.points.markSource.get m = .release)) ∧
      ∀ p, s.relevel.ports.get p = (s.ports.get p).raise .releaseChanged := by
  have hne : s.release.causes.level ≠ s.release.level := by rw [hestop, hnone]; decide
  obtain ⟨hrings, hlift⟩ := State.ringsLevel_of_idle (s := s.leveled) hidle hestop
  generalize hv : (s.leveled.ringsLevel.valveLevel s.release.level).relit s.release.level = v
  have htov : Touches [.ring, .setpoint, .valve, .freeCount] s.leveled v := by
    rw [← hv]
    exact hrings.trans (((State.valveLevel_touches _ _).mono (by decide)).trans ((State.relit_touches _ _).mono (by decide)))
  have hafter : Touches [.permit, .marks, .ports] v s.relevel := hv ▸ State.relevel_touches hne
  have hrelevel : s.relevel = (v.recomputePermit.markEvent .release).notice .releaseChanged := by
    rw [State.relevel_of_ne hne, hv, State.markRise, if_pos hnone]
  have hmarks : ∀ m, v.recomputePermit.marks.get m = false := fun m => by
    show v.marks.get m = false
    rw [htov.marks.resolve_left (by decide)]
    exact hclear m
  have hpoints : v.recomputePermit.points = s.points := by
    have hworks : SameOuter v s.relevel := by
      rw [hrelevel]
      exact v.recomputePermit_sameOuter.trans ((State.markEvent_works _ _).trans (State.notice_works _ _)).sameOuter
    exact hworks.points.symm.trans s.relevel_sameOuter.points
  refine ⟨?_, fun k => ?_, fun m => ?_, fun p => ?_⟩
  · have hleveled : Touches [.ring, .setpoint, .valve, .freeCount, .permit, .marks, .ports] s s.leveled := by
      constructor <;> exact .inr rfl
    exact hleveled.trans ((htov.mono (by decide)).trans (hafter.mono (by decide)))
  · have hleveled : SameLift k s s.leveled := ⟨rfl, id, fun _ => rfl, rfl, rfl⟩
    have hrest : SameLift k s.leveled.ringsLevel v := hv ▸ (State.valveLevel_lift _ _ k).trans (State.relit_lift _ _ k)
    exact hleveled.trans ((hlift k).trans (hrest.trans (hafter.lift (by decide) (by decide) (by decide))))
  · rw [hrelevel]
    rw [(State.notice_touches _ _).marks.resolve_left (by decide), State.markEvent_marks_get, hmarks, hpoints, Bool.false_or]
  · have hports : (v.recomputePermit.markEvent .release).ports = s.ports := by
      rw [(State.markEvent_of_clear hmarks .release).ports.resolve_left (by decide)]
      exact htov.ports.resolve_left (by decide)
    rw [hrelevel, State.notice_port, hports]

/-- The state a start comes to before the causes it finds: the blocks at their start values, with a last value sent and the
ports. -/
def State.startWith (s : State) (il : Interlock) (advised : Nat) (ports : PerPort PortState) : State :=
  { s.startBlocks il with lastAdvise := advised, ports := ports }

/-- The Release Unit as a start leaves it: an emergency stop found ACTIVE is its one cause. -/
def foundRelease (l : Lines) : Release where
  causes := { Causes.empty with estop := l.estopActive }
  level := if l.estopActive then .estop else .none
  estopActive := l.estopActive
  rotorRunning := ⟨l.rotorA, l.rotorB⟩

/-- What a start leaves. -/
structure Started (s : State) (il : Interlock) (advised : Nat) (ports : PerPort PortState) (t : State) : Prop where
  outer : SameOuter (s.startWith il advised ports) t
  track : t.track = []
  lastAdvise : t.lastAdvise = advised
  cells : t.cells = ⟨startCell s.lines.entryBlocked, startCell s.lines.exitBlocked⟩
  openStray : t.openStray = none
  recipes : t.recipes = s.recipes.discard
  release : t.release = foundRelease s.lines
  ringsAt : t.ringsAt (if s.lines.estopActive then .held else .idle)
  marks : ∀ m, t.marks.get m = (s.lines.estopActive && decide (s.points.markSource.get m = .release))
  permit : t.permit = !s.lines.estopActive
  chans : ∀ c, (t.valve.chans.get c).fresh
  rings : ∀ k, t.ringFresh k il.released (if s.lines.estopActive then none else il.interval)
  port : ∀ p, t.ports.get p =
    if s.lines.estopActive then (ports.get p).raise .releaseChanged else ports.get p

section Started

variable {s : State} {il : Interlock} {advised : Nat} {ports : PerPort PortState}

theorem startCauses_inactive (hil : il.intent = .lift) (h : s.lines.estopActive = false) :
    Started s il advised ports (s.startWith il advised ports).startCauses := by
  have hstart : (s.startWith il advised ports).startCauses = (s.startWith il advised ports).recomputePermit :=
    if_neg (by show ¬s.lines.estopActive = true; rw [h]; decide)
  rw [hstart]
  exact {
    outer := State.recomputePermit_sameOuter _
    track := rfl
    lastAdvise := rfl
    cells := rfl
    openStray := rfl
    recipes := rfl
    release := by
      show startRelease s.lines = _
      rw [startRelease, foundRelease, h]
      rfl
    ringsAt := by rw [h]; exact ⟨rfl, rfl⟩
    marks := fun m => by rw [h, Bool.false_and]; cases m <;> rfl
    permit := by
      show State.permitValue _ = _
      have hgated : (s.startWith il advised ports).gated = false := rfl
      have hlevel : (s.startWith il advised ports).release.level = .none := rfl
      have hactive : (s.startWith il advised ports).release.estopActive = false := h
      simp [State.permitValue, hgated, hlevel, hactive, h]
    chans := fun c => by cases c <;> exact ⟨rfl, rfl, rfl, rfl, rfl, rfl⟩
    rings := fun k => by
      have hlift : startLift s.points = if s.lines.estopActive then 0 else min s.points.parkLift s.points.ceiling := by
        rw [h]; rfl
      rw [h]
      cases k <;> exact ⟨rfl, hlift, rfl, rfl, rfl, rfl, rfl, rfl, hil, rfl, rfl⟩
    port := fun p => by rw [h]; rfl }

/-- Under an emergency stop found ACTIVE. -/
theorem startCauses_active (hil : il.intent = .lift) (h : s.lines.estopActive = true) :
    Started s il advised ports (s.startWith il advised ports).startCauses := by
  generalize hw : (s.startWith il advised ports).recomputePermit = w
  have hcauses : w.release.causes = .empty := by rw [← hw]; rfl
  have hlevel : w.release.level = .none := by rw [← hw]; rfl
  have hstart : (s.startWith il advised ports).startCauses = (w.entered (Causes.empty.add .estop)).relevel := by
    have hactive : w.release.estopActive = true := by rw [← hw]; exact h
    rw [State.startCauses, hw]
    simp only [hactive, if_true]
    rw [State.raiseCause_of_absent (by rw [hcauses]; rfl), hcauses]
  have houter := (s.startWith il advised ports).startCauses_sameOuter
  generalize hx : w.entered (Causes.empty.add .estop) = x at hstart
  have hidle : ∀ k, x.ringState k = .idle := by
    intro k
    rw [← hx, ← hw]
    cases k <;> rfl
  have hxlevel : x.release.level = .none := by rw [← hx]; exact hlevel
  have hestop : x.release.causes.level = .estop := by rw [← hx]; exact Causes.level_of_estop rfl
  have hclear : ∀ m, x.marks.get m = false := by
    intro m
    rw [← hx, ← hw]
    cases m <;> rfl
  have hpoints : x.points = s.points := by rw [← hx, ← hw]; rfl
  have hright : ∀ k, x.ringRight k := by
    intro k
    have hnone : x.ring.get k = resetSequencer := by rw [← hx, ← hw]; cases k <;> rfl
    refine ⟨?_, by rw [hnone]; exact ⟨by decide, by decide⟩⟩
    rw [hidle k]
    exact ⟨fun _ => .inl rfl, fun hhigh => by rw [hxlevel] at hhigh; simp at hhigh⟩
  obtain ⟨htouches, hlift, hmarks, hports⟩ := State.relevel_of_idle hidle hxlevel hestop hclear
  obtain ⟨hlifts, htargets, hintervals⟩ := State.relevel_estop (s := x) (by rw [hxlevel]; decide) hestop
  have hheld : ∀ k, x.relevel.ringState k = .held := State.relevel_held hright (by rw [hestop]; decide)
  have hnamed : ∀ k, x.relevel.ringRight k := fun k => State.relevel_ringRight hright
  have hrelease : x.relevel.release = foundRelease s.lines := by
    have hentered : x.release = { startRelease s.lines with causes := Causes.empty.add .estop } := by
      rw [← hx, ← hw]
      rfl
    rw [State.relevel_release, hestop, hentered, foundRelease, startRelease, h]
    rfl
  rw [hstart] at houter ⊢
  exact {
    outer := houter
    track := by rw [htouches.track.resolve_left (by decide), ← hx, ← hw]; rfl
    lastAdvise := by rw [htouches.lastAdvise.resolve_left (by decide), ← hx, ← hw]; rfl
    cells := by rw [htouches.cells.resolve_left (by decide), ← hx, ← hw]; rfl
    openStray := by rw [htouches.openStray.resolve_left (by decide), ← hx, ← hw]; rfl
    recipes := by rw [htouches.recipes.resolve_left (by decide), ← hx, ← hw]; rfl
    release := hrelease
    ringsAt := by rw [h]; exact ⟨hheld .a, hheld .b⟩
    marks := fun m => by rw [hmarks, hpoints, h, Bool.true_and]
    permit := by
      have hpermit : x.relevel.permitRight := by
        refine State.relevel_permitRight ?_
        rw [← hx, ← hw]
        rfl
      rw [show x.relevel.permit = _ from hpermit, State.permitValue, hrelease, foundRelease, h]
      rfl
    chans := fun c => by
      have hsame := State.relevel_drive x c
      have hfresh : (x.valve.chans.get c).fresh := by
        rw [← hx, ← hw]
        cases c <;> exact ⟨rfl, rfl, rfl, rfl, rfl, rfl⟩
      exact ⟨(congrArg Chan.command hsame).trans hfresh.command, (congrArg Chan.measured hsame).trans hfresh.measured,
        (congrArg Chan.state hsame).trans hfresh.state, (congrArg Chan.timer hsame).trans hfresh.timer,
        (congrArg Chan.badRun hsame).trans hfresh.badRun, (congrArg Chan.wait hsame).trans hfresh.wait⟩
    rings := fun k => by
      have hsetpoint : (x.setpoint.get k).pressTarget = 0 := by rw [← hx, ← hw]; cases k <;> rfl
      have hinterlock : x.valve.rings.get k = il := by rw [← hx, ← hw]; cases k <;> rfl
      have hring : x.ring.get k = resetSequencer := by rw [← hx, ← hw]; cases k <;> rfl
      have hintent : (x.valve.rings.get k).intent = .lift := by rw [hinterlock, hil]
      obtain ⟨hserved, harmed⟩ := (hnamed k).named
      rw [show (x.relevel.ring.get k).state = .held from hheld k] at hserved harmed
      exact {
        pressTarget := (hlift k).pressTarget.trans hsetpoint
        liftTarget := by rw [hlifts, hrelease, foundRelease, h]; rfl
        handedPress := htargets _
        handedLift := by rw [htargets, hlifts]
        served := by simpa [RingState.pressing] using hserved
        armedFor := by simpa using harmed
        liftReached := (hlift k).liftReached.trans (by rw [hring]; rfl)
        settled := (hlift k).settled.trans (by rw [hring]; rfl)
        intent := (hlift k).intent hintent
        releasedIs := ((hlift k).released hintent).trans (by rw [hinterlock])
        intervalIs := by rw [h]; exact hintervals k }
    port := fun p => by
      rw [hports, h, if_pos rfl, ← hx, ← hw]
      rfl }

theorem startCauses_started (hil : il.intent = .lift) :
    Started s il advised ports (s.startWith il advised ports).startCauses := by
  cases h : s.lines.estopActive
  · exact startCauses_inactive hil h
  · exact startCauses_active hil h

end Started

/-! ### What the notices of a start leave at a port -/

/-- A port's output list holds a NOTICE due, and nothing else, exactly where a kind of its status set is enabled. -/
def PortState.dueAlone (q : PortState) : Prop :=
  q.out = if q.status.any fun k => decide (k ∈ q.enable) then [.noticeDue] else []

theorem PortState.mem_raise {q : PortState} {j k : NoticeKind} : j ∈ (q.raise k).status ↔ j = k ∨ j ∈ q.status := by
  by_cases hk : k ∈ q.status
  · rw [PortState.raise_of_mem hk]
    exact ⟨.inr, fun h => h.elim (fun e => e ▸ hk) id⟩
  · rw [PortState.raise_of_not_mem hk]
    exact mem_addKind

theorem PortState.raise_dueAlone {q : PortState} (h : q.dueAlone) (k : NoticeKind) : (q.raise k).dueAlone := by
  by_cases hk : k ∈ q.status
  · rw [PortState.raise_of_mem hk]
    exact h
  · have hany : (addKind k q.status).any (fun j => decide (j ∈ q.enable)) =
        (decide (k ∈ q.enable) || q.status.any fun j => decide (j ∈ q.enable)) := by
      rw [Bool.eq_iff_iff]
      simp [mem_addKind]
    rw [PortState.raise_of_not_mem hk]
    show (if k ∈ q.enable then placeDue q.out else q.out) = _
    rw [hany, show q.out = _ from h]
    by_cases hen : k ∈ q.enable
    · rw [if_pos hen, decide_eq_true hen, Bool.true_or, if_pos rfl]
      split <;> rfl
    · rw [if_neg hen, decide_eq_false hen, Bool.false_or]

/-! ### POWER_ON (R207) -/

/-- The ports at a power-on: STORE_DEFAULTS raised where no image is valid. -/
def powerOnPorts (image : Option Image) : PerPort PortState :=
  if image.isNone then
    (⟨startPort .scanner, startPort .line, startPort .panel⟩ : PerPort PortState).map fun q => q.raise .storeDefaults
  else ⟨startPort .scanner, startPort .line, startPort .panel⟩

/-- The state a power-on loads its settings into, the lines as given. -/
def State.loaded (s : State) (l : Lines) : State :=
  ({ s with lines := l } : State).load (s.store.valid?.getD factoryImage)

theorem exec_powerOn (l : Lines) (s : State) : exec (.powerOn l) s =
    .next ((s.loaded l).startWith resetInterlock 2000 (powerOnPorts s.store.valid?)).startCauses := by
  show execPowerOn l s = _
  unfold execPowerOn powerOnPorts State.loaded
  simp only
  split <;> rfl

theorem powerOnPorts_get (image : Option Image) (p : Port) : (powerOnPorts image).get p =
    if image.isNone then (startPort p).raise .storeDefaults else startPort p := by
  cases image <;> cases p <;> rfl

theorem startPort_dueAlone (p : Port) : (startPort p).dueAlone := rfl

/-- What a power-on and the causes it finds leave at a port. -/
theorem powerOn_port (image : Option Image) (active : Bool) (p : Port) :
    let q := if active then ((powerOnPorts image).get p).raise .releaseChanged else (powerOnPorts image).get p
    SamePort (startPort p) q ∧ q.dueAlone ∧
      ∀ k, k ∈ q.status ↔ (k = .storeDefaults ∧ image = none) ∨ (k = .releaseChanged ∧ active = true) := by
  have hloaded : SamePort (startPort p) ((powerOnPorts image).get p) ∧ ((powerOnPorts image).get p).dueAlone ∧
      ∀ k, k ∈ ((powerOnPorts image).get p).status ↔ k = .storeDefaults ∧ image = none := by
    rw [powerOnPorts_get]
    cases image with
    | none =>
      refine ⟨PortState.raise_same _ _, PortState.raise_dueAlone (startPort_dueAlone p) _, fun k => ?_⟩
      show k ∈ ((startPort p).raise .storeDefaults).status ↔ _
      rw [PortState.mem_raise]
      simp [startPort]
    | some i => exact ⟨.refl _, startPort_dueAlone p, fun k => ⟨nofun, nofun⟩⟩
  obtain ⟨hsame, hdue, hstatus⟩ := hloaded
  intro q
  cases active with
  | false => exact ⟨hsame, hdue, fun k => (hstatus k).trans (by simp)⟩
  | true =>
    refine ⟨hsame.trans (PortState.raise_same _ _), PortState.raise_dueAlone hdue _, fun k => ?_⟩
    rw [show q = ((powerOnPorts image).get p).raise .releaseChanged from rfl, PortState.mem_raise, hstatus]
    simp [or_comm]

theorem State.loaded_settings (s : State) (l : Lines) : match s.store.valid? with
    | some i => (s.loaded l).points = i.points ∧ (s.loaded l).recipes.active = i.table ∧
        (s.loaded l).control.season = i.season
    | none => (s.loaded l).points = factoryPoints ∧ (s.loaded l).recipes.active = factoryTable ∧
        (s.loaded l).control.season = .winter := by
  unfold State.loaded
  cases s.store.valid? <;> exact ⟨rfl, rfl, rfl⟩

/-- Settles O4: the blocks at their start values, and the causes the start finds. -/
theorem powerOnLeavesStartValues : Obligations.PowerOnLeavesStartValues := by
  intro l s
  have h := startCauses_started (s := s.loaded l) (il := resetInterlock) (advised := 2000)
    (ports := powerOnPorts s.store.valid?) rfl
  have hpoints := h.outer.points
  have hcontrol := h.outer.control
  refine ⟨_, exec_powerOn l s, ?_, by rw [h.recipes]; rfl, by rw [h.recipes]; rfl, h.outer.lines, h.outer.key, h.outer.feed,
    h.cells, h.openStray, h.track, h.lastAdvise, by rw [hcontrol]; rfl, by rw [hcontrol]; rfl, by rw [hcontrol]; rfl,
    h.outer.store, by rw [h.release]; rfl, by rw [h.release]; rfl, by rw [h.release]; rfl, by rw [h.release]; rfl, h.ringsAt,
    fun m => ?_, h.permit, h.chans, fun k => ?_, fun p => ?_⟩
  · have hload := s.loaded_settings l
    rw [hpoints, h.recipes, hcontrol]
    revert hload
    cases s.store.valid? <;> exact id
  · rw [hpoints]
    exact h.marks m
  · have hring := h.rings k
    rwa [show (if (s.loaded l).lines.estopActive then none else resetInterlock.interval) = none from ite_self none] at hring
  · obtain ⟨hsame, hdue, hstatus⟩ := powerOn_port s.store.valid? l.estopActive p
    have henable := hsame.enable
    rw [show (if l.estopActive then ((powerOnPorts s.store.valid?).get p).raise .releaseChanged
      else (powerOnPorts s.store.valid?).get p) = _ from (h.port p).symm] at hsame hdue hstatus henable
    refine ⟨hsame.receiver, hsame.queue, henable, hsame.sending, hstatus, ?_⟩
    rw [PortState.dueAlone, henable] at hdue
    exact hdue

/-! ### RESTART (R208) -/

/-- The ports at a warm restart: those that were, with nothing received, and an ADVISE of 2000 at the Line port where the
last value sent differs. -/
def State.restartPorts (s : State) : PerPort PortState :=
  let kept := s.ports.map PortState.restart
  if s.lastAdvise = 2000 then kept else kept.modify .line fun q => { q with out := placeAdvise 2000 q.out }

theorem State.warmRestart_eq (s : State) :
    s.warmRestart = (s.startWith restartInterlock 2000 s.restartPorts).startCauses := by
  generalize hw : s.startWith restartInterlock s.lastAdvise (s.ports.map PortState.restart) = w
  have hwarm : s.warmRestart = w.advise.startCauses := by rw [← hw]; rfl
  have hlimit : w.advisedLimit = 2000 := by
    have htrack : w.track = [] := by rw [← hw]; rfl
    simp [State.advisedLimit, State.advisedRecords, htrack, minFeed]
  have hlast : w.lastAdvise = s.lastAdvise := by rw [← hw]; rfl
  rw [hwarm]
  congr 1
  by_cases h : s.lastAdvise = 2000
  · rw [State.advise_of_eq (by rw [hlimit, hlast, h]), State.restartPorts, if_pos h, ← hw, h]
  · rw [State.advise_of_ne (by rw [hlimit, hlast]; exact Ne.symm h), hlimit, State.restartPorts, if_neg h, ← hw]
    rfl

theorem State.restartPorts_get (s : State) (p : Port) : s.restartPorts.get p =
    if p = .line ∧ s.lastAdvise ≠ 2000 then
      { (s.ports.get p).restart with out := placeAdvise 2000 (s.ports.get p).out }
    else (s.ports.get p).restart := by
  unfold State.restartPorts
  by_cases h : s.lastAdvise = 2000
  · rw [if_pos h, if_neg (fun hp => hp.2 h), PerPort.get_map]
  · rw [if_neg h, PerPort.get_modify, PerPort.get_map]
    by_cases hp : p = .line
    · rw [if_pos hp, if_pos ⟨hp, h⟩]
      rfl
    · rw [if_neg hp, if_neg fun hline => hp hline.1]

/-- What the warm restart leaves. -/
theorem State.warmRestart_started (s : State) : Started s restartInterlock 2000 s.restartPorts s.warmRestart := by
  rw [s.warmRestart_eq]
  exact startCauses_started rfl

/-- What the warm restart and the causes it finds leave at a port. -/
theorem State.warmRestart_port (s : State) (p : Port) : let q := s.warmRestart.ports.get p
    q.receiver = .hunting ∧ q.queue = [] ∧ q.enable = (s.ports.get p).enable ∧ q.sending = (s.ports.get p).sending ∧
      (∀ k, k ∈ q.status ↔ k = .releaseChanged ∧ s.lines.estopActive = true) ∧
      q.out =
        let advised := if p = .line ∧ s.lastAdvise ≠ 2000 then placeAdvise 2000 (s.ports.get p).out else (s.ports.get p).out
        if s.lines.estopActive = true ∧ NoticeKind.releaseChanged ∈ (s.ports.get p).enable then placeDue advised
        else advised := by
  intro q
  generalize hadvised : (if p = .line ∧ s.lastAdvise ≠ 2000 then placeAdvise 2000 (s.ports.get p).out
    else (s.ports.get p).out) = advised
  have hbase : s.restartPorts.get p = { (s.ports.get p).restart with out := advised } := by
    rw [s.restartPorts_get, ← hadvised]
    split <;> rfl
  have hq : q = if s.lines.estopActive then PortState.raise { (s.ports.get p).restart with out := advised } .releaseChanged
      else { (s.ports.get p).restart with out := advised } := hbase ▸ s.warmRestart_started.port p
  cases h : s.lines.estopActive
  · rw [hq, h]
    exact ⟨rfl, rfl, rfl, rfl, fun k => ⟨nofun, nofun⟩, rfl⟩
  · rw [hq, h, if_pos rfl, PortState.raise_of_not_mem (by simp [PortState.restart])]
    refine ⟨rfl, rfl, rfl, rfl, fun k => ?_, ?_⟩
    · simp only [mem_addKind]
      simp [PortState.restart]
    · simp only [true_and]
      rfl

/-- A RESTART that arrives on the Panel port as a SAVE is in flight is dealt with at once. -/
theorem exec_restart_arriving {s : State} (payload : List Byte) (hsaving : s.saving .panel = true)
    (hlength : payload.length ≤ 240) : exec (.telegramReceived .panel 0x3C payload) s =
      .next ((s.receive .panel .hunting).restartOnArrival ⟨0x3C, payload, s.feed.pos⟩) := by
  have hexec : exec (.telegramReceived .panel 0x3C payload) s =
      .next ((s.receive .panel .hunting).accept .panel 0x3C payload) := if_pos hlength
  have hbusy : (s.receive .panel .hunting).saving .panel = true := hsaving
  rw [hexec, State.accept]
  simp only [hbusy]
  rfl

/-- Settles O5: the warm restart taken from the queue, and the one that arrives during a SAVE. -/
theorem restartKeepsSettings : Obligations.RestartKeepsSettings := by
  refine ⟨fun s p r rest htakes => ?_, fun s payload hsaving hlength => ?_⟩
  · have h := s.warmRestart_started
    have hpoints := h.outer.points
    have hcontrol := h.outer.control
    refine ⟨s.warmRestart, exec_serve_of_takes (i := .restart p) (effect := restartEffect) rfl htakes, hpoints,
      by rw [h.recipes]; rfl, by rw [hcontrol]; rfl, by rw [h.recipes]; rfl, by rw [h.recipes]; rfl, h.outer.feed, h.cells,
      h.openStray, h.track, h.lastAdvise, by rw [hcontrol]; rfl, by rw [hcontrol]; rfl, by rw [hcontrol]; rfl, h.outer.lines,
      h.outer.key, h.outer.store, by rw [h.release]; rfl, by rw [h.release]; rfl, h.ringsAt, by rw [h.release]; rfl,
      by rw [h.release]; rfl, h.marks, h.permit, h.chans, h.rings, fun q => s.warmRestart_port q⟩
  · intro u r
    have hexec : exec (.telegramReceived .panel 0x3C payload) s = .next (u.restartOnArrival r) :=
      exec_restart_arriving payload hsaving hlength
    have hrefusal : refusal u .panel .restart payload = refusal s .panel .restart payload := rfl
    refine ⟨fun e he => ?_, fun hpassed hclosed => ?_⟩
    · rw [hexec, State.restartOnArrival, show r.payload = payload from rfl, hrefusal, he]
    · have hstarted := u.warmRestart_started
      have hport := u.warmRestart_port .panel
      refine ⟨u.warmRestart.reply .panel r .ok [], ?_, hport.2.1, ?_, ?_, ?_, hstarted.track⟩
      · rw [hexec, State.restartOnArrival, show r.payload = payload from rfl, hrefusal, hpassed]
      · show (u.warmRestart.ports.panel.out ++ [_]).getLast? = _
        rw [List.getLast?_concat]
        rfl
      · show u.warmRestart.store.snapshot = none
        rw [hstarted.outer.store]
        rfl
      · show u.warmRestart.store.valid? = none
        rw [hstarted.outer.store, Store.valid?, if_neg]
        rw [show (u.startWith restartInterlock 2000 u.restartPorts).store.closed = s.store.closed from rfl, hclosed]
        decide

/-! ### SAVE and SAVE_COMPLETE (R205 to R207) -/

/-- A SAVE that passes the checks begins its write. -/
theorem exec_save_of_takes {s : State} {p : Port} {r : Req} {rest : List Req} (h : s.takes p .save r rest) :
    exec (.save p) s = .next s.beginSave := by
  have hpass : refusal s p .save r.payload = none := h.passed.2
  show execSave p s = _
  rw [execSave, State.request?_of_takes h (State.ofKind_of_takes h)]
  simp only [hpass]

/-- A write that completes leaves the image holding the snapshot, and its request answered. -/
theorem exec_saveComplete_of_head {s : State} {i : Image} {r : Req} {rest : List Req} (h : s.store.snapshot = some i)
    (hqueue : s.ports.panel.queue = r :: rest) : exec .saveComplete s =
      .next (({ s with store := { image := some i, closed := true, snapshot := none } } : State).answer .panel r .ok []) := by
  show execSaveComplete s = _
  rw [execSaveComplete, h]
  show Host.Outcome.next (State.answerSave _) = _
  rw [State.answerSave]
  simp only [hqueue]

/-- A SAVE is the Panel port's. -/
theorem State.panel_of_takes_save {s : State} {p : Port} {r : Req} {rest : List Req} (h : s.takes p .save r rest) :
    p = .panel := by
  have hpass : refusal s p .save r.payload = none := h.passed.2
  by_contra hp
  simp [refusal, permitted, hp] at hpass

/-- Settles O60: the SAVE, its completion, and the power-on that loads what it wrote. -/
theorem saveWritesTheSnapshot : Obligations.SaveWritesTheSnapshot := by
  refine ⟨fun s p r rest htakes => ⟨exec_save_of_takes htakes, fun u i x more hsnapshot hqueue =>
    exec_saveComplete_of_head hsnapshot hqueue⟩, fun s p r rest l htakes hpoints htable => ?_⟩
  intro t
  obtain rfl := State.panel_of_takes_save htakes
  have hcomplete := exec_saveComplete_of_head (s := s.beginSave) (i := s.imageNow) rfl htakes.head.1
  generalize hu : (({ s.beginSave with store := { image := some s.imageNow, closed := true, snapshot := none } } : State).answer
    .panel r .ok []) = u at hcomplete
  have hstore : u.store = { image := some s.imageNow, closed := true, snapshot := none } := by rw [← hu]; rfl
  have hvalid : u.store.valid? = some s.imageNow := by
    have hsound : s.imageNow.sound = true := by
      rw [Image.sound, Bool.and_eq_true]
      exact ⟨hpoints, htable⟩
    rw [hstore, Store.valid?, if_pos rfl, Option.filter_some, hsound, if_pos rfl]
  have hstarted := startCauses_started (s := u.loaded l) (il := resetInterlock) (advised := 2000)
    (ports := powerOnPorts u.store.valid?) rfl
  have hsettings := u.loaded_settings l
  rw [hvalid] at hsettings
  obtain ⟨hpts, htable', hseason⟩ := hsettings
  have ht : t = ((u.loaded l).startWith resetInterlock 2000 (powerOnPorts u.store.valid?)).startCauses := by
    simp only [t, State.after, exec_save_of_takes htakes, hcomplete, exec_powerOn]
  rw [ht]
  refine ⟨hstarted.outer.points.trans hpts, by rw [hstarted.recipes]; exact htable',
    by rw [hstarted.outer.control]; exact hseason,
    fun q hmem => ?_⟩
  obtain ⟨-, -, hstatus⟩ := powerOn_port u.store.valid? (u.loaded l).lines.estopActive q
  rw [hstarted.port, hstatus, hvalid] at hmem
  simp at hmem

end Sys2Proof.Machine
end

section
/-! PROOFS. The receiver, byte by byte (R191), and what a complete telegram meets at its port (R193). -/

namespace Sys2Proof.Machine

/-! ### A receiver's bytes -/

section Receiver

variable {s : State} {p : Port}

theorem State.receive_receive (s : State) (p : Port) (x y : Receiver) : (s.receive p x).receive p y = s.receive p y := by
  cases p <;> rfl

theorem State.receive_of_eq {r : Receiver} (h : (s.ports.get p).receiver = r) : s.receive p r = s :=
  s.onPort_id p (by rw [← h])

theorem State.receive_receiver (s : State) (p : Port) (r : Receiver) : ((s.receive p r).ports.get p).receiver = r := by
  cases p <;> rfl

theorem State.after_cons {i : Instr} {t : State} (h : exec i s = .next t) (rest : List Instr) :
    s.after (i :: rest) = t.after rest := by
  rw [State.after, h]

theorem exec_byteReceived_hunting (h : (s.ports.get p).receiver = .hunting) (b : Byte) :
    exec (.byteReceived p b) s = .next (if b = 0xA5 then s.receive p (.framing []) else s) := by
  show execByteReceived p b s = _
  rw [execByteReceived, h]

theorem exec_byteReceived_framing {taken : List Byte} (h : (s.ports.get p).receiver = .framing taken) (b : Byte) :
    exec (.byteReceived p b) s = .next (s.frameByte p (taken ++ [b])) := by
  show execByteReceived p b s = _
  rw [execByteReceived, h]

theorem exec_interByteTimeout (p : Port) (s : State) : exec (.interByteTimeout p) s = .next (s.receive p .hunting) := rfl

/-- A byte inside a telegram is kept. -/
theorem State.frameByte_of_short {bytes : List Byte} (hlow : u8 bytes 0 ≤ 240) (hshort : bytes.length < u8 bytes 0 + 4) :
    s.frameByte p bytes = s.receive p (.framing bytes) := by
  rw [State.frameByte, if_neg (show ¬maxPayload < _ from Nat.not_lt.mpr hlow), if_pos hshort]

theorem State.frameByte_of_long {bytes : List Byte} (h : 240 < u8 bytes 0) : s.frameByte p bytes = s.receive p .hunting :=
  if_pos h

/-- The last byte of the CRC completes the telegram. -/
theorem State.frameByte_of_whole {bytes : List Byte} (hlow : u8 bytes 0 ≤ 240) (hwhole : bytes.length = u8 bytes 0 + 4) :
    s.frameByte p bytes =
      if crcMatches bytes then (s.receive p .hunting).accept p (bytes.getD 1 0) ((bytes.drop 2).take (u8 bytes 0))
      else s.receive p .hunting := by
  rw [State.frameByte, if_neg (show ¬maxPayload < _ from Nat.not_lt.mpr hlow), if_neg (by omega)]

/-- The bytes inside a telegram, one after another, are kept. -/
theorem State.after_framing {n : Byte} (hn : n.toNat ≤ 240) (more : List Instr) : ∀ (l taken : List Byte),
    taken.length + l.length + 1 < n.toNat + 4 →
    (s.receive p (.framing (n :: taken))).after (l.map (Instr.byteReceived p) ++ more) =
      (s.receive p (.framing (n :: taken ++ l))).after more := by
  intro l
  induction l with
  | nil => exact fun taken _ => by rw [List.append_nil]; rfl
  | cons b l ih =>
    intro taken hroom
    rw [List.length_cons] at hroom
    have hbyte : exec (.byteReceived p b) (s.receive p (.framing (n :: taken))) =
        .next (s.receive p (.framing (n :: (taken ++ [b])))) := by
      have hlow : u8 (n :: taken ++ [b]) 0 ≤ 240 := hn
      have hshort : (n :: taken ++ [b]).length < u8 (n :: taken ++ [b]) 0 + 4 := by
        show _ < n.toNat + 4
        simp only [List.length_append, List.length_cons, List.length_nil]
        omega
      rw [exec_byteReceived_framing (s.receive_receiver p _), State.frameByte_of_short hlow hshort, State.receive_receive]
      rfl
    have hrest : (taken ++ [b]).length + l.length + 1 < n.toNat + 4 := by
      rw [List.length_append, List.length_singleton]
      omega
    rw [List.map_cons, List.cons_append, State.after_cons hbyte, ih _ hrest]
    simp only [List.cons_append, List.append_assoc, List.nil_append]

/-- The start byte and a length in range open a telegram. -/
theorem State.after_opening (h : (s.ports.get p).receiver = .hunting) {n : Byte} (hn : n.toNat ≤ 240)
    (more : List Instr) : s.after (.byteReceived p 0xA5 :: .byteReceived p n :: more) =
      (s.receive p (.framing [n])).after more := by
  have hstart : exec (.byteReceived p 0xA5) s = .next (s.receive p (.framing [])) := by
    rw [exec_byteReceived_hunting h, if_pos rfl]
  have hlength : exec (.byteReceived p n) (s.receive p (.framing [])) = .next (s.receive p (.framing [n])) := by
    rw [exec_byteReceived_framing (s.receive_receiver p _), List.nil_append, State.frameByte_of_short (bytes := [n]) hn
      (show 1 < n.toNat + 4 by omega), State.receive_receive]
  rw [State.after_cons hstart, State.after_cons hlength]

/-- A length byte above 240 is discarded with its start byte. -/
theorem State.after_long (h : (s.ports.get p).receiver = .hunting) {n : Byte} (hn : 240 < n.toNat) :
    s.after [.byteReceived p 0xA5, .byteReceived p n] = s := by
  have hstart : exec (.byteReceived p 0xA5) s = .next (s.receive p (.framing [])) := by
    rw [exec_byteReceived_hunting h, if_pos rfl]
  have hlength : exec (.byteReceived p n) (s.receive p (.framing [])) = .next s := by
    rw [exec_byteReceived_framing (s.receive_receiver p _), List.nil_append, State.frameByte_of_long (bytes := [n]) hn,
      State.receive_receive, State.receive_of_eq h]
  rw [State.after_cons hstart, State.after_cons hlength, State.after]

theorem toNat_byte {n : Nat} (h : n < 256) : (byte n).toNat = n := by
  rw [byte, BitVec.toNat_ofNat, Nat.mod_eq_of_lt h]

/-- The two bytes after a telegram's body are its CRC, or they are not. -/
theorem crcMatches_body (body : List Byte) (x y : Byte) :
    crcMatches (body ++ [x, y]) = decide ([x, y] = bytes16 (crc16 body).toNat) := by
  have hlength : (body ++ [x, y]).length - 2 = body.length := by simp
  rw [crcMatches, hlength, List.take_left, List.drop_left]

/-- A receiver that hunts takes a telegram's bytes: the telegram, where its CRC matches, and else nothing. -/
theorem State.after_frame (h : (s.ports.get p).receiver = .hunting) (kind : Byte) {payload : List Byte}
    (hlength : payload.length ≤ 240) (x y : Byte) :
    s.after ((0xA5 :: byte payload.length :: kind :: payload ++ [x, y]).map (Instr.byteReceived p)) =
      if [x, y] = bytes16 (crc16 (byte payload.length :: kind :: payload)).toNat then s.accept p kind payload else s := by
  have hn : (byte payload.length).toNat = payload.length := toNat_byte (by omega)
  have hsplit : (0xA5 :: byte payload.length :: kind :: payload ++ [x, y]).map (Instr.byteReceived p) =
      .byteReceived p 0xA5 :: .byteReceived p (byte payload.length) ::
        ((kind :: payload ++ [x]).map (Instr.byteReceived p) ++ [.byteReceived p y]) := by
    simp
  have hwhole : ([byte payload.length] ++ (kind :: payload ++ [x])) ++ [y] =
      (byte payload.length :: kind :: payload) ++ [x, y] := by simp
  have hsize : ((byte payload.length :: kind :: payload) ++ [x, y]).length = (byte payload.length).toNat + 4 := by
    rw [hn]
    simp
  have hlast : exec (.byteReceived p y) (s.receive p (.framing ([byte payload.length] ++ (kind :: payload ++ [x])))) =
      .next (if [x, y] = bytes16 (crc16 (byte payload.length :: kind :: payload)).toNat then s.accept p kind payload
        else s) := by
    rw [exec_byteReceived_framing (s.receive_receiver p _), hwhole, State.frameByte_of_whole
      (bytes := (byte payload.length :: kind :: payload) ++ [x, y]) (hn.trans_le hlength) hsize, crcMatches_body,
      State.receive_receive, State.receive_of_eq h]
    have hkind : ((byte payload.length :: kind :: payload) ++ [x, y]).getD 1 0 = kind := rfl
    have hpayload : (((byte payload.length :: kind :: payload) ++ [x, y]).drop 2).take
        (u8 ((byte payload.length :: kind :: payload) ++ [x, y]) 0) = payload := by
      show (payload ++ [x, y]).take (byte payload.length).toNat = payload
      rw [hn, List.take_left]
    rw [hkind, hpayload]
    simp only [decide_eq_true_eq]
  rw [hsplit, State.after_opening h (hn.trans_le hlength), State.after_framing (hn.trans_le hlength) _ _ [] (by
    rw [hn]
    simp), State.after_cons hlast, State.after]

/-- A gap inside a telegram discards what was taken of it. -/
theorem State.after_gap (h : (s.ports.get p).receiver = .hunting) {n : Byte} (hn : n.toNat ≤ 240) {rest : List Byte}
    (hrest : rest.length = n.toNat + 3) {m : Nat} (hm : m < rest.length + 2) :
    s.after (((0xA5 :: n :: rest).take m).map (Instr.byteReceived p) ++ [.interByteTimeout p]) = s := by
  have hgap : ∀ r, (s.receive p r).after [.interByteTimeout p] = s := fun r => by
    rw [State.after_cons (exec_interByteTimeout p _), State.receive_receive, State.receive_of_eq h, State.after]
  match m, hm with
  | 0, _ =>
    rw [List.take_zero, List.map_nil, List.nil_append, State.after_cons (exec_interByteTimeout p s),
      State.receive_of_eq h, State.after]
  | 1, _ =>
    have hstart : exec (.byteReceived p 0xA5) s = .next (s.receive p (.framing [])) := by
      rw [exec_byteReceived_hunting h, if_pos rfl]
    exact (State.after_cons hstart _).trans (hgap _)
  | m + 2, hm =>
    rw [List.take_succ_cons, List.take_succ_cons, List.map_cons, List.map_cons, List.cons_append, List.cons_append,
      State.after_opening h hn, State.after_framing hn _ _ [] (by
        rw [List.length_nil, List.length_take]
        omega)]
    exact hgap _

end Receiver

/-! ### A complete telegram (R191, R193) -/

section Accept

variable {s : State} {p : Port} {kind : Byte} {payload : List Byte}

theorem exec_telegramReceived (h : payload.length ≤ 240) :
    exec (.telegramReceived p kind payload) s = .next ((s.receive p .hunting).accept p kind payload) := if_pos h

theorem State.accept_of_reply (h : 0x80 ≤ kind.toNat) : s.accept p kind payload = s := if_pos h

theorem State.accept_of_save (hkind : Kind.ofByte kind = some .save) (hlow : kind.toNat < 0x80)
    (hsaving : s.saving p = true) : s.accept p kind payload = s.reply p ⟨kind, payload, s.feed.pos⟩ .busy [] := by
  rw [State.accept]
  simp only [if_neg (Nat.not_le.mpr hlow), hsaving, ofKind, hkind, decide_true, Bool.and_self, if_true]

/-- A request that is neither met by a SAVE in flight as SAVE or RESTART nor finds the queue full joins it. -/
theorem State.accept_of_other (hlow : kind.toNat < 0x80)
    (hother : s.saving p = false ∨ (Kind.ofByte kind ≠ some .save ∧ Kind.ofByte kind ≠ some .restart)) :
    s.accept p kind payload =
      if 4 ≤ (s.ports.get p).queue.length then s.reply p ⟨kind, payload, s.feed.pos⟩ .busy []
      else s.onPort p fun q => ({ q with queue := q.queue ++ [⟨kind, payload, s.feed.pos⟩] } : PortState).flush := by
  have hsave : (s.saving p && ofKind .save ⟨kind, payload, s.feed.pos⟩) = false := by
    obtain h | ⟨h, -⟩ := hother
    · rw [h, Bool.false_and]
    · rw [ofKind, decide_eq_false h, Bool.and_false]
  have hrestart : (s.saving p && ofKind .restart ⟨kind, payload, s.feed.pos⟩) = false := by
    obtain h | ⟨-, h⟩ := hother
    · rw [h, Bool.false_and]
    · rw [ofKind, decide_eq_false h, Bool.and_false]
  rw [State.accept]
  simp only [if_neg (Nat.not_le.mpr hlow), hsave, hrestart, Bool.false_eq_true, if_false]

/-- A queue whose head is of a known kind is left as it is. -/
theorem PortState.flush_of_known {q : PortState} (h : headKnown q.queue = true) : q.flush = q := by
  unfold PortState.flush
  cases hq : q.queue with
  | nil => rw [flushUnknown, ← hq]
  | cons r rest =>
    rw [hq, headKnown] at h
    rw [flushUnknown, if_neg (by simpa using Option.isSome_iff_ne_none.mp h), ← hq]

/-- A head of no known kind is answered BAD_FORMAT, and the next is looked at. -/
theorem PortState.flush_of_unknown {q : PortState} {r : Req} {rest : List Req} (hq : q.queue = r :: rest)
    (h : Kind.ofByte r.kind = none) : q.flush =
      ({ q with
         queue := rest
         out := q.out ++ [.telegram (replyByte r.kind) [byte Result.badFormat.code]] } : PortState).flush := by
  unfold PortState.flush
  rw [hq, flushUnknown, if_pos (by rw [h]; rfl)]

/-- A kind the part knows is none of a reply. -/
theorem Kind.lt_of_ofByte {b : Byte} {k : Kind} (h : Kind.ofByte b = some k) : b.toNat < 0x80 := by
  have hcode : k.code = b.toNat := by simpa using List.find?_some h
  rw [← hcode]
  cases k <;> decide

end Accept

/-- Settles O51: the bytes of a telegram, whole or faulty, and each byte's own effect. -/
theorem receiverTakesWholeTelegramsAlone : Obligations.ReceiverTakesWholeTelegramsAlone := by
  refine ⟨fun s p kind payload h => ⟨fun b hb => ?_, fun n hn => State.after_long h hn, fun hlength => ?_⟩,
    fun s p => ⟨fun h => ?_, fun taken b h hlow hshort => ?_, rfl⟩⟩
  · rw [exec_byteReceived_hunting h, if_neg hb]
  · have hwhole : s.after [.telegramReceived p kind payload] = s.accept p kind payload := by
      rw [State.after_cons (exec_telegramReceived hlength), State.receive_of_eq h, State.after]
    have hn : (byte payload.length).toNat = payload.length := toNat_byte (by omega)
    refine ⟨?_, fun hkind => by rw [hwhole, State.accept_of_reply hkind], fun n hlt => ?_, fun x y hcrc => ?_⟩
    · rw [hwhole]
      exact (State.after_frame h kind hlength _ _).trans (if_pos rfl)
    · exact State.after_gap h (hn.trans_le hlength) (rest := kind :: payload ++ bytes16 _) (by simp [hn]) hlt
    · rw [State.after_frame h kind hlength, if_neg hcrc]
  · rw [exec_byteReceived_hunting h, if_pos rfl]
    rfl
  · rw [exec_byteReceived_framing h, State.frameByte_of_short hlow (by simpa using hshort)]
    rfl

/-- Settles O52: what a complete telegram meets, by its kind, the queue and the SAVE in flight. -/
theorem arrivingRequestIsQueuedOrAnswered : Obligations.ArrivingRequestIsQueuedOrAnswered := by
  intro s p kind payload hlength u r
  have hexec : exec (.telegramReceived p kind payload) s = .next (u.accept p kind payload) := exec_telegramReceived hlength
  have hqueue : (u.ports.get p).queue = (s.ports.get p).queue := by cases p <;> rfl
  have hsavingEq : u.saving p = s.saving p := rfl
  have joins (hlow : kind.toNat < 0x80)
      (hother : s.saving p = false ∨ (Kind.ofByte kind ≠ some .save ∧ Kind.ofByte kind ≠ some .restart))
      (hroom : (s.ports.get p).queue.length < 4) (hknown : headKnown ((s.ports.get p).queue ++ [r]) = true) :
      exec (.telegramReceived p kind payload) s = .next (u.onPort p fun q => { q with queue := q.queue ++ [r] }) := by
    rw [hexec, State.accept_of_other (s := u) hlow hother, if_neg (by rw [hqueue]; omega)]
    refine congrArg _ (State.onPort_congr (PortState.flush_of_known ?_))
    show headKnown ((u.ports.get p).queue ++ [r]) = true
    rw [hqueue, hknown]
  have busy (hlow : kind.toNat < 0x80)
      (hother : s.saving p = false ∨ (Kind.ofByte kind ≠ some .save ∧ Kind.ofByte kind ≠ some .restart))
      (hfull : 4 ≤ (s.ports.get p).queue.length) :
      exec (.telegramReceived p kind payload) s = .next (u.reply p r .busy []) := by
    rw [hexec, State.accept_of_other (s := u) hlow hother, if_pos (by rw [hqueue]; exact hfull)]
    rfl
  refine ⟨fun h => by rw [hexec, State.accept_of_reply (s := u) h], fun hlow hsaving => busy hlow (.inl hsaving),
    fun hsaving hroom hknown hlow => joins hlow (.inl hsaving) hroom hknown, fun hsaving hempty hlow hkind => ?_,
    fun hsaving hkind => ?_, fun x rest hsaving hq hx hlow hsave hrestart => ⟨fun hroom => ?_, fun hfull => ?_⟩⟩
  · rw [hexec, State.accept_of_other (s := u) hlow (.inl hsaving), if_neg (by rw [hqueue, hempty]; decide)]
    refine congrArg _ (State.onPort_congr ((PortState.flush_of_unknown (r := r) (rest := []) ?_ hkind).trans ?_))
    · show (u.ports.get p).queue ++ [r] = [r]
      rw [hqueue, hempty, List.nil_append]
    · refine (PortState.flush_of_known rfl).trans ?_
      show ({ u.ports.get p with queue := [], out := _ } : PortState) = _
      rw [← hempty, ← hqueue]
  · rw [hexec, State.accept_of_save (s := u) hkind (Kind.lt_of_ofByte hkind) hsaving]
    rfl
  · refine joins hlow (.inr ⟨hsave, hrestart⟩) (by rw [hq, List.length_cons]; omega) ?_
    rw [hq]
    show (Kind.ofByte x.kind).isSome = true
    rw [hx]
    rfl
  · exact busy hlow (.inr ⟨hsave, hrestart⟩) (by rw [hq, List.length_cons]; omega)

end Sys2Proof.Machine
end

section
/-! PROOFS. The checks of R194, the reply, and the commands that take requests (R193 to R195, R197). -/

namespace Sys2Proof.Machine

/-! ### A request's command -/

/-- A command takes requests of a kind at a port: those wanted, where no SAVE in flight holds the queue; one that fails a
check is answered with the check's result, and where there is none to take nothing happens. -/
structure Serves (i : Instr) (p : Port) (k : Kind) (want : Req → Bool) : Prop where
  refused : ∀ {s r e}, s.request? p want = some r → refusal s p k r.payload = some e → exec i s = .next (s.answer p r e [])
  idle : ∀ {s}, s.request? p want = none → exec i s = .next s

theorem Serves.of_serve {i : Instr} {p : Port} {k : Kind} {want : Req → Bool} {effect : Req → State → Effect}
    (harm : ∀ s, exec i s = .next (s.serve p k want effect)) : Serves i p k want :=
  ⟨fun hr he => by rw [harm, State.serve, hr]; simp only [he], fun hr => by rw [harm, State.serve, hr]⟩

theorem save_serves (p : Port) : Serves (.save p) p .save (ofKind .save) :=
  ⟨fun {s r e} hr he => by
    show execSave p s = _
    rw [execSave, hr]
    simp only [he], fun {s} hr => by
    show execSave p s = _
    rw [execSave, hr]⟩

/-- The owner a row hands a written point to. -/
def ownerOf : WriteRow → Point → State → State → State
  | .general | .source => fun _ _ t => t
  | .scale => scaleOwner
  | .geometry => geometryOwner
  | .windowArm => windowArmOwner
  | .ceiling => ceilingOwner
  | .setpoint => setpointOwner
  | .echo => echoOwner
  | .stop | .gate => fun _ _ t => t.recomputePermit
  | .threshold => fun _ _ t => t.advise

theorem exec_row (p : Port) (row : WriteRow) (s : State) :
    exec (row.command p) s = .next (s.writeRow p row (ownerOf row)) := by
  cases row <;> rfl

/-- Each row of POINT writes serves the points that are the row's. -/
theorem row_serves (p : Port) (row : WriteRow) :
    Serves (row.command p) p .point (writeOf fun q => decide (Machine.writeRow q = row)) :=
  .of_serve (effect := writeEffect (ownerOf row)) (exec_row p row)

/-- What a request's command looks for at the head of the queue. -/
def wantOf (payload : List Byte) (k : Kind) : Req → Bool :=
  if k = .point then
    if isWriteAddress payload then
      writeOf fun q => decide (Machine.writeRow q = Machine.writeRow (Point.ofNumber (pointNumber payload)))
    else readRequest
  else ofKind k

theorem commandOf_serves (p : Port) (payload : List Byte) (k : Kind) :
    Serves (commandOf p payload k) p k (wantOf payload k) := by
  cases k with
  | point =>
    cases hw : isWriteAddress payload
    · have hread : Serves (.pointRead p) p .point readRequest := .of_serve fun _ => rfl
      simpa only [commandOf, hw, Bool.false_eq_true, if_false, wantOf, if_true] using hread
    · simpa only [commandOf, hw, if_true, wantOf] using row_serves p _
  | save => exact save_serves p
  | _ => exact .of_serve fun _ => rfl

theorem wantOf_self {r : Req} {k : Kind} (h : Kind.ofByte r.kind = some k) : wantOf r.payload k r = true := by
  have hkind : ofKind k r = true := decide_eq_true h
  unfold wantOf
  split_ifs with hk hw
  · subst hk
    simp [writeOf, hkind, hw]
  · subst hk
    simp [readRequest, hkind, hw]
  · exact hkind

theorem kind_of_wantOf {payload : List Byte} {k : Kind} {r : Req} (h : wantOf payload k r = true) :
    Kind.ofByte r.kind = some k := by
  unfold wantOf at h
  split_ifs at h with hk hw
  · rw [writeOf, Bool.and_eq_true, Bool.and_eq_true] at h
    exact hk ▸ of_decide_eq_true h.1.1
  · rw [readRequest, Bool.and_eq_true] at h
    exact hk ▸ of_decide_eq_true h.1
  · exact of_decide_eq_true h

theorem State.request?_of_head {s : State} {p : Port} {r : Req} {rest : List Req} {want : Req → Bool}
    (h : s.atHead p r rest) (hw : want r = true) : s.request? p want = some r := by
  obtain ⟨hqueue, hsaving⟩ := h
  simp [State.request?, hqueue, hsaving, hw]

theorem State.request?_eq_none {s : State} {p : Port} {want : Req → Bool}
    (h : (s.ports.get p).queue = [] ∨ s.saving p = true ∨ ∃ r rest, (s.ports.get p).queue = r :: rest ∧ want r = false) :
    s.request? p want = none := by
  unfold State.request?
  cases hq : (s.ports.get p).queue with
  | nil => rfl
  | cons r rest =>
    obtain h | h | ⟨x, more, hx, hwant⟩ := h
    · rw [hq] at h
      cases h
    · simp [h]
    · rw [hq] at hx
      cases hx
      simp [hwant]

/-! ### The reply (R193) -/

theorem State.onPort_onPort (s : State) (p : Port) (f g : PortState → PortState) :
    (s.onPort p f).onPort p g = s.onPort p fun q => g (f q) := by
  cases p <;> rfl

/-- A reply: the request leaves, its telegram joins, and heads of no known kind are answered. -/
theorem State.answer_eq (s : State) (p : Port) (r : Req) (res : Result) (bytes : List Byte) : s.answer p r res bytes =
    s.onPort p fun q => ({ q with
      queue := q.queue.tail
      out := q.out ++ [.telegram (replyByte r.kind) (byte res.code :: bytes)] } : PortState).flush :=
  State.onPort_onPort _ _ _ _

/-! ### The checks of R194 -/

theorem permitted_iff (k : Kind) (p : Port) : permitted k p = true ↔ p ∈ match k with
    | .status | .noticeEnable | .noticeClear => [Port.scanner, .line, .panel]
    | .profile => [.scanner]
    | .speciesSet => [.line]
    | .trackRead | .release | .resume | .mark => [.line, .panel]
    | _ => [.panel] := by
  cases k <;> cases p <;> decide

theorem Port.code_inj {p q : Port} : p.code = q.code ↔ p = q := by cases p <;> cases q <;> decide

theorem Port.ofCode_eq_some {n : Nat} {p : Port} : Port.ofCode n = some p ↔ n = p.code := by
  refine ⟨fun h => ?_, fun h => by subst h; cases p <;> rfl⟩
  unfold Port.ofCode at h
  split at h <;> cases h <;> rfl

theorem Port.ofCode_eq_none {n : Nat} : Port.ofCode n = none ↔ 2 < n := by
  refine ⟨fun h => ?_, fun h => ?_⟩
  · by_contra hle
    interval_cases n <;> cases h
  · match n, h with
    | n + 3, _ => rfl

theorem namesOtherPort_iff {p : Port} {k : Kind} {payload : List Byte} : namesOtherPort p k payload = true ↔
    k = .noticeEnable ∧ p ≠ .panel ∧ u8 payload 0 ≤ 2 ∧ u8 payload 0 ≠ p.code := by
  cases hq : Port.ofCode (u8 payload 0) with
  | none =>
    have hcode := Port.ofCode_eq_none.mp hq
    simp only [namesOtherPort, hq, Bool.and_false, Bool.false_eq_true, false_iff]
    omega
  | some q =>
    have hcode := Port.ofCode_eq_some.mp hq
    have hlow : u8 payload 0 ≤ 2 := by
      rw [hcode]
      cases q <;> decide
    simp only [namesOtherPort, hq, Bool.and_eq_true, decide_eq_true_eq, and_assoc, hlow, true_and]
    rw [hcode]
    simp only [Ne, Port.code_inj]

theorem needsEngineer_iff {k : Kind} {payload : List Byte} : needsEngineer k payload = true ↔
    k = .restart ∨ k = .noticeRaise ∨ (k = .noticeEnable ∧ u8 payload 0 ≤ 1) := by
  cases k <;> simp [needsEngineer]

theorem modeRefuses_iff {k : Kind} {m : Mode} : modeRefuses k m = true ↔
    (k = .speciesForce ∧ m = .setup) ∨ (k = .restart ∧ m ≠ .setup) := by
  cases k <;> simp [modeRefuses]

/-- The number of a LIVE point is none of the store's. -/
theorem Point.lt_of_ofNumber {n : Nat} {q : Point} (h : Point.ofNumber n = some q) : n < 64 := by
  unfold Point.ofNumber at h
  split at h <;> cases h <;> decide

/-- What the checks of a POINT give, in their order. -/
theorem pointRefusal_cases (s : State) (payload : List Byte) :
    (Point.ofNumber (pointNumber payload) = none → ¬(64 ≤ pointNumber payload ∧ pointNumber payload ≤ 89) →
      pointRefusal s payload = some .noPoint) ∧
    (64 ≤ pointNumber payload ∧ pointNumber payload ≤ 89 →
      pointRefusal s payload = if isWriteAddress payload then some .readOnly else none) ∧
    (∀ q, Point.ofNumber (pointNumber payload) = some q → pointRefusal s payload =
      if isWriteAddress payload then
        if q.cls ≠ .operator ∧ s.key = .operator then some .access
        else if q.cls = .geometry ∧ s.control.mode ≠ .setup then some .mode
        else none
      else none) := by
  refine ⟨fun hnone hlive => ?_, fun hlive => ?_, fun q hq => ?_⟩
  · simp only [pointRefusal, hnone, isLivePoint, hlive, decide_false, Bool.false_eq_true, if_false]
  · have hnone : Point.ofNumber (pointNumber payload) = none :=
      Option.eq_none_iff_forall_ne_some.mpr fun q hq => absurd (Point.lt_of_ofNumber hq) (Nat.not_lt.mpr hlive.1)
    simp only [pointRefusal, hnone, isLivePoint, hlive, and_self, decide_true, if_true]
  · simp only [pointRefusal, hq]

/-- Settles O53: refused requests, replies, commands with nothing to take, and the checks in their order. -/
theorem refusedRequestChangesNothing : Obligations.RefusedRequestChangesNothing := by
  refine ⟨fun s p k r rest e hhead hkind he => ?_, fun s p r res bytes => ?_, fun s p k payload hnothing => ?_,
    fun s p k payload => ?_⟩
  · exact (commandOf_serves p r.payload k).refused (State.request?_of_head hhead (wantOf_self hkind)) he
  · intro u
    rw [State.answer_eq]
    refine ⟨fun hknown => State.onPort_congr (PortState.flush_of_known hknown), fun x rest htail hx => ?_⟩
    rw [State.answer_eq, State.onPort_onPort]
    refine State.onPort_congr ((PortState.flush_of_unknown (r := x) (rest := rest) htail hx).trans ?_)
    simp only [htail, List.tail_cons]
    rfl
  · refine (commandOf_serves p payload k).idle (State.request?_eq_none ?_)
    refine hnothing.imp_right (Or.imp_right ?_)
    rintro ⟨r, rest, hq, hkind⟩
    exact ⟨r, rest, hq, Bool.eq_false_iff.mpr fun h => hkind (kind_of_wantOf h)⟩
  · intro ports b write length n live operator pointIs
    have hports : (!permitted k p) = true ↔ p ∉ ports := by
      rw [Bool.not_eq_true', Bool.eq_false_iff]
      refine (not_congr (permitted_iff k p)).trans ?_
      cases k <;> exact Iff.rfl
    have hlayout : (!layoutFits k payload) = true ↔ payload.length ≠ length := by
      rw [Bool.not_eq_true', Bool.eq_false_iff, Ne, Ne, not_iff_not]
      cases k with
      | point =>
        rw [layoutFits]
        by_cases hw : write
        · have hodd : u16 payload 0 % 2 = 1 := hw
          simp [length, hw, hodd]
        · have heven : u16 payload 0 % 2 = 0 := by
            have hne : ¬u16 payload 0 % 2 = 1 := hw
            omega
          simp [length, hw, heven]
      | recipeWrite =>
        simp only [layoutFits, length, b, beq_iff_eq, Nat.mul_add]
        omega
      | _ => simp [layoutFits, length, b]
    have hkey : (decide (p = .panel) && decide (s.key = .operator) && needsEngineer k payload) = true ↔
        p = .panel ∧ operator ∧ (k = .restart ∨ k = .noticeRaise ∨ (k = .noticeEnable ∧ b 0 ≤ 1)) := by
      rw [Bool.and_eq_true, Bool.and_eq_true, decide_eq_true_eq, decide_eq_true_eq, needsEngineer_iff, and_assoc]
    refine ite_congr (propext hports) (fun _ => rfl) fun _ => ite_congr (propext hlayout) (fun _ => rfl) fun _ =>
      ite_congr (propext namesOtherPort_iff) (fun _ => rfl) fun _ => ite_congr (propext hkey) (fun _ => rfl) fun _ => ?_
    by_cases hk : k = .point
    · subst hk
      obtain ⟨hnone, hlive, hsome⟩ := pointRefusal_cases s payload
      have hwrite : isWriteAddress payload = true ↔ write := by simp [isWriteAddress, write]
      rw [if_pos rfl]
      obtain hq | ⟨q, hq⟩ := Option.eq_none_or_eq_some (Point.ofNumber n)
      · by_cases hl : live
        · rw [hlive hl]
          simp [hl, hwrite, pointIs, hq]
        · rw [hnone hq hl, if_pos ⟨rfl, hq, hl⟩]
      · have hl : ¬live := fun hl => absurd (Point.lt_of_ofNumber hq) (Nat.not_lt.mpr hl.1)
        have hpoint : ∀ c, pointIs c ↔ q.cls = c := fun c => by simp [pointIs, hq]
        have htuned : q.cls = .geometry ∨ q.cls = .tuning ↔ q.cls ≠ .operator := by cases q.cls <;> decide
        rw [hsome q hq]
        by_cases hw : write
        · simp [hq, hl, hw, hwrite, hpoint, htuned, operator, and_comm]
        · simp [hq, hl, hw, hwrite]
    · simp only [hk, modeRefuses_iff, false_and, if_false, false_or]

end Sys2Proof.Machine
end

section
/-! PROOFS. What STATUS, a POINT read and TRACK_READ answer, field by field (R41, R198, R204, R212). -/

namespace Sys2Proof.Machine

/-! ### Fields read back from the bytes that carry them -/

theorem toNat_byte_mod (n : Nat) : (byte n).toNat = n % 256 := BitVec.toNat_ofNat n 8

theorem u8_byte_mod (n : Nat) (l : List Byte) : u8 (byte n :: l) 0 = n % 256 := toNat_byte_mod n

theorem u8_cons_succ (b : Byte) (l : List Byte) (i : Nat) : u8 (b :: l) (i + 1) = u8 l i := by simp [u8]

theorem u16_cons_succ (b : Byte) (l : List Byte) (i : Nat) : u16 (b :: l) (i + 1) = u16 l i := by
  rw [u16, u16, u8_cons_succ, u8_cons_succ]

theorem s32_cons_succ (b : Byte) (l : List Byte) (i : Nat) : s32 (b :: l) (i + 1) = s32 l i := by
  rw [s32, s32, u16_cons_succ, show i + 1 + 2 = i + 2 + 1 from rfl, u16_cons_succ]

theorem u16_bytes16_mod (n : Nat) (l : List Byte) : u16 (bytes16 n ++ l) 0 = n % 65536 := by
  show 256 * (byte (n / 256)).toNat + (byte n).toNat = _
  rw [toNat_byte_mod, toNat_byte_mod]
  omega

theorem u8_bytes16_two (n i : Nat) (l : List Byte) : u8 (bytes16 n ++ l) (i + 2) = u8 l i :=
  u8_append (Nat.add_comm i 2)

theorem u16_bytes16_two (n i : Nat) (l : List Byte) : u16 (bytes16 n ++ l) (i + 2) = u16 l i :=
  u16_append (Nat.add_comm i 2)

theorem s32_bytes16_two (n i : Nat) (l : List Byte) : s32 (bytes16 n ++ l) (i + 2) = s32 l i := by
  rw [s32, s32, u16_bytes16_two, show i + 2 + 2 = (i + 2) + 2 from rfl, u16_bytes16_two]

theorem u8_bytesInt32_four (v : Int) (i : Nat) (l : List Byte) : u8 (bytesInt32 v ++ l) (i + 4) = u8 l i :=
  u8_append (Nat.add_comm i 4)

theorem u16_bytesInt32_four (v : Int) (i : Nat) (l : List Byte) : u16 (bytesInt32 v ++ l) (i + 4) = u16 l i :=
  u16_append (Nat.add_comm i 4)

/-- A signed number of 32 bits reads back from its four bytes. -/
theorem s32_bytesInt32 (w : BitVec 32) (l : List Byte) : s32 (bytesInt32 w.toInt ++ l) 0 = w.toInt := by
  have hbytes : 65536 * u16 (bytesInt32 w.toInt ++ l) 0 + u16 (bytesInt32 w.toInt ++ l) 2 = w.toNat := by
    rw [bytesInt32, BitVec.ofInt_toInt]
    show 65536 * (256 * (byte (w.toNat / 16777216)).toNat + (byte (w.toNat / 65536)).toNat) +
      (256 * (byte (w.toNat / 256)).toNat + (byte w.toNat).toNat) = w.toNat
    have hlt := w.isLt
    simp only [toNat_byte_mod]
    omega
  rw [s32, hbytes, BitVec.ofNat_toNat, BitVec.setWidth_eq]

/-! ### The codes the fields carry -/

theorem Mode.code_lt (m : Mode) : m.code < 256 := by cases m <;> decide

theorem Season.code_lt (x : Season) : x.code < 256 := by cases x <;> decide

theorem Level.rank_lt (l : Level) : l.rank < 256 := by cases l <;> decide

theorem RingState.code_lt (x : RingState) : x.code < 256 := by cases x <;> decide

theorem KeyLevel.code_lt (x : KeyLevel) : x.code < 256 := by cases x <;> decide

theorem Origin.code_lt (x : Origin) : x.code < 256 := by cases x <;> decide

theorem Realign.code_lt (x : Realign) : x.code < 256 := by cases x <;> decide

theorem Bool.toNat_lt_byte (b : Bool) : b.toNat < 256 := b.toNat_le.trans_lt (by decide)

theorem markBits_lt (m : PerMark Bool) : markBits m < 256 := (bitsOf_lt _).trans_le (by simp)

theorem Causes.length_codes_le (c : Causes) : c.codes.length ≤ 9 :=
  (List.length_filterMap_le _ _).trans (by simp [Causes.members])

/-- A status set without repeats holds no more than the ten kinds. -/
theorem length_le_of_nodup {l : List NoticeKind} (h : l.Nodup) : l.length ≤ 10 :=
  (List.subperm_of_subset h fun k _ => NoticeKind.mem_all k).length_le

/-! ### The status block (11) -/

/-- The status block before its causes. -/
def statusHead (s : State) : List Byte :=
  [byte s.control.mode.code, byte s.control.season.code, byte s.release.level.rank, byte s.release.causes.codes.length]

/-- The status block behind its causes. -/
def statusTail (s : State) (p : Port) : List Byte :=
  requestLevel s.release.causes.lineReq :: requestLevel s.release.causes.panelReq :: byte (s.ringState .a).code ::
  byte (s.ringState .b).code :: byte s.permit.toNat :: byte (markBits s.marks) :: byte s.track.length ::
  (bytes16 s.advisedLimit ++ (byte s.recipes.swapPending.toNat :: byte s.key.code :: byte (s.ports.get p).status.length ::
    (NoticeKind.all.filter fun k => decide (k ∈ (s.ports.get p).status)).map fun k => byte k.code))

theorem statusBlock_eq (s : State) (p : Port) :
    statusBlock s p = statusHead s ++ (s.release.causes.codes.map byte ++ statusTail s p) := by
  have hset : (NoticeKind.all.filter (s.ports.get p).status.contains) =
      NoticeKind.all.filter fun k => decide (k ∈ (s.ports.get p).status) := by
    refine List.filter_congr fun k _ => ?_
    rw [← List.elem_eq_contains, List.elem_eq_mem]
  simp only [statusBlock, hset, statusHead, statusTail, List.append_assoc, List.cons_append, List.nil_append]

theorem u8_statusBlock (s : State) (p : Port) (i : Nat) :
    u8 (statusBlock s p) (4 + i + s.release.causes.codes.length) = u8 (statusTail s p) i := by
  rw [statusBlock_eq, ← List.append_assoc]
  refine u8_append ?_
  simp only [statusHead, List.length_append, List.length_cons, List.length_nil, List.length_map]
  omega

theorem u16_statusBlock (s : State) (p : Port) (i : Nat) :
    u16 (statusBlock s p) (4 + i + s.release.causes.codes.length) = u16 (statusTail s p) i := by
  rw [statusBlock_eq, ← List.append_assoc]
  refine u16_append ?_
  simp only [statusHead, List.length_append, List.length_cons, List.length_nil, List.length_map]
  omega

/-- The fields behind the causes, each at its place. -/
theorem statusTail_fields (s : State) (p : Port) : let b := statusTail s p
    u8 b 0 = (s.release.causes.lineReq.getD .none).rank ∧ u8 b 1 = (s.release.causes.panelReq.getD .none).rank ∧
    u8 b 2 = (s.ringState .a).code ∧ u8 b 3 = (s.ringState .b).code ∧ u8 b 4 = s.permit.toNat ∧
    u8 b 5 = markBits s.marks ∧ u8 b 6 = s.track.length % 256 ∧ u16 b 7 = s.advisedLimit % 65536 ∧
    u8 b 9 = s.recipes.swapPending.toNat ∧ u8 b 10 = s.key.code ∧ u8 b 11 = (s.ports.get p).status.length % 256 := by
  simp only [statusTail, requestLevel, u8_cons_succ, u16_cons_succ, u16_bytes16_mod, u8_bytes16_two, u8_byte_mod,
    Nat.mod_eq_of_lt, Level.rank_lt, RingState.code_lt, Bool.toNat_lt_byte, markBits_lt, KeyLevel.code_lt, and_self]

theorem statusHead_fields (s : State) (l : List Byte) : let b := statusHead s ++ l
    u8 b 0 = s.control.mode.code ∧ u8 b 1 = s.control.season.code ∧ u8 b 2 = s.release.level.rank ∧
      u8 b 3 = s.release.causes.codes.length := by
  have hcodes : s.release.causes.codes.length < 256 := s.release.causes.length_codes_le.trans_lt (by decide)
  simp only [statusHead, List.cons_append, u8_cons_succ, u8_byte_mod, Nat.mod_eq_of_lt, Mode.code_lt, Season.code_lt,
    Level.rank_lt, hcodes, and_self]

/-! ### The track entry (11) -/

theorem trackEntry_fields (s : State) (x : Rec) : let b := trackEntry s x
    b.length = 15 ∧ u16 b 0 = x.scanId % 65536 ∧ u8 b 2 = x.origin.code ∧ u8 b 3 = x.species % 256 ∧
      u8 b 4 = x.source.code ∧ u16 b 5 = x.length.getD 0 % 65536 ∧ s32 b 7 = leadDist s x ∧
      u8 b 11 = x.bound.isSome.toNat ∧ u8 b 12 = x.realign.code ∧ u16 b 13 = flagBits x.flags := by
  intro b
  have hdist : ∀ l, s32 (bytesInt32 (leadDist s x) ++ l) 0 = leadDist s x := fun l => s32_bytesInt32 _ l
  have hflags : u16 (bytes16 (flagBits x.flags)) 0 = flagBits x.flags := by
    rw [← List.append_nil (bytes16 _), u16_bytes16 (flagBits_lt _)]
  have hb : b = bytes16 x.scanId ++ (byte x.origin.code :: byte x.species :: byte x.source.code ::
      (bytes16 (x.length.getD 0) ++ (bytesInt32 (leadDist s x) ++ (byte x.bound.isSome.toNat :: byte x.realign.code ::
        bytes16 (flagBits x.flags))))) := by
    simp only [b, trackEntry, List.append_assoc, List.cons_append, List.nil_append]
  refine ⟨rfl, ?_⟩
  rw [hb]
  simp only [u8_bytes16_two, u16_bytes16_two, s32_bytes16_two, u8_cons_succ, u16_cons_succ, s32_cons_succ, u16_bytes16_mod,
    u8_bytesInt32_four, u16_bytesInt32_four, u8_byte_mod, Nat.mod_eq_of_lt, Origin.code_lt, SpeciesSource.code_lt,
    Bool.toNat_lt_byte, Realign.code_lt, hdist, hflags, and_self]

/-! ### LIVE points (R212) -/

theorem liveValue_causes (s : State) : let c := s.release.causes
    let v := c.valveFault
    liveValue s 85 = (c.estop.toNat + 2 * c.rotor.toNat + 4 * v.aPress.toNat + 8 * v.aLift.toNat + 16 * v.bPress.toNat +
      32 * v.bLift.toNat + 64 * c.trackLost.toNat + 128 * c.lineReq.isSome.toNat + 256 * c.panelReq.isSome.toNat : Nat) := by
  simp only [liveValue, Causes.bits, Causes.members, bitsOf]
  omega

theorem liveValue_marks (s : State) :
    liveValue s 86 = (s.marks.m0.toNat + 2 * s.marks.m1.toNat + 4 * s.marks.m2.toNat + 8 * s.marks.m3.toNat : Nat) := by
  simp only [liveValue, markBits, bitsOf]
  omega

/-- Settles O55: the three reads answer with the state as it stands, and their fields by place. -/
theorem readsAnswerTheStateHeld : Obligations.ReadsAnswerTheStateHeld := by
  refine ⟨fun s p r rest htakes => ⟨exec_serve_of_takes (i := .status p) (effect := statusEffect p) rfl htakes, ?_⟩,
    fun s p r rest htakes hread => ?_, fun s => ?_, fun s p r rest htakes =>
      ⟨exec_serve_of_takes (i := .trackRead p) (effect := trackReadEffect) rfl htakes, trackEntry_fields s⟩⟩
  · intro c b
    obtain ⟨hmode, hseason, hlevel, hcount⟩ := statusHead_fields s (s.release.causes.codes.map byte ++ statusTail s p)
    rw [← statusBlock_eq] at hmode hseason hlevel hcount
    obtain ⟨hline, hpanel, hringA, hringB, hpermit, hmarks, htrack, hadvised, hpending, hkey, hnotices⟩ :=
      statusTail_fields s p
    have field : ∀ i, u8 b (4 + i + c) = u8 (statusTail s p) i := u8_statusBlock s p
    have hcauses : b.drop 4 = s.release.causes.codes.map byte ++ statusTail s p := by
      rw [show b = _ from statusBlock_eq s p]
      exact List.drop_left' rfl
    refine ⟨hmode, hseason, hlevel, hcount, ?_, (field 0).trans hline, (field 1).trans hpanel, (field 2).trans hringA,
      (field 3).trans hringB, (field 4).trans hpermit, (field 5).trans hmarks, (field 6).trans htrack,
      (u16_statusBlock s p 7).trans hadvised, (field 9).trans hpending, (field 10).trans hkey, fun hnodup => ?_, ?_⟩
    · rw [hcauses]
      exact List.take_left' (List.length_map _)
    · rw [field 11, hnotices, Nat.mod_eq_of_lt ((length_le_of_nodup hnodup).trans_lt (by decide))]
    · have hsplit : 16 + c = 4 + (c + 12) := by omega
      rw [hsplit, ← List.drop_drop, hcauses, ← List.drop_drop, List.drop_left' (List.length_map _)]
      rfl
  · intro n
    have hwant : readRequest r = true := by simp [readRequest, State.ofKind_of_takes htakes, hread]
    have hexec : exec (.pointRead p) s = .next (s.serve p .point readRequest pointReadEffect) := rfl
    rw [hexec, State.serve_of_takes htakes hwant]
    show Host.Outcome.next (s.answer p r .ok (pointReply n (pointValue s n))) = _
    cases hq : Point.ofNumber n <;> simp only [pointReply, pointValue, hq]
  · refine ⟨rfl, rfl, ?_, rfl, fun k => ?_, fun c => ?_, ?_, liveValue_causes s, liveValue_marks s, ?_, ?_, rfl⟩
    · show (s.feed.dir.code : Int) = _
      cases s.feed.dir <;> rfl
    · cases k with
      | a =>
        refine ⟨?_, rfl⟩
        show ((s.ringState .a).code : Int) = _
        cases s.ringState .a <;> rfl
      | b =>
        refine ⟨?_, rfl⟩
        show ((s.ringState .b).code : Int) = _
        cases s.ringState .b <;> rfl
    · intro x i
      have hstate : liveValue s (80 + i) = (x.state.code : Int) := by cases c <;> rfl
      refine ⟨by cases c <;> rfl, by cases c <;> rfl, ?_⟩
      rw [hstate]
      cases x.state <;> rfl
    · show (s.release.level.rank : Int) = _
      cases s.release.level <;> rfl
    · show (s.control.mode.code : Int) = _
      cases s.control.mode <;> rfl
    · show (s.control.season.code : Int) = _
      cases s.control.season <;> rfl

end Sys2Proof.Machine
end

section
/-! PROOFS. Writes of points: the value stored and read back (R199, R212), and what each owner makes of it (R15, R16, R43,
R106, R142, R151, R164, R168). -/

namespace Sys2Proof.Machine

/-! ### The value a point takes -/

theorem heldWithin_bounds {lo hi : Int} (h : lo ≤ hi) (x : Int) : lo ≤ heldWithin lo hi x ∧ heldWithin lo hi x ≤ hi := by
  rw [heldWithin_eq_max_min h]
  omega

theorem heldWithin_of_within {lo hi v : Int} (hlo : lo ≤ v) (hhi : v ≤ hi) : heldWithin lo hi v = v := by
  unfold heldWithin
  split_ifs <;> omega

/-- A range whose bounds are in order. -/
def PointRange.ordered : PointRange → Prop
  | .number lo hi => lo ≤ hi
  | _ => True

theorem Point.range_ordered (q : Point) : q.range.ordered := by
  cases q <;> simp [Point.range, PointRange.ordered]

/-- A value taken is taken again as it is, and is the value offered where nothing was held. -/
theorem PointRange.take_take {r : PointRange} (hr : r.ordered) {x v : Int} {held : Bool} (h : r.take x = some (v, held)) :
    r.take v = some (v, false) ∧ (held = false → v = x) := by
  cases r with
  | number lo hi =>
    simp only [PointRange.take, Option.some.injEq, Prod.mk.injEq] at h
    obtain ⟨rfl, rfl⟩ := h
    obtain ⟨hlow, hhigh⟩ := heldWithin_bounds hr x
    simp [PointRange.take, heldWithin_of_within hlow hhigh]
  | onOff =>
    simp only [PointRange.take, Option.ite_none_right_eq_some, Option.some.injEq, Prod.mk.injEq] at h
    obtain ⟨hx, rfl, rfl⟩ := h
    exact ⟨if_pos hx, fun _ => rfl⟩
  | source =>
    simp only [PointRange.take, Option.ite_none_right_eq_some, Option.some.injEq, Prod.mk.injEq] at h
    obtain ⟨hx, rfl, rfl⟩ := h
    exact ⟨if_pos hx, fun _ => rfl⟩

/-- A value taken at a range of numbers lies within it. -/
theorem PointRange.take_number {lo hi x v : Int} {held : Bool} (hle : lo ≤ hi)
    (h : (PointRange.number lo hi).take x = some (v, held)) : lo ≤ v ∧ v ≤ hi := by
  simp only [PointRange.take, Option.some.injEq, Prod.mk.injEq] at h
  exact h.1 ▸ heldWithin_bounds hle x

theorem PointRange.take_onOff {x v : Int} {held : Bool} (h : PointRange.onOff.take x = some (v, held)) : v = 0 ∨ v = 1 := by
  simp only [PointRange.take, Option.ite_none_right_eq_some, Option.some.injEq, Prod.mk.injEq] at h
  exact h.2.1 ▸ h.1

theorem PointRange.take_source {x v : Int} {held : Bool} (h : PointRange.source.take x = some (v, held)) :
    0 ≤ v ∧ v ≤ 8 := by
  simp only [PointRange.take, Option.ite_none_right_eq_some, Option.some.injEq, Prod.mk.injEq] at h
  exact h.2.1 ▸ h.1

theorem toNat_decide_eq_one {v : Int} (h : v = 0 ∨ v = 1) : ((decide (v = 1)).toNat : Int) = v := by
  obtain rfl | rfl := h <;> rfl

theorem MarkSource.code_ofCode {v : Int} (hlow : 0 ≤ v) (hhigh : v ≤ 8) :
    (((MarkSource.ofCode v.toNat).getD .none).code : Int) = v := by
  interval_cases v <;> decide

/-- The value stored at a point is the one it reads. -/
theorem Points.read_write {q : Point} {x v : Int} {held : Bool} (h : q.range.take x = some (v, held)) (pts : Points) :
    (pts.write q v).read q = v := by
  cases q with
  | frostThreshold => rfl
  | stopOnRelease => exact toNat_decide_eq_one (PointRange.take_onOff h)
  | echoEnable c =>
    simp only [Points.write, Points.read, PerChannel.get_modify, if_true]
    exact toNat_decide_eq_one (PointRange.take_onOff h)
  | markGate m =>
    simp only [Points.write, Points.read, PerMark.get_modify, if_true]
    exact toNat_decide_eq_one (PointRange.take_onOff h)
  | markSource m =>
    obtain ⟨hlow, hhigh⟩ := PointRange.take_source h
    simp only [Points.write, Points.read, PerMark.get_modify, if_true]
    exact MarkSource.code_ofCode hlow hhigh
  | _ => exact Int.toNat_of_nonneg ((PointRange.take_number (by decide) h).1.trans' (by decide))

/-- A point not written reads as it did. -/
theorem Points.read_write_of_ne {q j : Point} (h : j ≠ q) (pts : Points) (v : Int) :
    (pts.write q v).read j = pts.read j := by
  cases q with
  | echoEnable c =>
    cases j with
    | echoEnable d =>
      have hd : d ≠ c := fun e => h (e ▸ rfl)
      simp only [Points.write, Points.read, PerChannel.get_modify, if_neg hd]
    | _ => rfl
  | markSource m =>
    cases j with
    | markSource n =>
      have hn : n ≠ m := fun e => h (e ▸ rfl)
      simp only [Points.write, Points.read, PerMark.get_modify, if_neg hn]
    | _ => rfl
  | markGate m =>
    cases j with
    | markGate n =>
      have hn : n ≠ m := fun e => h (e ▸ rfl)
      simp only [Points.write, Points.read, PerMark.get_modify, if_neg hn]
    | _ => rfl
  | _ => cases j <;> simp [Points.write, Points.read] at h ⊢

/-! ### A row's write -/

section Row

variable {s : State} {p : Port} {r : Req} {rest : List Req} {q : Point}

/-- A write of a value its point takes: stored, handed to the owner, answered with what is stored. -/
theorem exec_row_of_takes {v : Int} {held : Bool} (h : s.takes p .point r rest) (hw : isWriteAddress r.payload = true)
    (hq : Point.ofNumber (pointNumber r.payload) = some q) (hv : q.range.take (s32 r.payload 2) = some (v, held)) :
    exec ((writeRow (some q)).command p) s =
      .next ((ownerOf (writeRow (some q)) q s { s with points := s.points.write q v }).answer p r
        (if held then .clamped else .ok) (bytes16 (pointNumber r.payload) ++ bytesInt32 v)) := by
  rw [exec_row, State.writeRow_of_takes h hw hq hv]
  rfl

/-- A value that names none of the point's list is refused. -/
theorem exec_row_refused (h : s.takes p .point r rest) (hw : isWriteAddress r.payload = true)
    (hq : Point.ofNumber (pointNumber r.payload) = some q) (hv : q.range.take (s32 r.payload 2) = none) :
    exec ((writeRow (some q)).command p) s = .next (s.answer p r .badValue []) := by
  have hwant : writeOf (fun x => decide (Machine.writeRow x = Machine.writeRow (some q))) r = true := by
    simp [writeOf, State.ofKind_of_takes h, hw, hq]
  rw [exec_row, State.writeRow, State.serve_of_takes h hwant]
  simp only [writeEffect, hq, hv]

end Row

/-- An owner leaves what the blocks do not change among themselves, but for the residue at a write of the scale. -/
theorem ownerOf_sameOuter {q : Point} (hq : q ≠ .scale) (s : State) {t : State} (hr : ∀ k, t.ringRight k) :
    SameOuter t (ownerOf (writeRow (some q)) q s t) := by
  cases q with
  | scale => exact absurd rfl hq
  | dA | dAB | cA | dX => exact (t.pushed_works.andThen hr fun h => State.afterMove_works h s).sameOuter
  | realignWindow | armDistance => exact (State.afterMove_works hr s).sameOuter
  | ceiling => exact ceilingOwner_sameOuter .ceiling s t
  | floor => exact (setpointOwner_works .floor s t).sameOuter
  | blindDiameter => exact (setpointOwner_works .blindDiameter s t).sameOuter
  | parkLift => exact (setpointOwner_works .parkLift s t).sameOuter
  | releaseLift => exact (setpointOwner_works .releaseLift s t).sameOuter
  | echoEnable c => exact (echoOwner_works (.echoEnable c) s t).sameOuter
  | stopOnRelease | markGate => exact t.recomputePermit_sameOuter
  | confidenceThreshold | frostThreshold => exact t.advise_works.sameOuter
  | _ => exact .refl t

/-- Settles O56: the value stored, the owner's outcome, and the value read back. -/
theorem pointWriteStoresTheHeldValue : Obligations.PointWriteStoresTheHeldValue := by
  refine ⟨fun s p r rest q htakes hw hq hr => ⟨fun v held hv => ⟨_, exec_row_of_takes htakes hw hq hv, ?_⟩,
    fun hv => exec_row_refused htakes hw hq hv⟩, fun pts q x v held h => ?_⟩
  · by_cases hscale : q = .scale
    · subst hscale
      exact ⟨rfl, rfl, rfl, rfl, rfl, rfl, rfl, rfl, fun _ => .refl _⟩
    · rw [if_neg hscale]
      exact ownerOf_sameOuter hscale s fun k => ⟨(hr k).allowed, (hr k).named⟩
  · obtain ⟨hagain, hsame⟩ := PointRange.take_take q.range_ordered h
    exact ⟨Points.read_write h pts, fun j hj => Points.read_write_of_ne hj pts v, hagain, hsame⟩

end Sys2Proof.Machine
end

section
/-! PROOFS. What each owner makes of a write of its point (R15, R16, R43, R106, R142, R151, R164, R168). -/

namespace Sys2Proof.Machine

/-! ### An evaluation of both rings -/

/-- An evaluation made for ring A and then for ring B acts on either ring as it does alone. -/
theorem both_hand {f : State → Ring → State} (hview : ∀ s k, SameView s (f s k))
    (hhand : ∀ s {j k}, j ≠ k → SameHand j s (f s k)) (s : State) (k : Ring) :
    ∃ t, SameView s t ∧ SameHand k s t ∧ SameHand k (f t k) (f (f s .a) .b) := by
  cases k with
  | a => exact ⟨s, .refl s, .refl _ s, hhand _ (by decide)⟩
  | b => exact ⟨f s .a, hview s .a, hhand s (by decide), .refl _ _⟩

section Targets

variable {s t u : State} {k : Ring} {x : Rec}

/-- A ring's press target is the one its record reads in a state, held and handed on. -/
def State.pressedAs (t : State) (k : Ring) (u : State) (x : Rec) : Prop :=
  (t.setpoint.get k).pressTarget = (pressValue u k x).1 ∧
    (t.valve.chans.get (channelOf k .press)).target = (pressValue u k x).1

/-- A ring's lift target is the one its state reads in a state, held and handed on. -/
def State.liftedAs (t : State) (k : Ring) (u : State) : Prop :=
  (t.setpoint.get k).liftTarget = min (liftValue u k) u.points.ceiling ∧
    (t.valve.chans.get (channelOf k .lift)).target = min (liftValue u k) u.points.ceiling

theorem SameHand.pressedAs (h : SameHand k s t) (hs : s.pressedAs k u x) : t.pressedAs k u x :=
  ⟨by rw [h.setpoint, hs.1], by rw [h.chans, hs.2]⟩

theorem SameHand.liftedAs (h : SameHand k s t) (hs : s.liftedAs k u) : t.liftedAs k u :=
  ⟨by rw [h.setpoint, hs.1], by rw [h.chans, hs.2]⟩

/-- An evaluation on a state that reads the same gives the same press target. -/
theorem State.evalPress_as (h : SameView s t) (hp : (s.ringState k).pressing = true) (hx : s.servedRec k = some x) :
    (t.evalPress k).pressedAs k s x := by
  obtain ⟨q, hq, hbare⟩ := h.servedRec_of hx
  have hpress : (t.ringState k).pressing = true := by rw [h.ringState, hp]
  rw [State.pressedAs, ← h.pressValue_of_bare k hbare]
  exact ⟨State.evalPress_target hpress hq, State.evalPress_handed hpress hq⟩

theorem State.evalLift_as (h : SameView s t) (hopen : (s.ringState k).pressing = false) : (t.evalLift k).liftedAs k s := by
  rw [State.liftedAs, ← h.liftValue k (.inl hopen), ← h.points]
  exact ⟨t.evalLift_target k, State.evalLift_handed (by rw [h.ringState, hopen])⟩

/-! ### The blind diameter (R90, R106) -/

theorem State.evalBlind_of_blind (hx : s.servedRec k = some x) (h : x.samples = []) : s.evalBlind k = s.evalPress k := by
  simp only [State.evalBlind, hx, h, List.isEmpty_nil, if_true]

theorem State.evalBlind_of_sampled (h : ∀ x, s.servedRec k = some x → x.samples ≠ []) : s.evalBlind k = s := by
  unfold State.evalBlind
  split
  · next x hx => exact if_neg (by simpa using h x hx)
  · rfl

theorem State.evalBlind_cases (s : State) (k : Ring) : s.evalBlind k = s.evalPress k ∨ s.evalBlind k = s := by
  unfold State.evalBlind
  split
  · split
    · exact .inl rfl
    · exact .inr rfl
  · exact .inr rfl

theorem State.evalBlind_view (s : State) (k : Ring) : SameView s (s.evalBlind k) := by
  obtain h | h := s.evalBlind_cases k <;> rw [h]
  · exact s.evalPress_view k
  · exact .refl s

theorem State.evalBlind_hand (s : State) {j k : Ring} (hj : j ≠ k) : SameHand j s (s.evalBlind k) := by
  obtain h | h := s.evalBlind_cases k <;> rw [h]
  · exact s.evalPress_hand hj
  · exact .refl j s

theorem State.evalBlind_of_open (h : (s.ringState k).pressing = false) : s.evalBlind k = s := by
  obtain hb | hb := s.evalBlind_cases k <;> rw [hb]
  exact State.evalPress_of_open h

/-- A record that reads the same has the same samples. -/
theorem Rec.samples_of_bare {q r : Rec} (h : q.bare = r.bare) : q.samples = r.samples := by
  have hbare : q.bare.samples = r.bare.samples := by rw [h]
  exact hbare

/-! ### The setpoint points (R106) -/

/-- What a write of the floor makes of ring k. -/
theorem floor_hand (s : State) (k : Ring) :
    (∀ x, s.servedRec k = some x → (s.ringState k).pressing = true → s.evalPresses.pressedAs k s x) ∧
      ((s.ringState k).pressing = false → s.evalPresses.setpoint.get k = s.setpoint.get k) := by
  obtain ⟨t, hview, hbefore, hafter⟩ := both_hand State.evalPress_view (fun s _ _ hj => s.evalPress_hand hj) s k
  refine ⟨fun x hx hp => hafter.pressedAs (State.evalPress_as hview hp hx), fun hopen => ?_⟩
  show (((s.evalPress .a).evalPress .b).setpoint.get k) = _
  rw [hafter.setpoint, State.evalPress_of_open (by rw [hview.ringState, hopen]), hbefore.setpoint]

/-- What a write of the blind diameter makes of ring k. -/
theorem blind_hand (s : State) (k : Ring) : let t := (s.evalBlind .a).evalBlind .b
    (∀ x, s.servedRec k = some x → x.samples = [] → (s.ringState k).pressing = true → t.pressedAs k s x) ∧
      ((s.ringState k).pressing = false → t.setpoint.get k = s.setpoint.get k) ∧
      ((∀ x, s.servedRec k = some x → x.samples ≠ []) → t.setpoint.get k = s.setpoint.get k) := by
  obtain ⟨t, hview, hbefore, hafter⟩ := both_hand State.evalBlind_view (fun s _ _ hj => s.evalBlind_hand hj) s k
  refine ⟨fun x hx hblind hp => ?_, fun hopen => ?_, fun hsampled => ?_⟩
  · obtain ⟨q, hq, hbare⟩ := hview.servedRec_of hx
    have heval := State.evalPress_as hview hp hx
    rw [← State.evalBlind_of_blind hq ((Rec.samples_of_bare hbare).trans hblind)] at heval
    exact hafter.pressedAs heval
  · rw [hafter.setpoint, State.evalBlind_of_open (by rw [hview.ringState, hopen]), hbefore.setpoint]
  · have hkept : ∀ q, t.servedRec k = some q → q.samples ≠ [] := by
      intro q hq
      have hsame := hview.servedRec k
      rw [hq, Option.map_some] at hsame
      obtain ⟨x, hx, hbare⟩ := Option.map_eq_some_iff.mp hsame.symm
      exact (Rec.samples_of_bare hbare) ▸ hsampled x hx
    rw [hafter.setpoint, State.evalBlind_of_sampled hkept, hbefore.setpoint]

/-- What a write of the park lift or the release lift makes of ring k, the lift being the target of one open state. -/
theorem lift_hand (s : State) {st : RingState} (hst : st.pressing = false) (k : Ring) :
    let t := (s.evalLiftIn st .a).evalLiftIn st .b
    (s.ringState k = st → t.liftedAs k s) ∧ (s.ringState k ≠ st → t.setpoint.get k = s.setpoint.get k) := by
  obtain ⟨t, hview, hbefore, hafter⟩ := both_hand (f := fun s k => s.evalLiftIn st k) (fun s k => s.evalLiftIn_view st k)
    (fun s _ _ hj => s.evalLiftIn_hand st (.inl hj)) s k
  refine ⟨fun hk => ?_, fun hk => ?_⟩
  · have heval : (t.evalLiftIn st k).liftedAs k s := by
      rw [State.evalLiftIn_of_eq (by rw [hview.ringState, hk])]
      exact State.evalLift_as hview (by rw [hk, hst])
    exact hafter.liftedAs heval
  · rw [hafter.setpoint, State.evalLiftIn_of_ne (by rw [hview.ringState]; exact hk), hbefore.setpoint]

theorem setpointOwner_ring (q : Point) (s t : State) : (setpointOwner q s t).ring = t.ring := by
  cases q with
  | floor => exact t.evalPresses_view.ring
  | blindDiameter => exact ((t.evalBlind_view .a).trans (State.evalBlind_view _ .b)).ring
  | parkLift => exact ((t.evalLiftIn_view _ .a).trans (State.evalLiftIn_view _ _ .b)).ring
  | releaseLift => exact ((t.evalLiftIn_view _ .a).trans (State.evalLiftIn_view _ _ .b)).ring
  | _ => rfl

/-- What a write of one of the four makes of ring k, each ring's target where it reads the point, and no other. -/
theorem setpointOwner_hand {q : Point} (hq : q ∈ [.floor, .blindDiameter, .parkLift, .releaseLift]) (s u : State) (k : Ring) :
    let t := setpointOwner q s u
    (∀ x, (q = .floor ∨ (q = .blindDiameter ∧ x.samples = [])) → u.servedRec k = some x →
      (u.ringState k).pressing = true → t.pressedAs k u x) ∧
    ((q = .parkLift ∧ u.ringState k = .idle) ∨ (q = .releaseLift ∧ u.ringState k = .held) → t.liftedAs k u) ∧
    ((q = .parkLift ∧ u.ringState k ≠ .idle) ∨ (q = .releaseLift ∧ u.ringState k ≠ .held) ∨
      ((q = .floor ∨ q = .blindDiameter) ∧ (u.ringState k).pressing = false) ∨
      (q = .blindDiameter ∧ ∀ x, u.servedRec k = some x → x.samples ≠ []) → t.setpoint.get k = u.setpoint.get k) := by
  simp only [List.mem_cons, List.not_mem_nil, or_false] at hq
  obtain rfl | rfl | rfl | rfl := hq
  · obtain ⟨hpress, hopen⟩ := floor_hand u k
    exact ⟨fun x _ hx hp => hpress x hx hp, by simp, fun h => hopen (by simpa using h)⟩
  · obtain ⟨hpress, hopen, hsampled⟩ := blind_hand u k
    refine ⟨fun x hblind hx hp => hpress x hx (by simpa using hblind) hp, by simp, fun h => ?_⟩
    obtain h | h : (u.ringState k).pressing = false ∨ ∀ x, u.servedRec k = some x → x.samples ≠ [] := by simpa using h
    · exact hopen h
    · exact hsampled h
  · obtain ⟨hlift, hother⟩ := lift_hand u (st := .idle) rfl k
    exact ⟨by simp, fun h => hlift (by simpa using h), fun h => hother (by simpa using h)⟩
  · obtain ⟨hlift, hother⟩ := lift_hand u (st := .held) rfl k
    exact ⟨by simp, fun h => hlift (by simpa using h), fun h => hother (by simpa using h)⟩

end Targets

/-! ### The ceiling (R106, R142) -/

theorem State.evalBoth_drive (s : State) : SameDrive s s.evalPresses.evalLifts :=
  ((s.evalPress_drive .a).trans (State.evalPress_drive _ .b)).trans
    ((State.evalLift_drive _ .a).trans (State.evalLift_drive _ .b))

theorem State.evalBoth_touches (s : State) :
    Touches [.setpoint, .track, .valve, .freeCount] s s.evalPresses.evalLifts :=
  ((State.evalPresses_touches s).mono (by decide)).trans ((State.evalLifts_touches _).mono (by decide))

/-- What the owner of the ceiling makes of a state with the ceiling stored. -/
theorem ceilingOwner_facts (q : Point) (s u : State) : let t := ceilingOwner q s u
    (∀ c, (t.valve.chans.get c).command = min (u.valve.chans.get c).command u.points.ceiling ∧
      (t.valve.chans.get c).target ≤ u.points.ceiling ∧ (t.valve.chans.get c).state = (u.valve.chans.get c).state) ∧
    (∀ k, (∀ x, u.servedRec k = some x → (u.ringState k).pressing = true →
        (t.setpoint.get k).pressTarget = (pressValue u k x).1) ∧
      ((u.ringState k).pressing = false → (t.setpoint.get k).liftTarget = min (liftValue u k) u.points.ceiling)) ∧
    t.ring = u.ring ∧ t.release = u.release ∧ t.marks = u.marks ∧ t.permit = u.permit ∧ t.recipes = u.recipes := by
  intro t
  have hworks : Works u.valveCeiling t := State.evalBoth_works _
  have htouches : Touches [.setpoint, .track, .valve, .freeCount] u.valveCeiling t := State.evalBoth_touches _
  have hview : SameView u u.valveCeiling := ⟨rfl, rfl, rfl, rfl, rfl, rfl, rfl⟩
  have hunder : t.underCeiling := hworks.underCeiling u.valveCeiling_underCeiling
  refine ⟨fun c => ⟨?_, ?_, ?_⟩, fun k => ⟨fun x hx hp => ?_, fun hopen => ?_⟩, htouches.ring.resolve_left (by decide),
    hworks.release, htouches.marks.resolve_left (by decide), htouches.permit.resolve_left (by decide),
    htouches.recipes.resolve_left (by decide)⟩
  · refine (congrArg Chan.command (State.evalBoth_drive u.valveCeiling c)).trans ?_
    show (u.valveCeiling.valve.chans.get c).command = _
    rw [State.valveCeiling_chan]
    rfl
  · have htarget := (hunder c).2
    rwa [hworks.sameOuter.points] at htarget
  · refine (congrArg Chan.state (State.evalBoth_drive u.valveCeiling c)).trans ?_
    show (u.valveCeiling.valve.chans.get c).state = _
    rw [State.valveCeiling_chan]
    rfl
  · exact (State.evalBoth_press (s := u.valveCeiling) hp hx).1.trans (by rw [hview.pressValue_same])
  · exact (State.evalBoth_lift (s := u.valveCeiling) (.inl hopen)).1.trans (by rw [hview.liftValue k (.inl hopen)]; rfl)

/-! ### The values of the points that are switches or sources -/

theorem onOff_take (on : Bool) : PointRange.onOff.take on.toNat = some ((on.toNat : Int), false) := by
  cases on <;> rfl

theorem source_take (src : MarkSource) : PointRange.source.take src.code = some ((src.code : Int), false) := by
  cases src <;> rfl

theorem decide_toNat_eq_one (on : Bool) : decide ((on.toNat : Int) = 1) = on := by cases on <;> rfl

theorem MarkSource.ofCode_code (src : MarkSource) : (MarkSource.ofCode (src.code : Int).toNat).getD .none = src := by
  cases src <;> rfl

theorem Point.eq_of_ofNumber_ceiling {n : Nat} (h : Point.ofNumber n = some .ceiling) : n = 20 := by
  unfold Point.ofNumber at h
  split at h <;> simp_all

/-- A write of a channel's echo enable, with the value it stores (R151). -/
theorem echoOwner_written (s : State) (c : Channel) (on : Bool) :
    echoOwner (.echoEnable c) s { s with points := s.points.write (.echoEnable c) on.toNat } =
      ({ s with points := { s.points with echoEnable := s.points.echoEnable.modify c fun _ => on } } : State).onChan c
        fun x => if on = false ∧ x.state = .deviating then { x with badRun := 0, state := .ok, timer := false }
          else { x with badRun := 0 } := by
  have hget : (s.points.echoEnable.modify c fun _ => on).get c = on := by rw [PerChannel.get_modify, if_pos rfl]
  simp only [echoOwner, Points.write, decide_toNat_eq_one, hget, Chan.echoWritten, Bool.not_eq_true']

/-- Settles O58: each owner's outcome on the state with the point stored. -/
theorem pointWritesReachTheirOwners : Obligations.PointWritesReachTheirOwners := by
  refine ⟨fun s p r rest htakes hw hq => ?_, fun s p r rest c htakes hw hq on hon => ?_,
    fun s p r rest htakes hw => ?_, fun s p r rest q v held htakes hw hq hv => ?_⟩
  · intro v
    have hn : pointNumber r.payload = 20 := Point.eq_of_ofNumber_ceiling hq
    have hexec := exec_row_of_takes htakes hw hq (v := v) (held := decide (v ≠ s32 r.payload 2)) rfl
    rw [hn] at hexec
    obtain ⟨hchans, hrings, hkept⟩ := ceilingOwner_facts .ceiling s { s with points := s.points.write .ceiling v }
    refine ⟨_, hexec.trans ?_, (ceilingOwner_sameOuter _ _ _).points, hchans, hrings, hkept⟩
    by_cases hheld : v = s32 r.payload 2 <;> simp [hheld] <;> rfl
  · have hexec := exec_row_of_takes htakes hw hq (v := on.toNat) (held := false) (by rw [hon]; exact onOff_take on)
    exact hexec.trans (by rw [← echoOwner_written]; rfl)
  · intro n
    refine ⟨fun on hq hon => ?_, fun m on hq hon => ?_, fun m src hq hsrc => ?_⟩
    · refine (exec_row_of_takes htakes hw hq (v := on.toNat) (held := false) (by rw [hon]; exact onOff_take on)).trans ?_
      simp only [Points.write, decide_toNat_eq_one]
      rfl
    · refine (exec_row_of_takes htakes hw hq (v := on.toNat) (held := false) (by rw [hon]; exact onOff_take on)).trans ?_
      simp only [Points.write, decide_toNat_eq_one]
      rfl
    · refine (exec_row_of_takes htakes hw hq (v := src.code) (held := false) (by rw [hsrc]; exact source_take src)).trans ?_
      simp only [Points.write, MarkSource.ofCode_code]
      rfl
  · intro u done
    have hexec := exec_row_of_takes htakes hw hq hv
    have houter : SameOuter u (setpointOwner q s u) := (setpointOwner_works q s u).sameOuter
    have hrelease : (setpointOwner q s u).release = s.release := (setpointOwner_works q s u).release
    refine ⟨fun h => ?_, fun h => ?_, fun h => ?_, fun h => ?_, fun h => ⟨setpointOwner q s u, ?_, houter,
      setpointOwner_ring q s u, hrelease, fun k => ?_⟩⟩
    · simp only [List.mem_cons, List.not_mem_nil, or_false] at h
      obtain rfl | rfl | rfl | rfl := h <;> exact hexec
    · simp only [List.mem_cons, List.not_mem_nil, or_false] at h
      obtain rfl | rfl := h <;> exact hexec
    · simp only [List.mem_cons, List.not_mem_nil, or_false] at h
      obtain rfl | rfl := h <;> exact hexec
    · simp only [List.mem_cons, List.not_mem_nil, or_false] at h
      obtain rfl | rfl | rfl | rfl | rfl := h <;> exact hexec
    · simp only [List.mem_cons, List.not_mem_nil, or_false] at h
      obtain rfl | rfl | rfl | rfl := h <;> exact hexec
    · obtain ⟨hpress, hlift, hkept⟩ := setpointOwner_hand h s u k
      have hceiling : u.points.ceiling = s.points.ceiling := by
        refine Points.write_ceiling ?_ _ _
        rintro rfl
        simp at h
      rw [State.liftedAs, hceiling] at hlift
      exact ⟨hpress, hlift, hkept⟩

end Sys2Proof.Machine
end
